-- ==== Sys2Proof/Word.lean ====
section
/-! DEFINITION. Word.lean: the word types of the block (R28, R30): bytes, 32-bit bus values, 64-bit bus values and
state words. All values are unsigned and every addition wraps modulo 2^w (R28, R30). -/

namespace Sys2Proof

/-- One byte of a block, of a digest or of host memory. -/
abbrev Byte := BitVec 8

/-- A 32-bit bus value or SHA-224/256 state word. -/
abbrev Word32 := BitVec 32

/-- A 64-bit bus value or SHA-384/512 state word. -/
abbrev Word64 := BitVec 64

end Sys2Proof
end

