-- ==== Sys2Proof/Config.lean ====
section
/-! DEFINITION. Config.lean: what is fixed for one instance of the block (the named parameters of 00_scope.md, R12 to
R27), the plain data types those parameters and the host's contexts are made of, and the free values: constants with no
body, which nothing can evaluate. A value of `Config` stands in State, so that a claim about every state is a claim
about every value of every parameter (R18: a model must take them "as an argument rather than as fact"). -/

namespace Sys2Proof

/-- The four algorithms in scope (R2, R33). -/
inductive Alg where
  | sha224
  | sha256
  | sha384
  | sha512
  deriving DecidableEq, Repr, Inhabited

/-- The AlgorithmTag argument of a procedure: one of the four, or a value outside them (R471, R520). DESIGN CHOICE (log 12): the
spec gives the tags no numbers, so an unknown tag carries only a number that tells two of them apart. -/
inductive Tag where
  | known (a : Alg)
  | unknown (n : Nat)
  deriving DecidableEq, Repr

/-- The endianness tag of a context (R143). -/
inductive Endian where
  | big
  | little
  deriving DecidableEq, Repr, Inhabited

/-- Block size B in bytes (R12). -/
def Alg.blockBytes : Alg → Nat
  | .sha224 | .sha256 => 64
  | .sha384 | .sha512 => 128

/-- Digest length N in bytes (R12). -/
def Alg.digestBytes : Alg → Nat
  | .sha224 => 28
  | .sha256 => 32
  | .sha384 => 48
  | .sha512 => 64

/-- The word width in bytes, e = w/8, which is also the element width E of the digest registers (R12, R14). -/
def Alg.wordBytes : Alg → Nat
  | .sha224 | .sha256 => 4
  | .sha384 | .sha512 => 8

/-- The width L in bytes of the length field that padding appends (R13). -/
def Alg.lengthBytes : Alg → Nat
  | .sha224 | .sha256 => 8
  | .sha384 | .sha512 => 16

/-- The number n = N / E of digest elements a digest occupies (R14). -/
def Alg.elems (a : Alg) : Nat := a.digestBytes / a.wordBytes

/-- The width FW in bytes of the host's block-input writes: FW = E of the active algorithm (R27). -/
def Alg.fifoBytes (a : Alg) : Nat := a.wordBytes

/-- The host's native word size NATIVE, 4 or 8 bytes (R19). -/
inductive Native where
  | four
  | eight
  deriving DecidableEq, Repr, Inhabited

/-- NATIVE as a number of bytes (R19). -/
def Native.bytes : Native → Nat
  | .four => 4
  | .eight => 8

/-- HASH_ALIGN: where a digest shorter than the full state sits in the digest span (R20, R120). -/
inductive HashAlign where
  | top
  | bottom
  deriving DecidableEq, Repr, Inhabited

/-- FIFO_ORDER: how a block-input write value becomes message bytes (R23, R203). -/
inductive FifoOrder where
  | leStream
  | beWord
  deriving DecidableEq, Repr, Inhabited

/-- The integer values err_code of the five return codes (R24, R650). -/
structure ErrCodes where
  ok           : Int
  invalidInput : Int
  invalidOutput : Int
  error        : Int
  rngError     : Int
  deriving DecidableEq, Repr, Inhabited

/-- err_code is injective: the five integers are distinct (R24, R650). -/
abbrev ErrCodes.Distinct (e : ErrCodes) : Prop :=
  [e.ok, e.invalidInput, e.invalidOutput, e.error, e.rngError].Nodup

/-- hca_layout (R18): the size of the register window (R201), the offset of every register, relative to HCA_BASE, and the
position of every field. -/
structure Layout where
  window   : Nat
  shaCr    : BitVec 12
  shaSr    : BitVec 12
  fifoIn   : BitVec 12
  hash     : BitVec 12
  trngRev  : BitVec 12
  trngCr   : BitVec 12
  trngSr   : BitVec 12
  trngTrim : BitVec 12
  trngData : BitVec 12
  modeLo     : Nat
  initBit    : Nat
  busyBit    : Nat
  htstartBit : Nat
  ieBit      : Nat
  htrBit     : Nat
  rdyBit     : Nat
  htsLo      : Nat
  trimLo     : Nat
  lockBit    : Nat
  deriving DecidableEq, Repr, Inhabited

/-- The reference layout (R201, R302 to R308). -/
def Layout.reference : Layout where
  window := 4096
  shaCr := 0x000
  shaSr := 0x004
  fifoIn := 0x008
  hash := 0x040
  trngRev := 0x100
  trngCr := 0x104
  trngSr := 0x108
  trngTrim := 0x10C
  trngData := 0x110
  modeLo := 0
  initBit := 4
  busyBit := 0
  htstartBit := 0
  ieBit := 1
  htrBit := 0
  rdyBit := 1
  htsLo := 4
  trimLo := 0
  lockBit := 31

/-- The offsets of the registers that occupy one 4-byte slot. -/
def Layout.wordOffsets (L : Layout) : List (BitVec 12) :=
  [L.shaCr, L.shaSr, L.trngRev, L.trngCr, L.trngSr, L.trngTrim, L.trngData]

/-- Every offset at which an access of some register starts or that lies inside FIFO_IN's slot; a register of the
digest span is represented by the span's first offset. -/
def Layout.slots (L : Layout) : List (BitVec 12) :=
  [L.shaCr, L.shaSr, L.fifoIn, L.fifoIn + 4, L.trngRev, L.trngCr, L.trngSr, L.trngTrim, L.trngData]

/-- The register offsets a layout may have: distinct, naturally aligned (R207; so the digest span, read at 8-aligned offsets
too, is aligned on 8), the digest span contiguous and no other register inside it (R212), and all inside the window (R201),
which the 12-bit OFF of a descriptor bounds by 4096 bytes (R301; log 4). -/
abbrev Layout.OffsetsWf (L : Layout) : Prop :=
  L.slots.Nodup ∧ (∀ o ∈ L.wordOffsets, o.toNat % 4 = 0) ∧ L.fifoIn.toNat % 8 = 0 ∧ L.hash.toNat % 8 = 0 ∧
    (∀ o ∈ L.slots, o.toNat < L.hash.toNat ∨ L.hash.toNat + 64 ≤ o.toNat) ∧
    (∀ o ∈ L.slots, o.toNat + 4 ≤ L.window) ∧ L.hash.toNat + 64 ≤ L.window ∧ L.window ≤ 4096

/-- The field positions a layout may have: each field inside its 32-bit register and no two fields of one register
overlapping (R303 to R308). -/
abbrev Layout.FieldsWf (L : Layout) (htsW : Nat) : Prop :=
  (L.modeLo + 2 ≤ 32 ∧ L.initBit < 32 ∧ (L.initBit < L.modeLo ∨ L.modeLo + 2 ≤ L.initBit)) ∧
    L.busyBit < 32 ∧
    (L.htstartBit < 32 ∧ L.ieBit < 32 ∧ L.htstartBit ≠ L.ieBit) ∧
    (L.htrBit < 32 ∧ L.rdyBit < 32 ∧ L.htrBit ≠ L.rdyBit ∧ L.htsLo + htsW ≤ 32 ∧
      (L.htrBit < L.htsLo ∨ L.htsLo + htsW ≤ L.htrBit) ∧ (L.rdyBit < L.htsLo ∨ L.htsLo + htsW ≤ L.rdyBit)) ∧
    (L.trimLo + 31 ≤ 32 ∧ L.lockBit < 32 ∧ (L.lockBit < L.trimLo ∨ L.trimLo + 31 ≤ L.lockBit))

/-- The parameters of one instance: fixed for the machine, changed by no step (R17 to R26). -/
structure Config where
  /-- HCA_BASE (R17). Every offset of the model is relative to it, so no operation reads it (log 13). -/
  hcaBase : Nat
  /-- hca_layout (R18). -/
  layout : Layout
  /-- NATIVE (R19). -/
  native : Native
  /-- HASH_ALIGN (R20). -/
  hashAlign : HashAlign
  /-- trng_rev (R21); 0 means the TRNG is not physically present. -/
  trngRev : Word32
  /-- HTS_W (R22). -/
  htsW : Nat
  /-- FIFO_ORDER (R23). -/
  fifoOrder : FifoOrder
  /-- err_code (R24). -/
  errCodes : ErrCodes
  /-- submit_may_fail (R26). -/
  submitMayFail : Bool
  /-- Whether the Capability Handle carries the optional interrupt-registration function (R145). -/
  irqRegister : Bool
  deriving DecidableEq, Repr, Inhabited

/-- The parameter values the spec admits: HTS_W ≥ 1 (R22), err_code injective (R24), a layout without overlaps (R18,
R212). -/
abbrev Config.Wf (c : Config) : Prop :=
  c.layout.OffsetsWf ∧ c.layout.FieldsWf c.htsW ∧ 1 ≤ c.htsW ∧ c.errCodes.Distinct

/-- The reference parameters of 95_test_vectors.md: reference layout, HASH_ALIGN = TOP, FIFO_ORDER = LE_STREAM, NATIVE =
8, HTS_W = 1, submit_may_fail = true. DESIGN CHOICE (log 3): trng_rev = 1 (the vectors' value), HCA_BASE = 0, the five
integers of err_code, and a handle that carries the registration function, all OPEN in the spec. -/
def Config.reference : Config where
  hcaBase := 0
  layout := Layout.reference
  native := .eight
  hashAlign := .top
  trngRev := 1
  htsW := 1
  fifoOrder := .leStream
  errCodes := { ok := 0, invalidInput := 1, invalidOutput := 2, error := 3, rngError := 4 }
  submitMayFail := true
  irqRegister := true

/-- The lifecycle of a hash context (R141). -/
inductive Life where
  | uninit
  | active
  | consumed
  deriving DecidableEq, Repr, Inhabited

/-- A hash state: eight 64-bit storage words; in SHA-224/256 each holds a 32-bit word in bits 31..0 (R113, R144). -/
abbrev HashState := Vector Word64 8

/-- HashContext: the caller-owned per-message state (R140). `buf` has the larger block size; only `buf[0..B)` of the
context's algorithm is used. -/
structure HashContext where
  alg    : Alg
  bitlen : Word64
  buf    : Vector Byte 128
  endian : Endian
  life   : Life
  acc    : HashState
  deriving DecidableEq, Repr, Inhabited

/-- The state R701 leaves unspecified at reset, "a draw made once at reset". -/
structure ResetDraws where
  modeField : BitVec 2
  blk       : Vector Byte 128
  h         : HashState
  hts       : Word32
  trimVal   : BitVec 31
  sample    : Word32
  deriving DecidableEq, Repr, Inhabited

/-- Free value (log 1): the draws R701 makes once at reset. -/
opaque Config.resetDraws : ResetDraws

/-- Free value (log 11): the unspecified fields of the context a reference denotes at launch (R703). -/
opaque Config.launchContext : Nat → HashContext

/-- Free value (log 6): the n-th `draw` of R31 (reserved bits, digest slots, samples, health-test results, failures). -/
opaque Config.freeDraw : Nat → Word64

/-- Free value (log 6): host_irq_on at the n-th step (R25). -/
opaque Config.freeIrqOn : Nat → Bool

/-- Free value (log 6, log 7): which of the enabled steps happens next (R668). -/
opaque Config.freeChoice : Nat → Nat

end Sys2Proof
end

