-- ==== Sys2Proof/Syntax.lean ====
section
/-! DEFINITION. Syntax.lean: the operations of the block, one constructor per row of spec/opcode_table.json: the 15 bus
transactions of 30_encoding.md (BUS_ERROR last), the 4 autonomous device and platform steps, and the 24 host procedures
(R10, R310, R316). References that may be absent are `Option` (a context, a caller address, a callback) or `HandleRef`.
Caller addresses are natural numbers (R202: the width of host addresses is not modelled further), and a caller buffer is
passed with its extent. -/

namespace Sys2Proof

/-- A Capability Handle reference (R145): absent, or the handle of this instance (R671: one instance, one handle). -/
inductive HandleRef where
  | absent
  | present
  deriving DecidableEq, Repr, Inhabited

/-- A caller buffer as it is passed: its address, and how many bytes from there on are valid (R202: "valid only over the bytes
the caller passes"). The extent is no value a procedure reads: it decides MF_HOST_MEM alone (R655, R732; log 10). -/
structure Buf where
  addr : Nat
  size : Nat
  deriving DecidableEq, Repr

/-- One operation of the model. Bus rows carry the write data the descriptor is issued with; a callback is a number that
State maps to its code. -/
inductive Instr where
  -- bus transactions (R310)
  | rd32ShaCr
  | wr32ShaCr (v : Word32)
  | rd32ShaSr
  | wr32FifoIn (v : Word32)
  | wr64FifoIn (v : Word64)
  | rd32Hash (j : Fin 16)
  | rd64Hash (e : Fin 8)
  | rd32TrngRev
  | rd32TrngCr
  | wr32TrngCr (v : Word32)
  | rd32TrngSr
  | rd32TrngTrim
  | wr32TrngTrim (v : Word32)
  | rd32TrngData
  /-- BUS_ERROR (R311): the descriptor's four fields W, S, RSV, OFF (R301) and the write data. -/
  | busError (w s : Bool) (rsv : BitVec 2) (off : BitVec 12) (v : Word64)
  -- autonomous steps (R460, R560, R561, R663)
  | shaCompress
  | trngHtComplete
  | trngSample
  | irqDeliver
  -- hardware hash engine (R471 to R477)
  | hcaShaInit (h : HandleRef) (ctx : Option Nat) (tag : Tag) (endian : Endian)
  | hcaShaUpdate (h : HandleRef) (ctx : Option Nat) (data : Option Buf) (len : Nat)
  | hcaShaSubmit (h : HandleRef) (blk : List Byte) (alg : Alg)
  | hcaShaFinish (h : HandleRef) (ctx : Option Nat) (out outlen : Option Buf)
  | hcaShaRead (h : HandleRef) (alg : Alg) (out : Buf) (n : Nat)
  -- software hash engine (R505 to R516)
  | sha224Init (ctx : Option Nat) (endian : Endian)
  | sha256Init (ctx : Option Nat) (endian : Endian)
  | sha384Init (ctx : Option Nat) (endian : Endian)
  | sha512Init (ctx : Option Nat) (endian : Endian)
  | sha224Update (ctx : Option Nat) (data : Option Buf) (len : Nat)
  | sha256Update (ctx : Option Nat) (data : Option Buf) (len : Nat)
  | sha384Update (ctx : Option Nat) (data : Option Buf) (len : Nat)
  | sha512Update (ctx : Option Nat) (data : Option Buf) (len : Nat)
  | sha224Finish (ctx : Option Nat) (out outlen : Option Buf)
  | sha256Finish (ctx : Option Nat) (out outlen : Option Buf)
  | sha384Finish (ctx : Option Nat) (out outlen : Option Buf)
  | sha512Finish (ctx : Option Nat) (out outlen : Option Buf)
  -- dispatcher (R520 to R522)
  | shaInit (ctx : Option Nat) (tag : Tag) (endian : Endian)
  | shaUpdate (ctx : Option Nat) (data : Option Buf) (len : Nat)
  | shaFinish (ctx : Option Nat) (out outlen : Option Buf)
  -- TRNG driver (R570 to R573)
  | trngInit (h : HandleRef)
  | trngAcquireBlocking (h : HandleRef)
  | trngAcquireAsync (h : HandleRef) (dst : Option Buf) (cb : Option Nat)
  | trngIsr (c : HandleRef)
  deriving DecidableEq, Repr

/-- The three kinds of row of the opcode table. -/
inductive Kind where
  | bus
  | event
  | procedure
  deriving DecidableEq, Repr

/-- The kind of row an operation belongs to (R10, R316). -/
def Instr.kind : Instr → Kind
  | .rd32ShaCr | .wr32ShaCr _ | .rd32ShaSr | .wr32FifoIn _ | .wr64FifoIn _ | .rd32Hash _ | .rd64Hash _
  | .rd32TrngRev | .rd32TrngCr | .wr32TrngCr _ | .rd32TrngSr | .rd32TrngTrim | .wr32TrngTrim _ | .rd32TrngData
  | .busError _ _ _ _ _ => .bus
  | .shaCompress | .trngHtComplete | .trngSample | .irqDeliver => .event
  | .hcaShaInit _ _ _ _ | .hcaShaUpdate _ _ _ _ | .hcaShaSubmit _ _ _ | .hcaShaFinish _ _ _ _
  | .hcaShaRead _ _ _ _ | .sha224Init _ _ | .sha256Init _ _ | .sha384Init _ _ | .sha512Init _ _
  | .sha224Update _ _ _ | .sha256Update _ _ _ | .sha384Update _ _ _ | .sha512Update _ _ _
  | .sha224Finish _ _ _ | .sha256Finish _ _ _ | .sha384Finish _ _ _ | .sha512Finish _ _ _
  | .shaInit _ _ _ | .shaUpdate _ _ _ | .shaFinish _ _ _
  | .trngInit _ | .trngAcquireBlocking _ | .trngAcquireAsync _ _ _ | .trngIsr _ => .procedure

end Sys2Proof
end

