-- ==== Sys2Proof/Decode.lean ====
section
/-! DEFINITION. Decode.lean: from a transaction descriptor and its write data to an operation (R300, R301, R310, R311), on
words and on bytes, and after it the encoder. Device events and host procedures have no descriptor (R316), so nothing
decodes to them and the encoder gives none. -/

namespace Sys2Proof

/-- The 16-bit descriptor with fields W, S, RSV, OFF (R301). -/
def descriptor (w s : Bool) (rsv : BitVec 2) (off : BitVec 12) : BitVec 16 :=
  BitVec.ofBool w ++ BitVec.ofBool s ++ rsv ++ off

/-- The descriptor's fields (R301). -/
def descW (d : BitVec 16) : Bool := d.getLsbD 15
def descS (d : BitVec 16) : Bool := d.getLsbD 14
def descRsv (d : BitVec 16) : BitVec 2 := d.extractLsb' 12 2
def descOff (d : BitVec 16) : BitVec 12 := d.extractLsb' 0 12

/-- Which descriptors one row of kind `bus` admits (R310). -/
inductive BusRow where
  /-- The one descriptor with these W, S and OFF and RSV = 0. -/
  | at (w s : Bool) (off : BitVec 12)
  /-- Reads of width 4 (s = false) or 8 at the offsets of a 64-byte span that are multiples of the width (R118, R204). -/
  | span (s : Bool) (base : BitVec 12)
  deriving DecidableEq, Repr

/-- An offset lies in the 64 bytes from base on. -/
def inSpan (base off : BitVec 12) : Bool := decide (base.toNat ≤ off.toNat ∧ off.toNat < base.toNat + 64)

/-- A row admits a descriptor (R310). -/
def BusRow.admits (r : BusRow) (d : BitVec 16) : Bool :=
  match r with
  | .at w s off => d == descriptor w s 0 off
  | .span s base =>
    !descW d && descS d == s && descRsv d == 0 && inSpan base (descOff d) &&
      (descOff d).toNat % (if s then 8 else 4) == 0

/-- The admitted rows in the order of spec/opcode_table.json, at the offsets of a layout; BUS_ERROR matches what is left
(R310). At the reference layout a row admits the descriptors its mask and match word in `tableRows` do. -/
def busRows (L : Layout) : List BusRow :=
  [.at false false L.shaCr, .at true false L.shaCr, .at false false L.shaSr, .at true false L.fifoIn,
    .at true true L.fifoIn, .span false L.hash, .span true L.hash, .at false false L.trngRev,
    .at false false L.trngCr, .at true false L.trngCr, .at false false L.trngSr, .at false false L.trngTrim,
    .at true false L.trngTrim, .at false false L.trngData]

/-- The masks and match words of the table's bus rows, in its order, BUS_ERROR left out (R310: a descriptor d selects the
first row with `d &&& mask = match`). -/
def tableRows : List (BitVec 16 × BitVec 16) :=
  [(0xFFFF, 0x0000), (0xFFFF, 0x8000), (0xFFFF, 0x0004), (0xFFFF, 0x8008), (0xFFFF, 0xC008), (0xFFC3, 0x0040),
    (0xFFC7, 0x4040), (0xFFFF, 0x0100), (0xFFFF, 0x0104), (0xFFFF, 0x8104), (0xFFFF, 0x0108), (0xFFFF, 0x010C),
    (0xFFFF, 0x810C), (0xFFFF, 0x0110)]

/-- A descriptor's offset lies in the window (R201). -/
def inWindow (L : Layout) (d : BitVec 16) : Bool := decide ((descOff d).toNat < L.window)

/-- Some row other than BUS_ERROR admits the descriptor, whose offset lies in the window (R201, R310). -/
def admitted (L : Layout) (d : BitVec 16) : Bool := inWindow L d && (busRows L).any (·.admits d)

/-- The write data of a transaction cut to its width; a read carries none (R300, R301). -/
def busData (w s : Bool) (v : Word64) : Word64 :=
  match w, s with
  | false, _ => 0
  | true, false => (v.setWidth 32).setWidth 64
  | true, true => v

/-- The operation of the n-th admitted row for a descriptor and its write data (R310), the indexes j and e of the digest rows
counted from the span's first offset; past the last admitted row, BUS_ERROR. -/
def busInstr (L : Layout) (n : Nat) (d : BitVec 16) (v : Word64) : Instr :=
  match n with
  | 0 => .rd32ShaCr
  | 1 => .wr32ShaCr (v.setWidth 32)
  | 2 => .rd32ShaSr
  | 3 => .wr32FifoIn (v.setWidth 32)
  | 4 => .wr64FifoIn v
  | 5 => .rd32Hash ((descOff d - L.hash).extractLsb' 2 4).toFin
  | 6 => .rd64Hash ((descOff d - L.hash).extractLsb' 3 3).toFin
  | 7 => .rd32TrngRev
  | 8 => .rd32TrngCr
  | 9 => .wr32TrngCr (v.setWidth 32)
  | 10 => .rd32TrngSr
  | 11 => .rd32TrngTrim
  | 12 => .wr32TrngTrim (v.setWidth 32)
  | 13 => .rd32TrngData
  | _ => .busError (descW d) (descS d) (descRsv d) (descOff d) (busData (descW d) (descS d) v)

/-- Decode: the first row, in table order, that admits the descriptor, BUS_ERROR outside the window; total (R201, R310). -/
def decodeTx (L : Layout) (d : BitVec 16) (v : Word64) : Instr :=
  busInstr L (if inWindow L d then (busRows L).findIdx (·.admits d) else (busRows L).length) d v

/-- Why bytes are no transaction. -/
inductive DecodeError where
  /-- Fewer than the two descriptor bytes. -/
  | shortDescriptor
  /-- Fewer bytes of write data than the descriptor's width. -/
  | shortData
  deriving DecidableEq, Repr

/-- The number of write-data bytes that follow a descriptor: k of the transaction for a write, none for a read (R300). -/
def dataBytes (w s : Bool) : Nat :=
  match w, s with
  | false, _ => 0
  | true, false => 4
  | true, true => 8

/-- The number a little-endian byte string stands for, cut to 64 bits. -/
def wordOfBytes : List Byte → Word64
  | [] => 0
  | b :: bs => (wordOfBytes bs <<< 8) ||| b.setWidth 64

/-- The k low bytes of a number, the least significant first. -/
def bytesOfWord : Nat → Word64 → List Byte
  | 0, _ => []
  | k + 1, v => v.setWidth 8 :: bytesOfWord k (v >>> 8)

/-- Decode a transaction's bytes: the descriptor, low byte first, then its write data, low byte first. DESIGN CHOICE (log
5): the spec gives a descriptor and a data value and no byte image of the two. Total on any bytes. -/
def decodeBytes (L : Layout) : List Byte → Except DecodeError (Instr × List Byte)
  | b0 :: b1 :: rest =>
    let d : BitVec 16 := b1 ++ b0
    let k := dataBytes (descW d) (descS d)
    if rest.length < k then .error .shortData
    else .ok (decodeTx L d (wordOfBytes (rest.take k)), rest.drop k)
  | _ => .error .shortDescriptor

/-- The descriptor and write data of an operation; none for an event or a procedure, which have no descriptor (R310,
R316). -/
def encodeTx (L : Layout) : Instr → Option (BitVec 16 × Word64)
  | .rd32ShaCr => some (descriptor false false 0 L.shaCr, 0)
  | .wr32ShaCr v => some (descriptor true false 0 L.shaCr, v.setWidth 64)
  | .rd32ShaSr => some (descriptor false false 0 L.shaSr, 0)
  | .wr32FifoIn v => some (descriptor true false 0 L.fifoIn, v.setWidth 64)
  | .wr64FifoIn v => some (descriptor true true 0 L.fifoIn, v)
  | .rd32Hash j => some (descriptor false false 0 (L.hash + BitVec.ofNat 12 (4 * j)), 0)
  | .rd64Hash e => some (descriptor false true 0 (L.hash + BitVec.ofNat 12 (8 * e)), 0)
  | .rd32TrngRev => some (descriptor false false 0 L.trngRev, 0)
  | .rd32TrngCr => some (descriptor false false 0 L.trngCr, 0)
  | .wr32TrngCr v => some (descriptor true false 0 L.trngCr, v.setWidth 64)
  | .rd32TrngSr => some (descriptor false false 0 L.trngSr, 0)
  | .rd32TrngTrim => some (descriptor false false 0 L.trngTrim, 0)
  | .wr32TrngTrim v => some (descriptor true false 0 L.trngTrim, v.setWidth 64)
  | .rd32TrngData => some (descriptor false false 0 L.trngData, 0)
  | .busError w s rsv off v => some (descriptor w s rsv off, v)
  | .shaCompress | .trngHtComplete | .trngSample | .irqDeliver
  | .hcaShaInit _ _ _ _ | .hcaShaUpdate _ _ _ _ | .hcaShaSubmit _ _ _ | .hcaShaFinish _ _ _ _
  | .hcaShaRead _ _ _ _ | .sha224Init _ _ | .sha256Init _ _ | .sha384Init _ _ | .sha512Init _ _
  | .sha224Update _ _ _ | .sha256Update _ _ _ | .sha384Update _ _ _ | .sha512Update _ _ _
  | .sha224Finish _ _ _ | .sha256Finish _ _ _ | .sha384Finish _ _ _ | .sha512Finish _ _ _
  | .shaInit _ _ _ | .shaUpdate _ _ _ | .shaFinish _ _ _
  | .trngInit _ | .trngAcquireBlocking _ | .trngAcquireAsync _ _ _ | .trngIsr _ => none

/-- The bytes of a transaction with descriptor d and write data v. -/
def txBytes (d : BitVec 16) (v : Word64) : List Byte :=
  d.setWidth 8 :: (d >>> 8).setWidth 8 :: bytesOfWord (dataBytes (descW d) (descS d)) v

/-- The bytes of an operation that has a descriptor. -/
def encode (L : Layout) (i : Instr) : Option (List Byte) :=
  (encodeTx L i).map fun p => txBytes p.1 p.2

/-- The longest transaction: a descriptor and eight bytes of data. -/
def maxTxBytes : Nat := 10

/-- The bytes of an instruction whose low nbits bits are w and whose other bits are 0, first word at the lowest
address. -/
def tableBytes : Nat → Nat → List Byte
  | 0, _ => []
  | k + 1, w => BitVec.ofNat 8 w :: tableBytes k (w / 256)

/-- What the decoder reads, at the reference layout, from an instruction whose bits are w (bit 0 the least significant
bit of the descriptor, write data from bit 16 on); every bit from nbits on is 0. -/
def decodeTableWord (nbits w : Nat) : Option Instr :=
  match decodeBytes Layout.reference (tableBytes maxTxBytes (w % 2 ^ nbits)) with
  | .ok (i, _) => some i
  | .error _ => none

end Sys2Proof
end

