-- ==== Sys2Proof/Machine/Sha2.lean ====
section
/-! DEFINITION. Machine/Sha2.lean: the pure functions of 40_sha_compression.md: byte encodings (R29), word functions
(R400 to R403), constants (R404 to R409), schedule (R410, R411), rounds and compression (R420 to R422), digest and final
blocks (R430 to R432). Both the SHA unit's compression step (R460) and the software engine (R502, R503) apply them. -/

namespace Sys2Proof.Machine

/-- `LE_k(v)`: the k-byte little-endian encoding (R29). -/
def leBytes : Nat → Nat → List Byte
  | 0, _ => []
  | k + 1, v => BitVec.ofNat 8 v :: leBytes k (v / 256)

/-- `BE_k(v)`: the k-byte big-endian encoding (R29). -/
def beBytes (k v : Nat) : List Byte := (leBytes k v).reverse

/-- `leval` of a byte sequence (R29). -/
def leVal : List Byte → Nat
  | [] => 0
  | b :: bs => b.toNat + 256 * leVal bs

/-- `beval` of a byte sequence (R29). -/
def beVal (bs : List Byte) : Nat := leVal bs.reverse

/-- `ROTR^n(x)` (R30). -/
def rotr {w : Nat} (n : Nat) (x : BitVec w) : BitVec w := (x >>> n) ||| (x <<< (w - n))

/-- `SHR^n(x)` (R30). -/
def shr {w : Nat} (n : Nat) (x : BitVec w) : BitVec w := x >>> n

/-- `Ch(x, y, z)` (R400). -/
def ch {w : Nat} (x y z : BitVec w) : BitVec w := (x &&& y) ^^^ (~~~x &&& z)

/-- `Maj(x, y, z)` (R400). -/
def maj {w : Nat} (x y z : BitVec w) : BitVec w := (x &&& y) ^^^ (x &&& z) ^^^ (y &&& z)

/-- What the two families of SHA-2 differ in besides the word width: their four functions and round constants. -/
structure Family (w : Nat) where
  bigSigma0   : BitVec w → BitVec w
  bigSigma1   : BitVec w → BitVec w
  smallSigma0 : BitVec w → BitVec w
  smallSigma1 : BitVec w → BitVec w
  k           : List (BitVec w)

/-- The rows of R404's table: K256[t .. t+7] for t = 0, 8, ..., 56. -/
def k256Rows : List (List Word32) :=
  [[0x428a2f98, 0x71374491, 0xb5c0fbcf, 0xe9b5dba5, 0x3956c25b, 0x59f111f1, 0x923f82a4, 0xab1c5ed5],
    [0xd807aa98, 0x12835b01, 0x243185be, 0x550c7dc3, 0x72be5d74, 0x80deb1fe, 0x9bdc06a7, 0xc19bf174],
    [0xe49b69c1, 0xefbe4786, 0x0fc19dc6, 0x240ca1cc, 0x2de92c6f, 0x4a7484aa, 0x5cb0a9dc, 0x76f988da],
    [0x983e5152, 0xa831c66d, 0xb00327c8, 0xbf597fc7, 0xc6e00bf3, 0xd5a79147, 0x06ca6351, 0x14292967],
    [0x27b70a85, 0x2e1b2138, 0x4d2c6dfc, 0x53380d13, 0x650a7354, 0x766a0abb, 0x81c2c92e, 0x92722c85],
    [0xa2bfe8a1, 0xa81a664b, 0xc24b8b70, 0xc76c51a3, 0xd192e819, 0xd6990624, 0xf40e3585, 0x106aa070],
    [0x19a4c116, 0x1e376c08, 0x2748774c, 0x34b0bcb5, 0x391c0cb3, 0x4ed8aa4a, 0x5b9cca4f, 0x682e6ff3],
    [0x748f82ee, 0x78a5636f, 0x84c87814, 0x8cc70208, 0x90befffa, 0xa4506ceb, 0xbef9a3f7, 0xc67178f2]]

/-- Round constants K256[0..63] (R404): the table read row by row. -/
def k256 : List Word32 := k256Rows.flatten

/-- The first ten rows of R405's table: K512[t .. t+3] for t = 0, 4, ..., 36. -/
def k512RowsLow : List (List Word64) :=
  [[0x428a2f98d728ae22, 0x7137449123ef65cd, 0xb5c0fbcfec4d3b2f, 0xe9b5dba58189dbbc],
    [0x3956c25bf348b538, 0x59f111f1b605d019, 0x923f82a4af194f9b, 0xab1c5ed5da6d8118],
    [0xd807aa98a3030242, 0x12835b0145706fbe, 0x243185be4ee4b28c, 0x550c7dc3d5ffb4e2],
    [0x72be5d74f27b896f, 0x80deb1fe3b1696b1, 0x9bdc06a725c71235, 0xc19bf174cf692694],
    [0xe49b69c19ef14ad2, 0xefbe4786384f25e3, 0x0fc19dc68b8cd5b5, 0x240ca1cc77ac9c65],
    [0x2de92c6f592b0275, 0x4a7484aa6ea6e483, 0x5cb0a9dcbd41fbd4, 0x76f988da831153b5],
    [0x983e5152ee66dfab, 0xa831c66d2db43210, 0xb00327c898fb213f, 0xbf597fc7beef0ee4],
    [0xc6e00bf33da88fc2, 0xd5a79147930aa725, 0x06ca6351e003826f, 0x142929670a0e6e70],
    [0x27b70a8546d22ffc, 0x2e1b21385c26c926, 0x4d2c6dfc5ac42aed, 0x53380d139d95b3df],
    [0x650a73548baf63de, 0x766a0abb3c77b2a8, 0x81c2c92e47edaee6, 0x92722c851482353b]]

/-- Its last ten rows: t = 40, 44, ..., 76. -/
def k512RowsHigh : List (List Word64) :=
  [[0xa2bfe8a14cf10364, 0xa81a664bbc423001, 0xc24b8b70d0f89791, 0xc76c51a30654be30],
    [0xd192e819d6ef5218, 0xd69906245565a910, 0xf40e35855771202a, 0x106aa07032bbd1b8],
    [0x19a4c116b8d2d0c8, 0x1e376c085141ab53, 0x2748774cdf8eeb99, 0x34b0bcb5e19b48a8],
    [0x391c0cb3c5c95a63, 0x4ed8aa4ae3418acb, 0x5b9cca4f7763e373, 0x682e6ff3d6b2b8a3],
    [0x748f82ee5defb2fc, 0x78a5636f43172f60, 0x84c87814a1f0ab72, 0x8cc702081a6439ec],
    [0x90befffa23631e28, 0xa4506cebde82bde9, 0xbef9a3f7b2c67915, 0xc67178f2e372532b],
    [0xca273eceea26619c, 0xd186b8c721c0c207, 0xeada7dd6cde0eb1e, 0xf57d4f7fee6ed178],
    [0x06f067aa72176fba, 0x0a637dc5a2c898a6, 0x113f9804bef90dae, 0x1b710b35131c471b],
    [0x28db77f523047d84, 0x32caab7b40c72493, 0x3c9ebe0a15c9bebc, 0x431d67c49c100d4c],
    [0x4cc5d4becb3e42b6, 0x597f299cfc657e2a, 0x5fcb6fab3ad6faec, 0x6c44198c4a475817]]

/-- Round constants K512[0..79] (R405): the table read row by row. -/
def k512 : List Word64 := (k512RowsLow ++ k512RowsHigh).flatten

/-- The initial hash value IV(alg), zero-extended to storage words (R406 to R409). -/
def initialHash : Alg → HashState
  | .sha224 => #v[0xc1059ed8, 0x367cd507, 0x3070dd17, 0xf70e5939,
      0xffc00b31, 0x68581511, 0x64f98fa7, 0xbefa4fa4]
  | .sha256 => #v[0x6a09e667, 0xbb67ae85, 0x3c6ef372, 0xa54ff53a,
      0x510e527f, 0x9b05688c, 0x1f83d9ab, 0x5be0cd19]
  | .sha384 => #v[0xcbbb9d5dc1059ed8, 0x629a292a367cd507, 0x9159015a3070dd17, 0x152fecd8f70e5939,
      0x67332667ffc00b31, 0x8eb44a8768581511, 0xdb0c2e0d64f98fa7, 0x47b5481dbefa4fa4]
  | .sha512 => #v[0x6a09e667f3bcc908, 0xbb67ae8584caa73b, 0x3c6ef372fe94f82b, 0xa54ff53a5f1d36f1,
      0x510e527fade682d1, 0x9b05688c2b3e6c1f, 0x1f83d9abfb41bd6b, 0x5be0cd19137e2179]

/-- The functions and constants of SHA-224/256 (R401, R404). -/
def family256 : Family 32 where
  bigSigma0 x := rotr 2 x ^^^ rotr 13 x ^^^ rotr 22 x
  bigSigma1 x := rotr 6 x ^^^ rotr 11 x ^^^ rotr 25 x
  smallSigma0 x := rotr 7 x ^^^ rotr 18 x ^^^ shr 3 x
  smallSigma1 x := rotr 17 x ^^^ rotr 19 x ^^^ shr 10 x
  k := k256

/-- The functions and constants of SHA-384/512 (R402, R405). -/
def family512 : Family 64 where
  bigSigma0 x := rotr 28 x ^^^ rotr 34 x ^^^ rotr 39 x
  bigSigma1 x := rotr 14 x ^^^ rotr 18 x ^^^ rotr 41 x
  smallSigma0 x := rotr 1 x ^^^ rotr 8 x ^^^ shr 7 x
  smallSigma1 x := rotr 19 x ^^^ rotr 61 x ^^^ shr 6 x
  k := k512

/-- The n big-endian words of e bytes that a block starts with (R410). -/
def blockWords (w e : Nat) : Nat → List Byte → List (BitVec w)
  | 0, _ => []
  | n + 1, bs => BitVec.ofNat w (beVal (bs.take e)) :: blockWords w e n (bs.drop e)

/-- One step of the schedule on the words so far, latest first:
W[t] = σ1(W[t−2]) + W[t−7] + σ0(W[t−15]) + W[t−16] (R411). -/
def scheduleNext {w : Nat} (f : Family w) (rev : List (BitVec w)) : BitVec w :=
  f.smallSigma1 (rev.getD 1 0) + rev.getD 6 0 + f.smallSigma0 (rev.getD 14 0) + rev.getD 15 0

/-- n further steps of the schedule (R411). -/
def scheduleGrow {w : Nat} (f : Family w) : Nat → List (BitVec w) → List (BitVec w)
  | 0, rev => rev
  | n + 1, rev => scheduleGrow f n (scheduleNext f rev :: rev)

/-- The message schedule W[0..R) of a block, R being the number of round constants (R15, R410, R411). -/
def schedule {w : Nat} (f : Family w) (block : List Byte) : List (BitVec w) :=
  (scheduleGrow f (f.k.length - 16) (blockWords w (w / 8) 16 block).reverse).reverse

/-- One round with constant k and schedule word x on the working words (a, …, h) (R420). -/
def round {w : Nat} (f : Family w) (k x : BitVec w) (v : Vector (BitVec w) 8) : Vector (BitVec w) 8 :=
  let t1 := v[7] + f.bigSigma1 v[4] + ch v[4] v[5] v[6] + k + x
  let t2 := f.bigSigma0 v[0] + maj v[0] v[1] v[2]
  #v[t1 + t2, v[0], v[1], v[2], v[3] + t1, v[4], v[5], v[6]]

/-- All rounds, in order, over paired constants and schedule words (R421). -/
def rounds {w : Nat} (f : Family w) : List (BitVec w × BitVec w) → Vector (BitVec w) 8 → Vector (BitVec w) 8
  | [], v => v
  | (k, x) :: rest, v => rounds f rest (round f k x v)

/-- Compression of one block with feed-forward, at the family's word width (R421). -/
def compressFamily {w : Nat} (f : Family w) (h : Vector (BitVec w) 8) (block : List Byte) : Vector (BitVec w) 8 :=
  Vector.zipWith (· + ·) h (rounds f (f.k.zip (schedule f block)) h)

/-- `Compress(alg, H, blk)` on storage words: trunc_w of each word in, zext_64 of each word out (R421, R422, R460). That
the software engine truncates so too is the model's choice where acc holds 64-bit words (R144, R502; log 34). -/
def compress (alg : Alg) (h : HashState) (block : List Byte) : HashState :=
  match alg with
  | .sha224 | .sha256 => (compressFamily family256 (h.map (·.setWidth 32)) block).map (·.setWidth 64)
  | .sha384 | .sha512 => compressFamily family512 h block

/-- `Digest(alg, H)`: the first N bytes of the state in big-endian word order (R430). DESIGN CHOICE (log 34): of a word that is
not below 2^32, for which R29 gives no BE_4, a 32-bit algorithm takes the low four bytes. -/
def digest (alg : Alg) (h : HashState) : List Byte :=
  (h.toList.flatMap fun x => beBytes alg.wordBytes x.toNat).take alg.digestBytes

/-- `FinalBlocks(alg, p, bitlen)`: the padded last block or two (R431). -/
def finalBlocks (alg : Alg) (p : List Byte) (bitlen : Word64) : List (List Byte) :=
  let b := alg.blockBytes
  let l := alg.lengthBytes
  let lenField := beBytes l bitlen.toNat
  let q := p ++ [0x80]
  if l ≤ b - (p.length + 1) then
    [q ++ List.replicate (b - l - p.length - 1) 0 ++ lenField]
  else
    [q ++ List.replicate (b - p.length - 1) 0, List.replicate (b - l) 0 ++ lenField]

/-- The first n full blocks of b bytes of a message (R432). -/
def fullBlocks (b : Nat) : Nat → List Byte → List (List Byte)
  | 0, _ => []
  | n + 1, m => m.take b :: fullBlocks b n (m.drop b)

/-- `SHA(alg, M)`: the message digest both engines must return (R432). -/
def sha (alg : Alg) (m : List Byte) : List Byte :=
  let b := alg.blockBytes
  let n := m.length / b
  digest alg ((fullBlocks b n m ++ finalBlocks alg (m.drop (n * b)) (BitVec.ofNat 64 (8 * m.length))).foldl
    (compress alg) (initialHash alg))

end Sys2Proof.Machine
end

