-- ==== Sys2Proof/Machine/Bits.lean ====
section
/-! DEFINITION. Machine/Bits.lean: bit fields of 32-bit register values (R28): `v[hi:lo]` is the field of v from bit hi
down to bit lo. -/

namespace Sys2Proof.Machine

/-- The w low bits. -/
def fieldMask (w : Nat) : Word32 := BitVec.ofNat 32 (2 ^ w - 1)

/-- The w-bit field of v whose lowest bit is lo (R28). -/
def getField (lo w : Nat) (v : Word32) : Word32 := (v >>> lo) &&& fieldMask w

/-- v with its w-bit field from bit lo on replaced by the w low bits of x. -/
def putField (lo w : Nat) (x v : Word32) : Word32 :=
  (v &&& ~~~(fieldMask w <<< lo)) ||| ((x &&& fieldMask w) <<< lo)

/-- Bit i of v (R28). -/
def getBit (i : Nat) (v : Word32) : Bool := v.getLsbD i

/-- v with bit i replaced by b. -/
def putBit (i : Nat) (b : Bool) (v : Word32) : Word32 := putField i 1 (BitVec.ofBool b |>.setWidth 32) v

/-- The value with bit i alone set. -/
def bitMask (i : Nat) : Word32 := BitVec.twoPow 32 i

/-- The HTS_W low bits of a value: what the HTS field can hold (R22, R132). -/
def htsBits (htsW : Nat) (x : Word32) : Word32 := x &&& fieldMask htsW

end Sys2Proof.Machine
end

