-- ==== Sys2Proof/Machine/State.lean ====
section
/-! DEFINITION. Machine/State.lean: everything the spec gives the machine, as plain data: the SHA unit (10_state.md
section 2), the TRNG unit (section 3), the host side (section 4), the two host agents HostMain and HostISR with the
procedures they are inside (R11, R32), the parameters of the instance, and the machine's free inputs; its faults and
refusals; and the state after reset (R701, R703). -/

namespace Sys2Proof.Machine

/-- The five return codes (R650). -/
inductive Code where
  | ok
  | invalidInput
  | invalidOutput
  | error
  | rngError
  deriving DecidableEq, Repr

/-- The ten model faults (R655). Recording one is a step of the machine (R656), not an end of it. -/
inductive ModelFault where
  | bus
  | initBusy
  | fifoNoInit
  | fifoBusy
  | fifoOverrun
  | ctxState
  | hostMem
  | dstAlign
  | trngOverlap
  | isrContext
  deriving DecidableEq, Repr

/-- Why the machine stops: it never does. What a processor's manual calls a fault is here a model fault, which a step
records and the machine goes on from (R656); a state in which no agent can step is held until one can (R31; log 7). -/
inductive Fault where
  deriving DecidableEq, Repr

/-- Why an operation has no meaning where it was issued. -/
inductive Refusal where
  /-- The instruction of this mnemonic has no meaning yet. Raised by `exec`'s refused arms only; there is none. Safe. -/
  | notModelled (mnemonic : String)
  /-- Raised by the four device and platform steps, and by a host agent with nothing to do, when the step's enabling
  condition is false: the spec writes such a step as `when <enabling condition>: <updates>` (R32), so it does not exist
  here. `step` never chooses one. Safe. -/
  | notEnabled (mnemonic : String)
  deriving DecidableEq, Repr

/-- The SHA unit (R110 to R118). SHA_SR, FIFO_IN and HASH hold no state of their own (R116 to R118). -/
structure ShaUnit where
  /-- SHA_CR.MODE as stored (R115). -/
  modeField : BitVec 2
  /-- mode_eff (R110); `none` is NONE, no INIT since reset. -/
  modeEff : Option Alg
  /-- fill (R111). -/
  fill : Nat
  /-- blk[0..127] (R112). -/
  blk : Vector Byte 128
  /-- H[0..7] (R113). -/
  h : HashState
  /-- busy (R114). -/
  busy : Bool
  deriving DecidableEq, Repr

/-- The TRNG unit (R131 to R134). TRNG_REV is the parameter trng_rev (R130); irq_trng is not stored (R136). -/
structure TrngUnit where
  /-- TRNG_CR.HTSTART (R131). -/
  htstart : Bool
  /-- TRNG_CR.IE (R131). -/
  ie : Bool
  /-- TRNG_SR.HTR (R132). -/
  htr : Bool
  /-- TRNG_SR.RDY (R132). -/
  rdy : Bool
  /-- TRNG_SR.HTS, HTS_W bits held in the low bits of a word (R132; log 14). -/
  hts : Word32
  /-- TRNG_TRIM.LOCK (R133). -/
  lock : Bool
  /-- TRNG_TRIM.TRIM_VAL (R133). -/
  trimVal : BitVec 31
  /-- The last generated sample (R134). -/
  sample : Word32
  deriving DecidableEq, Repr

/-- An outstanding asynchronous request (R150): destination and completion callback. -/
structure Pending where
  dst : Buf
  cb : Nat
  deriving DecidableEq, Repr

/-- The interrupt handlers a host program of this spec registers: only trng_isr (R572; log 20). -/
inductive HandlerFn where
  | trngIsr
  deriving DecidableEq, Repr

/-- A handler and its context as last registered with the platform (R151). -/
structure Registration where
  fn : HandlerFn
  ctx : HandleRef
  deriving DecidableEq, Repr

/-- What a host program is made of: bus transactions as descriptor and write data, calls of host procedures (R316), accesses
to caller memory of any width k (R314; log 28), and the pseudo-operations of R315. A register is named by its window
offset. -/
inductive HostOp where
  | bus (d : BitVec 16) (v : Word64)
  | call (i : Instr) (isProcedure : i.kind = .procedure)
  | memLd (k : Nat) (addr : Nat)
  | memSt (k : Nat) (addr : Nat) (v : Word64)
  | poll32 (off : BitVec 12) (mask val : Word32)
  | rmw32 (off : BitVec 12) (clr set : Word32)
  | wrblk (bytes : List Byte) (k : Nat)
  deriving DecidableEq, Repr

/-- Where a host agent stands inside what it runs, innermost first: the rest of a caller's program, or the program point
and the locals of a procedure (R32: "local variables of a procedure are not architectural state"; R665 has the model
keep them). A frame either waits for its agent's next step, which performs the one access its docstring names, or waits
for the frames above it to end. -/
inductive Frame where
  /-- A caller's program, or a callback's: the next operation is the head. -/
  | code (ops : List HostOp)
  /-- poll32 (R315): one Read32 per iteration. -/
  | poll (off : BitVec 12) (mask val : Word32)
  /-- rmw32 (R315): the Read32. -/
  | rmwRead (off : BitVec 12) (clr set : Word32)
  /-- rmw32 (R315): the Write32. -/
  | rmwWrite (off : BitVec 12) (v : Word32)
  /-- wrblk FIFO_IN (R315): the next write, k bytes wide. -/
  | wrblk (k : Nat) (words : List Word64)
  /-- Waits, then ends the procedure with a code. -/
  | retCode (c : Code)
  /-- hca_sha_init (R471): waits for the poll of SHA_SR. -/
  | initPolled (ctx : Nat) (alg : Alg) (endian : Endian)
  /-- hca_sha_init (R471): the INIT write. -/
  | initWrite (alg : Alg)
  /-- hca_sha_update (R472): the load of data byte i into buf[idx]. -/
  | updateLoad (ctx : Nat) (alg : Alg) (data : Buf) (len i idx : Nat)
  /-- hca_sha_update (R472): waits for the submission made after data byte i. -/
  | updateSubmitted (ctx : Nat) (alg : Alg) (data : Buf) (len i : Nat)
  /-- hca_sha_submit (R473): waits for the block's writes. -/
  | submitWritten
  /-- hca_sha_submit (R473): waits for the poll of SHA_SR. -/
  | submitPolled
  /-- hca_sha_finish (R475): the load of the length word. -/
  | finishCap (ctx : Nat) (alg : Alg) (out outlen : Buf)
  /-- hca_sha_finish (R475): waits for a submission; the blocks still to submit. -/
  | finishSubmitted (ctx : Nat) (alg : Alg) (out outlen : Buf) (blocks : List (List Byte))
  /-- hca_sha_finish (R475): waits for hca_sha_read. -/
  | finishRead (ctx : Nat) (alg : Alg) (outlen : Buf)
  /-- hca_sha_finish and SwFinish (R475, R503): the store of the length word N. -/
  | finishLen (ctx : Nat) (outlen : Buf) (n : Nat)
  /-- hca_sha_read, word path (R479): the read of element k of n. -/
  | readWord (alg : Alg) (out : Buf) (k n : Nat)
  /-- hca_sha_read, word path (R479): the store of element k of n. -/
  | readWordStore (alg : Alg) (out : Buf) (k n : Nat) (v : Word64)
  /-- hca_sha_read, byte path (R480): the read for element k of n. -/
  | readByte (alg : Alg) (out : Buf) (len k n : Nat)
  /-- hca_sha_read, byte path (R480): the store of byte b of element k of n. -/
  | readByteStore (alg : Alg) (out : Buf) (len k n : Nat) (v : Word64) (b : Nat)
  /-- SwUpdate (R502): the load of data byte i into buf[idx]. -/
  | swLoad (ctx : Nat) (alg : Alg) (data : Buf) (len i idx : Nat)
  /-- SwFinish (R503): the load of the length word. -/
  | swFinishCap (ctx : Nat) (alg : Alg) (out outlen : Buf)
  /-- SwFinish (R503): the store of digest byte j. -/
  | swFinishOut (ctx : Nat) (alg : Alg) (out outlen : Buf) (j : Nat)
  /-- trng_init (R570): the read of TRNG_REV. -/
  | trngInitRev
  /-- trng_init (R570): waits for the trim lock. -/
  | trngInitTrimmed
  /-- trng_init (R570): waits for HTSTART to be set. -/
  | trngInitStarted
  /-- trng_init (R570): the read of TRNG_SR. -/
  | trngInitStatus
  /-- trng_init (R570): the read of TRNG_DATA during the test. -/
  | trngInitData
  /-- trng_init (R570): waits for HTSTART to be cleared, then returns a code. -/
  | trngInitCleared (c : Code)
  /-- trng_acquire_blocking (R571): the read of TRNG_REV. -/
  | blockingRev
  /-- trng_acquire_blocking (R571): waits for the poll of TRNG_SR. -/
  | blockingPolled
  /-- trng_acquire_blocking (R571): the read of TRNG_DATA. -/
  | blockingData
  /-- trng_acquire_async (R572): the read of TRNG_REV. -/
  | asyncRev (dst : Buf) (cb : Nat)
  /-- trng_isr (R573): the read of TRNG_DATA. -/
  | isrData (dst : Buf) (cb : Nat)
  /-- trng_isr (R573): the store of the sample. -/
  | isrStore (dst : Buf) (cb : Nat) (d : Word32)
  /-- trng_isr (R573): waits for IE to be cleared, then frees the slot and calls back. -/
  | isrCleared (cb : Nat)
  deriving DecidableEq, Repr

/-- One host agent, HostMain or HostISR (R11; log 17). -/
structure Thread where
  /-- What it is inside, innermost first; empty when it has nothing left to do. -/
  stack : List Frame
  /-- It raised a model fault and takes no further step (R656). -/
  stopped : Bool
  /-- The value its last read transaction or load returned. -/
  val : Word64
  /-- The code its last procedure returned, or that its callback was called with. -/
  code : Option Code
  deriving DecidableEq, Repr

/-- The steps among which the next is a free choice (R668). -/
inductive StepKind where
  | hostMain
  | hostIsr
  | shaCompress
  | trngHtComplete
  | trngSample
  | irqDeliver
  deriving DecidableEq, Repr

/-- The machine's free inputs (log 6): values "chosen by no rule" (R31). Each list holds the values the environment supplies
next; past its end the value is an opaque constant of Config applied to `count`. -/
structure Inputs where
  /-- Values of the next draws (R31). -/
  draws : List Word64
  /-- The steps the environment chooses next (R668). -/
  sched : List StepKind
  /-- host_irq_on at the next steps (R25). -/
  irqOn : List Bool
  /-- How many free values have been taken. -/
  count : Nat
  /-- host_irq_on as drawn for the present step (R25). -/
  hostIrqOn : Bool
  deriving DecidableEq, Repr

/-- The machine (10_state.md). -/
structure State where
  /-- The parameters of the instance (R12 to R27); no step changes them. -/
  cfg : Config
  /-- The SHA unit (R110 to R118). -/
  sha : ShaUnit
  /-- The TRNG unit (R130 to R135). -/
  trng : TrngUnit
  /-- Host memory (R200, R202; log 10): the bytes the caller's buffers are made of, by address. -/
  mem : List Host.Cell
  /-- The caller's hash contexts, by reference (R140; log 11). -/
  ctxs : List (Nat × HashContext)
  /-- slot (R150). -/
  slot : Option Pending
  /-- irq_handler (R151). -/
  irqHandler : Option Registration
  /-- in_isr (R152). -/
  inIsr : Bool
  /-- faults (R153): a set, kept as a list in the order of R655's table. -/
  faults : List ModelFault
  /-- HostMain (R11). -/
  main : Thread
  /-- HostISR (R11). -/
  isr : Thread
  /-- The code of each completion callback (R572, R573). -/
  callbacks : List (Nat × List HostOp)
  /-- The free inputs (R25, R31, R668). -/
  inputs : Inputs
  deriving DecidableEq, Repr

/-- A host agent with nothing to do. -/
def Thread.idle : Thread := { stack := [], stopped := false, val := 0, code := none }

/-- The SHA unit after reset (R701). -/
def ShaUnit.reset (r : ResetDraws) : ShaUnit where
  modeField := r.modeField
  modeEff := none
  fill := 0
  blk := r.blk
  h := r.h
  busy := false

/-- The TRNG unit after reset (R701): NORMAL, no sample ready, unlocked. -/
def TrngUnit.reset (htsW : Nat) (r : ResetDraws) : TrngUnit where
  htstart := false
  ie := false
  htr := false
  rdy := false
  hts := htsBits htsW r.hts
  lock := false
  trimVal := r.trimVal
  sample := r.sample

/-- The machine right after reset for given parameters and reset draws (R701, R703): no caller buffer, no context used,
no program loaded. -/
def State.resetWith (c : Config) (r : ResetDraws) : State where
  cfg := c
  sha := ShaUnit.reset r
  trng := TrngUnit.reset c.htsW r
  mem := []
  ctxs := []
  slot := none
  irqHandler := none
  inIsr := false
  faults := []
  main := Thread.idle
  isr := Thread.idle
  callbacks := []
  inputs := { draws := [], sched := [], irqOn := [], count := 0, hostIrqOn := false }

/-- The machine right after reset: the reference parameters, and reset draws nothing constrains (R701). -/
def State.reset : State := State.resetWith Config.reference Config.resetDraws

end Sys2Proof.Machine
end

