-- ==== Sys2Proof/Machine/Ops.lean ====
section
/-! DEFINITION. Machine/Ops.lean: the operations every meaning is built from: the agent that acts, free values (R31), taking
a model fault (R655, R656), caller memory (R202, R206), contexts (R140), interrupt entry and return (R663, R666), and the
accesses a procedure performs (R31). -/

namespace Sys2Proof.Machine

/-! ### The agent that acts -/

/-- The host agent that may step: HostISR while in_isr = 1, HostMain otherwise (R152). -/
def State.thread (s : State) : Thread := if s.inIsr then s.isr else s.main

/-- Replace the acting agent. -/
def State.setThread (s : State) (t : Thread) : State :=
  if s.inIsr then { s with isr := t } else { s with main := t }

/-- Hand the acting agent the value of a read transaction or load. -/
def State.setVal (s : State) (v : Word64) : State := s.setThread { s.thread with val := v }

/-- Hand the acting agent a return code (R650). -/
def State.setCode (s : State) (c : Code) : State := s.setThread { s.thread with code := some c }

/-- Replace what the acting agent is inside. -/
def State.setStack (s : State) (fs : List Frame) : State := s.setThread { s.thread with stack := fs }

/-- Enter frames above what the acting agent is inside. -/
def State.push (s : State) (fs : List Frame) : State := s.setStack (fs ++ s.thread.stack)

/-! ### Named updates of the rest of the state -/

/-- Replace the SHA unit. -/
def State.setSha (s : State) (u : ShaUnit) : State := { s with sha := u }

/-- Replace the TRNG unit. -/
def State.setTrng (s : State) (u : TrngUnit) : State := { s with trng := u }

/-- Replace caller memory. -/
def State.setMem (s : State) (m : List Host.Cell) : State := { s with mem := m }

/-- Replace the outstanding-request slot (R150). -/
def State.setSlot (s : State) (p : Option Pending) : State := { s with slot := p }

/-- Register a handler with the platform (R151). -/
def State.setHandler (s : State) (r : Registration) : State := { s with irqHandler := some r }

/-! ### Free values (R31) -/

/-- The value of the next draw. -/
def State.drawn (s : State) : Word64 := s.inputs.draws.headD (Config.freeDraw s.inputs.count)

/-- The state once the next draw is taken. -/
def State.drew (s : State) : State :=
  { s with inputs := { s.inputs with draws := s.inputs.draws.tail, count := s.inputs.count + 1 } }

/-- The next draw, as a 32-bit value. -/
def State.drawn32 (s : State) : Word32 := s.drawn.setWidth 32

/-! ### Model faults (R655, R656) -/

/-- A fault's place in R655's table. -/
def ModelFault.rank : ModelFault → Nat
  | .bus => 0
  | .initBusy => 1
  | .fifoNoInit => 2
  | .fifoBusy => 3
  | .fifoOverrun => 4
  | .ctxState => 5
  | .hostMem => 6
  | .dstAlign => 7
  | .trngOverlap => 8
  | .isrContext => 9

/-- Add a fault to a set of faults kept in the order of R655's table. -/
def insertFault (f : ModelFault) : List ModelFault → List ModelFault
  | [] => [f]
  | g :: gs => if f = g then g :: gs else if f.rank < g.rank then f :: g :: gs else g :: insertFault f gs

/-- `raise Fault(MF_x)` (R31, R656): the fault is added to `faults` and the acting agent stops; nothing else changes. -/
def State.raiseFault (s : State) (f : ModelFault) : State :=
  { s.setThread { s.thread with stopped := true } with faults := insertFault f s.faults }

/-! ### Caller memory (R200, R202, R206) -/

/-- A memory's one form: addresses strictly rising. An address that is not listed is no byte of the caller's memory, so of no
valid buffer (R202), and reads as nothing. -/
abbrev Memory.wf (m : List Host.Cell) : Prop := m.Pairwise fun x y => x.1 < y.1

/-- One byte of caller memory; none outside it (R202). -/
def memRead : List Host.Cell → Nat → Option Byte
  | [], _ => none
  | (k, b) :: m, a => if k = a then some b else memRead m a

/-- Replace one byte of caller memory. -/
def memWrite : List Host.Cell → Nat → Byte → List Host.Cell
  | [], _, _ => []
  | (k, b) :: m, a, v => if k = a then (k, v) :: m else (k, b) :: memWrite m a v

/-- The k bytes from address a on; none if one of them is outside caller memory (R202). -/
def memReads (m : List Host.Cell) : Nat → Nat → Option (List Byte)
  | _, 0 => some []
  | a, k + 1 =>
    match memRead m a, memReads m (a + 1) k with
    | some b, some bs => some (b :: bs)
    | _, _ => none

/-- Replace the bytes from address a on. -/
def memWrites (m : List Host.Cell) : Nat → List Byte → List Host.Cell
  | _, [] => m
  | a, b :: bs => memWrites (memWrite m a b) (a + 1) bs

/-- Make an address a byte of caller memory holding v (what the caller does before it passes a buffer, R732). -/
def memInsert (a : Nat) (v : Byte) : List Host.Cell → List Host.Cell
  | [] => [(a, v)]
  | (k, b) :: m => if a = k then (k, v) :: m else if a < k then (a, v) :: (k, b) :: m else (k, b) :: memInsert a v m

/-- Make the bytes from address a on bytes of caller memory. -/
def memInserts (m : List Host.Cell) : Nat → List Byte → List Host.Cell
  | _, [] => m
  | a, b :: bs => memInserts (memInsert a b m) (a + 1) bs

/-- Give the caller memory of these bytes at address a, where it may pass buffers (R732). -/
def State.withBuffer (s : State) (a : Nat) (bs : List Byte) : State := s.setMem (memInserts s.mem a bs)

/-- The n bytes from byte off of a buffer on; none if one of them is "outside the buffer it was given" (R202), whatever other
buffers hold: buffers may overlap and nest. -/
def State.bufReads (s : State) (b : Buf) (off n : Nat) : Option (List Byte) :=
  if off + n ≤ b.size then memReads s.mem (b.addr + off) n else none

/-- `MemRead(b.addr + off, k)` by a procedure that was given the buffer b: the little-endian value of k bytes, or MF_HOST_MEM
when one of them is outside the buffer (R31, R202, R206). A value is 64 bits: DESIGN CHOICE (log 28), of a load wider than 8
bytes the low 64 bits are kept. -/
def State.load (s : State) (k : Nat) (b : Buf) (off : Nat) : State :=
  match s.bufReads b off k with
  | some bs => s.setVal (BitVec.ofNat 64 (leVal bs))
  | none => s.raiseFault .hostMem

/-- `MemWrite(b.addr + off, k, v)` by a procedure that was given the buffer b: stores LE_k(v), or raises MF_HOST_MEM and
stores nothing when one of the bytes is outside the buffer (R31, R202, R206, R656). DESIGN CHOICE (log 28): a store wider than
8 bytes stores zeros above the value's 64 bits. -/
def State.store (s : State) (k : Nat) (b : Buf) (off : Nat) (v : Word64) : State :=
  match s.bufReads b off k with
  | some _ => s.setMem (memWrites s.mem (b.addr + off) (leBytes k v.toNat))
  | none => s.raiseFault .hostMem

/-! ### Contexts (R140, R703) -/

/-- The context stored under a reference. -/
def ctxFind : List (Nat × HashContext) → Nat → Option HashContext
  | [], _ => none
  | (k, x) :: m, c => if k = c then some x else ctxFind m c

/-- Store a context under a reference, references strictly rising. -/
def ctxInsert (c : Nat) (x : HashContext) : List (Nat × HashContext) → List (Nat × HashContext)
  | [] => [(c, x)]
  | (k, y) :: m => if c = k then (k, x) :: m else if c < k then (c, x) :: (k, y) :: m else (k, y) :: ctxInsert c x m

/-- The context a reference denotes; one never stored is as at launch: life Uninit, its other fields unspecified
(R703). -/
def State.ctx (s : State) (c : Nat) : HashContext :=
  (ctxFind s.ctxs c).getD { Config.launchContext c with life := .uninit }

/-- Update a context. -/
def State.setCtx (s : State) (c : Nat) (x : HashContext) : State := { s with ctxs := ctxInsert c x s.ctxs }

end Sys2Proof.Machine

namespace Sys2Proof

/-- `idx = (bitlen / 8) mod B` (R142). -/
def HashContext.idx (x : HashContext) (alg : Alg) : Nat := x.bitlen.toNat / 8 % alg.blockBytes

/-- The first n bytes of a context's block buffer. -/
def HashContext.bufTake (x : HashContext) (n : Nat) : List Byte := x.buf.toList.take n

/-- `ctx.buf[idx] <- b`. -/
def HashContext.setBuf (x : HashContext) (idx : Nat) (b : Byte) : HashContext :=
  { x with buf := x.buf.setIfInBounds idx b }

/-- `ctx.bitlen <- (ctx.bitlen + 8·len) mod 2^64` (R16). -/
def HashContext.addLen (x : HashContext) (len : Nat) : HashContext :=
  { x with bitlen := x.bitlen + BitVec.ofNat 64 (8 * len) }

end Sys2Proof

namespace Sys2Proof.Machine

/-! ### Interrupt entry and return (R663, R665, R666) -/

/-- The program a registered handler is. -/
def Registration.program (r : Registration) : List HostOp :=
  match r.fn with
  | .trngIsr => [.call (.trngIsr r.ctx) rfl]

/-- Entry: in_isr becomes 1 and HostISR begins the handler; nothing else changes (R663, R665). -/
def State.enterIsr (s : State) (r : Registration) : State :=
  { s with inIsr := true, isr := { Thread.idle with stack := [.code r.program] } }

/-- Return: in_isr becomes 0 and HostMain resumes where it stopped (R663, R666). -/
def State.leaveIsr (s : State) : State := { s with inIsr := false }

/-- The program of a completion callback. DESIGN CHOICE (log 9): a callback number the state lists no code for does
nothing. -/
def callbackCode : List (Nat × List HostOp) → Nat → List HostOp
  | [], _ => []
  | (k, ops) :: m, cb => if k = cb then ops else callbackCode m cb

/-! ### Accesses (R31) -/

/-- What one step of a procedure does outside the agent: a bus transaction, or an access of k bytes at offset off of a caller
buffer it was given (R32, R202). -/
inductive Access where
  | bus (d : BitVec 16) (v : Word64)
  | load (k : Nat) (b : Buf) (off : Nat)
  | store (k : Nat) (b : Buf) (off : Nat) (v : Word64)
  deriving DecidableEq, Repr

/-- `Read32(off)` (R31). -/
def Access.read32 (off : BitVec 12) : Access := .bus (descriptor false false 0 off) 0

/-- `Read64(off)` (R31). -/
def Access.read64 (off : BitVec 12) : Access := .bus (descriptor false true 0 off) 0

/-- `Write32(off, v)` (R31). -/
def Access.write32 (off : BitVec 12) (v : Word32) : Access := .bus (descriptor true false 0 off) (v.setWidth 64)

/-- `Write64(off, v)` (R31). -/
def Access.write64 (off : BitVec 12) (v : Word64) : Access := .bus (descriptor true true 0 off) v

end Sys2Proof.Machine
end

