-- ==== Sys2Proof/Machine/Operands.lean ====
section
/-! DEFINITION. Machine/Operands.lean: the values registers are read as and the fields a write value holds, at the positions
of the layout (R303 to R309); the MODE code (R305); the order of block-input bytes (R203, R483); and the digest view of the
hash state (R119 to R124). -/

namespace Sys2Proof.Machine

/-- `mode_code(alg)` (R305). -/
def modeCode : Alg → BitVec 2
  | .sha224 => 0
  | .sha256 => 1
  | .sha384 => 2
  | .sha512 => 3

/-- The algorithm with a MODE code; all four are legal (R305). -/
def algOfMode (m : BitVec 2) : Alg :=
  if m = 0 then .sha224 else if m = 1 then .sha256 else if m = 2 then .sha384 else .sha512

/-! ### SHA_CR and SHA_SR -/

/-- MODE of a SHA_CR write value (R303). -/
def crMode (c : Config) (v : Word32) : BitVec 2 := (getField c.layout.modeLo 2 v).setWidth 2

/-- INIT of a SHA_CR write value (R303). -/
def crInit (c : Config) (v : Word32) : Bool := getBit c.layout.initBit v

/-- What SHA_CR reads as: MODE stored, INIT 0, the reserved bits those of the draw x (R450, R312). -/
def shaCrValue (c : Config) (u : ShaUnit) (x : Word32) : Word32 :=
  putBit c.layout.initBit false (putField c.layout.modeLo 2 (u.modeField.setWidth 32) x)

/-- What SHA_SR reads as: BUSY, the reserved bits those of the draw x (R453, R312). -/
def shaSrValue (c : Config) (u : ShaUnit) (x : Word32) : Word32 := putBit c.layout.busyBit u.busy x

/-- The SHA_CR value that performs INIT in an algorithm's mode: `0x10 | mode_code(alg)` at the reference layout (R471). -/
def initValue (c : Config) (alg : Alg) : Word32 :=
  bitMask c.layout.initBit ||| ((modeCode alg).setWidth 32 <<< c.layout.modeLo)

/-! ### TRNG registers -/

/-- HTSTART of a TRNG_CR write value (R306). -/
def crHtstart (c : Config) (v : Word32) : Bool := getBit c.layout.htstartBit v

/-- IE of a TRNG_CR write value (R306). -/
def crIe (c : Config) (v : Word32) : Bool := getBit c.layout.ieBit v

/-- What TRNG_CR reads as, the reserved bits those of the draw x (R551). -/
def trngCrValue (c : Config) (u : TrngUnit) (x : Word32) : Word32 :=
  putBit c.layout.ieBit u.ie (putBit c.layout.htstartBit u.htstart x)

/-- What TRNG_SR reads as: HTR, RDY, HTS when no test runs; HTS while one runs and the reserved bits are those of the
draw x (R553). -/
def trngSrValue (c : Config) (u : TrngUnit) (x : Word32) : Word32 :=
  let y := putBit c.layout.rdyBit u.rdy (putBit c.layout.htrBit u.htr x)
  if u.htr then y else putField c.layout.htsLo c.htsW u.hts y

/-- TRIM_VAL of a TRNG_TRIM write value (R308). -/
def trimVal (c : Config) (v : Word32) : BitVec 31 := (getField c.layout.trimLo 31 v).setWidth 31

/-- LOCK of a TRNG_TRIM write value (R308). -/
def trimLock (c : Config) (v : Word32) : Bool := getBit c.layout.lockBit v

/-- What TRNG_TRIM reads as (R554); its two fields fill the register. -/
def trngTrimValue (c : Config) (u : TrngUnit) : Word32 :=
  putBit c.layout.lockBit u.lock (putField c.layout.trimLo 31 (u.trimVal.setWidth 32) 0)

/-! ### Block-input bytes -/

/-- The bytes a block-input write of width k delivers, in order (R203). -/
def fifoBytes (o : FifoOrder) (k : Nat) (v : Nat) : List Byte :=
  match o with
  | .leStream => leBytes k v
  | .beWord => beBytes k v

/-- The write value that delivers these bytes in order (R483). -/
def fifoWord (o : FifoOrder) (bs : List Byte) : Word64 :=
  match o with
  | .leStream => BitVec.ofNat 64 (leVal bs)
  | .beWord => BitVec.ofNat 64 (beVal bs)

/-- The n write values of width k of a block, in order (R315, R483). -/
def fifoWords (o : FifoOrder) (k : Nat) : Nat → List Byte → List Word64
  | 0, _ => []
  | n + 1, bs => fifoWord o (bs.take k) :: fifoWords o k n (bs.drop k)

/-- `blk[i .. i + |bs|) <- bs`. -/
def blit (v : Vector Byte 128) : Nat → List Byte → Vector Byte 128
  | _, [] => v
  | i, b :: bs => blit (v.setIfInBounds i b) (i + 1) bs

/-! ### The digest span -/

/-- `pos(i)`: the element index of state word H[i] (R120). -/
def elemPos (c : Config) (alg : Alg) (i : Nat) : Option Nat :=
  match c.hashAlign with
  | .top => if i < 8 then some (7 - i) else none
  | .bottom => if i < alg.elems then some (alg.elems - 1 - i) else none

/-- The state word an element holds, if one does (R120). -/
def wordAt (c : Config) (alg : Alg) (e : Nat) : Option Nat :=
  (List.range 8).find? fun i => elemPos c alg i == some e

/-- The value of a 32-bit slot of the digest span; none where the read is a draw (R121, R122, R124). -/
def slotValue (c : Config) (u : ShaUnit) (j : Nat) : Option Word32 :=
  match u.busy, u.modeEff with
  | false, some alg =>
    if alg.wordBytes = 4 then
      (wordAt c alg j).map fun i => (u.h.getD i 0).setWidth 32
    else
      (wordAt c alg (j / 2)).map fun i =>
        if j % 2 = 0 then (u.h.getD i 0).setWidth 32 else (u.h.getD i 0 >>> 32).setWidth 32
  | _, _ => none

/-- The window offset of state word H[i] in the digest span: HASH_OFF + E·pos(i) (R477). DESIGN CHOICE (log 33): pos is that
of the algorithm the procedure is given, also where the unit's mode_eff, by which R120 defines it, is another. -/
def elemOffset (c : Config) (alg : Alg) (i : Nat) : BitVec 12 :=
  c.layout.hash + BitVec.ofNat 12 (alg.wordBytes * (elemPos c alg i).getD 0)

/-- `bswap_E`: the E bytes of v in reverse order (R479). -/
def bswap (e : Nat) (v : Word64) : Word64 := BitVec.ofNat 64 (leVal (beBytes e v.toNat))

/-- Byte b of v, v[8b+7 : 8b] (R480). -/
def byteOf (v : Word64) (b : Nat) : Byte := v.extractLsb' (8 * b) 8

end Sys2Proof.Machine
end

