-- ==== Sys2Proof/Machine/Flags.lean ====
section
/-! DEFINITION. Machine/Flags.lean: the derived status of the machine: the TRNG's presence (R557), operating mode (R135) and
interrupt line (R136), and the enabling conditions of the steps of R668. -/

namespace Sys2Proof.Machine

/-- The TRNG is physically present (R130, R557). -/
def State.trngPresent (s : State) : Bool := s.cfg.trngRev != 0

/-- The TRNG's operating mode (R135). -/
inductive TrngMode where
  | normal
  | testing
  | testDone
  deriving DecidableEq, Repr

/-- The operating mode, a function of the stored bits (R135). -/
def TrngUnit.mode (u : TrngUnit) : TrngMode :=
  if u.htstart then (if u.htr then .testing else .testDone) else .normal

/-- The ready-interrupt line irq_trng = ie ∧ rdy, 0 when the TRNG is absent (R136). -/
def State.irqTrng (s : State) : Bool := s.trngPresent && s.trng.ie && s.trng.rdy

/-- The enabling condition of SHA.COMPRESS (R460); a busy unit has a mode (R456; log 15). -/
def State.compressEnabled (s : State) : Bool := s.sha.busy && s.sha.modeEff.isSome

/-- The enabling condition of TRNG.HT_COMPLETE (R560). -/
def State.htCompleteEnabled (s : State) : Bool := s.trngPresent && s.trng.htr

/-- The enabling condition of TRNG.SAMPLE (R561). -/
def State.sampleEnabled (s : State) : Bool := s.trngPresent && !s.trng.htstart && !s.trng.rdy

/-- An interrupt waits to be delivered: the line is high, a handler is registered and none runs (R663). -/
def State.irqWaits (s : State) : Bool := s.irqTrng && s.irqHandler.isSome && !s.inIsr

/-- The enabling condition of IRQ.DELIVER: an interrupt waits, and the host accepts it at this step (R25, R663). -/
def State.irqEnabled (s : State) : Bool := s.irqWaits && s.inputs.hostIrqOn

/-- An agent that has not stopped and is inside something has a step (R656). -/
def Thread.runs (t : Thread) : Bool := !t.stopped && !t.stack.isEmpty

/-- Whether a step of R668 is enabled: HostMain takes none while in_isr = 1 (R152). -/
def State.enabled (s : State) : StepKind → Bool
  | .hostMain => !s.inIsr && s.main.runs
  | .hostIsr => s.inIsr && s.isr.runs
  | .shaCompress => s.compressEnabled
  | .trngHtComplete => s.htCompleteEnabled
  | .trngSample => s.sampleEnabled
  | .irqDeliver => s.irqEnabled

/-- The integer value of a return code (R24, R650). -/
def Code.value (e : ErrCodes) : Code → Int
  | .ok => e.ok
  | .invalidInput => e.invalidInput
  | .invalidOutput => e.invalidOutput
  | .error => e.error
  | .rngError => e.rngError

end Sys2Proof.Machine
end

