-- ==== Sys2Proof/Machine/Events.lean ====
section
/-! DEFINITION. Machine/Events.lean: the autonomous steps: SHA.COMPRESS (R460), TRNG.HT_COMPLETE (R560), TRNG.SAMPLE (R561)
and IRQ.DELIVER (R663). Each is `when <enabling condition>: <updates>` (R32); where the condition is false there is no such
step, and the answer is the refusal `notEnabled` (log 7). -/

namespace Sys2Proof.Machine

/-- The SHA unit after the compression of its block in a mode (R460). -/
def ShaUnit.compressed (u : ShaUnit) (alg : Alg) : ShaUnit :=
  { u with h := compress alg u.h (u.blk.toList.take alg.blockBytes), fill := 0, busy := false }

/-- `SHA.COMPRESS` (R460). -/
def execShaCompress (s : State) : Host.Outcome State Fault Refusal :=
  match s.sha.busy, s.sha.modeEff with
  | true, some alg => .next (s.setSha (s.sha.compressed alg))
  | _, _ => .refused (.notEnabled "SHA.COMPRESS")

/-- `TRNG.HT_COMPLETE` (R560). -/
def execTrngHtComplete (s : State) : Host.Outcome State Fault Refusal :=
  if s.htCompleteEnabled then
    .next (s.drew.setTrng { s.trng with htr := false, hts := htsBits s.cfg.htsW s.drawn32 })
  else .refused (.notEnabled "TRNG.HT_COMPLETE")

/-- `TRNG.SAMPLE` (R561). -/
def execTrngSample (s : State) : Host.Outcome State Fault Refusal :=
  if s.sampleEnabled then .next (s.drew.setTrng { s.trng with sample := s.drawn32, rdy := true })
  else .refused (.notEnabled "TRNG.SAMPLE")

/-- `IRQ.DELIVER` (R663): the interrupt is entered; the handler then runs as HostISR, and in_isr falls at its last
step. -/
def execIrqDeliver (s : State) : Host.Outcome State Fault Refusal :=
  match s.irqEnabled, s.irqHandler with
  | true, some r => .next (s.enterIsr r)
  | _, _ => .refused (.notEnabled "IRQ.DELIVER")

end Sys2Proof.Machine
end

