-- ==== Sys2Proof/Machine/HashHw.lean ====
section
/-! DEFINITION. Machine/HashHw.lean: the hardware hash engine's host procedures (R470 to R483). The meaning of a procedure is
its call: the argument checks, in order (R660), and then either its return or the frames its agent's next steps run, one
access a step (R32; log 8). The functions after each meaning say how the procedure goes on from one access to the next. -/

namespace Sys2Proof.Machine

/-- A procedure ends at its call with a return code (R31, R650). -/
def State.ret (s : State) (c : Code) : Host.Outcome State Fault Refusal := .next (s.setCode c)

/-- A procedure raises a model fault at its call (R31, R656). -/
def State.fail (s : State) (f : ModelFault) : Host.Outcome State Fault Refusal := .next (s.raiseFault f)

/-- A procedure begins: its frames are what its agent runs next. -/
def State.begin (s : State) (fs : List Frame) : Host.Outcome State Fault Refusal := .next (s.push fs)

/-- A procedure ends with a code after an access. -/
def State.ends (s : State) (c : Code) : State × List Frame := (s.setCode c, [])

/-- Update the life of a context. -/
def State.setLife (s : State) (c : Nat) (l : Life) : State := s.setCtx c { s.ctx c with life := l }

/-! ### hca_sha_init (R471) -/

/-- `hca_sha_init(h, ctx, alg, endian)` (R471): the checks, then the poll of SHA_SR. -/
def execHcaShaInit (h : HandleRef) (ctx : Option Nat) (tag : Tag) (endian : Endian) (s : State) :
    Host.Outcome State Fault Refusal :=
  match h, ctx, tag with
  | .absent, _, _ => s.ret .invalidInput
  | .present, none, _ => s.ret .invalidInput
  | .present, some _, .unknown _ => s.ret .error
  | .present, some c, .known alg =>
    if s.inIsr then s.fail .isrContext
    else s.begin [.poll s.cfg.layout.shaSr (bitMask s.cfg.layout.busyBit) 0, .initPolled c alg endian]

/-- Once no block is pending: record the context, then write INIT (R471). -/
def initPolledNext (c : Nat) (alg : Alg) (endian : Endian) (s : State) : State × List Frame :=
  (s.setCtx c { s.ctx c with alg := alg, bitlen := 0, endian := endian, life := .active }, [.initWrite alg])

/-! ### hca_sha_submit (R473) -/

/-- The accesses of one submission: the block's writes, then the poll (R473, R315, R483). DESIGN CHOICE (log 36): the words are
those of blk as it is when the submission begins, whatever a callback does to the context's buffer between the writes. -/
def submitFrames (c : Config) (blk : List Byte) (alg : Alg) : List Frame :=
  [.wrblk alg.fifoBytes (fifoWords c.fifoOrder alg.fifoBytes (blk.length / alg.fifoBytes) blk), .submitWritten]

/-- `hca_sha_submit(h, blk, alg)` (R473). DESIGN CHOICE (log 30): a handler may call it, since R473 has no check of in_isr and
R660 and R667 do not list it. -/
def execHcaShaSubmit (h : HandleRef) (blk : List Byte) (alg : Alg) (s : State) : Host.Outcome State Fault Refusal :=
  match h with
  | .absent => s.ret .invalidInput
  | .present => s.begin (submitFrames s.cfg blk alg)

/-- The block is written: poll SHA_SR (R473). -/
def submitWrittenNext (s : State) : State × List Frame :=
  (s, [.poll s.cfg.layout.shaSr (bitMask s.cfg.layout.busyBit) 0, .submitPolled])

/-- The block is compressed: the submission may fail by a draw, whose bit 0 is the Boolean (R473, R474; log 16). -/
def submitPolledNext (s : State) : State × List Frame :=
  if s.cfg.submitMayFail then
    if s.drawn.getLsbD 0 then s.drew.ends .error else s.drew.ends .ok
  else s.ends .ok

/-! ### hca_sha_update (R472) -/

/-- `hca_sha_update(h, ctx, data, len)` (R472). -/
def execHcaShaUpdate (h : HandleRef) (ctx : Option Nat) (data : Option Buf) (len : Nat) (s : State) :
    Host.Outcome State Fault Refusal :=
  match h, ctx with
  | .absent, _ => s.ret .invalidInput
  | .present, none => s.ret .invalidInput
  | .present, some c =>
    if data.isNone && decide (0 < len) then s.ret .invalidInput
    else if (s.ctx c).life ≠ .active then s.fail .ctxState
    else if s.inIsr then s.fail .isrContext
    else if len = 0 then s.ret .ok
    else
      s.begin [.updateLoad c (s.ctx c).alg (data.getD { addr := 0, size := 0 }) len 0 ((s.ctx c).idx (s.ctx c).alg)]

/-- Before data byte i: load it, or end the call once all are absorbed, the counter advanced once (R472). -/
def updateNext (c : Nat) (alg : Alg) (data : Buf) (len i idx : Nat) (s : State) : State × List Frame :=
  if i < len then (s, [.updateLoad c alg data len i idx])
  else (s.setCtx c ((s.ctx c).addLen len)).ends .ok

/-- Data byte i is loaded: buffer it, and submit the buffer when it is full, for the algorithm the context then has (R472; B
is that of the algorithm at the call, log 29). DESIGN CHOICE (log 36): the block is the buffer as this load leaves it. -/
def updateLoaded (c : Nat) (alg : Alg) (data : Buf) (len i idx : Nat) (v : Word64) (s : State) : State × List Frame :=
  let x := (s.ctx c).setBuf idx (v.setWidth 8)
  if idx + 1 = alg.blockBytes then
    (s.setCtx c x, submitFrames s.cfg (x.bufTake alg.blockBytes) x.alg ++ [.updateSubmitted c alg data len i])
  else updateNext c alg data len (i + 1) (idx + 1) (s.setCtx c x)

/-- A submission has returned: go on at idx = 0, or propagate its failure and consume the context (R472). -/
def updateSubmittedNext (c : Nat) (alg : Alg) (data : Buf) (len i : Nat) (s : State) : State × List Frame :=
  if s.thread.code = some .ok then updateNext c alg data len (i + 1) 0 s
  else (s.setLife c .consumed, [])

/-! ### hca_sha_read (R477 to R480) -/

/-- The accesses of the register read step, by the path of R478. -/
def readFrames (c : Config) (alg : Alg) (out : Buf) (n : Nat) : List Frame :=
  if n / alg.wordBytes = 0 then []
  else if out.addr % c.native.bytes = 0 then [.readWord alg out 0 (n / alg.wordBytes)]
  else [.readByte alg out n 0 (n / alg.wordBytes)]

/-- `hca_sha_read(h, alg, out, N)` (R477); it checks nothing and returns nothing. DESIGN CHOICE (log 35): a
direct call with an absent handle makes the same accesses. -/
def execHcaShaRead (_h : HandleRef) (alg : Alg) (out : Buf) (n : Nat) (s : State) : Host.Outcome State Fault Refusal :=
  s.begin (readFrames s.cfg alg out n)

/-- `Read_E` of the element of state word H[i] (R477). -/
def readElem (c : Config) (alg : Alg) (i : Nat) : Access :=
  if alg.wordBytes = 4 then Access.read32 (elemOffset c alg i) else Access.read64 (elemOffset c alg i)

/-- Word path: element k is stored; go on with the next (R479). -/
def readWordStored (alg : Alg) (out : Buf) (k n : Nat) (s : State) : State × List Frame :=
  if k + 1 < n then (s, [.readWord alg out (k + 1) n]) else (s, [])

/-- Byte path: byte b of the k-th read is stored; go on with the next byte, or the next read (R480). -/
def readByteStored (alg : Alg) (out : Buf) (len k n : Nat) (v : Word64) (b : Nat) (s : State) : State × List Frame :=
  if b + 1 < alg.wordBytes then (s, [.readByteStore alg out len k n v (b + 1)])
  else if k + 1 < n then (s, [.readByte alg out len (k + 1) n])
  else (s, [])

/-! ### hca_sha_finish (R475, R476) -/

/-- `hca_sha_finish(h, ctx, out, outlen)` (R475). -/
def execHcaShaFinish (h : HandleRef) (ctx : Option Nat) (out outlen : Option Buf) (s : State) :
    Host.Outcome State Fault Refusal :=
  match h, ctx, out, outlen with
  | .absent, _, _, _ => s.ret .invalidInput
  | .present, none, _, _ => s.ret .invalidInput
  | .present, some _, none, _ => s.ret .invalidOutput
  | .present, some _, some _, none => s.ret .invalidOutput
  | .present, some c, some o, some l =>
    if (s.ctx c).life ≠ .active then s.fail .ctxState
    else if s.inIsr then s.fail .isrContext
    else s.begin [.finishCap c (s.ctx c).alg o l]

/-- Submit the next final block, or read the digest once all are submitted, for the algorithm the context then has (R475,
R476; N and the final blocks are those of the algorithm at the call, log 29). -/
def finishNext (c : Nat) (alg : Alg) (out outlen : Buf) (blocks : List (List Byte)) (s : State) :
    State × List Frame :=
  match blocks with
  | b :: bs => (s, submitFrames s.cfg b (s.ctx c).alg ++ [.finishSubmitted c alg out outlen bs])
  | [] => (s, readFrames s.cfg (s.ctx c).alg out alg.digestBytes ++ [.finishRead c alg outlen])

/-- The capacity is loaded: refuse one below N, else pad and submit (R475). DESIGN CHOICE (log 36): every final block is that of
the context as it is in this step. -/
def finishCapLoaded (c : Nat) (alg : Alg) (out outlen : Buf) (cap : Word64) (s : State) : State × List Frame :=
  if cap.toNat < alg.digestBytes then s.ends .invalidOutput
  else
    let x := s.ctx c
    finishNext c alg out outlen (finalBlocks alg (x.bufTake (x.idx alg)) x.bitlen) s

/-- A submission has returned: go on, or propagate its failure and consume the context (R475). -/
def finishSubmittedNext (c : Nat) (alg : Alg) (out outlen : Buf) (blocks : List (List Byte)) (s : State) :
    State × List Frame :=
  if s.thread.code = some .ok then finishNext c alg out outlen blocks s
  else (s.setLife c .consumed, [])

/-- The length word is stored: the context is consumed and the procedure returns Ok (R475, R503). -/
def finishLenStored (c : Nat) (s : State) : State × List Frame := (s.setLife c .consumed).ends .ok

end Sys2Proof.Machine
end

