-- ==== Sys2Proof/Machine/HashSw.lean ====
section
/-! DEFINITION. Machine/HashSw.lean: the software hash engine (R500 to R516) and the dispatcher (R520 to R523). The engine
issues no bus transaction; its steps are caller-memory accesses (R500). -/

namespace Sys2Proof.Machine

/-! ### The common bodies -/

/-- `SwInit(alg)(ctx, endian)` (R501). -/
def swInit (alg : Alg) (ctx : Option Nat) (endian : Endian) (s : State) : Host.Outcome State Fault Refusal :=
  match ctx with
  | none => s.ret .invalidInput
  | some c =>
    (s.setCtx c { s.ctx c with
      alg := alg, bitlen := 0, acc := initialHash alg, endian := endian, life := .active }).ret .ok

/-- `SwUpdate(alg)(ctx, data, len)` (R502): alg is the variant's own, whatever the context's (R500; log 25, log 34). -/
def swUpdate (alg : Alg) (ctx : Option Nat) (data : Option Buf) (len : Nat) (s : State) :
    Host.Outcome State Fault Refusal :=
  match ctx with
  | none => s.ret .invalidInput
  | some c =>
    if data.isNone && decide (0 < len) then s.ret .invalidInput
    else if (s.ctx c).life ≠ .active then s.fail .ctxState
    else if len = 0 then s.ret .ok
    else s.begin [.swLoad c alg (data.getD { addr := 0, size := 0 }) len 0 ((s.ctx c).idx alg)]

end Sys2Proof.Machine

namespace Sys2Proof

/-- The context once one data byte is absorbed at idx: buffered, and the buffer compressed when it is full (R502). DESIGN
CHOICE (log 34): a 32-bit variant takes the low halves of acc, also of one that holds 64-bit words. -/
def HashContext.absorb (x : HashContext) (alg : Alg) (idx : Nat) (b : Byte) : HashContext :=
  let y := x.setBuf idx b
  if idx + 1 = alg.blockBytes then { y with acc := Machine.compress alg y.acc (y.bufTake alg.blockBytes) } else y

end Sys2Proof

namespace Sys2Proof.Machine

/-- The buffer index after one more byte (R502). -/
def nextIdx (alg : Alg) (idx : Nat) : Nat := if idx + 1 = alg.blockBytes then 0 else idx + 1

/-- Data byte i is loaded: absorb it, then load the next or end the call, the counter advanced once (R502). -/
def swLoaded (c : Nat) (alg : Alg) (data : Buf) (len i idx : Nat) (v : Word64) (s : State) : State × List Frame :=
  let t := s.setCtx c ((s.ctx c).absorb alg idx (v.setWidth 8))
  if i + 1 < len then (t, [.swLoad c alg data len (i + 1) (nextIdx alg idx)])
  else (t.setCtx c ((t.ctx c).addLen len)).ends .ok

/-- `SwFinish(alg)(ctx, out, outlen)` (R503). -/
def swFinish (alg : Alg) (ctx : Option Nat) (out outlen : Option Buf) (s : State) :
    Host.Outcome State Fault Refusal :=
  match ctx, out, outlen with
  | none, _, _ => s.ret .invalidInput
  | some _, none, _ => s.ret .invalidOutput
  | some _, some _, none => s.ret .invalidOutput
  | some c, some o, some l =>
    if (s.ctx c).life ≠ .active then s.fail .ctxState
    else s.begin [.swFinishCap c alg o l]

end Sys2Proof.Machine

namespace Sys2Proof

/-- The context once its final blocks are compressed (R503). -/
def HashContext.finalize (x : HashContext) (alg : Alg) : HashContext :=
  { x with acc := (Machine.finalBlocks alg (x.bufTake (x.idx alg)) x.bitlen).foldl (Machine.compress alg) x.acc }

end Sys2Proof

namespace Sys2Proof.Machine

/-- The capacity is loaded: refuse one below N, else compress the final blocks and begin to store the digest (R503). -/
def swFinishCapLoaded (c : Nat) (alg : Alg) (out outlen : Buf) (cap : Word64) (s : State) : State × List Frame :=
  if cap.toNat < alg.digestBytes then s.ends .invalidOutput
  else
    (s.setCtx c ((s.ctx c).finalize alg), [.swFinishOut c alg out outlen 0])

/-- The digest byte stored at place j: Digest(alg, ctx.acc)[j], of the accumulator as it is at the store (R503). -/
def swDigestByte (c : Nat) (alg : Alg) (j : Nat) (s : State) : Byte := (digest alg (s.ctx c).acc).getD j 0

/-- Digest byte j is stored: store the next, or the length word after the last (R503). -/
def swFinishStored (c : Nat) (alg : Alg) (out outlen : Buf) (j : Nat) (s : State) : State × List Frame :=
  if j + 1 < alg.digestBytes then (s, [.swFinishOut c alg out outlen (j + 1)])
  else (s, [.finishLen c outlen alg.digestBytes])

/-! ### Per-algorithm entry points (R505 to R516) -/

/-- `sha224_init` (R505). -/
def execSha224Init (ctx : Option Nat) (endian : Endian) (s : State) : Host.Outcome State Fault Refusal :=
  swInit .sha224 ctx endian s

/-- `sha256_init` (R506). -/
def execSha256Init (ctx : Option Nat) (endian : Endian) (s : State) : Host.Outcome State Fault Refusal :=
  swInit .sha256 ctx endian s

/-- `sha384_init` (R507). -/
def execSha384Init (ctx : Option Nat) (endian : Endian) (s : State) : Host.Outcome State Fault Refusal :=
  swInit .sha384 ctx endian s

/-- `sha512_init` (R508). -/
def execSha512Init (ctx : Option Nat) (endian : Endian) (s : State) : Host.Outcome State Fault Refusal :=
  swInit .sha512 ctx endian s

/-- `sha224_update` (R509). -/
def execSha224Update (ctx : Option Nat) (data : Option Buf) (len : Nat) (s : State) :
    Host.Outcome State Fault Refusal :=
  swUpdate .sha224 ctx data len s

/-- `sha256_update` (R510). -/
def execSha256Update (ctx : Option Nat) (data : Option Buf) (len : Nat) (s : State) :
    Host.Outcome State Fault Refusal :=
  swUpdate .sha256 ctx data len s

/-- `sha384_update` (R511). -/
def execSha384Update (ctx : Option Nat) (data : Option Buf) (len : Nat) (s : State) :
    Host.Outcome State Fault Refusal :=
  swUpdate .sha384 ctx data len s

/-- `sha512_update` (R512). -/
def execSha512Update (ctx : Option Nat) (data : Option Buf) (len : Nat) (s : State) :
    Host.Outcome State Fault Refusal :=
  swUpdate .sha512 ctx data len s

/-- `sha224_finish` (R513). -/
def execSha224Finish (ctx : Option Nat) (out outlen : Option Buf) (s : State) : Host.Outcome State Fault Refusal :=
  swFinish .sha224 ctx out outlen s

/-- `sha256_finish` (R514). -/
def execSha256Finish (ctx : Option Nat) (out outlen : Option Buf) (s : State) : Host.Outcome State Fault Refusal :=
  swFinish .sha256 ctx out outlen s

/-- `sha384_finish` (R515). -/
def execSha384Finish (ctx : Option Nat) (out outlen : Option Buf) (s : State) : Host.Outcome State Fault Refusal :=
  swFinish .sha384 ctx out outlen s

/-- `sha512_finish` (R516). -/
def execSha512Finish (ctx : Option Nat) (out outlen : Option Buf) (s : State) : Host.Outcome State Fault Refusal :=
  swFinish .sha512 ctx out outlen s

/-! ### Dispatcher (R520 to R523) -/

/-- `sha_init(ctx, tag, endian)` (R520). -/
def execShaInit (ctx : Option Nat) (tag : Tag) (endian : Endian) (s : State) : Host.Outcome State Fault Refusal :=
  match ctx, tag with
  | none, _ => s.ret .invalidInput
  | some _, .unknown _ => s.ret .error
  | some c, .known alg => swInit alg (some c) endian s

/-- `sha_update(ctx, data, len)` (R521): the context's life is checked before the engine's own arguments (R523, C12). A
context's algorithm is always one of the four, so the rule's Error branch ("unreachable for an Active context") has no
case here (log 18). -/
def execShaUpdate (ctx : Option Nat) (data : Option Buf) (len : Nat) (s : State) : Host.Outcome State Fault Refusal :=
  match ctx with
  | none => s.ret .invalidInput
  | some c =>
    if (s.ctx c).life ≠ .active then s.fail .ctxState else swUpdate (s.ctx c).alg (some c) data len s

/-- `sha_finish(ctx, out, outlen)` (R522), with the check order of R523. -/
def execShaFinish (ctx : Option Nat) (out outlen : Option Buf) (s : State) : Host.Outcome State Fault Refusal :=
  match ctx with
  | none => s.ret .invalidInput
  | some c =>
    if (s.ctx c).life ≠ .active then s.fail .ctxState else swFinish (s.ctx c).alg (some c) out outlen s

end Sys2Proof.Machine
end

