-- ==== Sys2Proof/Machine/Sha.lean ====
section
/-! DEFINITION. Machine/Sha.lean: the SHA unit's bus transactions (R450 to R458) and BUS_ERROR (R311). A read hands its value
to the agent that issued it; a fault is recorded as R656 says. -/

namespace Sys2Proof.Machine

/-- `RD32.SHA_CR` (R450). -/
def execRd32ShaCr (s : State) : Host.Outcome State Fault Refusal :=
  .next (s.drew.setVal ((shaCrValue s.cfg s.sha s.drawn32).setWidth 64))

/-- The SHA unit after INIT with a MODE code (R451). -/
def ShaUnit.init (u : ShaUnit) (m : BitVec 2) : ShaUnit :=
  { u with modeField := m, modeEff := some (algOfMode m), h := initialHash (algOfMode m), fill := 0 }

/-- `WR32.SHA_CR` (R451 when INIT = 1, R452 when INIT = 0). -/
def execWr32ShaCr (v : Word32) (s : State) : Host.Outcome State Fault Refusal :=
  if crInit s.cfg v then
    if s.sha.busy then .next (s.raiseFault .initBusy)
    else .next (s.setSha (s.sha.init (crMode s.cfg v)))
  else .next (s.setSha { s.sha with modeField := crMode s.cfg v })

/-- `RD32.SHA_SR` (R453). -/
def execRd32ShaSr (s : State) : Host.Outcome State Fault Refusal :=
  .next (s.drew.setVal ((shaSrValue s.cfg s.sha s.drawn32).setWidth 64))

/-- The SHA unit once bytes are appended in a mode (R456). -/
def ShaUnit.append (u : ShaUnit) (alg : Alg) (bs : List Byte) : ShaUnit :=
  { u with
    blk := blit u.blk u.fill bs
    fill := u.fill + bs.length
    busy := u.fill + bs.length == alg.blockBytes }

/-- `Append(bs, k)`, the block-input step both widths share (R456). The checks are of the unit's own mode, also when the
writer's context has another algorithm because a procedure on another context performed INIT in between (R664). DESIGN
CHOICE (log 32): where that INIT left a mode with another B, or another writer a part of a block, the faults of R456 are
raised. -/
def State.append (s : State) (bs : List Byte) : State :=
  match s.sha.modeEff with
  | none => s.raiseFault .fifoNoInit
  | some alg =>
    if s.sha.busy then s.raiseFault .fifoBusy
    else if alg.blockBytes < s.sha.fill + bs.length then s.raiseFault .fifoOverrun
    else s.setSha (s.sha.append alg bs)

/-- `WR32.FIFO_IN` (R454). -/
def execWr32FifoIn (v : Word32) (s : State) : Host.Outcome State Fault Refusal :=
  .next (s.append (fifoBytes s.cfg.fifoOrder 4 v.toNat))

/-- `WR64.FIFO_IN` (R455). -/
def execWr64FifoIn (v : Word64) (s : State) : Host.Outcome State Fault Refusal :=
  .next (s.append (fifoBytes s.cfg.fifoOrder 8 v.toNat))

/-- The value a read of a 32-bit slot gives: the slot's, or a fresh draw (R121, R122, R124). -/
def State.slotRead (s : State) (j : Nat) : Word32 := (slotValue s.cfg s.sha j).getD s.drawn32

/-- The state after a read of a 32-bit slot: a draw is taken where the value is one. -/
def State.slotAfter (s : State) (j : Nat) : State := if (slotValue s.cfg s.sha j).isSome then s else s.drew

/-- `RD32.HASH` (R457). -/
def execRd32Hash (j : Fin 16) (s : State) : Host.Outcome State Fault Refusal :=
  .next ((s.slotAfter j).setVal ((s.slotRead j).setWidth 64))

/-- `RD64.HASH`: `slot32(2e) | (slot32(2e+1) << 32)` (R458, R204); where both are draws the lower is drawn first (log 26). -/
def execRd64Hash (e : Fin 8) (s : State) : Host.Outcome State Fault Refusal :=
  let lo := s.slotRead (2 * e)
  let t := s.slotAfter (2 * e)
  let hi := t.slotRead (2 * e + 1)
  .next ((t.slotAfter (2 * e + 1)).setVal (lo.setWidth 64 ||| (hi.setWidth 64 <<< 32)))

/-- `BUS_ERROR`: MF_BUS, and no device state changes (R311). -/
def execBusError (_w _s : Bool) (_rsv : BitVec 2) (_off : BitVec 12) (_v : Word64) (s : State) :
    Host.Outcome State Fault Refusal :=
  .next (s.raiseFault .bus)

end Sys2Proof.Machine
end

