-- ==== Sys2Proof/Machine/Trng.lean ====
section
/-! DEFINITION. Machine/Trng.lean: the TRNG unit's bus transactions (R550 to R557). Every register but TRNG_REV is absent,
and an access to it MF_BUS, when trng_rev = 0 (R557). -/

namespace Sys2Proof.Machine

/-- An access to a TRNG register other than TRNG_REV: MF_BUS when the TRNG is absent (R557), else the register's own
effect. -/
def State.ifTrng (s : State) (t : State) : Host.Outcome State Fault Refusal :=
  if s.trngPresent then .next t else .next (s.raiseFault .bus)

/-- `RD32.TRNG_REV` (R550). -/
def execRd32TrngRev (s : State) : Host.Outcome State Fault Refusal :=
  .next (s.setVal (s.cfg.trngRev.setWidth 64))

/-- `RD32.TRNG_CR` (R551). -/
def execRd32TrngCr (s : State) : Host.Outcome State Fault Refusal :=
  s.ifTrng (s.drew.setVal ((trngCrValue s.cfg s.trng s.drawn32).setWidth 64))

/-- The write leaves test mode before the test is complete: the one case in which HTS is drawn (R552). -/
def TrngUnit.aborts (u : TrngUnit) (start : Bool) : Bool := u.htstart && !start && u.htr

/-- The TRNG unit after a TRNG_CR write of HTSTART and IE, x being the draw for HTS (R552). -/
def TrngUnit.writeCr (u : TrngUnit) (start ie : Bool) (x : Word32) : TrngUnit :=
  if !u.htstart && start then { u with htstart := true, htr := true, rdy := false, ie := ie }
  else if u.aborts start then { u with htstart := false, htr := false, hts := x, ie := ie }
  else { u with htstart := start, ie := ie }

/-- `WR32.TRNG_CR` (R552). -/
def execWr32TrngCr (v : Word32) (s : State) : Host.Outcome State Fault Refusal :=
  let start := crHtstart s.cfg v
  let t := if s.trng.aborts start then s.drew else s
  s.ifTrng (t.setTrng (s.trng.writeCr start (crIe s.cfg v) (htsBits s.cfg.htsW s.drawn32)))

/-- `RD32.TRNG_SR` (R553). -/
def execRd32TrngSr (s : State) : Host.Outcome State Fault Refusal :=
  s.ifTrng (s.drew.setVal ((trngSrValue s.cfg s.trng s.drawn32).setWidth 64))

/-- `RD32.TRNG_TRIM` (R554). -/
def execRd32TrngTrim (s : State) : Host.Outcome State Fault Refusal :=
  s.ifTrng (s.setVal ((trngTrimValue s.cfg s.trng).setWidth 64))

/-- The TRNG unit after a TRNG_TRIM write of TRIM_VAL and LOCK (R555). -/
def TrngUnit.writeTrim (u : TrngUnit) (trim : BitVec 31) (lock : Bool) : TrngUnit :=
  { u with trimVal := if u.lock then u.trimVal else trim, lock := u.lock || lock }

/-- `WR32.TRNG_TRIM` (R555). -/
def execWr32TrngTrim (v : Word32) (s : State) : Host.Outcome State Fault Refusal :=
  s.ifTrng (s.setTrng (s.trng.writeTrim (trimVal s.cfg v) (trimLock s.cfg v)))

/-- `RD32.TRNG_DATA`: in test mode, or with no sample ready, a draw and nothing consumed; else the sample, consumed
(R556). -/
def execRd32TrngData (s : State) : Host.Outcome State Fault Refusal :=
  s.ifTrng (if s.trng.htstart || !s.trng.rdy then s.drew.setVal (s.drawn32.setWidth 64)
    else (s.setTrng { s.trng with rdy := false }).setVal (s.trng.sample.setWidth 64))

end Sys2Proof.Machine
end

