-- ==== Sys2Proof/Machine/TrngDriver.lean ====
section
/-! DEFINITION. Machine/TrngDriver.lean: the TRNG driver's host procedures (R570 to R573). As for the hash procedures, the
meaning is the call, and the functions after it say how the procedure goes on from one access to the next. -/

namespace Sys2Proof.Machine

/-! ### trng_init (R570) -/

/-- `trng_init(h)` (R570). -/
def execTrngInit (h : HandleRef) (s : State) : Host.Outcome State Fault Refusal :=
  match h with
  | .absent => s.ret .invalidInput
  | .present =>
    if s.inIsr then s.fail .isrContext
    else if s.slot.isSome then s.fail .trngOverlap
    else s.begin [.trngInitRev]

/-- `rmw32 TRNG_CR, 0x1, 0`, then return a code: test mode is left before every return (R570). -/
def leaveTest (c : Code) (s : State) : State × List Frame :=
  (s, [.rmwRead s.cfg.layout.trngCr (bitMask s.cfg.layout.htstartBit) 0, .trngInitCleared c])

/-- The revision is read: 0 ends with Error, else lock the trim (R570). -/
def trngInitRevNext (v : Word64) (s : State) : State × List Frame :=
  if v.setWidth 32 = (0 : Word32) then s.ends .error
  else (s, [.rmwRead s.cfg.layout.trngTrim 0 (bitMask s.cfg.layout.lockBit), .trngInitTrimmed])

/-- The trim is locked: start the health test (R570). -/
def trngInitTrimmedNext (s : State) : State × List Frame :=
  (s, [.rmwRead s.cfg.layout.trngCr 0 (bitMask s.cfg.layout.htstartBit), .trngInitStarted])

/-- The status is read: while the test runs look at the data; once it is complete, HTS decides (R570). -/
def trngInitStatusNext (v : Word64) (s : State) : State × List Frame :=
  let x : Word32 := v.setWidth 32
  if getBit s.cfg.layout.htrBit x then (s, [.trngInitData])
  else if getField s.cfg.layout.htsLo s.cfg.htsW x = 0 then leaveTest .ok s
  else leaveTest .rngError s

/-- Data is read during the test: non-zero is a failure (R570). -/
def trngInitDataNext (v : Word64) (s : State) : State × List Frame :=
  if v.setWidth 32 = (0 : Word32) then (s, [.trngInitStatus]) else leaveTest .rngError s

/-! ### trng_acquire_blocking (R571) -/

/-- `trng_acquire_blocking(h)` (R571). The sample it returns beside Ok is the value its agent read last. -/
def execTrngAcquireBlocking (h : HandleRef) (s : State) : Host.Outcome State Fault Refusal :=
  match h with
  | .absent => s.ret .invalidInput
  | .present =>
    if s.inIsr then s.fail .isrContext
    else if s.slot.isSome then s.fail .trngOverlap
    else s.begin [.blockingRev]

/-- The revision is read: 0 ends with InvalidInput (C3), else poll RDY (R571). -/
def blockingRevNext (v : Word64) (s : State) : State × List Frame :=
  if v.setWidth 32 = (0 : Word32) then s.ends .invalidInput
  else (s, [.poll s.cfg.layout.trngSr (bitMask s.cfg.layout.rdyBit) (bitMask s.cfg.layout.rdyBit), .blockingPolled])

/-! ### trng_acquire_async (R572, R576) -/

/-- `trng_acquire_async(h, dst, cb)` (R572). -/
def execTrngAcquireAsync (h : HandleRef) (dst : Option Buf) (cb : Option Nat) (s : State) :
    Host.Outcome State Fault Refusal :=
  match h with
  | .absent => s.ret .invalidInput
  | .present =>
    if !s.cfg.irqRegister then s.ret .invalidInput
    else
      match dst, cb with
      | none, _ => s.ret .invalidOutput
      | some _, none => s.ret .invalidInput
      | some d, some f => if d.addr % 4 ≠ 0 then s.fail .dstAlign else s.begin [.asyncRev d f]

/-- `irq_register` returned 0: the handler is registered and IE is set (R572). -/
def asyncRegistered (s : State) : State × List Frame :=
  (s.setHandler { fn := .trngIsr, ctx := .present },
    [.rmwRead s.cfg.layout.trngCr 0 (bitMask s.cfg.layout.ieBit), .retCode .ok])

/-- The revision is read: absent device, outstanding request, or the request is recorded, then the handler registered;
what `irq_register` returns is a draw (R572, R576; log 16). -/
def asyncRevNext (dst : Buf) (cb : Nat) (v : Word64) (s : State) : State × List Frame :=
  if v.setWidth 32 = (0 : Word32) then s.ends .invalidInput
  else if s.slot.isSome then s.ends .error
  else if s.drawn32 = 0 then asyncRegistered (s.drew.setSlot (some { dst := dst, cb := cb }))
  else (s.drew.setSlot none).ends .error

/-! ### trng_isr (R573) -/

/-- `trng_isr(c)` (R573): a no-op on an absent handle or an empty slot. -/
def execTrngIsr (c : HandleRef) (s : State) : Host.Outcome State Fault Refusal :=
  match c, s.slot with
  | .absent, _ => .next s
  | .present, none => .next s
  | .present, some p => s.begin [.isrData p.dst p.cb]

/-- The sample is stored: clear IE, then free the slot and call back (R573). -/
def isrStored (cb : Nat) (s : State) : State × List Frame :=
  (s, [.rmwRead s.cfg.layout.trngCr (bitMask s.cfg.layout.ieBit) 0, .isrCleared cb])

/-- IE is cleared: free the slot, then call cb(Ok) (R573, R216). -/
def isrClearedNext (cb : Nat) (s : State) : State × List Frame :=
  let t := (s.setSlot none).setCode .ok
  match callbackCode s.callbacks cb with
  | [] => (t, [])
  | op :: ops => (t, [.code (op :: ops)])

/-! ### The driver's phases (R154, R574) -/

/-- The phases the source gives the driver (R574). None is stored (R154). -/
inductive DriverPhase where
  | uninitialized
  | healthTesting
  | ready
  | error
  deriving DecidableEq, Repr

/-- A frame of trng_init between the write that sets HTSTART and the write that clears it (R574). -/
def Frame.healthTesting : Frame → Bool
  | .trngInitStatus | .trngInitData | .trngInitCleared _ => true
  | _ => false

/-- A frame of trng_init (R570). -/
def Frame.ofTrngInit : Frame → Bool
  | .trngInitRev | .trngInitTrimmed | .trngInitStarted => true
  | f => f.healthTesting

/-- HostMain, the only agent that may run trng_init (R570), is inside it. -/
def State.inTrngInit (s : State) : Bool := s.main.stack.any Frame.ofTrngInit

/-- HostMain is inside trng_init's health test. -/
def State.inHealthTest (s : State) : Bool := s.main.stack.any Frame.healthTesting

/-- The phase after a step from s to t: Health-Testing during the test, Ready or Error by the code trng_init returned, and
otherwise unchanged (R574). DESIGN CHOICE (log 31): the calls before the write that sets HTSTART leave the phase as it
was. -/
def DriverPhase.next (p : DriverPhase) (s t : State) : DriverPhase :=
  if t.inHealthTest then .healthTesting
  else if s.inTrngInit && !t.inTrngInit then
    match t.main.code with
    | some .ok => .ready
    | some .error | some .rngError => .error
    | some .invalidInput | some .invalidOutput | none => p
  else p

/-- The phase after n steps of a run that begins at launch: a function of the run (R154, R574). -/
def driverPhase (r : Nat → State) : Nat → DriverPhase
  | 0 => .uninitialized
  | n + 1 => (driverPhase r n).next (r n) (r (n + 1))

end Sys2Proof.Machine
end

