-- ==== Sys2Proof/Machine/Dispatch.lean ====
section
/-! DEFINITION. Machine/Dispatch.lean: one arm per operation of the opcode table. -/

namespace Sys2Proof.Machine

def exec (i : Instr) (s : State) : Host.Outcome State Fault Refusal :=
  match i with
  -- bus transactions (R310)
  | .rd32ShaCr => Sys2Proof.Machine.execRd32ShaCr s
  | .wr32ShaCr v => Sys2Proof.Machine.execWr32ShaCr v s
  | .rd32ShaSr => Sys2Proof.Machine.execRd32ShaSr s
  | .wr32FifoIn v => Sys2Proof.Machine.execWr32FifoIn v s
  | .wr64FifoIn v => Sys2Proof.Machine.execWr64FifoIn v s
  | .rd32Hash j => Sys2Proof.Machine.execRd32Hash j s
  | .rd64Hash e => Sys2Proof.Machine.execRd64Hash e s
  | .rd32TrngRev => Sys2Proof.Machine.execRd32TrngRev s
  | .rd32TrngCr => Sys2Proof.Machine.execRd32TrngCr s
  | .wr32TrngCr v => Sys2Proof.Machine.execWr32TrngCr v s
  | .rd32TrngSr => Sys2Proof.Machine.execRd32TrngSr s
  | .rd32TrngTrim => Sys2Proof.Machine.execRd32TrngTrim s
  | .wr32TrngTrim v => Sys2Proof.Machine.execWr32TrngTrim v s
  | .rd32TrngData => Sys2Proof.Machine.execRd32TrngData s
  | .busError w wide rsv off v => Sys2Proof.Machine.execBusError w wide rsv off v s
  -- autonomous steps (R460, R560, R561, R663)
  | .shaCompress => Sys2Proof.Machine.execShaCompress s
  | .trngHtComplete => Sys2Proof.Machine.execTrngHtComplete s
  | .trngSample => Sys2Proof.Machine.execTrngSample s
  | .irqDeliver => Sys2Proof.Machine.execIrqDeliver s
  -- hardware hash engine (R471 to R477)
  | .hcaShaInit h ctx tag endian => Sys2Proof.Machine.execHcaShaInit h ctx tag endian s
  | .hcaShaUpdate h ctx data len => Sys2Proof.Machine.execHcaShaUpdate h ctx data len s
  | .hcaShaSubmit h blk alg => Sys2Proof.Machine.execHcaShaSubmit h blk alg s
  | .hcaShaFinish h ctx out outlen => Sys2Proof.Machine.execHcaShaFinish h ctx out outlen s
  | .hcaShaRead h alg out n => Sys2Proof.Machine.execHcaShaRead h alg out n s
  -- software hash engine (R505 to R516)
  | .sha224Init ctx endian => Sys2Proof.Machine.execSha224Init ctx endian s
  | .sha256Init ctx endian => Sys2Proof.Machine.execSha256Init ctx endian s
  | .sha384Init ctx endian => Sys2Proof.Machine.execSha384Init ctx endian s
  | .sha512Init ctx endian => Sys2Proof.Machine.execSha512Init ctx endian s
  | .sha224Update ctx data len => Sys2Proof.Machine.execSha224Update ctx data len s
  | .sha256Update ctx data len => Sys2Proof.Machine.execSha256Update ctx data len s
  | .sha384Update ctx data len => Sys2Proof.Machine.execSha384Update ctx data len s
  | .sha512Update ctx data len => Sys2Proof.Machine.execSha512Update ctx data len s
  | .sha224Finish ctx out outlen => Sys2Proof.Machine.execSha224Finish ctx out outlen s
  | .sha256Finish ctx out outlen => Sys2Proof.Machine.execSha256Finish ctx out outlen s
  | .sha384Finish ctx out outlen => Sys2Proof.Machine.execSha384Finish ctx out outlen s
  | .sha512Finish ctx out outlen => Sys2Proof.Machine.execSha512Finish ctx out outlen s
  -- dispatcher (R520 to R522)
  | .shaInit ctx tag endian => Sys2Proof.Machine.execShaInit ctx tag endian s
  | .shaUpdate ctx data len => Sys2Proof.Machine.execShaUpdate ctx data len s
  | .shaFinish ctx out outlen => Sys2Proof.Machine.execShaFinish ctx out outlen s
  -- TRNG driver (R570 to R573)
  | .trngInit h => Sys2Proof.Machine.execTrngInit h s
  | .trngAcquireBlocking h => Sys2Proof.Machine.execTrngAcquireBlocking h s
  | .trngAcquireAsync h dst cb => Sys2Proof.Machine.execTrngAcquireAsync h dst cb s
  | .trngIsr c => Sys2Proof.Machine.execTrngIsr c s

end Sys2Proof.Machine
end

