-- ==== Sys2Proof/Machine/Frames.lean ====
section
/-! DEFINITION. Machine/Frames.lean: how a host agent goes on inside a procedure: the access its innermost frame makes, what
replaces the frame once the access is done, and what a waiting frame does once the frames above it have ended. -/

namespace Sys2Proof.Machine

/-- The access a frame makes at its agent's next step; none for a program and for a frame that waits. -/
def Frame.access (s : State) : Frame → Option Access
  | .poll off _ _ => some (Access.read32 off)
  | .rmwRead off _ _ => some (Access.read32 off)
  | .rmwWrite off v => some (Access.write32 off v)
  | .wrblk _ [] => none
  | .wrblk k (x :: _) =>
    some (if k = 8 then Access.write64 s.cfg.layout.fifoIn x else Access.write32 s.cfg.layout.fifoIn (x.setWidth 32))
  | .initWrite alg => some (Access.write32 s.cfg.layout.shaCr (initValue s.cfg alg))
  | .updateLoad _ _ data _ i _ => some (.load 1 data i)
  | .finishCap _ _ _ outlen => some (.load s.cfg.native.bytes outlen 0)
  | .finishLen _ outlen n => some (.store s.cfg.native.bytes outlen 0 (BitVec.ofNat 64 n))
  | .readWord alg _ k _ => some (readElem s.cfg alg k)
  | .readWordStore alg out k _ v => some (.store alg.wordBytes out (alg.wordBytes * k) (bswap alg.wordBytes v))
  | .readByte alg _ _ k n => some (readElem s.cfg alg (n - 1 - k))
  | .readByteStore alg out len k _ v b =>
    some (.store 1 out (len - 1 - (alg.wordBytes * k + b)) ((byteOf v b).setWidth 64))
  | .swLoad _ _ data _ i _ => some (.load 1 data i)
  | .swFinishCap _ _ _ outlen => some (.load s.cfg.native.bytes outlen 0)
  | .swFinishOut c alg out _ j => some (.store 1 out j ((swDigestByte c alg j s).setWidth 64))
  | .trngInitRev => some (Access.read32 s.cfg.layout.trngRev)
  | .trngInitStatus => some (Access.read32 s.cfg.layout.trngSr)
  | .trngInitData => some (Access.read32 s.cfg.layout.trngData)
  | .blockingRev => some (Access.read32 s.cfg.layout.trngRev)
  | .blockingData => some (Access.read32 s.cfg.layout.trngData)
  | .asyncRev _ _ => some (Access.read32 s.cfg.layout.trngRev)
  | .isrData _ _ => some (Access.read32 s.cfg.layout.trngData)
  | .isrStore dst _ d => some (.store 4 dst 0 (d.setWidth 64))
  | .code _ | .retCode _ | .initPolled _ _ _ | .updateSubmitted _ _ _ _ _ | .submitWritten | .submitPolled
  | .finishSubmitted _ _ _ _ _ | .finishRead _ _ _ | .trngInitTrimmed | .trngInitStarted | .trngInitCleared _
  | .blockingPolled | .isrCleared _ => none

/-- The state and the frames that replace a frame once its access is done; v is the value the access returned. -/
def Frame.onAccess (v : Word64) (s : State) : Frame → State × List Frame
  | .poll off mask val =>
    if v.setWidth 32 &&& mask = val then (s, []) else (s, [.poll off mask val])
  | .rmwRead off clr set => (s, [.rmwWrite off ((v.setWidth 32 &&& ~~~clr) ||| set)])
  | .rmwWrite _ _ => (s, [])
  | .wrblk k (_ :: x :: xs) => (s, [.wrblk k (x :: xs)])
  | .wrblk _ _ => (s, [])
  | .initWrite _ => s.ends .ok
  | .updateLoad c alg data len i idx => updateLoaded c alg data len i idx v s
  | .finishCap c alg out outlen => finishCapLoaded c alg out outlen v s
  | .finishLen c _ _ => finishLenStored c s
  | .readWord alg out k n => (s, [.readWordStore alg out k n v])
  | .readWordStore alg out k n _ => readWordStored alg out k n s
  | .readByte alg out len k n => (s, [.readByteStore alg out len k n v 0])
  | .readByteStore alg out len k n x b => readByteStored alg out len k n x b s
  | .swLoad c alg data len i idx => swLoaded c alg data len i idx v s
  | .swFinishCap c alg out outlen => swFinishCapLoaded c alg out outlen v s
  | .swFinishOut c alg out outlen j => swFinishStored c alg out outlen j s
  | .trngInitRev => trngInitRevNext v s
  | .trngInitStatus => trngInitStatusNext v s
  | .trngInitData => trngInitDataNext v s
  | .blockingRev => blockingRevNext v s
  | .blockingData => s.ends .ok
  | .asyncRev dst cb => asyncRevNext dst cb v s
  | .isrData dst cb => (s, [.isrStore dst cb (v.setWidth 32)])
  | .isrStore _ cb _ => isrStored cb s
  | .code ops => (s, [.code ops])
  | .retCode c => (s, [.retCode c])
  | .initPolled c alg e => (s, [.initPolled c alg e])
  | .updateSubmitted c alg data len i => (s, [.updateSubmitted c alg data len i])
  | .submitWritten => (s, [.submitWritten])
  | .submitPolled => (s, [.submitPolled])
  | .finishSubmitted c alg out outlen bs => (s, [.finishSubmitted c alg out outlen bs])
  | .finishRead c alg outlen => (s, [.finishRead c alg outlen])
  | .trngInitTrimmed => (s, [.trngInitTrimmed])
  | .trngInitStarted => (s, [.trngInitStarted])
  | .trngInitCleared c => (s, [.trngInitCleared c])
  | .blockingPolled => (s, [.blockingPolled])
  | .isrCleared cb => (s, [.isrCleared cb])

/-- What a frame does when it is innermost and its agent's step is not over: a waiting frame goes on, a program with
nothing left ends; none for a frame whose access is a step of its own and for a program with operations left. -/
def Frame.onReturn (s : State) : Frame → Option (State × List Frame)
  | .code [] => some (s, [])
  | .wrblk _ [] => some (s, [])
  | .retCode c => some (s.ends c)
  | .initPolled c alg e => some (initPolledNext c alg e s)
  | .updateSubmitted c alg data len i => some (updateSubmittedNext c alg data len i s)
  | .submitWritten => some (submitWrittenNext s)
  | .submitPolled => some (submitPolledNext s)
  | .finishSubmitted c alg out outlen bs => some (finishSubmittedNext c alg out outlen bs s)
  | .finishRead c alg outlen => some (s, [.finishLen c outlen alg.digestBytes])
  | .trngInitTrimmed => some (trngInitTrimmedNext s)
  | .trngInitStarted => some (s, [.trngInitStatus])
  | .trngInitCleared c => some (s.ends c)
  | .blockingPolled => some (s, [.blockingData])
  | .isrCleared cb => some (isrClearedNext cb s)
  | .code (_ :: _) | .wrblk _ (_ :: _) | .poll _ _ _ | .rmwRead _ _ _ | .rmwWrite _ _ | .initWrite _
  | .updateLoad _ _ _ _ _ _ | .finishCap _ _ _ _ | .finishLen _ _ _ | .readWord _ _ _ _
  | .readWordStore _ _ _ _ _ | .readByte _ _ _ _ _ | .readByteStore _ _ _ _ _ _ _ | .swLoad _ _ _ _ _ _
  | .swFinishCap _ _ _ _ | .swFinishOut _ _ _ _ _ | .trngInitRev | .trngInitStatus | .trngInitData
  | .blockingRev | .blockingData | .asyncRev _ _ | .isrData _ _ | .isrStore _ _ _ => none

/-- End a step: every waiting frame that is innermost goes on, until the innermost frame is one the agent's next step
begins with. -/
def settle : List Frame → State → State
  | [], s => s.setStack []
  | f :: fs, s =>
    match f.onReturn s with
    | none => s.setStack (f :: fs)
    | some (t, []) => settle fs t
    | some (t, g :: gs) => t.setStack (g :: gs ++ fs)

/-- End a step of the acting agent: an agent that raised a model fault stays where it is (R656); a handler with nothing
left returns (R666). -/
def State.endStep (s : State) : State :=
  if s.thread.stopped then s
  else
    let t := settle s.thread.stack s
    if t.inIsr && t.isr.stack.isEmpty then t.leaveIsr else t

end Sys2Proof.Machine
end

