-- ==== Sys2Proof/Machine/Agents.lean ====
section
/-! DEFINITION. Machine/Agents.lean: one step of a host agent (R32), the free choice of the next step (R668), and the host's
side of a step: the operation a program issues, as its descriptor decodes (R310). -/

namespace Sys2Proof.Machine

/-- Go on from a next state; a fault or refusal stays. -/
def onNext (o : Host.Outcome State Fault Refusal) (g : State → State) : Host.Outcome State Fault Refusal :=
  match o with
  | .next s => .next (g s)
  | .fault r => .fault r
  | .refused r => .refused r

/-- Perform an access: a transaction is decoded and executed (R310), a caller-memory access is made (R206). -/
def perform (a : Access) (s : State) : Host.Outcome State Fault Refusal :=
  match a with
  | .bus d v => exec (decodeTx s.cfg.layout d v) s
  | .load k b off => .next (s.load k b off)
  | .store k b off v => .next (s.store k b off v)

/-- The access of a frame is done: the frames that replace it go above the frames fs, and the step ends; an agent whose
access raised a model fault stays where it is (R656). -/
def afterAccess (f : Frame) (fs : List Frame) (t : State) : State :=
  if t.thread.stopped then t
  else
    let r := f.onAccess t.thread.val t
    (r.1.setStack (r.2 ++ fs)).endStep

/-- One step of an agent inside frame f, above the frames fs: its access, or going on without one. -/
def frameStep (f : Frame) (fs : List Frame) (s : State) : Host.Outcome State Fault Refusal :=
  match f.access s with
  | some a => onNext (perform a s) (afterAccess f fs)
  | none => .next (s.setStack (f :: fs)).endStep

/-- One step of an agent that enters frame f above the frames fs. -/
def enterStep (f : Frame) (fs : List Frame) (s : State) : Host.Outcome State Fault Refusal :=
  frameStep f fs (s.setStack (f :: fs))

/-- The state in which a program has issued its next operation: ops are left of it. -/
def State.issued (s : State) (ops : List HostOp) (fs : List Frame) : State := s.setStack (.code ops :: fs)

/-- One step of a program whose next operation is op: ops are left of it, above the frames fs (log 8, log 22). Its own loads
and stores are given no buffer, so that any caller memory is theirs (log 10). DESIGN CHOICE (log 30): a handler may issue
poll32, since only a procedure that polls raises MF_ISR_CONTEXT (R655). -/
def opStep (op : HostOp) (ops : List HostOp) (fs : List Frame) (s : State) : Host.Outcome State Fault Refusal :=
  match op with
  | .bus d v => onNext (exec (decodeTx s.cfg.layout d v) (s.issued ops fs)) State.endStep
  | .call i _ => onNext (exec i (s.issued ops fs)) State.endStep
  | .memLd k a => .next ((s.issued ops fs).load k { addr := a, size := k } 0).endStep
  | .memSt k a v => .next ((s.issued ops fs).store k { addr := a, size := k } 0 v).endStep
  | .poll32 off mask val => enterStep (.poll off mask val) (.code ops :: fs) s
  | .rmw32 off clr set => enterStep (.rmwRead off clr set) (.code ops :: fs) s
  | .wrblk bytes k => enterStep (.wrblk k (fifoWords s.cfg.fifoOrder k (bytes.length / k) bytes)) (.code ops :: fs) s

/-- One step of the acting host agent (R11, R32). -/
def hostStep (s : State) : Host.Outcome State Fault Refusal :=
  match s.thread.stack with
  | [] => .refused (.notEnabled "host step")
  | .code (op :: ops) :: fs => opStep op ops fs s
  | f :: fs => frameStep f fs s

/-- Take a step of R668. -/
def runStep (k : StepKind) (s : State) : Host.Outcome State Fault Refusal :=
  match k with
  | .hostMain => hostStep s
  | .hostIsr => hostStep s
  | .shaCompress => exec .shaCompress s
  | .trngHtComplete => exec .trngHtComplete s
  | .trngSample => exec .trngSample s
  | .irqDeliver => exec .irqDeliver s

/-- Take the steps of a schedule in order: what an interleaving does (R215). -/
def runSchedule : List StepKind → State → Host.Outcome State Fault Refusal
  | [], s => .next s
  | k :: ks, s =>
    match runStep k s with
    | .next t => runSchedule ks t
    | .fault r => .fault r
    | .refused r => .refused r

/-- A step begins: host_irq_on is drawn for it (R25). -/
def State.beginStep (s : State) : State :=
  { s with inputs := { s.inputs with
      irqOn := s.inputs.irqOn.tail
      hostIrqOn := s.inputs.irqOn.headD (Config.freeIrqOn s.inputs.count)
      count := s.inputs.count + 1 } }

/-- The steps of R668. -/
def allSteps : List StepKind := [.hostMain, .hostIsr, .shaCompress, .trngHtComplete, .trngSample, .irqDeliver]

/-- The steps enabled in a state (R668). -/
def State.enabledSteps (s : State) : List StepKind := allSteps.filter s.enabled

/-- Which of the enabled steps happens next, a free choice (R668): the one the environment names if it is enabled, else
any; none when no step is enabled. -/
def State.chooseStep (s : State) : Option StepKind :=
  match s.enabledSteps with
  | [] => none
  | e :: es =>
    match s.inputs.sched with
    | k :: _ => if s.enabled k then some k else some ((e :: es).getD (Config.freeChoice s.inputs.count % (e :: es).length) e)
    | [] => some ((e :: es).getD (Config.freeChoice s.inputs.count % (e :: es).length) e)

/-- The choice is made. -/
def State.chose (s : State) : State :=
  { s with inputs := { s.inputs with sched := s.inputs.sched.tail, count := s.inputs.count + 1 } }

/-- The acting agent's step kind (R152). -/
def State.hostKind (s : State) : StepKind := if s.inIsr then .hostIsr else .hostMain

/-- The acting host agent, not stopped, is about to issue a transaction, and the environment's choice for the next step
is that agent. -/
def State.placeTx (s : State) (d : BitVec 16) (v : Word64) : State :=
  let t := s.setThread { s.thread with stack := .code [.bus d v] :: s.thread.stack, stopped := false }
  { t with inputs := { t.inputs with sched := s.hostKind :: t.inputs.sched } }

end Sys2Proof.Machine
end

