-- ==== Sys2Proof/Machine/Step.lean ====
section
/-! DEFINITION. Machine/Step.lean: one step of the machine: host_irq_on is drawn, one of the enabled steps is chosen, and it
is taken (R11, R25, R668); while none is enabled the machine holds. -/

namespace Sys2Proof.Machine

/-- One step of the machine (R668). While no step of any agent is enabled every agent holds, "no step until then" (R31), and
only the free inputs go on, host_irq_on being drawn anew (R25; log 7). -/
def step (s : State) : Host.Outcome State Fault Refusal :=
  match s.beginStep.chooseStep with
  | none => .next s.beginStep.chose
  | some k => runStep k s.beginStep.chose

/-- The state in which the next step of the machine issues the transaction whose bits are w: the descriptor in bits
15..0, the write data from bit 16 on, every bit from nbits on 0. The block fetches no instructions (R102): the host agent
that may step is given this transaction as the next operation of its program, and the choice of the next step is that
agent (log 2). -/
def State.withFetchWord (s : State) (nbits w : Nat) : State :=
  s.placeTx (BitVec.ofNat 16 (w % 2 ^ nbits)) (BitVec.ofNat 64 (w % 2 ^ nbits / 2 ^ 16))

end Sys2Proof.Machine
end

