-- ==== Sys2Proof/Safety.lean ====
section
/-! DEFINITION. Safety.lean: the terms claims use: the invariants of the two units, of the host side and of the whole
machine, runs of the machine, and weak fairness (R711). -/

namespace Sys2Proof.Machine

/-- What the SHA unit's registers satisfy (R110 to R114): fill is a multiple of 4 and at most B; busy = 1 exactly while
fill = B; before any INIT nothing is buffered; in the 32-bit modes the upper half of each storage word is zero. -/
def ShaInv (u : ShaUnit) : Prop :=
  match u.modeEff with
  | none => u.fill = 0 ∧ u.busy = false
  | some alg =>
    u.fill % 4 = 0 ∧ u.fill ≤ alg.blockBytes ∧ (u.busy = true ↔ u.fill = alg.blockBytes) ∧
      (alg.wordBytes = 4 → ∀ i, (hi : i < 8) → u.h[i].toNat < 2 ^ 32)

/-- What the TRNG unit's registers satisfy (R132, R135): no test runs in NORMAL, no sample is ready in test mode, HTS
holds HTS_W bits. -/
def TrngInv (htsW : Nat) (u : TrngUnit) : Prop :=
  (u.htstart = false → u.htr = false) ∧ (u.htstart = true → u.rdy = false) ∧ htsBits htsW u.hts = u.hts

/-- A set of faults in its one form: the order of R655's table, no fault twice. -/
abbrev FaultsWf (fs : List ModelFault) : Prop := fs.Pairwise fun f g => f.rank < g.rank

/-- Contexts in their one form: references strictly rising. -/
abbrev CtxsWf (cs : List (Nat × HashContext)) : Prop := cs.Pairwise fun x y => x.1 < y.1

/-- The invariant of the machine: both units, the memory, the contexts and the faults. -/
def Inv (s : State) : Prop :=
  ShaInv s.sha ∧ TrngInv s.cfg.htsW s.trng ∧ Memory.wf s.mem ∧ CtxsWf s.ctxs ∧ FaultsWf s.faults

/-! ### Messages and contexts -/

/-- The full blocks of a message (R432). -/
def blocksOf (alg : Alg) (m : List Byte) : List (List Byte) := fullBlocks alg.blockBytes (m.length / alg.blockBytes) m

/-- The bytes of a message after its last full block (R432). -/
def tailOf (alg : Alg) (m : List Byte) : List Byte := m.drop (m.length / alg.blockBytes * alg.blockBytes)

/-- The bytes an Active context has buffered: buf[0..idx) (R142). -/
def buffered (alg : Alg) (x : HashContext) : List Byte := x.bufTake (x.idx alg)

/-- What an update of len bytes bs leaves of a context, but for the engine's own hash state (R472, R502): the bytes not yet
in a full block are buffered, and the counter has advanced once by 8·len. -/
def Buffers (alg : Alg) (x : HashContext) (bs : List Byte) (y : HashContext) : Prop :=
  y.alg = x.alg ∧ y.endian = x.endian ∧ y.life = x.life ∧ y.bitlen = x.bitlen + BitVec.ofNat 64 (8 * bs.length) ∧
    y.bufTake (tailOf alg (buffered alg x ++ bs)).length = tailOf alg (buffered alg x ++ bs)

/-- A context holds what an init and updates with a message's bytes leave, whatever the chunks, but for the engine's own hash
state (R142, R502, R504). -/
def HoldsMessage (alg : Alg) (x : HashContext) (m : List Byte) : Prop :=
  x.alg = alg ∧ x.life = .active ∧ x.bitlen = BitVec.ofNat 64 (8 * m.length) ∧
    x.bufTake (tailOf alg m).length = tailOf alg m

/-- The hash state once the full blocks of a message are compressed (R432). -/
def stateAfter (alg : Alg) (m : List Byte) : HashState := (blocksOf alg m).foldl (compress alg) (initialHash alg)

/-- The state with other free inputs. -/
def State.withInputs (s : State) (i : Inputs) : State := { s with inputs := i }

/-! ### Schedules and draws of a procedure -/

/-- The state once n further draws are taken (R31). -/
def State.drewN (s : State) : Nat → State
  | 0 => s
  | n + 1 => (s.drewN n).drew

/-- The step kinds of one block submission whose first poll already finds the unit idle (R473, R460): the block's writes,
the compression, the poll. -/
def submitSteps (k : StepKind) (alg : Alg) : List StepKind :=
  List.replicate (alg.blockBytes / alg.fifoBytes) k ++ [.shaCompress, k]

/-- The step kinds of an update with n data bytes from buffer index idx on (R472): a load per byte, and a submission when
the buffer is full. -/
def updateSteps (k : StepKind) (alg : Alg) : Nat → Nat → List StepKind
  | _, 0 => []
  | idx, n + 1 =>
    k :: (if idx + 1 = alg.blockBytes then submitSteps k alg ++ updateSteps k alg 0 n else updateSteps k alg (idx + 1) n)

/-- The number of steps of the register read step (R478 to R480): per element a read, and one store on the word path or a
store per byte on the byte path. -/
def readSteps (c : Config) (alg : Alg) (out : Buf) : Nat :=
  if out.addr % c.native.bytes = 0 then 2 * alg.elems else (1 + alg.wordBytes) * alg.elems

/-- The step kinds of a finish from its first submission on, n final blocks remaining (R475): the submissions, the register
read step, the store of the length word. -/
def finishSteps (k : StepKind) (c : Config) (alg : Alg) (out : Buf) : Nat → List StepKind
  | 0 => List.replicate (readSteps c alg out) k ++ [k]
  | n + 1 => submitSteps k alg ++ finishSteps k c alg out n

/-- No one of the next n submissions fails (R474), each drawing once for its poll's reserved bits and then once for the
failure: either failures are not admitted, or no failure draw has bit 0 set. -/
def SubmitsSucceed (s : State) (n : Nat) : Prop :=
  s.cfg.submitMayFail = true → ∀ j < n, (s.drewN (2 * j + 1)).drawn.getLsbD 0 = false

/-- What a submission answers once the unit has been polled q times (R473, R474). -/
def submitCode (s : State) (q : Nat) : Code :=
  if s.cfg.submitMayFail && (s.drewN q).drawn.getLsbD 0 then .error else .ok

/-- How many draws a submission takes with q polls (R473, R474). -/
def submitDraws (s : State) (q : Nat) : Nat := if s.cfg.submitMayFail then q + 1 else q

/-- The SHA unit once a block is submitted and compressed (R456, R460). -/
def ShaUnit.submitted (u : ShaUnit) (alg : Alg) (blk : List Byte) : ShaUnit :=
  { u with blk := blit u.blk 0 blk, h := compress alg u.h blk, fill := 0, busy := false }

/-- The TRNG unit while trng_init's health test runs (R552, R555): locked, in test mode, no sample. -/
def TrngUnit.testing (u : TrngUnit) : TrngUnit := { u with lock := true, htstart := true, htr := true, rdy := false }

/-- The SHA unit is at a block boundary of a message: INIT has been done in this mode and nothing is buffered or pending
(R110, R111, R114). -/
def ShaIdle (u : ShaUnit) (alg : Alg) : Prop := u.modeEff = some alg ∧ u.busy = false ∧ u.fill = 0

/-- The state when the acting agent goes on with the frames fs: what it was inside is resumed, and the step ends. -/
def State.resume (s : State) (fs : List Frame) : State := (s.setStack fs).endStep

/-! ### Steps and runs of the machine -/

/-- The operation of a device or platform step. -/
def StepKind.event : StepKind → Option Instr
  | .hostMain | .hostIsr => none
  | .shaCompress => some .shaCompress
  | .trngHtComplete => some .trngHtComplete
  | .trngSample => some .trngSample
  | .irqDeliver => some .irqDeliver

/-- The state in which the chosen step is taken: s but for its inputs. -/
def State.chosen (s : State) : State := s.beginStep.chose

/-- An infinite run of the machine. -/
def IsRun (r : Nat → State) : Prop := ∀ n, step (r n) = .next (r (n + 1))

/-- The step the machine takes in a state. -/
def taken (s : State) : Option StepKind := s.beginStep.chooseStep

/-- A step is enabled for the machine's next step, host_irq_on being drawn. -/
def ready (s : State) (k : StepKind) : Bool := s.beginStep.enabled k

/-- Weak fairness of the device and platform steps (R711; log 19): a device step that stays enabled from some point on is
taken, and so is IRQ.DELIVER when from some point on an interrupt waits, whatever host_irq_on is drawn: "host_irq_on is not
false forever" (R25, R711). -/
def WeaklyFair (r : Nat → State) : Prop :=
  (∀ k ∈ [StepKind.shaCompress, .trngHtComplete, .trngSample],
    ∀ n, (∀ m, n ≤ m → ready (r m) k = true) → ∃ m, n ≤ m ∧ taken (r m) = some k) ∧
    ∀ n, (∀ m, n ≤ m → (r m).irqWaits = true) → ∃ m, n ≤ m ∧ taken (r m) = some .irqDeliver

end Sys2Proof.Machine
end

