-- ==== Sys2Proof/WellFormed.lean ====
section
/-! DEFINITION. WellFormed.lean: what an operation must satisfy beyond its types. A BUS_ERROR carries a descriptor that no
other row admits (R310, R311) and write data of the transaction's width (R300); `hca_sha_submit` takes one whole block of
its algorithm (R473); `hca_sha_read` is asked for the digest length of its algorithm (R475, R477). -/

namespace Sys2Proof

/-- Well-formedness of an operation under a layout. -/
def Instr.wellFormed (L : Layout) : Instr → Bool
  | .busError w s rsv off v => !admitted L (descriptor w s rsv off) && busData w s v == v
  | .hcaShaSubmit _ blk alg => blk.length == alg.blockBytes
  | .hcaShaRead _ alg _ n => n == alg.digestBytes
  | .rd32ShaCr | .wr32ShaCr _ | .rd32ShaSr | .wr32FifoIn _ | .wr64FifoIn _ | .rd32Hash _ | .rd64Hash _
  | .rd32TrngRev | .rd32TrngCr | .wr32TrngCr _ | .rd32TrngSr | .rd32TrngTrim | .wr32TrngTrim _ | .rd32TrngData
  | .shaCompress | .trngHtComplete | .trngSample | .irqDeliver
  | .hcaShaInit _ _ _ _ | .hcaShaUpdate _ _ _ _ | .hcaShaFinish _ _ _ _
  | .sha224Init _ _ | .sha256Init _ _ | .sha384Init _ _ | .sha512Init _ _
  | .sha224Update _ _ _ | .sha256Update _ _ _ | .sha384Update _ _ _ | .sha512Update _ _ _
  | .sha224Finish _ _ _ | .sha256Finish _ _ _ | .sha384Finish _ _ _ | .sha512Finish _ _ _
  | .shaInit _ _ _ | .shaUpdate _ _ _ | .shaFinish _ _ _
  | .trngInit _ | .trngAcquireBlocking _ | .trngAcquireAsync _ _ _ | .trngIsr _ => true

end Sys2Proof
end

