-- ==== Sys2Proof/Certificates/Slice0/Obligations.lean ====
section
/-! DEFINITION. Certificates/Slice0/Obligations.lean: the statements for the provers. A run of a procedure is written as its
call, `exec i s` answering a next state u, and a schedule that takes u to the state in which the procedure has returned;
`t.resume s.thread.stack` is the end of that return: the agent goes on with what it was inside at the call. Every update of
the end state is written out, so what is not named there is unchanged. -/

open Sys2Proof Sys2Proof.Machine

/-! ## Reset and invariants -/

/-- The state after reset, for every value of the parameters and of the reset draws (R701, R703). -/
def Obligations.ResetState : Prop :=
  ∀ (c : Config) (r : ResetDraws),
    let s := State.resetWith c r
    s.cfg = c ∧ s.sha.modeEff = none ∧ s.sha.fill = 0 ∧ s.sha.busy = false ∧ s.sha.modeField = r.modeField ∧
      s.sha.blk = r.blk ∧ s.sha.h = r.h ∧
      s.trng.htstart = false ∧ s.trng.ie = false ∧ s.trng.htr = false ∧ s.trng.rdy = false ∧ s.trng.lock = false ∧
      s.trng.hts = htsBits c.htsW r.hts ∧ s.trng.trimVal = r.trimVal ∧ s.trng.sample = r.sample ∧
      s.trng.mode = .normal ∧ s.irqTrng = false ∧
      s.inIsr = false ∧ s.faults = [] ∧ s.irqHandler = none ∧ s.slot = none ∧ ∀ k, (s.ctx k).life = .uninit

/-- The state after reset meets the invariant of the machine. -/
def Obligations.ResetMeetsInvariant : Prop :=
  ∀ (c : Config) (r : ResetDraws), Inv (State.resetWith c r)

/-- Every step of the machine keeps the invariant: fill a multiple of 4 and at most B, busy exactly at B, 32-bit state words
(R110 to R114); no test in NORMAL, no sample in test mode, HTS of HTS_W bits (R132, R135); memory, contexts and faults
in their one form. -/
def Obligations.StepKeepsInvariant : Prop :=
  ∀ s t : State, Inv s → step s = .next t → Inv t

/-- No step clears a recorded fault, and none is recorded at reset (R153). -/
def Obligations.FaultsAreNeverCleared : Prop :=
  (∀ s t : State, step s = .next t → ∀ f ∈ s.faults, f ∈ t.faults) ∧
    ∀ (c : Config) (r : ResetDraws), (State.resetWith c r).faults = []

/-- What no step changes: the parameters, the callbacks, which addresses are caller memory, the trim lock once set and with
it the trim value (R17, R133, R202, R728, R732). -/
def Obligations.StepKeepsLockAndParameters : Prop :=
  ∀ s t : State, step s = .next t →
    t.cfg = s.cfg ∧ t.callbacks = s.callbacks ∧ (∀ a, (memRead t.mem a).isSome = (memRead s.mem a).isSome) ∧
      (s.trng.lock = true → t.trng.lock = true ∧ t.trng.trimVal = s.trng.trimVal)

/-- An agent that raised a model fault takes no further step, and a handler that did never returns (R656). -/
def Obligations.StoppedAgentStays : Prop :=
  ∀ s t : State, step s = .next t →
    (s.main.stopped = true → t.main = s.main) ∧
      (s.inIsr = true → s.isr.stopped = true → t.isr = s.isr ∧ t.inIsr = true)

/-- While in_isr = 1 HostMain takes no step and no interrupt is delivered; in_isr rises by IRQ.DELIVER alone and falls by a
step of the handler alone (R152, R663, R666). -/
def Obligations.InterruptsDoNotNest : Prop :=
  ∀ s t : State, step s = .next t →
    (s.inIsr = true → t.main = s.main ∧ taken s ≠ some .hostMain ∧ taken s ≠ some .irqDeliver ∧
      (t.inIsr = false → taken s = some .hostIsr)) ∧
      (s.inIsr = false → (t.inIsr = true ↔ taken s = some .irqDeliver))

/-! ## Decoding -/

/-- The admitted descriptors of the reference layout, as R310 lists them, and one that is not; and at that layout every
descriptor decodes by the first row of the opcode table whose mask and match it meets (R310). -/
def Obligations.TableDescriptors : Prop :=
  ∀ v : Word64,
    (∀ d : BitVec 16, decodeTx Layout.reference d v =
      busInstr Layout.reference (tableRows.findIdx fun row => d &&& row.1 == row.2) d v) ∧
    decodeTx Layout.reference 0x0000 v = .rd32ShaCr ∧
    decodeTx Layout.reference 0x8000 v = .wr32ShaCr (v.setWidth 32) ∧
    decodeTx Layout.reference 0x0004 v = .rd32ShaSr ∧
    decodeTx Layout.reference 0x8008 v = .wr32FifoIn (v.setWidth 32) ∧
    decodeTx Layout.reference 0xC008 v = .wr64FifoIn v ∧
    decodeTx Layout.reference 0x0040 v = .rd32Hash 0 ∧
    decodeTx Layout.reference 0x007C v = .rd32Hash 15 ∧
    decodeTx Layout.reference 0x4040 v = .rd64Hash 0 ∧
    decodeTx Layout.reference 0x4078 v = .rd64Hash 7 ∧
    decodeTx Layout.reference 0x0100 v = .rd32TrngRev ∧
    decodeTx Layout.reference 0x0104 v = .rd32TrngCr ∧
    decodeTx Layout.reference 0x8104 v = .wr32TrngCr (v.setWidth 32) ∧
    decodeTx Layout.reference 0x0108 v = .rd32TrngSr ∧
    decodeTx Layout.reference 0x010C v = .rd32TrngTrim ∧
    decodeTx Layout.reference 0x810C v = .wr32TrngTrim (v.setWidth 32) ∧
    decodeTx Layout.reference 0x0110 v = .rd32TrngData ∧
    decodeTx Layout.reference 0x407C v = .busError false true 0 0x07C 0

/-- Every well-formed bus transaction, at every operand and under every layout, decodes back from its bytes. The byte image
is the model's own (log 5). -/
def Obligations.DecodeOfEncode : Prop :=
  ∀ L : Layout, L.OffsetsWf → ∀ i : Instr, i.wellFormed L = true → i.kind = .bus →
    ∃ bs, encode L i = some bs ∧ ∀ rest, decodeBytes L (bs ++ rest) = .ok (i, rest)

/-- Decoding is total, gives a well-formed bus transaction, and loses nothing of the descriptor or the write data (R300,
R310). -/
def Obligations.EncodeOfDecode : Prop :=
  ∀ L : Layout, L.OffsetsWf → ∀ (d : BitVec 16) (v : Word64),
    (decodeTx L d v).kind = .bus ∧ (decodeTx L d v).wellFormed L = true ∧
      encodeTx L (decodeTx L d v) = some (d, busData (descW d) (descS d) v)

/-- Which transactions are BUS_ERROR, under every layout, and what BUS_ERROR does: MF_BUS is recorded, the agent stops, and
nothing else changes (R302, R311). -/
def Obligations.IllegalTransactions : Prop :=
  (∀ L : Layout, L.OffsetsWf → ∀ (w sz : Bool) (rsv : BitVec 2) (off : BitVec 12) (v : Word64),
    let legal : Prop := rsv = 0 ∧
      match w, sz with
      | false, false =>
        off ∈ [L.shaCr, L.shaSr, L.trngRev, L.trngCr, L.trngSr, L.trngTrim, L.trngData] ∨
          (L.hash.toNat ≤ off.toNat ∧ off.toNat < L.hash.toNat + 64 ∧ off.toNat % 4 = 0)
      | false, true => L.hash.toNat ≤ off.toNat ∧ off.toNat < L.hash.toNat + 64 ∧ off.toNat % 8 = 0
      | true, false => off ∈ [L.shaCr, L.fifoIn, L.trngCr, L.trngTrim]
      | true, true => off = L.fifoIn
    (¬ legal → decodeTx L (descriptor w sz rsv off) v = .busError w sz rsv off (busData w sz v)) ∧
      (legal → ∀ a b r o x, decodeTx L (descriptor w sz rsv off) v ≠ .busError a b r o x)) ∧
    ∀ (w sz : Bool) (rsv : BitVec 2) (off : BitVec 12) (v : Word64) (s : State),
      ∃ t, exec (.busError w sz rsv off v) s = .next t ∧ (∀ f, f ∈ t.faults ↔ f = .bus ∨ f ∈ s.faults) ∧
        t.thread = { s.thread with stopped := true } ∧ (s.inIsr = true → t.main = s.main) ∧
        (s.inIsr = false → t.isr = s.isr) ∧ t.cfg = s.cfg ∧ t.sha = s.sha ∧ t.trng = s.trng ∧
        (∀ a, memRead t.mem a = memRead s.mem a) ∧ (∀ c, t.ctx c = s.ctx c) ∧ t.slot = s.slot ∧
        t.irqHandler = s.irqHandler ∧ t.inIsr = s.inIsr ∧ t.callbacks = s.callbacks ∧ t.inputs = s.inputs

/-- A step that raises a model fault, one already recorded too, changes no state besides recording it, and stops its agent
(R656); what the agent was inside, and the free inputs the step took, are the model's own. That a step raised a fault shows in
the set of faults or in an agent that stops. -/
def Obligations.FaultingStepChangesNothingElse : Prop :=
  ∀ s t : State, step s = .next t →
    (t.faults ≠ s.faults ∨ (s.main.stopped = false ∧ t.main.stopped = true) ∨
      (s.isr.stopped = false ∧ t.isr.stopped = true)) →
    ∃ f, (∀ g, g ∈ t.faults ↔ g = f ∨ g ∈ s.faults) ∧ t.thread.stopped = true ∧ t.cfg = s.cfg ∧ t.sha = s.sha ∧
      t.trng = s.trng ∧ t.mem = s.mem ∧ t.ctxs = s.ctxs ∧ t.slot = s.slot ∧ t.irqHandler = s.irqHandler ∧
      t.inIsr = s.inIsr ∧ (s.inIsr = true → t.main = s.main) ∧ (s.inIsr = false → t.isr = s.isr)

/-! ## The SHA unit's transactions -/

/-- Reads of SHA_CR (R450) and SHA_SR (R453): the fields, and the reserved bits. That one draw supplies all the reserved bits
of a read is the model's choice (log 26). -/
def Obligations.ReadShaRegisters : Prop :=
  ∀ s : State, s.cfg.Wf →
    (∃ v : Word32, exec .rd32ShaCr s = .next (s.drew.setVal (v.setWidth 64)) ∧ crMode s.cfg v = s.sha.modeField ∧
      crInit s.cfg v = false ∧
      ∀ i, (i < s.cfg.layout.modeLo ∨ s.cfg.layout.modeLo + 2 ≤ i) → i ≠ s.cfg.layout.initBit →
        getBit i v = getBit i s.drawn32) ∧
      ∃ v : Word32, exec .rd32ShaSr s = .next (s.drew.setVal (v.setWidth 64)) ∧
        getBit s.cfg.layout.busyBit v = s.sha.busy ∧ ∀ i, i ≠ s.cfg.layout.busyBit → getBit i v = getBit i s.drawn32

/-- Writes of SHA_CR, with INIT = 1 on an idle and on a busy unit and with INIT = 0 (R451, R452). -/
def Obligations.WriteShaCr : Prop :=
  ∀ (s : State) (v : Word32),
    (crInit s.cfg v = true → s.sha.busy = false → exec (.wr32ShaCr v) s = .next (s.setSha
      { modeField := crMode s.cfg v
        modeEff := some (algOfMode (crMode s.cfg v))
        fill := 0
        blk := s.sha.blk
        h := initialHash (algOfMode (crMode s.cfg v))
        busy := false })) ∧
      (crInit s.cfg v = true → s.sha.busy = true → exec (.wr32ShaCr v) s = .next (s.raiseFault .initBusy)) ∧
      (crInit s.cfg v = false →
        exec (.wr32ShaCr v) s = .next (s.setSha { s.sha with modeField := crMode s.cfg v }))

/-- The fields of the registers at the reference layout, the MODE codes, and the places of the state words in the digest
span (R120, R303 to R308). -/
def Obligations.ReferenceFields : Prop :=
  (∀ v : Word32,
    crMode Config.reference v = v.extractLsb' 0 2 ∧ crInit Config.reference v = v.getLsbD 4 ∧
      crHtstart Config.reference v = v.getLsbD 0 ∧ crIe Config.reference v = v.getLsbD 1 ∧
      trimVal Config.reference v = v.extractLsb' 0 31 ∧ trimLock Config.reference v = v.getLsbD 31) ∧
    (∀ (u : ShaUnit) (x : Word32), (shaSrValue Config.reference u x).getLsbD 0 = u.busy) ∧
    (∀ (u : TrngUnit) (x : Word32),
      (trngSrValue Config.reference u x).getLsbD 0 = u.htr ∧ (trngSrValue Config.reference u x).getLsbD 1 = u.rdy ∧
        (u.htr = false → (trngSrValue Config.reference u x).getLsbD 4 = u.hts.getLsbD 0)) ∧
    (modeCode .sha224 = 0 ∧ modeCode .sha256 = 1 ∧ modeCode .sha384 = 2 ∧ modeCode .sha512 = 3) ∧
    (∀ a : Alg, initValue Config.reference a = 0x10 ||| (modeCode a).setWidth 32) ∧
    (∀ (c : Config) (a : Alg) (i : Nat), i < 8 →
      (c.hashAlign = .top → elemPos c a i = some (7 - i)) ∧
        (c.hashAlign = .bottom → elemPos c a i = if i < a.elems then some (a.elems - 1 - i) else none))

/-- Block-input writes at both widths, in every state: one fault, in the order NOINIT, BUSY, OVERRUN, or the bytes are
appended at fill, in order, and the block is submitted when it is full (R454, R455, R456). -/
def Obligations.FifoWrites : Prop :=
  ∀ s : State,
    (s.sha.modeEff = none → ∀ v w, exec (.wr32FifoIn v) s = .next (s.raiseFault .fifoNoInit) ∧
      exec (.wr64FifoIn w) s = .next (s.raiseFault .fifoNoInit)) ∧
      (s.sha.modeEff.isSome → s.sha.busy = true → ∀ v w,
        exec (.wr32FifoIn v) s = .next (s.raiseFault .fifoBusy) ∧
          exec (.wr64FifoIn w) s = .next (s.raiseFault .fifoBusy)) ∧
      ∀ alg, s.sha.modeEff = some alg → s.sha.busy = false →
        (alg.blockBytes < s.sha.fill + 4 → ∀ v, exec (.wr32FifoIn v) s = .next (s.raiseFault .fifoOverrun)) ∧
          (alg.blockBytes < s.sha.fill + 8 → ∀ v, exec (.wr64FifoIn v) s = .next (s.raiseFault .fifoOverrun)) ∧
          (s.sha.fill + 4 ≤ alg.blockBytes → ∀ v : Word32,
            ∃ b : Vector Byte 128, exec (.wr32FifoIn v) s = .next (s.setSha { s.sha with
                blk := b, fill := s.sha.fill + 4, busy := decide (s.sha.fill + 4 = alg.blockBytes) }) ∧
              ∀ i, i < 128 → b.getD i 0 = if s.sha.fill ≤ i ∧ i < s.sha.fill + 4
                then (fifoBytes s.cfg.fifoOrder 4 v.toNat).getD (i - s.sha.fill) 0 else s.sha.blk.getD i 0) ∧
          (s.sha.fill + 8 ≤ alg.blockBytes → ∀ v : Word64,
            ∃ b : Vector Byte 128, exec (.wr64FifoIn v) s = .next (s.setSha { s.sha with
                blk := b, fill := s.sha.fill + 8, busy := decide (s.sha.fill + 8 = alg.blockBytes) }) ∧
              ∀ i, i < 128 → b.getD i 0 = if s.sha.fill ≤ i ∧ i < s.sha.fill + 8
                then (fifoBytes s.cfg.fifoOrder 8 v.toNat).getD (i - s.sha.fill) 0 else s.sha.blk.getD i 0)

/-- In the states runs reach no 32-bit write passes the end of the block, and a 64-bit write does so exactly in a mode, not
busy, at fill = B − 4 (R456, R721). -/
def Obligations.OverrunOnlyByWideWrite : Prop :=
  ∀ s : State, Inv s → .fifoOverrun ∉ s.faults →
    (∀ (v : Word32) t, exec (.wr32FifoIn v) s = .next t → .fifoOverrun ∉ t.faults) ∧
      ∀ (v : Word64) t, exec (.wr64FifoIn v) s = .next t →
        (.fifoOverrun ∈ t.faults ↔
          ∃ alg, s.sha.modeEff = some alg ∧ s.sha.busy = false ∧ s.sha.fill = alg.blockBytes - 4)

/-- The byte order of block input: the bytes a write value delivers, the write values of a block, and that together they
deliver the block's bytes in order (R203, R483). -/
def Obligations.BlockInputOrder : Prop :=
  (∀ (k : Nat) (v : Word64), k ≤ 8 → ∀ i, i < k →
    (fifoBytes .leStream k v.toNat).getD i 0 = v.extractLsb' (8 * i) 8 ∧
      (fifoBytes .beWord k v.toNat).getD i 0 = v.extractLsb' (8 * (k - 1 - i)) 8) ∧
    (∀ (k n : Nat) (bs : List Byte), (k = 4 ∨ k = 8) → bs.length = n * k → ∀ i, i < n →
      (fifoWords .leStream k n bs).getD i 0 = BitVec.ofNat 64 (leVal ((bs.drop (k * i)).take k)) ∧
        (fifoWords .beWord k n bs).getD i 0 = BitVec.ofNat 64 (beVal ((bs.drop (k * i)).take k))) ∧
    ∀ (o : FifoOrder) (n : Nat) (bs : List Byte),
      (bs.length = n * 4 →
        (fifoWords o 4 n bs).flatMap (fun x => fifoBytes o 4 (x.setWidth 32 : Word32).toNat) = bs) ∧
        (bs.length = n * 8 → (fifoWords o 8 n bs).flatMap (fun x => fifoBytes o 8 x.toNat) = bs)

/-- A 32-bit read of the digest span: the state word, or the half of it, that the slot holds; a fresh draw while busy, before
INIT and where no word is (R121, R122, R124, R457). -/
def Obligations.ReadHash32 : Prop :=
  ∀ (s : State) (j : Fin 16),
    (∀ alg i, s.sha.busy = false → s.sha.modeEff = some alg → alg.wordBytes = 4 → elemPos s.cfg alg i = some j.val →
      exec (.rd32Hash j) s = .next (s.setVal (((s.sha.h.getD i 0).setWidth 32).setWidth 64))) ∧
      (∀ alg i, s.sha.busy = false → s.sha.modeEff = some alg → alg.wordBytes = 8 →
        elemPos s.cfg alg i = some (j.val / 2) →
        exec (.rd32Hash j) s = .next (s.setVal ((if j.val % 2 = 0 then (s.sha.h.getD i 0).setWidth 32
          else (s.sha.h.getD i 0 >>> 32).setWidth 32 : Word32).setWidth 64))) ∧
      ((s.sha.busy = true ∨ s.sha.modeEff = none ∨ ∃ alg, s.sha.modeEff = some alg ∧
          ∀ i, elemPos s.cfg alg i ≠ some (if alg.wordBytes = 4 then j.val else j.val / 2)) →
        exec (.rd32Hash j) s = .next (s.drew.setVal (s.drawn32.setWidth 64)))

/-- A 64-bit read of the digest span is its two 32-bit slots from one state, the lower offset the less significant half; in a
64-bit mode it is the state word (R204, R458). That the lower slot is drawn first where both are draws is the model's choice
(log 26). -/
def Obligations.ReadHash64 : Prop :=
  (∀ (s : State) (e : Fin 8) (lo hi : Fin 16), lo.val = 2 * e.val → hi.val = 2 * e.val + 1 →
    ∃ t u, exec (.rd32Hash lo) s = .next t ∧ exec (.rd32Hash hi) t = .next u ∧
      exec (.rd64Hash e) s = .next (u.setVal (t.thread.val ||| (u.thread.val <<< 32)))) ∧
    ∀ (s : State) (e : Fin 8) alg i, s.sha.busy = false → s.sha.modeEff = some alg → alg.wordBytes = 8 →
      elemPos s.cfg alg i = some e.val → exec (.rd64Hash e) s = .next (s.setVal (s.sha.h.getD i 0))

/-! ## Compression -/

/-- SHA.COMPRESS: when it happens and what it leaves (R460), the refusal where it does not exist being the model's own
(log 7); in the 32-bit modes the compression depends on the low halves of the storage words alone and leaves the high halves
zero (R113). -/
def Obligations.ShaCompress : Prop :=
  (∀ (s : State) (alg : Alg), s.sha.busy = true → s.sha.modeEff = some alg →
    exec .shaCompress s = .next (s.setSha { s.sha with
      h := compress alg s.sha.h (s.sha.blk.toList.take alg.blockBytes), fill := 0, busy := false })) ∧
    (∀ s : State, s.sha.busy = false → exec .shaCompress s = .refused (.notEnabled "SHA.COMPRESS")) ∧
    ∀ (alg : Alg) (h h' : HashState) (b : List Byte), alg.wordBytes = 4 →
      (∀ i, i < 8 → (h.getD i 0).setWidth 32 = (h'.getD i 0).setWidth 32) →
      compress alg h b = compress alg h' b ∧ ∀ i, i < 8 → ((compress alg h b).getD i 0).toNat < 2 ^ 32

/-- The message schedule of both families: 16 big-endian words of the block, then the recurrence (R410, R411). -/
def Obligations.MessageSchedule : Prop :=
  ∀ b : List Byte,
    ((schedule family256 b).length = 64 ∧
      (∀ t, t < 16 → (schedule family256 b).getD t 0 = BitVec.ofNat 32 (beVal ((b.drop (4 * t)).take 4))) ∧
      ∀ t, 16 ≤ t → t < 64 → (schedule family256 b).getD t 0 =
        family256.smallSigma1 ((schedule family256 b).getD (t - 2) 0) + (schedule family256 b).getD (t - 7) 0 +
          family256.smallSigma0 ((schedule family256 b).getD (t - 15) 0) + (schedule family256 b).getD (t - 16) 0) ∧
      (schedule family512 b).length = 80 ∧
      (∀ t, t < 16 → (schedule family512 b).getD t 0 = BitVec.ofNat 64 (beVal ((b.drop (8 * t)).take 8))) ∧
      ∀ t, 16 ≤ t → t < 80 → (schedule family512 b).getD t 0 =
        family512.smallSigma1 ((schedule family512 b).getD (t - 2) 0) + (schedule family512 b).getD (t - 7) 0 +
          family512.smallSigma0 ((schedule family512 b).getD (t - 15) 0) + (schedule family512 b).getD (t - 16) 0

/-- The final blocks: one or two, each of B bytes, and together the buffered bytes, the terminator, zeros and the big-endian
length field (R431). -/
def Obligations.FinalBlocks : Prop :=
  ∀ (alg : Alg) (p : List Byte) (bitlen : Word64), p.length < alg.blockBytes →
    (finalBlocks alg p bitlen).length = (if p.length + 1 + alg.lengthBytes ≤ alg.blockBytes then 1 else 2) ∧
      (∀ b ∈ finalBlocks alg p bitlen, b.length = alg.blockBytes) ∧
      (finalBlocks alg p bitlen).flatten = p ++ [0x80] ++
        List.replicate ((finalBlocks alg p bitlen).length * alg.blockBytes - alg.lengthBytes - p.length - 1) 0 ++
          beBytes alg.lengthBytes bitlen.toNat

/-- The published digests of the empty message and of "abc", for all four algorithms (R432; 95_test_vectors.md K1, K2, K4,
K5, K7, K8, K10, K11). -/
def Obligations.KnownAnswers : Prop :=
  let abc : List Byte := [0x61, 0x62, 0x63]
  (beVal (sha .sha224 []) = 0xd14a028c2a3a2bc9476102bb288234c415a2b01f828ea62ac5b3e42f ∧
    beVal (sha .sha256 []) = 0xe3b0c44298fc1c149afbf4c8996fb92427ae41e4649b934ca495991b7852b855 ∧
    beVal (sha .sha384 []) =
      0x38b060a751ac96384cd9327eb1b1e36a21fdb71114be07434c0cc7bf63f6e1da274edebfe76f65fbd51ad2f14898b95b ∧
    beVal (sha .sha512 []) =
      0xcf83e1357eefb8bdf1542850d66d8007d620e4050b5715dc83f4a921d36ce9ce47d0d13c5d85f2b0ff8318d2877eec2f63b931bd47417a81a538327af927da3e) ∧
    beVal (sha .sha224 abc) = 0x23097d223405d8228642a477bda255b32aadbce4bda0b3f7e36c9da7 ∧
    beVal (sha .sha256 abc) = 0xba7816bf8f01cfea414140de5dae2223b00361a396177a9cb410ff61f20015ad ∧
    beVal (sha .sha384 abc) =
      0xcb00753f45a35e8bb5a03d699ac65007272c32ab0eded1631a8b605a43ff5bed8086072ba1e7cc2358baeca134c825a7 ∧
    beVal (sha .sha512 abc) =
      0xddaf35a193617abacc417349ae20413112e6fa4e89a97ea20a9eeee64b55d39a2192992a274fc1a836ba3c23a3feebbd454d4423643ce80e2a9ac94fa54ca49f

/-! ## The TRNG unit -/

/-- TRNG.HT_COMPLETE and TRNG.SAMPLE: when they happen and what they leave (R560, R561); the refusal where they do not exist
is the model's own (log 7). -/
def Obligations.TrngAutonomousSteps : Prop :=
  ∀ s : State,
    (s.cfg.trngRev ≠ 0 → s.trng.htr = true → exec .trngHtComplete s =
      .next (s.drew.setTrng { s.trng with htr := false, hts := htsBits s.cfg.htsW s.drawn32 })) ∧
      ((s.cfg.trngRev = 0 ∨ s.trng.htr = false) →
        exec .trngHtComplete s = .refused (.notEnabled "TRNG.HT_COMPLETE")) ∧
      (s.cfg.trngRev ≠ 0 → s.trng.htstart = false → s.trng.rdy = false → exec .trngSample s =
        .next (s.drew.setTrng { s.trng with sample := s.drawn32, rdy := true })) ∧
      ((s.cfg.trngRev = 0 ∨ s.trng.htstart = true ∨ s.trng.rdy = true) →
        exec .trngSample s = .refused (.notEnabled "TRNG.SAMPLE"))

/-- The sample is replaced by TRNG.SAMPLE alone, never while it is unread, and RDY rises by TRNG.SAMPLE alone (R561,
R562). -/
def Obligations.SampleKeptUntilRead : Prop :=
  ∀ s t : State, step s = .next t →
    (t.trng.sample ≠ s.trng.sample → taken s = some .trngSample ∧ s.trng.rdy = false ∧ s.trng.htstart = false) ∧
      (s.trng.rdy = true → t.trng.sample = s.trng.sample) ∧
      (s.trng.rdy = false → t.trng.rdy = true → taken s = some .trngSample)

/-- IRQ.DELIVER: it happens exactly when the line is high, a handler is registered, the host accepts and no handler runs;
HostISR begins the handler, and nothing else changes but in_isr (R136, R663, R665). The model's own are the refusal otherwise
(log 7), that the handler's program is the one call of trng_isr (log 20), and the value 0 and the absent code with which
HostISR begins (log 17). -/
def Obligations.IrqDeliver : Prop :=
  (∀ (s : State) (r : Registration), s.cfg.trngRev ≠ 0 → s.trng.ie = true → s.trng.rdy = true → s.irqHandler = some r →
    s.inIsr = false → s.inputs.hostIrqOn = true →
    exec .irqDeliver s = .next { s with
      inIsr := true
      isr := { stack := [.code [.call (.trngIsr r.ctx) rfl]], stopped := false, val := 0, code := none } }) ∧
    ∀ s : State, (s.cfg.trngRev = 0 ∨ s.trng.ie = false ∨ s.trng.rdy = false ∨ s.irqHandler = none ∨ s.inIsr = true ∨
      s.inputs.hostIrqOn = false) → exec .irqDeliver s = .refused (.notEnabled "IRQ.DELIVER")

/-- Reads of the TRNG registers but TRNG_DATA: TRNG_REV on every part, the others MF_BUS on a part without the TRNG; the
fields; HTS a draw while the test runs; the reserved bits (R550, R551, R553, R554). That one draw supplies HTS while the test
runs and all the reserved bits is the model's choice (log 26). -/
def Obligations.ReadTrngRegisters : Prop :=
  ∀ s : State,
    exec .rd32TrngRev s = .next (s.setVal (s.cfg.trngRev.setWidth 64)) ∧
      (s.cfg.trngRev = 0 → ∀ i ∈ [Instr.rd32TrngCr, .rd32TrngSr, .rd32TrngTrim],
        exec i s = .next (s.raiseFault .bus)) ∧
      (s.cfg.Wf → s.cfg.trngRev ≠ 0 →
        (∃ v : Word32, exec .rd32TrngTrim s = .next (s.setVal (v.setWidth 64)) ∧
          trimVal s.cfg v = s.trng.trimVal ∧ trimLock s.cfg v = s.trng.lock) ∧
        (∃ v : Word32, exec .rd32TrngCr s = .next (s.drew.setVal (v.setWidth 64)) ∧
          crHtstart s.cfg v = s.trng.htstart ∧ crIe s.cfg v = s.trng.ie ∧
          ∀ i, i ≠ s.cfg.layout.htstartBit → i ≠ s.cfg.layout.ieBit → getBit i v = getBit i s.drawn32) ∧
        ∃ v : Word32, exec .rd32TrngSr s = .next (s.drew.setVal (v.setWidth 64)) ∧
          getBit s.cfg.layout.htrBit v = s.trng.htr ∧ getBit s.cfg.layout.rdyBit v = s.trng.rdy ∧
          (s.trng.htr = false →
            getField s.cfg.layout.htsLo s.cfg.htsW v = htsBits s.cfg.htsW s.trng.hts) ∧
          ∀ i, i ≠ s.cfg.layout.htrBit → i ≠ s.cfg.layout.rdyBit →
            (s.trng.htr = true ∨ i < s.cfg.layout.htsLo ∨ s.cfg.layout.htsLo + s.cfg.htsW ≤ i) →
            getBit i v = getBit i s.drawn32)

/-- Writes of TRNG_CR: the rising edge of HTSTART, the falling edge before and after the test is complete, and no edge; and
the mode each leaves; MF_BUS without the TRNG (R552, R563). -/
def Obligations.WriteTrngCr : Prop :=
  ∀ (s : State) (v : Word32),
    (s.cfg.trngRev = 0 → exec (.wr32TrngCr v) s = .next (s.raiseFault .bus)) ∧
      (s.cfg.trngRev ≠ 0 →
        (s.trng.htstart = false → crHtstart s.cfg v = true → exec (.wr32TrngCr v) s = .next (s.setTrng { s.trng with
          htstart := true, htr := true, rdy := false, ie := crIe s.cfg v })) ∧
        (s.trng.htstart = true → crHtstart s.cfg v = false → s.trng.htr = true → exec (.wr32TrngCr v) s =
          .next (s.drew.setTrng { s.trng with
            htstart := false, htr := false, hts := htsBits s.cfg.htsW s.drawn32, ie := crIe s.cfg v })) ∧
        (s.trng.htstart = true → crHtstart s.cfg v = false → s.trng.htr = false → exec (.wr32TrngCr v) s =
          .next (s.setTrng { s.trng with htstart := false, ie := crIe s.cfg v })) ∧
        (s.trng.htstart = crHtstart s.cfg v →
          exec (.wr32TrngCr v) s = .next (s.setTrng { s.trng with ie := crIe s.cfg v })) ∧
        ∀ t, exec (.wr32TrngCr v) s = .next t → t.trng.mode =
          (if crHtstart s.cfg v then (if s.trng.mode = .normal then .testing else s.trng.mode) else .normal))

/-- Writes of TRNG_TRIM: the trim value takes effect only while unlocked, and the lock is set and never cleared; MF_BUS
without the TRNG (R555). -/
def Obligations.WriteTrngTrim : Prop :=
  ∀ (s : State) (v : Word32),
    (s.cfg.trngRev = 0 → exec (.wr32TrngTrim v) s = .next (s.raiseFault .bus)) ∧
      (s.cfg.trngRev ≠ 0 → s.trng.lock = false → exec (.wr32TrngTrim v) s = .next (s.setTrng { s.trng with
        trimVal := trimVal s.cfg v, lock := trimLock s.cfg v })) ∧
      (s.cfg.trngRev ≠ 0 → s.trng.lock = true → exec (.wr32TrngTrim v) s = .next s)

/-- Reads of TRNG_DATA: a ready sample in NORMAL is returned and consumed; in test mode, or with no sample ready, a draw is
returned and nothing changes; MF_BUS without the TRNG (R556). -/
def Obligations.ReadTrngData : Prop :=
  ∀ s : State,
    (s.cfg.trngRev = 0 → exec .rd32TrngData s = .next (s.raiseFault .bus)) ∧
      (s.cfg.trngRev ≠ 0 → s.trng.htstart = false → s.trng.rdy = true → exec .rd32TrngData s =
        .next ((s.setTrng { s.trng with rdy := false }).setVal (s.trng.sample.setWidth 64))) ∧
      (s.cfg.trngRev ≠ 0 → (s.trng.htstart = true ∨ s.trng.rdy = false) →
        exec .rd32TrngData s = .next (s.drew.setVal (s.drawn32.setWidth 64)))

/-- When trng_rev = 0 every TRNG register but TRNG_REV is absent, the TRNG takes no step, and the line stays low (R557). -/
def Obligations.TrngAbsent : Prop :=
  ∀ s : State, s.cfg.trngRev = 0 →
    (∀ v, ∀ i ∈ [Instr.rd32TrngCr, .wr32TrngCr v, .rd32TrngSr, .rd32TrngTrim, .wr32TrngTrim v, .rd32TrngData],
      exec i s = .next (s.raiseFault .bus)) ∧
      s.irqTrng = false ∧ s.enabled .trngHtComplete = false ∧ s.enabled .trngSample = false ∧
      ∀ t, step s = .next t → t.trng = s.trng

/-! ## Frames -/

/-- What a bus transaction leaves alone: host memory, the contexts, the host side, the other agent; a SHA transaction the
TRNG unit and a TRNG transaction the SHA unit; a read, other than of TRNG_DATA, both units (R210, R219, R221). -/
def Obligations.BusFrame : Prop :=
  ∀ (i : Instr) (s t : State), i.kind = .bus → exec i s = .next t →
    t.cfg = s.cfg ∧ (∀ a, memRead t.mem a = memRead s.mem a) ∧ (∀ c, t.ctx c = s.ctx c) ∧
      t.slot = s.slot ∧ t.irqHandler = s.irqHandler ∧ t.inIsr = s.inIsr ∧ t.callbacks = s.callbacks ∧
      (s.inIsr = true → t.main = s.main) ∧ (s.inIsr = false → t.isr = s.isr) ∧ t.thread.stack = s.thread.stack ∧
      t.thread.code = s.thread.code ∧
      ((∀ v, i ≠ .wr32ShaCr v) → (∀ v, i ≠ .wr32FifoIn v) → (∀ v, i ≠ .wr64FifoIn v) → t.sha = s.sha) ∧
      ((∀ v, i ≠ .wr32TrngCr v) → (∀ v, i ≠ .wr32TrngTrim v) → i ≠ .rd32TrngData → t.trng = s.trng)

/-- What the call of a procedure leaves alone, before its first access: both units, host memory, the slot, the registration,
the free inputs, the other agent, and every context but the one an init is given (R657). -/
def Obligations.CallFrame : Prop :=
  ∀ (i : Instr) (s t : State), i.kind = .procedure → exec i s = .next t →
    t.cfg = s.cfg ∧ t.sha = s.sha ∧ t.trng = s.trng ∧ (∀ a, memRead t.mem a = memRead s.mem a) ∧
      t.slot = s.slot ∧ t.irqHandler = s.irqHandler ∧ t.inIsr = s.inIsr ∧ t.callbacks = s.callbacks ∧
      t.inputs = s.inputs ∧
      (s.inIsr = true → t.main = s.main) ∧ (s.inIsr = false → t.isr = s.isr) ∧
      ∀ c, t.ctx c ≠ s.ctx c → ∃ alg e, i ∈ [Instr.sha224Init (some c) e, .sha256Init (some c) e,
        .sha384Init (some c) e, .sha512Init (some c) e, .shaInit (some c) (.known alg) e]

/-- A byte of host memory changes only by a store of the acting agent whose bytes it is among; no device step changes host
memory (R200, R219). -/
def Obligations.MemoryChangesByStoresOnly : Prop :=
  (∀ (s t : State) (a : Nat), hostStep s = .next t → memRead t.mem a ≠ memRead s.mem a →
    ∃ k addr v f fs, s.thread.stack = f :: fs ∧ addr ≤ a ∧ a < addr + k ∧
      ((∃ (b : Buf) (off : Nat), f.access s = some (.store k b off v) ∧ addr = b.addr + off) ∨
        ∃ ops, f = .code (.memSt k addr v :: ops))) ∧
    ∀ (s t : State) (k : StepKind), k ∈ [StepKind.shaCompress, .trngHtComplete, .trngSample, .irqDeliver] →
      runStep k s = .next t → t.mem = s.mem

/-- MemWrite stores the little-endian bytes and nothing else, MemRead returns the little-endian value, and an access with a
byte outside the buffer it was given raises MF_HOST_MEM and stores nothing, whatever other buffers hold (R202, R206). How a
buffer stands beside memory is the model's choice (log 10), and so is what is kept of a load wider than 8 bytes (log 28). Then
what the reads and writes of a list of bytes, as the runs below name them, say of every address. -/
def Obligations.HostMemoryAccess : Prop :=
  (∀ (s : State) (k : Nat) (b : Buf) (off : Nat),
    let inside : Prop := off + k ≤ b.size ∧ ∀ i, i < k → (memRead s.mem (b.addr + off + i)).isSome
    (inside →
      (∀ v : Word64, k ≤ 8 →
        s.store k b off v = s.setMem (s.store k b off v).mem ∧
        (∀ i, i < k → memRead (s.store k b off v).mem (b.addr + off + i) = some (v.extractLsb' (8 * i) 8)) ∧
        (∀ a, (a < b.addr + off ∨ b.addr + off + k ≤ a) → memRead (s.store k b off v).mem a = memRead s.mem a) ∧
        (Memory.wf s.mem → Memory.wf (s.store k b off v).mem)) ∧
      ∃ bs : List Byte, bs.length = k ∧ (∀ i, i < k → memRead s.mem (b.addr + off + i) = some (bs.getD i 0)) ∧
        s.load k b off = s.setVal (BitVec.ofNat 64 (leVal bs))) ∧
      (¬ inside → s.load k b off = s.raiseFault .hostMem ∧ ∀ v, s.store k b off v = s.raiseFault .hostMem)) ∧
    (∀ (s : State) (b : Buf) (off n : Nat) (bs : List Byte), s.bufReads b off n = some bs ↔
      off + n ≤ b.size ∧ bs.length = n ∧ ∀ i, i < n → memRead s.mem (b.addr + off + i) = some (bs.getD i 0)) ∧
    ∀ (m : List Host.Cell) (a : Nat) (bs : List Byte) (b : Nat),
      memRead (memWrites m a bs) b =
        if a ≤ b ∧ b < a + bs.length ∧ (memRead m b).isSome then some (bs.getD (b - a) 0) else memRead m b

/-! ## Steps -/

/-- A step runs the decoded transaction: the next operation of the acting agent's program, as the descriptor decodes, with
the operation issued before and the end of the step after; and the same for a call, for a load and a store of caller memory,
and, entering its frame, for a pseudo-operation (R314, R315, R316); for a device or platform step; and for a word placed by
withFetchWord (R11, R32, R310). The model's own are the placing (log 2), that a pseudo-operation adds no step of its own
(log 8), that a program's own load or store is confined to no one buffer (log 10), and wrblk for a width other than 4 and 8
or a rest of bytes (log 22). -/
def Obligations.StepRunsTheOperation : Prop :=
  (∀ (s : State) ops fs, taken s = some s.hostKind →
    (∀ d v, s.thread.stack = .code (.bus d v :: ops) :: fs →
      step s = onNext (exec (decodeTx s.cfg.layout d v) (s.chosen.issued ops fs)) State.endStep) ∧
    (∀ i h, s.thread.stack = .code (.call i h :: ops) :: fs →
      step s = onNext (exec i (s.chosen.issued ops fs)) State.endStep) ∧
    (∀ k a, s.thread.stack = .code (.memLd k a :: ops) :: fs →
      step s = .next ((s.chosen.issued ops fs).load k { addr := a, size := k } 0).endStep) ∧
    (∀ k a v, s.thread.stack = .code (.memSt k a v :: ops) :: fs →
      step s = .next ((s.chosen.issued ops fs).store k { addr := a, size := k } 0 v).endStep) ∧
    (∀ off mask val, s.thread.stack = .code (.poll32 off mask val :: ops) :: fs →
      step s = hostStep (s.chosen.setStack (.poll off mask val :: .code ops :: fs))) ∧
    (∀ off clr set, s.thread.stack = .code (.rmw32 off clr set :: ops) :: fs →
      step s = hostStep (s.chosen.setStack (.rmwRead off clr set :: .code ops :: fs))) ∧
    ∀ bytes k, s.thread.stack = .code (.wrblk bytes k :: ops) :: fs →
      step s = hostStep (s.chosen.setStack
        (.wrblk k (fifoWords s.cfg.fifoOrder k (bytes.length / k) bytes) :: .code ops :: fs))) ∧
    (∀ (s : State) k i, taken s = some k → k.event = some i → step s = exec i s.chosen) ∧
    ∀ (s : State) (nbits w : Nat), step (s.withFetchWord nbits w) =
      onNext (exec (decodeTx s.cfg.layout (BitVec.ofNat 16 (w % 2 ^ nbits)) (BitVec.ofNat 64 (w % 2 ^ nbits / 2 ^ 16)))
        ((s.withFetchWord nbits w).chosen.issued [] s.thread.stack)) State.endStep

/-- The machine always has a next state: the run of one of the enabled steps, each of which the environment can choose, and,
exactly while none is enabled, the state unchanged but for the free inputs (R31, R668). The form of the choice and of this
holding is the model's own (log 7). -/
def Obligations.AnyEnabledStepIsNext : Prop :=
  (∀ s : State, ∃ t, step s = .next t) ∧
    (∀ s t : State, step s = .next t →
      (∃ k, taken s = some k ∧ ready s k = true ∧ runStep k s.chosen = .next t) ∨
        ((∀ k, ready s k = false) ∧ t = s.chosen)) ∧
    (∀ (s : State) k ks, s.inputs.sched = k :: ks → ready s k = true → taken s = some k) ∧
    (∀ s : State, (∀ k, ready s k = false) → step s = .next s.chosen) ∧
    ∀ s : State, s.inIsr = true → ready s .hostMain = false

/-- A device step that is enabled stays enabled until it happens, but for a test that is aborted and a sample withheld by a
test (R460, R560, R561). -/
def Obligations.DeviceStepsStayEnabled : Prop :=
  ∀ s t : State, step s = .next t →
    (ready s .shaCompress = true → taken s ≠ some .shaCompress → ready t .shaCompress = true) ∧
      (ready s .trngHtComplete = true → taken s ≠ some .trngHtComplete →
        ready t .trngHtComplete = true ∨ t.trng.htstart = false) ∧
      (ready s .trngSample = true → taken s ≠ some .trngSample → ready t .trngSample = true ∨ t.trng.htstart = true)

/-- Under weak fairness of the device and platform steps a pending block is compressed, a health test ends, in NORMAL a
sample becomes ready, and no interrupt waits for ever, whatever host_irq_on is at each step (R25, R711). Fairness as a
predicate on runs is the model's form (log 19). -/
def Obligations.DeviceProgress : Prop :=
  ∀ r : Nat → State, IsRun r → WeaklyFair r → Inv (r 0) →
    (∀ n, (r n).sha.busy = true → ∃ m, n ≤ m ∧ (r m).sha.busy = false) ∧
      (∀ n, (r n).cfg.trngRev ≠ 0 → (r n).trng.htr = true → ∃ m, n ≤ m ∧ (r m).trng.htr = false) ∧
      (∀ n, (r n).cfg.trngRev ≠ 0 → (∀ m, n ≤ m → (r m).trng.htstart = false) → ∃ m, n ≤ m ∧ (r m).trng.rdy = true) ∧
      ∀ n, ∃ m, n ≤ m ∧ ((r m).irqTrng = false ∨ (r m).irqHandler = none ∨ (r m).inIsr = true)

/-- The pseudo-operations, each access a step of its own: a poll ends when the masked value is the one waited for and
otherwise stays where it is; a read-modify-write is a read and then a write of (v & ~clr) | set; a block write is one
block-input write per word, in order (R315). And the end of a return: a program goes on with its next operation, an ended one
gives way, and a handler with nothing left returns (R666). The model's own are the frames (log 8) and that a block write of any
width but 8 is one of 32-bit writes, where R315 has the widths 4 and 8 alone (log 22). -/
def Obligations.PollRmwAndReturn : Prop :=
  (∀ (s t : State) off mask val fs, s.thread.stack = .poll off mask val :: fs →
    exec (decodeTx s.cfg.layout (descriptor false false 0 off) 0) s = .next t → t.thread.stopped = false →
    hostStep s = .next (if (t.thread.val.setWidth 32 : Word32) &&& mask = val then t.resume fs else t)) ∧
    (∀ (s t : State) off clr set fs, s.thread.stack = .rmwRead off clr set :: fs →
      exec (decodeTx s.cfg.layout (descriptor false false 0 off) 0) s = .next t → t.thread.stopped = false →
      hostStep s = .next (t.setStack (.rmwWrite off ((t.thread.val.setWidth 32 &&& ~~~clr) ||| set) :: fs))) ∧
    (∀ (s t : State) off (w : Word32) fs, s.thread.stack = .rmwWrite off w :: fs →
      exec (decodeTx s.cfg.layout (descriptor true false 0 off) (w.setWidth 64)) s = .next t →
      t.thread.stopped = false → hostStep s = .next (t.resume fs)) ∧
    (∀ (s t : State) k x xs fs, s.thread.stack = .wrblk k (x :: xs) :: fs →
      exec (if k = 8 then decodeTx s.cfg.layout (descriptor true true 0 s.cfg.layout.fifoIn) x
        else decodeTx s.cfg.layout (descriptor true false 0 s.cfg.layout.fifoIn) ((x.setWidth 32).setWidth 64)) s =
          .next t →
      t.thread.stopped = false →
      hostStep s = .next (if xs = [] then t.resume fs else t.setStack (.wrblk k xs :: fs))) ∧
    ∀ t : State, t.thread.stopped = false →
      (∀ op ops fs, t.resume (.code (op :: ops) :: fs) = t.setStack (.code (op :: ops) :: fs)) ∧
        (∀ fs, t.resume (.code [] :: fs) = t.resume fs) ∧ (∀ k fs, t.resume (.wrblk k [] :: fs) = t.resume fs) ∧
        t.resume [] = { t.setStack [] with inIsr := false }

/-! ## The software engine -/

/-- The software inits and the dispatcher's, on a context in any state: the context is started afresh, its buffer kept; an
absent context is InvalidInput (R501, R505 to R508, R520). And what storing a context means: references that differ never
alias, which is the model's choice (log 11). -/
def Obligations.SwInit : Prop :=
  ∀ (s : State) (c : Nat) (e : Endian),
    (∀ p ∈ [(Instr.sha224Init (some c) e, Alg.sha224), (.sha256Init (some c) e, .sha256),
        (.sha384Init (some c) e, .sha384), (.sha512Init (some c) e, .sha512),
        (.shaInit (some c) (.known .sha224) e, .sha224), (.shaInit (some c) (.known .sha256) e, .sha256),
        (.shaInit (some c) (.known .sha384) e, .sha384), (.shaInit (some c) (.known .sha512) e, .sha512)],
      exec p.1 s = .next ((s.setCtx c
        { alg := p.2, bitlen := 0, buf := (s.ctx c).buf, endian := e, life := .active, acc := initialHash p.2 }).setCode
          .ok)) ∧
      (∀ i ∈ [Instr.sha224Init none e, .sha256Init none e, .sha384Init none e, .sha512Init none e],
        exec i s = .next (s.setCode .invalidInput)) ∧
      ∀ (x : HashContext), (s.setCtx c x).ctx c = x ∧ ∀ k, k ≠ c → (s.setCtx c x).ctx k = s.ctx k

/-- The software updates and the dispatcher's, from call to return, on a valid data buffer: the full blocks are compressed,
the tail buffered, the counter advanced, and nothing else changes (R502, R509 to R512, R521). The model's choices are that a
call is a step (log 8) and, for a variant called on an Active context of another algorithm, that it runs with its own
parameters (log 25) and that a 32-bit one compresses the low halves of a 64-bit acc (log 34). -/
def Obligations.SwUpdate : Prop :=
  ∀ (s : State) (c : Nat) (data : Buf) (bs : List Byte), s.thread.stopped = false → (s.ctx c).life = .active →
    s.bufReads data 0 bs.length = some bs → bs ≠ [] →
    ∀ p ∈ [(Instr.sha224Update (some c) (some data) bs.length, Alg.sha224),
        (.sha256Update (some c) (some data) bs.length, .sha256), (.sha384Update (some c) (some data) bs.length, .sha384),
        (.sha512Update (some c) (some data) bs.length, .sha512),
        (.shaUpdate (some c) (some data) bs.length, (s.ctx c).alg)],
      ∃ u v y, exec p.1 s = .next u ∧ runSchedule (List.replicate bs.length s.hostKind) u =
          .next ((((s.setCtx c y).setVal v).setCode .ok).resume s.thread.stack) ∧
        Buffers p.2 (s.ctx c) bs y ∧
        y.acc = (blocksOf p.2 (buffered p.2 (s.ctx c) ++ bs)).foldl (compress p.2) (s.ctx c).acc

/-- The software finishes and the dispatcher's, from call to return, on valid output and length buffers of enough capacity:
the final blocks are compressed, the digest and then the length N are stored, the context is consumed, and nothing else
changes (R503, R513 to R516, R522). The model's choices are that a call is a step (log 8) and, for a variant called on an
Active context of another algorithm, that it runs with its own parameters (log 25) and that a 32-bit one compresses the low
halves of a 64-bit acc (log 34). -/
def Obligations.SwFinish : Prop :=
  ∀ (s : State) (c : Nat) (out outlen : Buf) (cap : List Byte), s.thread.stopped = false → (s.ctx c).life = .active →
    s.bufReads outlen 0 s.cfg.native.bytes = some cap →
    ∀ p ∈ [(Instr.sha224Finish (some c) (some out) (some outlen), Alg.sha224),
        (.sha256Finish (some c) (some out) (some outlen), .sha256),
        (.sha384Finish (some c) (some out) (some outlen), .sha384),
        (.sha512Finish (some c) (some out) (some outlen), .sha512),
        (.shaFinish (some c) (some out) (some outlen), (s.ctx c).alg)],
      p.2.digestBytes ≤ leVal cap → (s.bufReads out 0 p.2.digestBytes).isSome →
      ∃ u v h, exec p.1 s = .next u ∧
        h = (finalBlocks p.2 (buffered p.2 (s.ctx c)) (s.ctx c).bitlen).foldl (compress p.2) (s.ctx c).acc ∧
        runSchedule (List.replicate (p.2.digestBytes + 2) s.hostKind) u =
          .next (((((s.setMem (memWrites (memWrites s.mem out.addr (digest p.2 h)) outlen.addr
            (leBytes s.cfg.native.bytes p.2.digestBytes))).setCtx c
              { s.ctx c with acc := h, life := .consumed }).setVal v).setCode .ok).resume s.thread.stack)

/-- The argument checks of the software engine, in their order, a capacity below N among them (R660), and that an update of
no bytes changes nothing (R502). That a variant called on an Active context of another algorithm is not refused, and has the
capacity checked against its own N, is the model's choice (log 25). -/
def Obligations.SwChecks : Prop :=
  ∀ s : State,
    (∀ e, ∀ i ∈ [Instr.sha224Init none e, .sha256Init none e, .sha384Init none e, .sha512Init none e],
      exec i s = .next (s.setCode .invalidInput)) ∧
      (∀ f ∈ [Instr.sha224Update, .sha256Update, .sha384Update, .sha512Update], ∀ (c : Nat) (d : Option Buf) (n : Nat),
        exec (f none d n) s = .next (s.setCode .invalidInput) ∧
          (0 < n → exec (f (some c) none n) s = .next (s.setCode .invalidInput)) ∧
          ((d ≠ none ∨ n = 0) → (s.ctx c).life ≠ .active → exec (f (some c) d n) s = .next (s.raiseFault .ctxState)) ∧
          ((s.ctx c).life = .active → exec (f (some c) d 0) s = .next (s.setCode .ok))) ∧
      ∀ p ∈ [(Instr.sha224Finish, Alg.sha224), (.sha256Finish, .sha256), (.sha384Finish, .sha384),
          (.sha512Finish, .sha512)], ∀ (c : Nat) (o l : Option Buf) (out outlen : Buf),
        exec (p.1 none o l) s = .next (s.setCode .invalidInput) ∧
          ((o = none ∨ l = none) → exec (p.1 (some c) o l) s = .next (s.setCode .invalidOutput)) ∧
          ((s.ctx c).life ≠ .active →
            exec (p.1 (some c) (some out) (some outlen)) s = .next (s.raiseFault .ctxState)) ∧
          (s.thread.stopped = false → (s.ctx c).life = .active → ∀ cap,
            s.bufReads outlen 0 s.cfg.native.bytes = some cap → leVal cap < p.2.digestBytes →
            ∃ u v, exec (p.1 (some c) (some out) (some outlen)) s = .next u ∧ runSchedule [s.hostKind] u =
              .next (((s.setVal v).setCode .invalidOutput).resume s.thread.stack))

/-- The dispatcher: its own checks, which come before the engine's, and on an Active context the engine of the context's
algorithm (R520 to R523). -/
def Obligations.DispatcherAgrees : Prop :=
  ∀ (s : State) (c : Nat),
    (∀ tag e, exec (.shaInit none tag e) s = .next (s.setCode .invalidInput)) ∧
      (∀ n e, exec (.shaInit (some c) (.unknown n) e) s = .next (s.setCode .error)) ∧
      (∀ d n, exec (.shaUpdate none d n) s = .next (s.setCode .invalidInput)) ∧
      (∀ o l, exec (.shaFinish none o l) s = .next (s.setCode .invalidInput)) ∧
      ((s.ctx c).life ≠ .active →
        (∀ d n, exec (.shaUpdate (some c) d n) s = .next (s.raiseFault .ctxState)) ∧
          (∀ o l, exec (.shaFinish (some c) o l) s = .next (s.raiseFault .ctxState)) ∧
          ∀ l, exec (.sha256Finish (some c) none l) s = .next (s.setCode .invalidOutput)) ∧
      ∀ e d n o l, ∀ p ∈ [(Alg.sha224, Instr.sha224Init (some c) e, Instr.sha224Update (some c) d n,
            Instr.sha224Finish (some c) o l),
          (.sha256, .sha256Init (some c) e, .sha256Update (some c) d n, .sha256Finish (some c) o l),
          (.sha384, .sha384Init (some c) e, .sha384Update (some c) d n, .sha384Finish (some c) o l),
          (.sha512, .sha512Init (some c) e, .sha512Update (some c) d n, .sha512Finish (some c) o l)],
        exec (.shaInit (some c) (.known p.1) e) s = exec p.2.1 s ∧
          ((s.ctx c).life = .active → (s.ctx c).alg = p.1 →
            exec (.shaUpdate (some c) d n) s = exec p.2.2.1 s ∧ exec (.shaFinish (some c) o l) s = exec p.2.2.2 s)

/-- Streaming on the software engine: an init leaves the context of the empty message, an update with a chunk of any length
that of the longer message, and a finish of a context that holds a message stores SHA(alg, message) (R432, R504). -/
def Obligations.SwStreaming : Prop :=
  ∀ (c : Nat), ∀ p ∈ [(Alg.sha224, Instr.sha224Init, Instr.sha224Update, Instr.sha224Finish),
      (.sha256, .sha256Init, .sha256Update, .sha256Finish), (.sha384, .sha384Init, .sha384Update, .sha384Finish),
      (.sha512, .sha512Init, .sha512Update, .sha512Finish)],
    (∀ (s : State) e, ∃ x, exec (p.2.1 (some c) e) s = .next ((s.setCtx c x).setCode .ok) ∧ HoldsMessage p.1 x [] ∧
      x.acc = stateAfter p.1 []) ∧
      ∀ (s : State) (m : List Byte), HoldsMessage p.1 (s.ctx c) m → (s.ctx c).acc = stateAfter p.1 m →
        (∀ d, exec (p.2.2.1 (some c) d 0) s = .next (s.setCode .ok)) ∧
        (s.thread.stopped = false → ∀ (data : Buf) (bs : List Byte), s.bufReads data 0 bs.length = some bs → bs ≠ [] →
          ∃ u v y, exec (p.2.2.1 (some c) (some data) bs.length) s = .next u ∧
            runSchedule (List.replicate bs.length s.hostKind) u =
              .next ((((s.setCtx c y).setVal v).setCode .ok).resume s.thread.stack) ∧
            HoldsMessage p.1 y (m ++ bs) ∧ y.acc = stateAfter p.1 (m ++ bs)) ∧
        (s.thread.stopped = false → ∀ (out outlen : Buf) (cap : List Byte),
          s.bufReads outlen 0 s.cfg.native.bytes = some cap → p.1.digestBytes ≤ leVal cap →
          (s.bufReads out 0 p.1.digestBytes).isSome →
          ∃ u v y, exec (p.2.2.2 (some c) (some out) (some outlen)) s = .next u ∧
            runSchedule (List.replicate (p.1.digestBytes + 2) s.hostKind) u =
              .next (((((s.setMem (memWrites (memWrites s.mem out.addr (sha p.1 m)) outlen.addr
                (leBytes s.cfg.native.bytes p.1.digestBytes))).setCtx c y).setVal v).setCode .ok).resume s.thread.stack) ∧
            y.life = .consumed)

/-! ## The hardware engine -/

/-- hca_sha_init from call to return: on an idle unit the poll, then INIT; with a block pending p polls, its compression, the
poll that finds the unit idle, then INIT (R471). -/
def Obligations.HcaShaInit : Prop :=
  ∀ (s : State) (c : Nat) (alg : Alg) (e : Endian), s.cfg.Wf → s.thread.stopped = false → s.inIsr = false →
    (s.sha.busy = false →
      ∃ u v, exec (.hcaShaInit .present (some c) (.known alg) e) s = .next u ∧
        runSchedule [s.hostKind, s.hostKind] u =
          .next ((((((s.withInputs (s.drewN 1).inputs).setSha { s.sha with
            modeField := modeCode alg, modeEff := some alg, fill := 0, h := initialHash alg }).setCtx c
              { s.ctx c with alg := alg, bitlen := 0, endian := e, life := .active }).setVal v).setCode .ok).resume
                s.thread.stack)) ∧
      ∀ (a : Alg) (p : Nat), s.sha.busy = true → s.sha.modeEff = some a →
        ∃ u v, exec (.hcaShaInit .present (some c) (.known alg) e) s = .next u ∧
          runSchedule (List.replicate p s.hostKind ++ [.shaCompress, s.hostKind, s.hostKind]) u =
            .next ((((((s.withInputs (s.drewN (p + 1)).inputs).setSha { s.sha with
              modeField := modeCode alg, modeEff := some alg, fill := 0, busy := false, h := initialHash alg }).setCtx c
                { s.ctx c with alg := alg, bitlen := 0, endian := e, life := .active }).setVal v).setCode .ok).resume
                  s.thread.stack)

/-- hca_sha_submit from call to return: the block's writes, p polls while it is pending, its compression, the poll that finds
the unit idle; Ok, or Error when the draw says that the submission failed (R473, R474). The form of that draw (log 16), and
that a handler may call it (log 30), are the model's choices. -/
def Obligations.HcaShaSubmit : Prop :=
  ∀ (s : State) (alg : Alg) (blk : List Byte) (p : Nat), s.cfg.Wf → s.thread.stopped = false →
    blk.length = alg.blockBytes → ShaIdle s.sha alg →
    ∃ u v, exec (.hcaShaSubmit .present blk alg) s = .next u ∧
      runSchedule (List.replicate (alg.blockBytes / alg.fifoBytes) s.hostKind ++ List.replicate p s.hostKind ++
          [.shaCompress, s.hostKind]) u =
        .next (((((s.withInputs (s.drewN (submitDraws s (p + 1))).inputs).setSha (s.sha.submitted alg blk)).setVal v).setCode
          (submitCode s (p + 1))).resume s.thread.stack)

/-- A failed submission is propagated unmodified by hca_sha_update and hca_sha_finish, and consumes the context: the step
that polls BUSY and draws the failure (R472, R474, R475). -/
def Obligations.SubmitFailurePropagates : Prop :=
  ∀ (s : State) (c : Nat) (alg : Alg) (fs : List Frame) (g : Frame), s.cfg.Wf → s.thread.stopped = false →
    s.sha.busy = false → s.cfg.submitMayFail = true → (s.drewN 1).drawn.getLsbD 0 = true →
    ((∃ data len i, g = .updateSubmitted c alg data len i) ∨ ∃ out outlen bs, g = .finishSubmitted c alg out outlen bs) →
    s.thread.stack = .poll s.cfg.layout.shaSr (bitMask s.cfg.layout.busyBit) 0 :: .submitPolled :: g :: fs →
    ∃ v, hostStep s = .next (((((s.withInputs (s.drewN 2).inputs).setCtx c
      { s.ctx c with life := .consumed }).setVal v).setCode .error).resume fs)

/-- hca_sha_update from call to return, on a valid data buffer and with no failing submission: the unit compresses the full
blocks, the tail is buffered, the counter advanced (R472). -/
def Obligations.HcaShaUpdate : Prop :=
  ∀ (s : State) (c : Nat) (data : Buf) (alg : Alg) (bs : List Byte), s.cfg.Wf → s.thread.stopped = false → s.inIsr = false →
    (s.ctx c).life = .active → (s.ctx c).alg = alg → ShaIdle s.sha alg → s.bufReads data 0 bs.length = some bs →
    bs ≠ [] → SubmitsSucceed s (blocksOf alg (buffered alg (s.ctx c) ++ bs)).length →
    ∃ u x b y v, exec (.hcaShaUpdate .present (some c) (some data) bs.length) s = .next u ∧
      runSchedule (updateSteps s.hostKind alg ((s.ctx c).idx alg) bs.length) u =
        .next ((((((s.withInputs x).setSha { s.sha with
          blk := b
          h := (blocksOf alg (buffered alg (s.ctx c) ++ bs)).foldl (compress alg) s.sha.h }).setCtx c y).setVal v).setCode
            .ok).resume s.thread.stack) ∧
      Buffers alg (s.ctx c) bs y ∧ y.acc = (s.ctx c).acc

/-- hca_sha_read from call to return: whichever path the output address takes, at either native word size and under either
alignment of the digest, the bytes stored are Digest(alg, H) (R477 to R481). That a call is a step (log 8), and that a call
with an absent handle is no other (log 35), are the model's choices. -/
def Obligations.HcaShaRead : Prop :=
  ∀ (s : State) (h : HandleRef) (alg : Alg) (out : Buf), s.cfg.Wf → s.thread.stopped = false → s.sha.busy = false →
    s.sha.modeEff = some alg → (s.bufReads out 0 alg.digestBytes).isSome →
    ∃ u v, exec (.hcaShaRead h alg out alg.digestBytes) s = .next u ∧
      runSchedule (List.replicate (readSteps s.cfg alg out) s.hostKind) u =
        .next (((s.setMem (memWrites s.mem out.addr (digest alg s.sha.h))).setVal v).resume s.thread.stack)

/-- hca_sha_finish from call to return, on valid output and length buffers of enough capacity and with no failing submission:
the final blocks are submitted, the digest and then the length N are stored, the context is consumed (R475, R476). -/
def Obligations.HcaShaFinish : Prop :=
  ∀ (s : State) (c : Nat) (out outlen : Buf) (alg : Alg) (cap : List Byte), s.cfg.Wf → s.thread.stopped = false →
    s.inIsr = false → (s.ctx c).life = .active → (s.ctx c).alg = alg → ShaIdle s.sha alg →
    s.bufReads outlen 0 s.cfg.native.bytes = some cap → alg.digestBytes ≤ leVal cap →
    (s.bufReads out 0 alg.digestBytes).isSome →
    SubmitsSucceed s (finalBlocks alg (buffered alg (s.ctx c)) (s.ctx c).bitlen).length →
    ∃ u x b v h, exec (.hcaShaFinish .present (some c) (some out) (some outlen)) s = .next u ∧
      h = (finalBlocks alg (buffered alg (s.ctx c)) (s.ctx c).bitlen).foldl (compress alg) s.sha.h ∧
      runSchedule (s.hostKind :: finishSteps s.hostKind s.cfg alg out
          (finalBlocks alg (buffered alg (s.ctx c)) (s.ctx c).bitlen).length) u =
        .next (((((((s.withInputs x).setSha { s.sha with blk := b, h := h }).setMem
          (memWrites (memWrites s.mem out.addr (digest alg h)) outlen.addr (leBytes s.cfg.native.bytes alg.digestBytes))).setCtx c
            { s.ctx c with life := .consumed }).setVal v).setCode .ok).resume s.thread.stack)

/-- Engine equivalence: on the hardware engine an init leaves the unit and the context of the empty message, an update with a
chunk those of the longer message, and a finish stores SHA(alg, message), the bytes the software engine stores (R432,
R482). -/
def Obligations.HwStreaming : Prop :=
  ∀ (c : Nat) (alg : Alg) (s : State), s.cfg.Wf → s.thread.stopped = false → s.inIsr = false →
    (∀ e, s.sha.busy = false → ∃ u x y z v, exec (.hcaShaInit .present (some c) (.known alg) e) s = .next u ∧
      runSchedule [s.hostKind, s.hostKind] u =
        .next ((((((s.withInputs x).setSha z).setCtx c y).setVal v).setCode .ok).resume s.thread.stack) ∧
      HoldsMessage alg y [] ∧ ShaIdle z alg ∧ z.h = stateAfter alg []) ∧
      ∀ m : List Byte, HoldsMessage alg (s.ctx c) m → ShaIdle s.sha alg → s.sha.h = stateAfter alg m →
        (∀ d, exec (.hcaShaUpdate .present (some c) d 0) s = .next (s.setCode .ok)) ∧
        (∀ (data : Buf) (bs : List Byte), s.bufReads data 0 bs.length = some bs → bs ≠ [] →
          SubmitsSucceed s (blocksOf alg (tailOf alg m ++ bs)).length →
          ∃ u x y z v, exec (.hcaShaUpdate .present (some c) (some data) bs.length) s = .next u ∧
            runSchedule (updateSteps s.hostKind alg ((s.ctx c).idx alg) bs.length) u =
              .next ((((((s.withInputs x).setSha z).setCtx c y).setVal v).setCode .ok).resume s.thread.stack) ∧
            HoldsMessage alg y (m ++ bs) ∧ ShaIdle z alg ∧ z.h = stateAfter alg (m ++ bs)) ∧
        ∀ (out outlen : Buf) (cap : List Byte), s.bufReads outlen 0 s.cfg.native.bytes = some cap →
          alg.digestBytes ≤ leVal cap → (s.bufReads out 0 alg.digestBytes).isSome →
          SubmitsSucceed s (finalBlocks alg (tailOf alg m) (BitVec.ofNat 64 (8 * m.length))).length →
          ∃ u x y z v ks, exec (.hcaShaFinish .present (some c) (some out) (some outlen)) s = .next u ∧
            runSchedule ks u = .next (((((((s.withInputs x).setSha z).setMem
              (memWrites (memWrites s.mem out.addr (sha alg m)) outlen.addr (leBytes s.cfg.native.bytes alg.digestBytes))).setCtx c
                y).setVal v).setCode .ok).resume s.thread.stack) ∧
            y.life = .consumed

/-- The argument checks of the hardware engine, in their order, a capacity below N among them (R660); an update of no bytes
changes nothing (R472). -/
def Obligations.HcaChecks : Prop :=
  ∀ (s : State) (c : Nat),
    (∀ x tag e n, exec (.hcaShaInit .absent x tag e) s = .next (s.setCode .invalidInput) ∧
      exec (.hcaShaInit .present none tag e) s = .next (s.setCode .invalidInput) ∧
      exec (.hcaShaInit .present (some c) (.unknown n) e) s = .next (s.setCode .error)) ∧
    (∀ alg e, s.inIsr = true →
      exec (.hcaShaInit .present (some c) (.known alg) e) s = .next (s.raiseFault .isrContext)) ∧
    (∀ blk alg, exec (.hcaShaSubmit .absent blk alg) s = .next (s.setCode .invalidInput)) ∧
    (∀ x d n, exec (.hcaShaUpdate .absent x d n) s = .next (s.setCode .invalidInput) ∧
      exec (.hcaShaUpdate .present none d n) s = .next (s.setCode .invalidInput) ∧
      (0 < n → exec (.hcaShaUpdate .present (some c) none n) s = .next (s.setCode .invalidInput)) ∧
      ((d ≠ none ∨ n = 0) → (s.ctx c).life ≠ .active →
        exec (.hcaShaUpdate .present (some c) d n) s = .next (s.raiseFault .ctxState)) ∧
      ((d ≠ none ∨ n = 0) → (s.ctx c).life = .active → s.inIsr = true →
        exec (.hcaShaUpdate .present (some c) d n) s = .next (s.raiseFault .isrContext)) ∧
      ((s.ctx c).life = .active → s.inIsr = false →
        exec (.hcaShaUpdate .present (some c) d 0) s = .next (s.setCode .ok))) ∧
    ∀ x o l out outlen, exec (.hcaShaFinish .absent x o l) s = .next (s.setCode .invalidInput) ∧
      exec (.hcaShaFinish .present none o l) s = .next (s.setCode .invalidInput) ∧
      ((o = none ∨ l = none) → exec (.hcaShaFinish .present (some c) o l) s = .next (s.setCode .invalidOutput)) ∧
      ((s.ctx c).life ≠ .active →
        exec (.hcaShaFinish .present (some c) (some out) (some outlen)) s = .next (s.raiseFault .ctxState)) ∧
      ((s.ctx c).life = .active → s.inIsr = true →
        exec (.hcaShaFinish .present (some c) (some out) (some outlen)) s = .next (s.raiseFault .isrContext)) ∧
      (s.thread.stopped = false → (s.ctx c).life = .active → s.inIsr = false → ∀ cap,
        s.bufReads outlen 0 s.cfg.native.bytes = some cap → leVal cap < (s.ctx c).alg.digestBytes →
        ∃ u v, exec (.hcaShaFinish .present (some c) (some out) (some outlen)) s = .next u ∧ runSchedule [s.hostKind] u =
          .next (((s.setVal v).setCode .invalidOutput).resume s.thread.stack))

/-! ## The TRNG driver -/

/-- trng_init from call to return, from NORMAL: after m iterations that read data 0 the test is complete and HTS decides
between Ok and RngError, or the data read is not 0 and RngError is returned; on both ways the trim is locked at its value, IE
is kept, and the unit is back in NORMAL (R570, R654, R725). -/
def Obligations.TrngInit : Prop :=
  ∀ (s : State) (m : Nat), s.cfg.Wf → s.thread.stopped = false → s.inIsr = false → s.slot = none → s.cfg.trngRev ≠ 0 →
    s.trng.htstart = false → (∀ j, j < m → (s.drewN (2 * j + 2)).drawn32 = 0) →
    (∃ u x v d, d = htsBits s.cfg.htsW (s.drewN (2 * m + 1)).drawn32 ∧ exec (.trngInit .present) s = .next u ∧
      runSchedule (List.replicate 5 s.hostKind ++ List.replicate (2 * m) s.hostKind ++ [.trngHtComplete] ++
          List.replicate 3 s.hostKind) u =
        .next (((((s.withInputs x).setTrng { s.trng with
          lock := true, htstart := false, htr := false, rdy := false, hts := d }).setVal v).setCode
            (if d = 0 then .ok else .rngError)).resume s.thread.stack)) ∧
      ((s.drewN (2 * m + 2)).drawn32 ≠ 0 → ∃ u x y v, exec (.trngInit .present) s = .next u ∧
        runSchedule (List.replicate 5 s.hostKind ++ List.replicate (2 * m) s.hostKind ++ List.replicate 4 s.hostKind) u =
          .next (((((s.withInputs x).setTrng { s.trng with
            lock := true, htstart := false, htr := false, rdy := false, hts := htsBits s.cfg.htsW y }).setVal v).setCode
              .rngError).resume s.thread.stack))

/-- trng_acquire_blocking from call to return in NORMAL: a ready sample is returned at once; otherwise p polls, the sample,
and its return; the sample is the agent's value and is consumed (R571). -/
def Obligations.TrngAcquireBlocking : Prop :=
  ∀ (s : State) (p : Nat), s.cfg.Wf → s.thread.stopped = false → s.inIsr = false → s.slot = none → s.cfg.trngRev ≠ 0 →
    s.trng.htstart = false →
    (s.trng.rdy = true → ∃ u, exec (.trngAcquireBlocking .present) s = .next u ∧
      runSchedule (List.replicate 3 s.hostKind) u =
        .next (((((s.withInputs (s.drewN 1).inputs).setTrng { s.trng with rdy := false }).setVal
          (s.trng.sample.setWidth 64)).setCode .ok).resume s.thread.stack)) ∧
      (s.trng.rdy = false → ∃ u, exec (.trngAcquireBlocking .present) s = .next u ∧
        runSchedule ([s.hostKind] ++ List.replicate p s.hostKind ++ [.trngSample] ++ [s.hostKind, s.hostKind]) u =
          .next (((((s.withInputs (s.drewN (p + 2)).inputs).setTrng
            { s.trng with rdy := false, sample := (s.drewN p).drawn32 }).setVal
              ((s.drewN p).drawn32.setWidth 64)).setCode .ok).resume s.thread.stack))

/-- trng_acquire_async from call to return: the request is recorded, the handler registered and IE set; a failed
registration frees the slot again and returns Error; a second request returns Error and changes nothing (R572, R576). -/
def Obligations.TrngAcquireAsync : Prop :=
  ∀ (s : State) (dst : Buf) (cb : Nat), s.cfg.Wf → s.thread.stopped = false → s.cfg.irqRegister = true → dst.addr % 4 = 0 →
    s.cfg.trngRev ≠ 0 →
    (s.slot = none → s.drawn32 = 0 → ∃ u v,
      exec (.trngAcquireAsync .present (some dst) (some cb)) s = .next u ∧
        runSchedule (List.replicate 3 s.hostKind) u =
          .next (((((((s.withInputs (s.drewN 2).inputs).setTrng { s.trng with ie := true }).setSlot
            (some { dst := dst, cb := cb })).setHandler { fn := .trngIsr, ctx := .present }).setVal v).setCode .ok).resume
              s.thread.stack)) ∧
      (s.slot = none → s.drawn32 ≠ 0 → ∃ u v,
        exec (.trngAcquireAsync .present (some dst) (some cb)) s = .next u ∧ runSchedule [s.hostKind] u =
          .next (((((s.withInputs (s.drewN 1).inputs).setSlot none).setVal v).setCode .error).resume s.thread.stack)) ∧
      (s.slot.isSome = true → ∃ u v,
        exec (.trngAcquireAsync .present (some dst) (some cb)) s = .next u ∧ runSchedule [s.hostKind] u =
          .next (((s.setVal v).setCode .error).resume s.thread.stack))

/-- trng_isr up to its callback: the sample is read and consumed, stored little-endian at the destination, IE cleared and
the slot freed, before the callback's program begins with the code Ok; on an absent handle or an empty slot it does nothing
(R216, R573). That the callback's program is one the state lists, and its code the agent's last, is the model's choice
(log 9, log 17). -/
def Obligations.TrngIsr : Prop :=
  (∀ (s : State) (p : Pending), s.cfg.Wf → s.thread.stopped = false → s.slot = some p → s.cfg.trngRev ≠ 0 →
    s.trng.htstart = false → s.trng.rdy = true → (s.bufReads p.dst 0 4).isSome →
    ∃ u v, exec (.trngIsr .present) s = .next u ∧ runSchedule (List.replicate 4 s.hostKind) u =
      .next (((((((s.withInputs (s.drewN 1).inputs).setTrng { s.trng with rdy := false, ie := false }).setMem
        (memWrites s.mem p.dst.addr (leBytes 4 s.trng.sample.toNat))).setSlot none).setVal v).setCode .ok).resume
          (.code (callbackCode s.callbacks p.cb) :: s.thread.stack))) ∧
    ∀ s : State, exec (.trngIsr .absent) s = .next s ∧ (s.slot = none → exec (.trngIsr .present) s = .next s)

/-- The argument checks of the TRNG driver, in their order, a revision of 0 among them (R557, R660). -/
def Obligations.TrngChecks : Prop :=
  ∀ s : State,
    (exec (.trngInit .absent) s = .next (s.setCode .invalidInput) ∧
      exec (.trngAcquireBlocking .absent) s = .next (s.setCode .invalidInput) ∧
      ∀ d f, exec (.trngAcquireAsync .absent d f) s = .next (s.setCode .invalidInput)) ∧
      (∀ i ∈ [Instr.trngInit .present, .trngAcquireBlocking .present],
        (s.inIsr = true → exec i s = .next (s.raiseFault .isrContext)) ∧
          (s.inIsr = false → s.slot.isSome = true → exec i s = .next (s.raiseFault .trngOverlap))) ∧
      (s.cfg.irqRegister = false → ∀ d f,
        exec (.trngAcquireAsync .present d f) s = .next (s.setCode .invalidInput)) ∧
      (s.cfg.irqRegister = true → ∀ f dst cb,
        exec (.trngAcquireAsync .present none f) s = .next (s.setCode .invalidOutput) ∧
          exec (.trngAcquireAsync .present (some dst) none) s = .next (s.setCode .invalidInput) ∧
          (dst.addr % 4 ≠ 0 → exec (.trngAcquireAsync .present (some dst) (some cb)) s = .next (s.raiseFault .dstAlign))) ∧
      (s.cfg.Wf → s.thread.stopped = false → s.cfg.trngRev = 0 → ∀ (dst : Buf) cb, dst.addr % 4 = 0 →
        ∀ p ∈ [(Instr.trngInit .present, Code.error, decide (s.inIsr = false ∧ s.slot = none)),
            (.trngAcquireBlocking .present, .invalidInput, decide (s.inIsr = false ∧ s.slot = none)),
            (.trngAcquireAsync .present (some dst) (some cb), .invalidInput, s.cfg.irqRegister)],
          p.2.2 = true → ∃ u, exec p.1 s = .next u ∧ runSchedule [s.hostKind] u =
            .next (((s.setVal 0).setCode p.2.1).resume s.thread.stack))
end

