-- ==== Sys2Proof/Laws/Decode.lean ====
section
/-! SUPPORT. Laws/Decode.lean: the fields of a descriptor, which descriptors each row of the opcode table admits under a
well-formed layout (R310, R311), and what every admitted descriptor decodes to. -/

namespace Sys2Proof

/-! ### Descriptor fields (R301) -/

@[simp] theorem descW_descriptor (w s : Bool) (r : BitVec 2) (o : BitVec 12) : descW (descriptor w s r o) = w := by
  simp only [descW, descriptor, BitVec.getLsbD_append, BitVec.getLsbD_ofBool]
  simp

@[simp] theorem descS_descriptor (w s : Bool) (r : BitVec 2) (o : BitVec 12) : descS (descriptor w s r o) = s := by
  simp only [descS, descriptor, BitVec.getLsbD_append, BitVec.getLsbD_ofBool]
  simp

@[simp] theorem descRsv_descriptor (w s : Bool) (r : BitVec 2) (o : BitVec 12) : descRsv (descriptor w s r o) = r := by
  apply BitVec.eq_of_getLsbD_eq
  intro i hi
  simp only [descRsv, descriptor, BitVec.getLsbD_extractLsb', BitVec.getLsbD_append]
  interval_cases i <;> simp

@[simp] theorem descOff_descriptor (w s : Bool) (r : BitVec 2) (o : BitVec 12) : descOff (descriptor w s r o) = o := by
  apply BitVec.eq_of_getLsbD_eq
  intro i hi
  simp only [descOff, descriptor, BitVec.getLsbD_extractLsb', BitVec.getLsbD_append]
  simp [hi]

/-- A descriptor is its four fields. -/
theorem descriptor_fields (d : BitVec 16) : descriptor (descW d) (descS d) (descRsv d) (descOff d) = d := by
  apply BitVec.eq_of_getLsbD_eq
  intro i hi
  simp only [descriptor, descW, descS, descRsv, descOff, BitVec.getLsbD_append, BitVec.getLsbD_extractLsb',
    BitVec.getLsbD_ofBool]
  interval_cases i <;> simp

/-- Two descriptors are equal exactly when their fields are. -/
theorem descriptor_inj {w s w' s' : Bool} {r r' : BitVec 2} {o o' : BitVec 12} :
    descriptor w s r o = descriptor w' s' r' o' ↔ w = w' ∧ s = s' ∧ r = r' ∧ o = o' := by
  constructor
  · intro h
    exact ⟨by simpa using congrArg descW h, by simpa using congrArg descS h, by simpa using congrArg descRsv h,
      by simpa using congrArg descOff h⟩
  · rintro ⟨rfl, rfl, rfl, rfl⟩; rfl

/-! ### Rows (R310) -/

theorem admits_at (w' s' : Bool) (b : BitVec 12) (w s : Bool) (r : BitVec 2) (o : BitVec 12) :
    BusRow.admits (.at w' s' b) (descriptor w s r o) = decide (w = w' ∧ s = s' ∧ r = 0 ∧ o = b) := by
  simp only [BusRow.admits, beq_eq_decide, descriptor_inj]

/-- An offset is a register of the digest span of width 4 (s = false) or 8 (R118, R204). -/
abbrev Layout.Digest (L : Layout) (s : Bool) (o : BitVec 12) : Prop :=
  L.hash.toNat ≤ o.toNat ∧ o.toNat < L.hash.toNat + 64 ∧ o.toNat % (if s then 8 else 4) = 0

theorem admits_span (L : Layout) (s' w s : Bool) (r : BitVec 2) (o : BitVec 12) :
    BusRow.admits (.span s' L.hash) (descriptor w s r o) =
      decide (w = false ∧ s = s' ∧ r = 0 ∧ L.Digest s' o) := by
  simp only [BusRow.admits, descW_descriptor, descS_descriptor, descRsv_descriptor, descOff_descriptor, inSpan,
    Layout.Digest]
  rw [Bool.eq_iff_iff]
  simp only [Bool.and_eq_true, Bool.not_eq_true', beq_iff_eq, decide_eq_true_eq]
  tauto

/-- Which row comes first for a descriptor in the window (R310): the fields decide. -/
theorem busRows_findIdx (L : Layout) (w s : Bool) (r : BitVec 2) (o : BitVec 12) :
    (busRows L).findIdx (·.admits (descriptor w s r o)) =
      if r ≠ 0 then 14
      else if w = false ∧ s = false then
        if o = L.shaCr then 0 else if o = L.shaSr then 2 else if L.Digest false o then 5
        else if o = L.trngRev then 7 else if o = L.trngCr then 8 else if o = L.trngSr then 10
        else if o = L.trngTrim then 11 else if o = L.trngData then 13 else 14
      else if w = true ∧ s = false then
        if o = L.shaCr then 1 else if o = L.fifoIn then 3 else if o = L.trngCr then 9
        else if o = L.trngTrim then 12 else 14
      else if w = true then if o = L.fifoIn then 4 else 14
      else if L.Digest true o then 6 else 14 := by
  simp only [busRows, List.findIdx_cons, List.findIdx_nil, admits_at, admits_span]
  by_cases hr : r = 0
  · subst hr
    cases w <;> cases s <;> simp only [Bool.cond_eq_ite, decide_eq_true_eq, ne_eq, not_true_eq_false, if_false, true_and,
      and_true, Bool.true_eq_false, Bool.false_eq_true, false_and, and_false, if_true, and_self] <;>
      split_ifs <;> rfl
  · simp only [hr, ne_eq, not_false_eq_true, if_true, false_and, and_false, decide_false, cond_false]

/-! ### What the admitted descriptors decode to (R310) -/

/-- Under a well-formed layout every admitted offset is inside the window (R201). -/
theorem Layout.OffsetsWf.window {L : Layout} (h : L.OffsetsWf) :
    (∀ o ∈ L.slots, o.toNat < L.window) ∧ ∀ s o, L.Digest s o → o.toNat < L.window := by
  obtain ⟨-, -, -, -, -, h1, h2, -⟩ := h
  exact ⟨fun o ho => by have := h1 o ho; omega, fun s o ho => by have := ho.2.1; omega⟩

/-- No register of the layout lies in the digest span (R212). -/
theorem Layout.OffsetsWf.notDigest {L : Layout} (h : L.OffsetsWf) : ∀ o ∈ L.slots, ¬ L.Digest false o :=
  fun o ho hd => by have := h.2.2.2.2.1 o ho; have := hd.1; have := hd.2.1; omega

/-- Decoding by fields. -/
theorem decodeTx_descriptor {L : Layout} (h : L.OffsetsWf) (w s : Bool) (r : BitVec 2) (o : BitVec 12) (v : Word64) :
    decodeTx L (descriptor w s r o) v = busInstr L (
      if r ≠ 0 then 14
      else if w = false ∧ s = false then
        if o = L.shaCr then 0 else if o = L.shaSr then 2 else if L.Digest false o then 5
        else if o = L.trngRev then 7 else if o = L.trngCr then 8 else if o = L.trngSr then 10
        else if o = L.trngTrim then 11 else if o = L.trngData then 13 else 14
      else if w = true ∧ s = false then
        if o = L.shaCr then 1 else if o = L.fifoIn then 3 else if o = L.trngCr then 9
        else if o = L.trngTrim then 12 else 14
      else if w = true then if o = L.fifoIn then 4 else 14
      else if L.Digest true o then 6 else 14)
      (descriptor w s r o) v := by
  rw [decodeTx, busRows_findIdx]
  congr 1
  by_cases hw : o.toNat < L.window
  · simp [inWindow, hw]
  · obtain ⟨h1, h2⟩ := h.window
    have ne : ∀ x ∈ L.slots, o ≠ x := by rintro x hx rfl; exact hw (h1 _ hx)
    have nd : ∀ s, ¬ L.Digest s o := fun s hs => hw (h2 s o hs)
    simp only [Layout.slots, List.forall_mem_cons] at ne
    simp only [inWindow, descOff_descriptor, hw, decide_false, Bool.false_eq_true, if_false, ne, nd]
    simp [busRows]

theorem and_ffff (d : BitVec 16) : d &&& 0xFFFF = d := by
  apply BitVec.eq_of_getLsbD_eq
  intro i hi
  interval_cases i <;> simp

/-- A read descriptor under the masks of the two digest rows. -/
theorem descriptor_and (w s : Bool) (r : BitVec 2) (o : BitVec 12) (m : BitVec 12) :
    descriptor w s r o &&& descriptor true true 3 m = descriptor w s r (o &&& m) := by
  apply BitVec.eq_of_getLsbD_eq
  intro i hi
  simp only [descriptor, BitVec.getLsbD_append, BitVec.getLsbD_and, BitVec.getLsbD_ofBool]
  interval_cases i <;> simp

theorem span_masks : ∀ o : BitVec 12,
    (o &&& 0xFC3 = 0x040 ↔ Layout.reference.Digest false o) ∧
      (o &&& 0xFC7 = 0x040 ↔ Layout.reference.Digest true o) := by
  decide +kernel

/-- The row a descriptor selects at the reference layout is the one the table's masks and match words select (R310). -/
theorem busRows_reference (d : BitVec 16) :
    (busRows Layout.reference).findIdx (·.admits d) = tableRows.findIdx (fun r => d &&& r.1 == r.2) := by
  rw [← descriptor_fields d]
  generalize descW d = w, descS d = s, descRsv d = r, descOff d = o
  have e3 : ∀ b : BitVec 16, (descriptor w s r o &&& 0xFFFF == b) = decide (descriptor w s r o = b) := fun b => by
    rw [and_ffff, beq_eq_decide]
  have e1 : (descriptor w s r o &&& 0xFFC3 == 0x0040) =
      decide (w = false ∧ s = false ∧ r = 0 ∧ Layout.reference.Digest false o) := by
    rw [show (0xFFC3 : BitVec 16) = descriptor true true 3 0xFC3 from rfl, descriptor_and,
      show (0x0040 : BitVec 16) = descriptor false false 0 0x040 from rfl, beq_eq_decide]
    simp only [descriptor_inj, (span_masks o).1]
  have e2 : (descriptor w s r o &&& 0xFFC7 == 0x4040) =
      decide (w = false ∧ s = true ∧ r = 0 ∧ Layout.reference.Digest true o) := by
    rw [show (0xFFC7 : BitVec 16) = descriptor true true 3 0xFC7 from rfl, descriptor_and,
      show (0x4040 : BitVec 16) = descriptor false true 0 0x040 from rfl, beq_eq_decide]
    simp only [descriptor_inj, (span_masks o).2]
  have e4 : ∀ s', BusRow.admits (.span s' Layout.reference.hash) (descriptor w s r o) =
      decide (w = false ∧ s = s' ∧ r = 0 ∧ Layout.reference.Digest s' o) := fun s' => admits_span _ _ _ _ _ _
  have e5 : ∀ w' s' b, BusRow.admits (.at w' s' b) (descriptor w s r o) =
      decide (descriptor w s r o = descriptor w' s' 0 b) := fun w' s' b => by simp only [BusRow.admits, beq_eq_decide]
  simp only [busRows, tableRows, List.findIdx_cons, List.findIdx_nil, e1, e2, e3, e4, e5]
  rfl

theorem decodeTx_rd32ShaCr {L : Layout} (h : L.OffsetsWf) (v : Word64) :
    decodeTx L (descriptor false false 0 L.shaCr) v = .rd32ShaCr := by
  rw [decodeTx_descriptor h]
  simp [busInstr]

theorem decodeTx_wr32ShaCr {L : Layout} (h : L.OffsetsWf) (v : Word64) :
    decodeTx L (descriptor true false 0 L.shaCr) v = .wr32ShaCr (v.setWidth 32) := by
  rw [decodeTx_descriptor h]
  simp [busInstr]

theorem decodeTx_rd32ShaSr {L : Layout} (h : L.OffsetsWf) (v : Word64) :
    decodeTx L (descriptor false false 0 L.shaSr) v = .rd32ShaSr := by
  have d := h.1
  simp only [Layout.slots, List.nodup_cons, List.mem_cons, not_or] at d
  rw [decodeTx_descriptor h]
  simp [d, busInstr, eq_comm]

theorem decodeTx_wr32FifoIn {L : Layout} (h : L.OffsetsWf) (v : Word64) :
    decodeTx L (descriptor true false 0 L.fifoIn) v = .wr32FifoIn (v.setWidth 32) := by
  have d := h.1
  simp only [Layout.slots, List.nodup_cons, List.mem_cons, not_or] at d
  rw [decodeTx_descriptor h]
  simp [d, busInstr, eq_comm]

theorem decodeTx_rd32TrngRev {L : Layout} (h : L.OffsetsWf) (v : Word64) :
    decodeTx L (descriptor false false 0 L.trngRev) v = .rd32TrngRev := by
  have d := h.1
  have p := h.notDigest
  simp only [Layout.slots, List.nodup_cons, List.mem_cons, not_or] at d
  simp only [Layout.slots, List.forall_mem_cons] at p
  rw [decodeTx_descriptor h]
  simp [d, p, busInstr, eq_comm]

theorem decodeTx_rd32TrngCr {L : Layout} (h : L.OffsetsWf) (v : Word64) :
    decodeTx L (descriptor false false 0 L.trngCr) v = .rd32TrngCr := by
  have d := h.1
  have p := h.notDigest
  simp only [Layout.slots, List.nodup_cons, List.mem_cons, not_or] at d
  simp only [Layout.slots, List.forall_mem_cons] at p
  rw [decodeTx_descriptor h]
  simp [d, p, busInstr, eq_comm]

theorem decodeTx_wr32TrngCr {L : Layout} (h : L.OffsetsWf) (v : Word64) :
    decodeTx L (descriptor true false 0 L.trngCr) v = .wr32TrngCr (v.setWidth 32) := by
  have d := h.1
  simp only [Layout.slots, List.nodup_cons, List.mem_cons, not_or] at d
  rw [decodeTx_descriptor h]
  simp [d, busInstr, eq_comm]

theorem decodeTx_rd32TrngSr {L : Layout} (h : L.OffsetsWf) (v : Word64) :
    decodeTx L (descriptor false false 0 L.trngSr) v = .rd32TrngSr := by
  have d := h.1
  have p := h.notDigest
  simp only [Layout.slots, List.nodup_cons, List.mem_cons, not_or] at d
  simp only [Layout.slots, List.forall_mem_cons] at p
  rw [decodeTx_descriptor h]
  simp [d, p, busInstr, eq_comm]

theorem decodeTx_rd32TrngTrim {L : Layout} (h : L.OffsetsWf) (v : Word64) :
    decodeTx L (descriptor false false 0 L.trngTrim) v = .rd32TrngTrim := by
  have d := h.1
  have p := h.notDigest
  simp only [Layout.slots, List.nodup_cons, List.mem_cons, not_or] at d
  simp only [Layout.slots, List.forall_mem_cons] at p
  rw [decodeTx_descriptor h]
  simp [d, p, busInstr, eq_comm]

theorem decodeTx_wr32TrngTrim {L : Layout} (h : L.OffsetsWf) (v : Word64) :
    decodeTx L (descriptor true false 0 L.trngTrim) v = .wr32TrngTrim (v.setWidth 32) := by
  have d := h.1
  simp only [Layout.slots, List.nodup_cons, List.mem_cons, not_or] at d
  rw [decodeTx_descriptor h]
  simp [d, busInstr, eq_comm]

theorem decodeTx_rd32TrngData {L : Layout} (h : L.OffsetsWf) (v : Word64) :
    decodeTx L (descriptor false false 0 L.trngData) v = .rd32TrngData := by
  have d := h.1
  have p := h.notDigest
  simp only [Layout.slots, List.nodup_cons, List.mem_cons, not_or] at d
  simp only [Layout.slots, List.forall_mem_cons] at p
  rw [decodeTx_descriptor h]
  simp [d, p, busInstr, eq_comm]

theorem decodeTx_wr64FifoIn {L : Layout} (h : L.OffsetsWf) (v : Word64) :
    decodeTx L (descriptor true true 0 L.fifoIn) v = .wr64FifoIn v := by
  rw [decodeTx_descriptor h]
  simp [busInstr]

/-! ### The digest span (R310) -/

/-- An offset inside the span. -/
theorem Layout.OffsetsWf.span {L : Layout} (h : L.OffsetsWf) {k : Nat} (hk : k < 64) :
    (L.hash + BitVec.ofNat 12 k).toNat = L.hash.toNat + k := by
  obtain ⟨-, -, -, -, -, -, h1, h2⟩ := h
  rw [BitVec.toNat_add, BitVec.toNat_ofNat]
  omega

/-- The index a digest row reads off an offset of the span. -/
theorem span_index (base : BitVec 12) (k : Nat) : base + BitVec.ofNat 12 k - base = BitVec.ofNat 12 k := by
  rw [BitVec.add_comm, BitVec.add_sub_cancel]

theorem decodeTx_rd32Hash {L : Layout} (h : L.OffsetsWf) (j : Fin 16) (v : Word64) :
    decodeTx L (descriptor false false 0 (L.hash + BitVec.ofNat 12 (4 * j))) v = .rd32Hash j := by
  have hj := j.isLt
  have ho := h.span (by omega : 4 * (j : Nat) < 64)
  have hd : L.Digest false (L.hash + BitVec.ofNat 12 (4 * j)) := by
    have h8 := h.2.2.2.1
    refine ⟨by omega, by omega, ?_⟩
    simp only [Bool.false_eq_true, if_false]
    omega
  have ne : ∀ o ∈ L.slots, L.hash + BitVec.ofNat 12 (4 * j) ≠ o := by
    rintro o hs rfl; have := h.2.2.2.2.1 _ hs; omega
  rw [decodeTx_descriptor h]
  simp only [ne_eq, not_true_eq_false, if_false, and_self, if_true, ne L.shaCr (by simp [Layout.slots]),
    ne L.shaSr (by simp [Layout.slots])]
  rw [if_pos hd]
  simp only [busInstr, Instr.rd32Hash.injEq, descOff_descriptor, span_index]
  apply Fin.ext
  show ((BitVec.ofNat 12 (4 * (j : Nat))).extractLsb' 2 4).toNat = j
  rw [BitVec.extractLsb'_toNat, BitVec.toNat_ofNat, Nat.shiftRight_eq_div_pow]
  omega

theorem decodeTx_rd64Hash {L : Layout} (h : L.OffsetsWf) (e : Fin 8) (v : Word64) :
    decodeTx L (descriptor false true 0 (L.hash + BitVec.ofNat 12 (8 * e))) v = .rd64Hash e := by
  have hj := e.isLt
  have ho := h.span (by omega : 8 * (e : Nat) < 64)
  have hd : L.Digest true (L.hash + BitVec.ofNat 12 (8 * e)) := by
    have h8 := h.2.2.2.1
    refine ⟨by omega, by omega, ?_⟩
    simp only [if_true]
    omega
  rw [decodeTx_descriptor h]
  simp only [ne_eq, not_true_eq_false, if_false, Bool.true_eq_false, Bool.false_eq_true, and_false]
  rw [if_pos hd]
  simp only [busInstr, Instr.rd64Hash.injEq, descOff_descriptor, span_index]
  apply Fin.ext
  show ((BitVec.ofNat 12 (8 * (e : Nat))).extractLsb' 3 3).toNat = e
  rw [BitVec.extractLsb'_toNat, BitVec.toNat_ofNat, Nat.shiftRight_eq_div_pow]
  omega

/-! ### The reference parameters are admitted -/

theorem Layout.reference_offsetsWf : Layout.reference.OffsetsWf := by
  refine ⟨by decide, ?_, by decide, by decide, ?_, ?_, by decide, by decide⟩ <;>
    simp [Layout.wordOffsets, Layout.slots, Layout.reference]

theorem Config.reference_wf : Config.reference.Wf :=
  ⟨Layout.reference_offsetsWf, by decide, by decide, by decide⟩

end Sys2Proof
end

