-- ==== Sys2Proof/Laws/Bits.lean ====
section
/-! SUPPORT. Laws/Bits.lean: what a bit field reads as after a field of the register is replaced, and the register values of
Operands.lean field by field. -/

namespace Sys2Proof.Machine

theorem fieldMask_getLsbD {w : Nat} (h : w ≤ 32) (i : Nat) : (fieldMask w).getLsbD i = decide (i < w) := by
  have : i < w → i < 32 := fun hi => by omega
  simp only [fieldMask, BitVec.getLsbD_ofNat, Nat.testBit_two_pow_sub_one]
  by_cases hi : i < w <;> simp [hi, this]

/-- A bit of a register once a field of it is replaced. -/
theorem putField_getLsbD {lo w : Nat} (h : lo + w ≤ 32) (x v : Word32) (i : Nat) :
    (putField lo w x v).getLsbD i = if lo ≤ i ∧ i < lo + w then x.getLsbD (i - lo) else v.getLsbD i := by
  have hw : w ≤ 32 := by omega
  by_cases h32 : i < 32
  · simp only [putField, BitVec.getLsbD_or, BitVec.getLsbD_and, BitVec.getLsbD_not, BitVec.getLsbD_shiftLeft,
      fieldMask_getLsbD hw, h32, decide_true, Bool.true_and]
    by_cases h1 : lo ≤ i
    · by_cases h2 : i < lo + w
      · have : i - lo < w := by omega
        simp [h1, h2, this, Nat.not_lt.mpr h1]
      · have : ¬ i - lo < w := by omega
        simp [h2, this]
    · simp [h1, Nat.lt_of_not_le h1]
  · have h1 : ¬ (lo ≤ i ∧ i < lo + w) := by omega
    rw [if_neg h1, BitVec.getLsbD_of_ge _ _ (by omega), BitVec.getLsbD_of_ge _ _ (by omega)]

/-- A bit of a field. -/
theorem getField_getLsbD {lo w : Nat} (h : w ≤ 32) (v : Word32) (i : Nat) :
    (getField lo w v).getLsbD i = (decide (i < w) && v.getLsbD (lo + i)) := by
  simp only [getField, BitVec.getLsbD_and, BitVec.getLsbD_ushiftRight, fieldMask_getLsbD h, Bool.and_comm]

/-- A field reads as what was put into it. -/
theorem getField_putField {lo w : Nat} (h : lo + w ≤ 32) (x v : Word32) :
    getField lo w (putField lo w x v) = x &&& fieldMask w := by
  apply BitVec.eq_of_getLsbD_eq
  intro i hi
  rw [getField_getLsbD (by omega), putField_getLsbD h, BitVec.getLsbD_and, fieldMask_getLsbD (by omega)]
  by_cases hw : i < w
  · simp [hw]
  · simp [hw]

/-- A field is left alone by an update of another. -/
theorem getField_putField_of_disjoint {lo w lo' w' : Nat} (h : lo + w ≤ 32) (h' : lo' + w' ≤ 32)
    (d : lo' + w' ≤ lo ∨ lo + w ≤ lo') (x v : Word32) :
    getField lo' w' (putField lo w x v) = getField lo' w' v := by
  apply BitVec.eq_of_getLsbD_eq
  intro i hi
  rw [getField_getLsbD (by omega), getField_getLsbD (by omega), putField_getLsbD h]
  by_cases hw : i < w'
  · rw [if_neg (by omega)]
  · simp [hw]

/-- A bit outside a field is left alone by an update of the field. -/
theorem getBit_putField_of_disjoint {lo w j : Nat} (h : lo + w ≤ 32) (d : j < lo ∨ lo + w ≤ j) (x v : Word32) :
    getBit j (putField lo w x v) = getBit j v := by
  rw [getBit, putField_getLsbD h, if_neg (by omega), getBit]

/-- A bit reads as what was put into it. -/
theorem getBit_putBit {i : Nat} (h : i < 32) (b : Bool) (v : Word32) : getBit i (putBit i b v) = b := by
  rw [getBit, putBit, putField_getLsbD (by omega), if_pos (by omega)]
  cases b <;> simp

/-- A bit is left alone by an update of another. -/
theorem getBit_putBit_of_ne {i j : Nat} (h : i < 32) (d : i ≠ j) (b : Bool) (v : Word32) :
    getBit j (putBit i b v) = getBit j v :=
  getBit_putField_of_disjoint (by omega) (by omega) _ _

/-- A field is left alone by an update of a bit outside it. -/
theorem getField_putBit_of_disjoint {lo w i : Nat} (h : lo + w ≤ 32) (hi : i < 32) (d : i < lo ∨ lo + w ≤ i) (b : Bool)
    (v : Word32) : getField lo w (putBit i b v) = getField lo w v :=
  getField_putField_of_disjoint (by omega) h (by omega) _ _

/-- A bit of a mask. -/
theorem bitMask_getLsbD {i : Nat} (h : i < 32) (j : Nat) : (bitMask i).getLsbD j = decide (j = i) := by
  simp [bitMask, BitVec.getLsbD_twoPow, h, eq_comm]

/-- A bit once the bits of a mask are set. -/
theorem getBit_or_bitMask {i : Nat} (h : i < 32) (v : Word32) (j : Nat) :
    getBit j (v ||| bitMask i) = (getBit j v || decide (j = i)) := by
  simp [getBit, bitMask_getLsbD h]

/-- A bit once the bits of a mask are cleared. -/
theorem getBit_and_not_bitMask {i j : Nat} (h : i < 32) (hj : j < 32) (v : Word32) :
    getBit j (v &&& ~~~ bitMask i) = (getBit j v && !decide (j = i)) := by
  rw [getBit, BitVec.getLsbD_and, BitVec.getLsbD_not, bitMask_getLsbD h, getBit]
  simp [hj]

/-- A masked bit compared with the mask: the bit is 1. -/
theorem and_bitMask_eq_bitMask {i : Nat} (h : i < 32) (v : Word32) :
    v &&& bitMask i = bitMask i ↔ getBit i v = true := by
  constructor
  · intro e
    have := congrArg (fun x => BitVec.getLsbD x i) e
    simpa [bitMask_getLsbD h, getBit] using this
  · intro e
    apply BitVec.eq_of_getLsbD_eq
    intro j hj
    rw [BitVec.getLsbD_and, bitMask_getLsbD h]
    by_cases hji : j = i
    · subst hji; simpa [getBit] using e
    · simp [hji]

/-- A masked bit compared with 0: the bit is 0. -/
theorem and_bitMask_eq_zero {i : Nat} (h : i < 32) (v : Word32) :
    v &&& bitMask i = 0 ↔ getBit i v = false := by
  constructor
  · intro e
    have := congrArg (fun x => BitVec.getLsbD x i) e
    simpa [bitMask_getLsbD h, getBit] using this
  · intro e
    apply BitVec.eq_of_getLsbD_eq
    intro j hj
    rw [BitVec.getLsbD_and, bitMask_getLsbD h]
    by_cases hji : j = i
    · subst hji; simpa [getBit] using e
    · simp [hji]

/-- Cutting to HTS_W bits twice is cutting once. -/
@[simp] theorem htsBits_htsBits (w : Nat) (x : Word32) : htsBits w (htsBits w x) = htsBits w x := by
  simp [htsBits, BitVec.and_assoc]

/-! ### Register values -/

/-- MODE of what SHA_CR reads as (R450). -/
theorem crMode_shaCrValue {c : Config} (h : c.Wf) (u : ShaUnit) (x : Word32) :
    crMode c (shaCrValue c u x) = u.modeField := by
  obtain ⟨-, ⟨⟨h1, h2, h3⟩, -⟩, -⟩ := h
  rw [crMode, shaCrValue, getField_putBit_of_disjoint h1 h2 h3, getField_putField h1]
  apply BitVec.eq_of_getLsbD_eq
  intro i hi
  rw [BitVec.getLsbD_setWidth, BitVec.getLsbD_and, fieldMask_getLsbD (by omega), BitVec.getLsbD_setWidth]
  simp [hi, show i < 32 by omega]

/-- INIT reads 0 (R450). -/
theorem crInit_shaCrValue {c : Config} (h : c.Wf) (u : ShaUnit) (x : Word32) : crInit c (shaCrValue c u x) = false :=
  getBit_putBit h.2.1.1.2.1 _ _

/-- BUSY of what SHA_SR reads as (R453). -/
theorem busy_shaSrValue {c : Config} (h : c.Wf) (u : ShaUnit) (x : Word32) :
    getBit c.layout.busyBit (shaSrValue c u x) = u.busy :=
  getBit_putBit h.2.1.2.1 _ _

/-- HTSTART of what TRNG_CR reads as (R551). -/
theorem crHtstart_trngCrValue {c : Config} (h : c.Wf) (u : TrngUnit) (x : Word32) :
    crHtstart c (trngCrValue c u x) = u.htstart := by
  obtain ⟨-, ⟨-, -, ⟨h1, h2, h3⟩, -⟩, -⟩ := h
  rw [crHtstart, trngCrValue, getBit_putBit_of_ne h2 (Ne.symm h3), getBit_putBit h1]

/-- IE of what TRNG_CR reads as (R551). -/
theorem crIe_trngCrValue {c : Config} (h : c.Wf) (u : TrngUnit) (x : Word32) : crIe c (trngCrValue c u x) = u.ie :=
  getBit_putBit h.2.1.2.2.1.2.1 _ _

/-- HTR of what TRNG_SR reads as (R553). -/
theorem htr_trngSrValue {c : Config} (h : c.Wf) (u : TrngUnit) (x : Word32) :
    getBit c.layout.htrBit (trngSrValue c u x) = u.htr := by
  obtain ⟨-, ⟨-, -, -, ⟨h1, h2, h3, h4, h5, h6⟩, -⟩, -⟩ := h
  unfold trngSrValue
  have e : getBit c.layout.htrBit (putBit c.layout.rdyBit u.rdy (putBit c.layout.htrBit u.htr x)) = u.htr := by
    rw [getBit_putBit_of_ne h2 (Ne.symm h3), getBit_putBit h1]
  by_cases hh : u.htr = true
  · simp [hh] at e ⊢; exact e
  · simp only [hh, if_false, Bool.false_eq_true]
    rw [getBit_putField_of_disjoint h4 h5]
    simpa [hh] using e

/-- RDY of what TRNG_SR reads as (R553). -/
theorem rdy_trngSrValue {c : Config} (h : c.Wf) (u : TrngUnit) (x : Word32) :
    getBit c.layout.rdyBit (trngSrValue c u x) = u.rdy := by
  obtain ⟨-, ⟨-, -, -, ⟨h1, h2, h3, h4, h5, h6⟩, -⟩, -⟩ := h
  unfold trngSrValue
  split
  · exact getBit_putBit h2 _ _
  · rw [getBit_putField_of_disjoint h4 h6, getBit_putBit h2]

/-- HTS of what TRNG_SR reads as when no test runs (R553). -/
theorem hts_trngSrValue {c : Config} (h : c.Wf) (u : TrngUnit) (x : Word32) (hh : u.htr = false) :
    getField c.layout.htsLo c.htsW (trngSrValue c u x) = htsBits c.htsW u.hts := by
  obtain ⟨-, ⟨-, -, -, ⟨h1, h2, h3, h4, h5, h6⟩, -⟩, -⟩ := h
  simp only [trngSrValue, hh, if_false, Bool.false_eq_true]
  rw [getField_putField h4, htsBits]

/-- TRIM_VAL of what TRNG_TRIM reads as (R554). -/
theorem trimVal_trngTrimValue {c : Config} (h : c.Wf) (u : TrngUnit) : trimVal c (trngTrimValue c u) = u.trimVal := by
  obtain ⟨-, ⟨-, -, -, -, ⟨h1, h2, h3⟩⟩, -⟩ := h
  rw [trimVal, trngTrimValue, getField_putBit_of_disjoint h1 h2 h3, getField_putField h1]
  apply BitVec.eq_of_getLsbD_eq
  intro i hi
  rw [BitVec.getLsbD_setWidth, BitVec.getLsbD_and, fieldMask_getLsbD (by omega), BitVec.getLsbD_setWidth]
  simp [hi, show i < 32 by omega]

/-- LOCK of what TRNG_TRIM reads as (R554). -/
theorem trimLock_trngTrimValue {c : Config} (h : c.Wf) (u : TrngUnit) : trimLock c (trngTrimValue c u) = u.lock :=
  getBit_putBit h.2.1.2.2.2.2.2.1 _ _

/-! ### Read-modify-write values (R315) -/

theorem rmw_clear (v m : Word32) : (v &&& ~~~m) ||| 0 = v &&& ~~~m := by simp

theorem rmw_set (v m : Word32) : (v &&& ~~~(0 : Word32)) ||| m = v ||| m := by
  have : (~~~(0 : Word32)) = BitVec.allOnes 32 := by decide
  rw [this, BitVec.and_allOnes]

/-- rmw32 TRNG_CR, HTSTART, 0 (R570). -/
theorem rmw_clear_htstart {c : Config} (h : c.Wf) (u : TrngUnit) (x : Word32) :
    crHtstart c ((trngCrValue c u x &&& ~~~bitMask c.layout.htstartBit) ||| 0) = false ∧
      crIe c ((trngCrValue c u x &&& ~~~bitMask c.layout.htstartBit) ||| 0) = u.ie := by
  have hie := crIe_trngCrValue h u x
  obtain ⟨h1, h2, h3⟩ := h.2.1.2.2.1
  rw [rmw_clear, crHtstart, crIe, getBit_and_not_bitMask h1 h1, getBit_and_not_bitMask h1 h2]
  rw [crIe] at hie
  simp [hie, Ne.symm h3]

/-- rmw32 TRNG_CR, 0, HTSTART (R570). -/
theorem rmw_set_htstart {c : Config} (h : c.Wf) (u : TrngUnit) (x : Word32) :
    crHtstart c ((trngCrValue c u x &&& ~~~(0 : Word32)) ||| bitMask c.layout.htstartBit) = true ∧
      crIe c ((trngCrValue c u x &&& ~~~(0 : Word32)) ||| bitMask c.layout.htstartBit) = u.ie := by
  have hie := crIe_trngCrValue h u x
  obtain ⟨h1, h2, h3⟩ := h.2.1.2.2.1
  rw [rmw_set, crHtstart, crIe, getBit_or_bitMask h1, getBit_or_bitMask h1]
  rw [crIe] at hie
  simp [hie, Ne.symm h3]

/-- rmw32 TRNG_CR, IE, 0 (R573). -/
theorem rmw_clear_ie {c : Config} (h : c.Wf) (u : TrngUnit) (x : Word32) :
    crHtstart c ((trngCrValue c u x &&& ~~~bitMask c.layout.ieBit) ||| 0) = u.htstart ∧
      crIe c ((trngCrValue c u x &&& ~~~bitMask c.layout.ieBit) ||| 0) = false := by
  have hst := crHtstart_trngCrValue h u x
  obtain ⟨h1, h2, h3⟩ := h.2.1.2.2.1
  rw [rmw_clear, crHtstart, crIe, getBit_and_not_bitMask h2 h1, getBit_and_not_bitMask h2 h2]
  rw [crHtstart] at hst
  simp [hst, h3]

/-- rmw32 TRNG_CR, 0, IE (R572). -/
theorem rmw_set_ie {c : Config} (h : c.Wf) (u : TrngUnit) (x : Word32) :
    crHtstart c ((trngCrValue c u x &&& ~~~(0 : Word32)) ||| bitMask c.layout.ieBit) = u.htstart ∧
      crIe c ((trngCrValue c u x &&& ~~~(0 : Word32)) ||| bitMask c.layout.ieBit) = true := by
  have hst := crHtstart_trngCrValue h u x
  obtain ⟨h1, h2, h3⟩ := h.2.1.2.2.1
  rw [rmw_set, crHtstart, crIe, getBit_or_bitMask h2, getBit_or_bitMask h2]
  rw [crHtstart] at hst
  simp [hst, h3]

/-- rmw32 TRNG_TRIM, 0, LOCK (R570, R728): the trim value is put back and the lock set. -/
theorem rmw_set_lock {c : Config} (h : c.Wf) (u : TrngUnit) :
    trimVal c ((trngTrimValue c u &&& ~~~(0 : Word32)) ||| bitMask c.layout.lockBit) = u.trimVal ∧
      trimLock c ((trngTrimValue c u &&& ~~~(0 : Word32)) ||| bitMask c.layout.lockBit) = true := by
  have hv := trimVal_trngTrimValue h u
  obtain ⟨-, -, -, -, ⟨h1, h2, h3⟩⟩ := h.2.1
  rw [rmw_set, trimLock, getBit_or_bitMask h2]
  refine ⟨?_, by simp⟩
  rw [← hv, trimVal, trimVal]
  congr 1
  apply BitVec.eq_of_getLsbD_eq
  intro i hi
  rw [getField_getLsbD (by omega), getField_getLsbD (by omega)]
  by_cases hw : i < 31
  · have := getBit_or_bitMask h2 (trngTrimValue c u) (c.layout.trimLo + i)
    have hne : c.layout.trimLo + i ≠ c.layout.lockBit := by omega
    simp only [getBit, hne, decide_false, Bool.or_false] at this
    rw [this]
  · simp [hw]

/-- INIT of the value that performs INIT (R471). -/
theorem crInit_initValue {c : Config} (h : c.Wf) (a : Alg) : crInit c (initValue c a) = true := by
  have h2 := h.2.1.1.2.1
  simp [crInit, getBit, initValue, bitMask_getLsbD h2]

/-- MODE of the value that performs INIT (R471). -/
theorem crMode_initValue {c : Config} (h : c.Wf) (a : Alg) : crMode c (initValue c a) = modeCode a := by
  obtain ⟨-, ⟨⟨h1, h2, h3⟩, -⟩, -⟩ := h
  apply BitVec.eq_of_getLsbD_eq
  intro i hi
  rw [crMode, BitVec.getLsbD_setWidth, getField_getLsbD (by omega), initValue, BitVec.getLsbD_or, bitMask_getLsbD h2,
    BitVec.getLsbD_shiftLeft, BitVec.getLsbD_setWidth]
  have e1 : ¬ c.layout.modeLo + i = c.layout.initBit := by omega
  have e2 : c.layout.modeLo + i < 32 := by omega
  have e3 : i < 32 := by omega
  simp [hi, e1, e2, e3]

/-- `mode_code` and the algorithm of a MODE code are inverse (R305). -/
@[simp] theorem algOfMode_modeCode (a : Alg) : algOfMode (modeCode a) = a := by
  cases a <;> rfl

@[simp] theorem modeCode_algOfMode (m : BitVec 2) : modeCode (algOfMode m) = m := by
  revert m; decide

end Sys2Proof.Machine
end

