-- ==== Sys2Proof/Laws/State.lean ====
section
/-! SUPPORT. Laws/State.lean: for each named update of the state, what every field and every accessor gives afterwards, so
that no proof unfolds a record update. -/

namespace Sys2Proof.Machine

/-! ### setSha -/

@[simp] theorem State.setSha_cfg (s : State) (u : ShaUnit) : (s.setSha u).cfg = s.cfg := rfl
@[simp] theorem State.setSha_sha (s : State) (u : ShaUnit) : (s.setSha u).sha = u := rfl
@[simp] theorem State.setSha_trng (s : State) (u : ShaUnit) : (s.setSha u).trng = s.trng := rfl
@[simp] theorem State.setSha_mem (s : State) (u : ShaUnit) : (s.setSha u).mem = s.mem := rfl
@[simp] theorem State.setSha_ctxs (s : State) (u : ShaUnit) : (s.setSha u).ctxs = s.ctxs := rfl
@[simp] theorem State.setSha_slot (s : State) (u : ShaUnit) : (s.setSha u).slot = s.slot := rfl
@[simp] theorem State.setSha_irqHandler (s : State) (u : ShaUnit) : (s.setSha u).irqHandler = s.irqHandler := rfl
@[simp] theorem State.setSha_inIsr (s : State) (u : ShaUnit) : (s.setSha u).inIsr = s.inIsr := rfl
@[simp] theorem State.setSha_faults (s : State) (u : ShaUnit) : (s.setSha u).faults = s.faults := rfl
@[simp] theorem State.setSha_callbacks (s : State) (u : ShaUnit) : (s.setSha u).callbacks = s.callbacks := rfl
@[simp] theorem State.setSha_inputs (s : State) (u : ShaUnit) : (s.setSha u).inputs = s.inputs := rfl
@[simp] theorem State.setSha_main (s : State) (u : ShaUnit) : (s.setSha u).main = s.main := rfl
@[simp] theorem State.setSha_isr (s : State) (u : ShaUnit) : (s.setSha u).isr = s.isr := rfl
@[simp] theorem State.setSha_thread (s : State) (u : ShaUnit) : (s.setSha u).thread = s.thread := rfl
@[simp] theorem State.setSha_trngPresent (s : State) (u : ShaUnit) : (s.setSha u).trngPresent = s.trngPresent := rfl
@[simp] theorem State.setSha_drawn (s : State) (u : ShaUnit) : (s.setSha u).drawn = s.drawn := rfl
@[simp] theorem State.setSha_drawn32 (s : State) (u : ShaUnit) : (s.setSha u).drawn32 = s.drawn32 := rfl
@[simp] theorem State.setSha_ctx (s : State) (u : ShaUnit) (k : Nat) : (s.setSha u).ctx k = s.ctx k := rfl

/-! ### setTrng -/

@[simp] theorem State.setTrng_cfg (s : State) (u : TrngUnit) : (s.setTrng u).cfg = s.cfg := rfl
@[simp] theorem State.setTrng_sha (s : State) (u : TrngUnit) : (s.setTrng u).sha = s.sha := rfl
@[simp] theorem State.setTrng_trng (s : State) (u : TrngUnit) : (s.setTrng u).trng = u := rfl
@[simp] theorem State.setTrng_mem (s : State) (u : TrngUnit) : (s.setTrng u).mem = s.mem := rfl
@[simp] theorem State.setTrng_ctxs (s : State) (u : TrngUnit) : (s.setTrng u).ctxs = s.ctxs := rfl
@[simp] theorem State.setTrng_slot (s : State) (u : TrngUnit) : (s.setTrng u).slot = s.slot := rfl
@[simp] theorem State.setTrng_irqHandler (s : State) (u : TrngUnit) : (s.setTrng u).irqHandler = s.irqHandler := rfl
@[simp] theorem State.setTrng_inIsr (s : State) (u : TrngUnit) : (s.setTrng u).inIsr = s.inIsr := rfl
@[simp] theorem State.setTrng_faults (s : State) (u : TrngUnit) : (s.setTrng u).faults = s.faults := rfl
@[simp] theorem State.setTrng_callbacks (s : State) (u : TrngUnit) : (s.setTrng u).callbacks = s.callbacks := rfl
@[simp] theorem State.setTrng_inputs (s : State) (u : TrngUnit) : (s.setTrng u).inputs = s.inputs := rfl
@[simp] theorem State.setTrng_main (s : State) (u : TrngUnit) : (s.setTrng u).main = s.main := rfl
@[simp] theorem State.setTrng_isr (s : State) (u : TrngUnit) : (s.setTrng u).isr = s.isr := rfl
@[simp] theorem State.setTrng_thread (s : State) (u : TrngUnit) : (s.setTrng u).thread = s.thread := rfl
@[simp] theorem State.setTrng_trngPresent (s : State) (u : TrngUnit) :
    (s.setTrng u).trngPresent = s.trngPresent := rfl
@[simp] theorem State.setTrng_drawn (s : State) (u : TrngUnit) : (s.setTrng u).drawn = s.drawn := rfl
@[simp] theorem State.setTrng_drawn32 (s : State) (u : TrngUnit) : (s.setTrng u).drawn32 = s.drawn32 := rfl
@[simp] theorem State.setTrng_ctx (s : State) (u : TrngUnit) (k : Nat) : (s.setTrng u).ctx k = s.ctx k := rfl

/-! ### setMem -/

@[simp] theorem State.setMem_cfg (s : State) (m : List Host.Cell) : (s.setMem m).cfg = s.cfg := rfl
@[simp] theorem State.setMem_sha (s : State) (m : List Host.Cell) : (s.setMem m).sha = s.sha := rfl
@[simp] theorem State.setMem_trng (s : State) (m : List Host.Cell) : (s.setMem m).trng = s.trng := rfl
@[simp] theorem State.setMem_mem (s : State) (m : List Host.Cell) : (s.setMem m).mem = m := rfl
@[simp] theorem State.setMem_ctxs (s : State) (m : List Host.Cell) : (s.setMem m).ctxs = s.ctxs := rfl
@[simp] theorem State.setMem_slot (s : State) (m : List Host.Cell) : (s.setMem m).slot = s.slot := rfl
@[simp] theorem State.setMem_irqHandler (s : State) (m : List Host.Cell) :
    (s.setMem m).irqHandler = s.irqHandler := rfl
@[simp] theorem State.setMem_inIsr (s : State) (m : List Host.Cell) : (s.setMem m).inIsr = s.inIsr := rfl
@[simp] theorem State.setMem_faults (s : State) (m : List Host.Cell) : (s.setMem m).faults = s.faults := rfl
@[simp] theorem State.setMem_callbacks (s : State) (m : List Host.Cell) : (s.setMem m).callbacks = s.callbacks := rfl
@[simp] theorem State.setMem_inputs (s : State) (m : List Host.Cell) : (s.setMem m).inputs = s.inputs := rfl
@[simp] theorem State.setMem_main (s : State) (m : List Host.Cell) : (s.setMem m).main = s.main := rfl
@[simp] theorem State.setMem_isr (s : State) (m : List Host.Cell) : (s.setMem m).isr = s.isr := rfl
@[simp] theorem State.setMem_thread (s : State) (m : List Host.Cell) : (s.setMem m).thread = s.thread := rfl
@[simp] theorem State.setMem_trngPresent (s : State) (m : List Host.Cell) :
    (s.setMem m).trngPresent = s.trngPresent := rfl
@[simp] theorem State.setMem_drawn (s : State) (m : List Host.Cell) : (s.setMem m).drawn = s.drawn := rfl
@[simp] theorem State.setMem_drawn32 (s : State) (m : List Host.Cell) : (s.setMem m).drawn32 = s.drawn32 := rfl
@[simp] theorem State.setMem_ctx (s : State) (m : List Host.Cell) (k : Nat) : (s.setMem m).ctx k = s.ctx k := rfl

/-! ### setSlot -/

@[simp] theorem State.setSlot_cfg (s : State) (p : Option Pending) : (s.setSlot p).cfg = s.cfg := rfl
@[simp] theorem State.setSlot_sha (s : State) (p : Option Pending) : (s.setSlot p).sha = s.sha := rfl
@[simp] theorem State.setSlot_trng (s : State) (p : Option Pending) : (s.setSlot p).trng = s.trng := rfl
@[simp] theorem State.setSlot_mem (s : State) (p : Option Pending) : (s.setSlot p).mem = s.mem := rfl
@[simp] theorem State.setSlot_ctxs (s : State) (p : Option Pending) : (s.setSlot p).ctxs = s.ctxs := rfl
@[simp] theorem State.setSlot_slot (s : State) (p : Option Pending) : (s.setSlot p).slot = p := rfl
@[simp] theorem State.setSlot_irqHandler (s : State) (p : Option Pending) :
    (s.setSlot p).irqHandler = s.irqHandler := rfl
@[simp] theorem State.setSlot_inIsr (s : State) (p : Option Pending) : (s.setSlot p).inIsr = s.inIsr := rfl
@[simp] theorem State.setSlot_faults (s : State) (p : Option Pending) : (s.setSlot p).faults = s.faults := rfl
@[simp] theorem State.setSlot_callbacks (s : State) (p : Option Pending) :
    (s.setSlot p).callbacks = s.callbacks := rfl
@[simp] theorem State.setSlot_inputs (s : State) (p : Option Pending) : (s.setSlot p).inputs = s.inputs := rfl
@[simp] theorem State.setSlot_main (s : State) (p : Option Pending) : (s.setSlot p).main = s.main := rfl
@[simp] theorem State.setSlot_isr (s : State) (p : Option Pending) : (s.setSlot p).isr = s.isr := rfl
@[simp] theorem State.setSlot_thread (s : State) (p : Option Pending) : (s.setSlot p).thread = s.thread := rfl
@[simp] theorem State.setSlot_trngPresent (s : State) (p : Option Pending) :
    (s.setSlot p).trngPresent = s.trngPresent := rfl
@[simp] theorem State.setSlot_drawn (s : State) (p : Option Pending) : (s.setSlot p).drawn = s.drawn := rfl
@[simp] theorem State.setSlot_drawn32 (s : State) (p : Option Pending) : (s.setSlot p).drawn32 = s.drawn32 := rfl
@[simp] theorem State.setSlot_ctx (s : State) (p : Option Pending) (k : Nat) : (s.setSlot p).ctx k = s.ctx k := rfl

/-! ### setHandler -/

@[simp] theorem State.setHandler_cfg (s : State) (r : Registration) : (s.setHandler r).cfg = s.cfg := rfl
@[simp] theorem State.setHandler_sha (s : State) (r : Registration) : (s.setHandler r).sha = s.sha := rfl
@[simp] theorem State.setHandler_trng (s : State) (r : Registration) : (s.setHandler r).trng = s.trng := rfl
@[simp] theorem State.setHandler_mem (s : State) (r : Registration) : (s.setHandler r).mem = s.mem := rfl
@[simp] theorem State.setHandler_ctxs (s : State) (r : Registration) : (s.setHandler r).ctxs = s.ctxs := rfl
@[simp] theorem State.setHandler_slot (s : State) (r : Registration) : (s.setHandler r).slot = s.slot := rfl
@[simp] theorem State.setHandler_irqHandler (s : State) (r : Registration) :
    (s.setHandler r).irqHandler = some r := rfl
@[simp] theorem State.setHandler_inIsr (s : State) (r : Registration) : (s.setHandler r).inIsr = s.inIsr := rfl
@[simp] theorem State.setHandler_faults (s : State) (r : Registration) : (s.setHandler r).faults = s.faults := rfl
@[simp] theorem State.setHandler_callbacks (s : State) (r : Registration) :
    (s.setHandler r).callbacks = s.callbacks := rfl
@[simp] theorem State.setHandler_inputs (s : State) (r : Registration) : (s.setHandler r).inputs = s.inputs := rfl
@[simp] theorem State.setHandler_main (s : State) (r : Registration) : (s.setHandler r).main = s.main := rfl
@[simp] theorem State.setHandler_isr (s : State) (r : Registration) : (s.setHandler r).isr = s.isr := rfl
@[simp] theorem State.setHandler_thread (s : State) (r : Registration) : (s.setHandler r).thread = s.thread := rfl
@[simp] theorem State.setHandler_trngPresent (s : State) (r : Registration) :
    (s.setHandler r).trngPresent = s.trngPresent := rfl
@[simp] theorem State.setHandler_drawn (s : State) (r : Registration) : (s.setHandler r).drawn = s.drawn := rfl
@[simp] theorem State.setHandler_drawn32 (s : State) (r : Registration) : (s.setHandler r).drawn32 = s.drawn32 := rfl
@[simp] theorem State.setHandler_ctx (s : State) (r : Registration) (k : Nat) :
    (s.setHandler r).ctx k = s.ctx k := rfl

/-! ### setCtx -/

@[simp] theorem State.setCtx_cfg (s : State) (c : Nat) (x : HashContext) : (s.setCtx c x).cfg = s.cfg := rfl
@[simp] theorem State.setCtx_sha (s : State) (c : Nat) (x : HashContext) : (s.setCtx c x).sha = s.sha := rfl
@[simp] theorem State.setCtx_trng (s : State) (c : Nat) (x : HashContext) : (s.setCtx c x).trng = s.trng := rfl
@[simp] theorem State.setCtx_mem (s : State) (c : Nat) (x : HashContext) : (s.setCtx c x).mem = s.mem := rfl
@[simp] theorem State.setCtx_ctxs (s : State) (c : Nat) (x : HashContext) :
    (s.setCtx c x).ctxs = ctxInsert c x s.ctxs := rfl
@[simp] theorem State.setCtx_slot (s : State) (c : Nat) (x : HashContext) : (s.setCtx c x).slot = s.slot := rfl
@[simp] theorem State.setCtx_irqHandler (s : State) (c : Nat) (x : HashContext) :
    (s.setCtx c x).irqHandler = s.irqHandler := rfl
@[simp] theorem State.setCtx_inIsr (s : State) (c : Nat) (x : HashContext) : (s.setCtx c x).inIsr = s.inIsr := rfl
@[simp] theorem State.setCtx_faults (s : State) (c : Nat) (x : HashContext) : (s.setCtx c x).faults = s.faults := rfl
@[simp] theorem State.setCtx_callbacks (s : State) (c : Nat) (x : HashContext) :
    (s.setCtx c x).callbacks = s.callbacks := rfl
@[simp] theorem State.setCtx_inputs (s : State) (c : Nat) (x : HashContext) : (s.setCtx c x).inputs = s.inputs := rfl
@[simp] theorem State.setCtx_main (s : State) (c : Nat) (x : HashContext) : (s.setCtx c x).main = s.main := rfl
@[simp] theorem State.setCtx_isr (s : State) (c : Nat) (x : HashContext) : (s.setCtx c x).isr = s.isr := rfl
@[simp] theorem State.setCtx_thread (s : State) (c : Nat) (x : HashContext) : (s.setCtx c x).thread = s.thread := rfl
@[simp] theorem State.setCtx_trngPresent (s : State) (c : Nat) (x : HashContext) :
    (s.setCtx c x).trngPresent = s.trngPresent := rfl
@[simp] theorem State.setCtx_drawn (s : State) (c : Nat) (x : HashContext) : (s.setCtx c x).drawn = s.drawn := rfl
@[simp] theorem State.setCtx_drawn32 (s : State) (c : Nat) (x : HashContext) :
    (s.setCtx c x).drawn32 = s.drawn32 := rfl

/-! ### drew -/

@[simp] theorem State.drew_cfg (s : State) : (s.drew).cfg = s.cfg := rfl
@[simp] theorem State.drew_sha (s : State) : (s.drew).sha = s.sha := rfl
@[simp] theorem State.drew_trng (s : State) : (s.drew).trng = s.trng := rfl
@[simp] theorem State.drew_mem (s : State) : (s.drew).mem = s.mem := rfl
@[simp] theorem State.drew_ctxs (s : State) : (s.drew).ctxs = s.ctxs := rfl
@[simp] theorem State.drew_slot (s : State) : (s.drew).slot = s.slot := rfl
@[simp] theorem State.drew_irqHandler (s : State) : (s.drew).irqHandler = s.irqHandler := rfl
@[simp] theorem State.drew_inIsr (s : State) : (s.drew).inIsr = s.inIsr := rfl
@[simp] theorem State.drew_faults (s : State) : (s.drew).faults = s.faults := rfl
@[simp] theorem State.drew_callbacks (s : State) : (s.drew).callbacks = s.callbacks := rfl
@[simp] theorem State.drew_inputs (s : State) :
    (s.drew).inputs = { s.inputs with draws := s.inputs.draws.tail, count := s.inputs.count + 1 } := rfl
@[simp] theorem State.drew_main (s : State) : (s.drew).main = s.main := rfl
@[simp] theorem State.drew_isr (s : State) : (s.drew).isr = s.isr := rfl
@[simp] theorem State.drew_thread (s : State) : (s.drew).thread = s.thread := rfl
@[simp] theorem State.drew_trngPresent (s : State) : (s.drew).trngPresent = s.trngPresent := rfl
@[simp] theorem State.drew_ctx (s : State) (k : Nat) : (s.drew).ctx k = s.ctx k := rfl

/-! ### beginStep -/

@[simp] theorem State.beginStep_cfg (s : State) : (s.beginStep).cfg = s.cfg := rfl
@[simp] theorem State.beginStep_sha (s : State) : (s.beginStep).sha = s.sha := rfl
@[simp] theorem State.beginStep_trng (s : State) : (s.beginStep).trng = s.trng := rfl
@[simp] theorem State.beginStep_mem (s : State) : (s.beginStep).mem = s.mem := rfl
@[simp] theorem State.beginStep_ctxs (s : State) : (s.beginStep).ctxs = s.ctxs := rfl
@[simp] theorem State.beginStep_slot (s : State) : (s.beginStep).slot = s.slot := rfl
@[simp] theorem State.beginStep_irqHandler (s : State) : (s.beginStep).irqHandler = s.irqHandler := rfl
@[simp] theorem State.beginStep_inIsr (s : State) : (s.beginStep).inIsr = s.inIsr := rfl
@[simp] theorem State.beginStep_faults (s : State) : (s.beginStep).faults = s.faults := rfl
@[simp] theorem State.beginStep_callbacks (s : State) : (s.beginStep).callbacks = s.callbacks := rfl
@[simp] theorem State.beginStep_inputs (s : State) :
    (s.beginStep).inputs = { s.inputs with irqOn := s.inputs.irqOn.tail, hostIrqOn := s.inputs.irqOn.headD (Config.freeIrqOn s.inputs.count), count := s.inputs.count + 1 } := rfl
@[simp] theorem State.beginStep_main (s : State) : (s.beginStep).main = s.main := rfl
@[simp] theorem State.beginStep_isr (s : State) : (s.beginStep).isr = s.isr := rfl
@[simp] theorem State.beginStep_thread (s : State) : (s.beginStep).thread = s.thread := rfl
@[simp] theorem State.beginStep_trngPresent (s : State) : (s.beginStep).trngPresent = s.trngPresent := rfl
@[simp] theorem State.beginStep_ctx (s : State) (k : Nat) : (s.beginStep).ctx k = s.ctx k := rfl

/-! ### chose -/

@[simp] theorem State.chose_cfg (s : State) : (s.chose).cfg = s.cfg := rfl
@[simp] theorem State.chose_sha (s : State) : (s.chose).sha = s.sha := rfl
@[simp] theorem State.chose_trng (s : State) : (s.chose).trng = s.trng := rfl
@[simp] theorem State.chose_mem (s : State) : (s.chose).mem = s.mem := rfl
@[simp] theorem State.chose_ctxs (s : State) : (s.chose).ctxs = s.ctxs := rfl
@[simp] theorem State.chose_slot (s : State) : (s.chose).slot = s.slot := rfl
@[simp] theorem State.chose_irqHandler (s : State) : (s.chose).irqHandler = s.irqHandler := rfl
@[simp] theorem State.chose_inIsr (s : State) : (s.chose).inIsr = s.inIsr := rfl
@[simp] theorem State.chose_faults (s : State) : (s.chose).faults = s.faults := rfl
@[simp] theorem State.chose_callbacks (s : State) : (s.chose).callbacks = s.callbacks := rfl
@[simp] theorem State.chose_inputs (s : State) :
    (s.chose).inputs = { s.inputs with sched := s.inputs.sched.tail, count := s.inputs.count + 1 } := rfl
@[simp] theorem State.chose_main (s : State) : (s.chose).main = s.main := rfl
@[simp] theorem State.chose_isr (s : State) : (s.chose).isr = s.isr := rfl
@[simp] theorem State.chose_thread (s : State) : (s.chose).thread = s.thread := rfl
@[simp] theorem State.chose_trngPresent (s : State) : (s.chose).trngPresent = s.trngPresent := rfl
@[simp] theorem State.chose_ctx (s : State) (k : Nat) : (s.chose).ctx k = s.ctx k := rfl

/-! ### enterIsr -/

@[simp] theorem State.enterIsr_cfg (s : State) (r : Registration) : (s.enterIsr r).cfg = s.cfg := rfl
@[simp] theorem State.enterIsr_sha (s : State) (r : Registration) : (s.enterIsr r).sha = s.sha := rfl
@[simp] theorem State.enterIsr_trng (s : State) (r : Registration) : (s.enterIsr r).trng = s.trng := rfl
@[simp] theorem State.enterIsr_mem (s : State) (r : Registration) : (s.enterIsr r).mem = s.mem := rfl
@[simp] theorem State.enterIsr_ctxs (s : State) (r : Registration) : (s.enterIsr r).ctxs = s.ctxs := rfl
@[simp] theorem State.enterIsr_slot (s : State) (r : Registration) : (s.enterIsr r).slot = s.slot := rfl
@[simp] theorem State.enterIsr_irqHandler (s : State) (r : Registration) :
    (s.enterIsr r).irqHandler = s.irqHandler := rfl
@[simp] theorem State.enterIsr_inIsr (s : State) (r : Registration) : (s.enterIsr r).inIsr = true := rfl
@[simp] theorem State.enterIsr_faults (s : State) (r : Registration) : (s.enterIsr r).faults = s.faults := rfl
@[simp] theorem State.enterIsr_callbacks (s : State) (r : Registration) :
    (s.enterIsr r).callbacks = s.callbacks := rfl
@[simp] theorem State.enterIsr_inputs (s : State) (r : Registration) : (s.enterIsr r).inputs = s.inputs := rfl
@[simp] theorem State.enterIsr_main (s : State) (r : Registration) : (s.enterIsr r).main = s.main := rfl
@[simp] theorem State.enterIsr_isr (s : State) (r : Registration) :
    (s.enterIsr r).isr = { Thread.idle with stack := [.code r.program] } := rfl
@[simp] theorem State.enterIsr_thread (s : State) (r : Registration) :
    (s.enterIsr r).thread = { Thread.idle with stack := [.code r.program] } := rfl
@[simp] theorem State.enterIsr_trngPresent (s : State) (r : Registration) :
    (s.enterIsr r).trngPresent = s.trngPresent := rfl
@[simp] theorem State.enterIsr_drawn (s : State) (r : Registration) : (s.enterIsr r).drawn = s.drawn := rfl
@[simp] theorem State.enterIsr_drawn32 (s : State) (r : Registration) : (s.enterIsr r).drawn32 = s.drawn32 := rfl
@[simp] theorem State.enterIsr_ctx (s : State) (r : Registration) (k : Nat) : (s.enterIsr r).ctx k = s.ctx k := rfl

/-! ### leaveIsr -/

@[simp] theorem State.leaveIsr_cfg (s : State) : (s.leaveIsr).cfg = s.cfg := rfl
@[simp] theorem State.leaveIsr_sha (s : State) : (s.leaveIsr).sha = s.sha := rfl
@[simp] theorem State.leaveIsr_trng (s : State) : (s.leaveIsr).trng = s.trng := rfl
@[simp] theorem State.leaveIsr_mem (s : State) : (s.leaveIsr).mem = s.mem := rfl
@[simp] theorem State.leaveIsr_ctxs (s : State) : (s.leaveIsr).ctxs = s.ctxs := rfl
@[simp] theorem State.leaveIsr_slot (s : State) : (s.leaveIsr).slot = s.slot := rfl
@[simp] theorem State.leaveIsr_irqHandler (s : State) : (s.leaveIsr).irqHandler = s.irqHandler := rfl
@[simp] theorem State.leaveIsr_inIsr (s : State) : (s.leaveIsr).inIsr = false := rfl
@[simp] theorem State.leaveIsr_faults (s : State) : (s.leaveIsr).faults = s.faults := rfl
@[simp] theorem State.leaveIsr_callbacks (s : State) : (s.leaveIsr).callbacks = s.callbacks := rfl
@[simp] theorem State.leaveIsr_inputs (s : State) : (s.leaveIsr).inputs = s.inputs := rfl
@[simp] theorem State.leaveIsr_main (s : State) : (s.leaveIsr).main = s.main := rfl
@[simp] theorem State.leaveIsr_isr (s : State) : (s.leaveIsr).isr = s.isr := rfl
@[simp] theorem State.leaveIsr_thread (s : State) : (s.leaveIsr).thread = s.main := rfl
@[simp] theorem State.leaveIsr_trngPresent (s : State) : (s.leaveIsr).trngPresent = s.trngPresent := rfl
@[simp] theorem State.leaveIsr_drawn (s : State) : (s.leaveIsr).drawn = s.drawn := rfl
@[simp] theorem State.leaveIsr_drawn32 (s : State) : (s.leaveIsr).drawn32 = s.drawn32 := rfl
@[simp] theorem State.leaveIsr_ctx (s : State) (k : Nat) : (s.leaveIsr).ctx k = s.ctx k := rfl

/-! ### setThread -/

@[simp] theorem State.setThread_cfg (s : State) (t : Thread) :
    (s.setThread t).cfg = s.cfg := by
  unfold State.setThread; split <;> rfl
@[simp] theorem State.setThread_sha (s : State) (t : Thread) :
    (s.setThread t).sha = s.sha := by
  unfold State.setThread; split <;> rfl
@[simp] theorem State.setThread_trng (s : State) (t : Thread) :
    (s.setThread t).trng = s.trng := by
  unfold State.setThread; split <;> rfl
@[simp] theorem State.setThread_mem (s : State) (t : Thread) :
    (s.setThread t).mem = s.mem := by
  unfold State.setThread; split <;> rfl
@[simp] theorem State.setThread_ctxs (s : State) (t : Thread) :
    (s.setThread t).ctxs = s.ctxs := by
  unfold State.setThread; split <;> rfl
@[simp] theorem State.setThread_slot (s : State) (t : Thread) :
    (s.setThread t).slot = s.slot := by
  unfold State.setThread; split <;> rfl
@[simp] theorem State.setThread_irqHandler (s : State) (t : Thread) :
    (s.setThread t).irqHandler = s.irqHandler := by
  unfold State.setThread; split <;> rfl
@[simp] theorem State.setThread_inIsr (s : State) (t : Thread) :
    (s.setThread t).inIsr = s.inIsr := by
  unfold State.setThread; split <;> rfl
@[simp] theorem State.setThread_faults (s : State) (t : Thread) :
    (s.setThread t).faults = s.faults := by
  unfold State.setThread; split <;> rfl
@[simp] theorem State.setThread_callbacks (s : State) (t : Thread) :
    (s.setThread t).callbacks = s.callbacks := by
  unfold State.setThread; split <;> rfl
@[simp] theorem State.setThread_inputs (s : State) (t : Thread) :
    (s.setThread t).inputs = s.inputs := by
  unfold State.setThread; split <;> rfl
@[simp] theorem State.setThread_thread (s : State) (t : Thread) :
    (s.setThread t).thread = t := by
  unfold State.thread State.setThread; split <;> simp_all
@[simp] theorem State.setThread_trngPresent (s : State) (t : Thread) :
    (s.setThread t).trngPresent = s.trngPresent := by
  simp [State.trngPresent]
@[simp] theorem State.setThread_drawn (s : State) (t : Thread) :
    (s.setThread t).drawn = s.drawn := by
  simp [State.drawn]
@[simp] theorem State.setThread_drawn32 (s : State) (t : Thread) :
    (s.setThread t).drawn32 = s.drawn32 := by
  simp [State.drawn32]
@[simp] theorem State.setThread_ctx (s : State) (t : Thread) (k : Nat) :
    (s.setThread t).ctx k = s.ctx k := by
  simp [State.ctx]

/-! ### setVal -/

@[simp] theorem State.setVal_cfg (s : State) (v : Word64) : (s.setVal v).cfg = s.cfg :=
  State.setThread_cfg _ _
@[simp] theorem State.setVal_sha (s : State) (v : Word64) : (s.setVal v).sha = s.sha :=
  State.setThread_sha _ _
@[simp] theorem State.setVal_trng (s : State) (v : Word64) : (s.setVal v).trng = s.trng :=
  State.setThread_trng _ _
@[simp] theorem State.setVal_mem (s : State) (v : Word64) : (s.setVal v).mem = s.mem :=
  State.setThread_mem _ _
@[simp] theorem State.setVal_ctxs (s : State) (v : Word64) : (s.setVal v).ctxs = s.ctxs :=
  State.setThread_ctxs _ _
@[simp] theorem State.setVal_slot (s : State) (v : Word64) : (s.setVal v).slot = s.slot :=
  State.setThread_slot _ _
@[simp] theorem State.setVal_irqHandler (s : State) (v : Word64) :
    (s.setVal v).irqHandler = s.irqHandler :=
  State.setThread_irqHandler _ _
@[simp] theorem State.setVal_inIsr (s : State) (v : Word64) :
    (s.setVal v).inIsr = s.inIsr :=
  State.setThread_inIsr _ _
@[simp] theorem State.setVal_faults (s : State) (v : Word64) :
    (s.setVal v).faults = s.faults :=
  State.setThread_faults _ _
@[simp] theorem State.setVal_callbacks (s : State) (v : Word64) :
    (s.setVal v).callbacks = s.callbacks :=
  State.setThread_callbacks _ _
@[simp] theorem State.setVal_inputs (s : State) (v : Word64) :
    (s.setVal v).inputs = s.inputs :=
  State.setThread_inputs _ _
@[simp] theorem State.setVal_thread (s : State) (v : Word64) :
    (s.setVal v).thread = { s.thread with val := v } :=
  State.setThread_thread _ _
@[simp] theorem State.setVal_trngPresent (s : State) (v : Word64) :
    (s.setVal v).trngPresent = s.trngPresent := by
  simp [State.trngPresent]
@[simp] theorem State.setVal_drawn (s : State) (v : Word64) : (s.setVal v).drawn = s.drawn := by
  simp [State.drawn]
@[simp] theorem State.setVal_drawn32 (s : State) (v : Word64) :
    (s.setVal v).drawn32 = s.drawn32 := by
  simp [State.drawn32]
@[simp] theorem State.setVal_ctx (s : State) (v : Word64) (k : Nat) :
    (s.setVal v).ctx k = s.ctx k := by
  simp [State.ctx]

/-! ### setCode -/

@[simp] theorem State.setCode_cfg (s : State) (r : Code) : (s.setCode r).cfg = s.cfg :=
  State.setThread_cfg _ _
@[simp] theorem State.setCode_sha (s : State) (r : Code) : (s.setCode r).sha = s.sha :=
  State.setThread_sha _ _
@[simp] theorem State.setCode_trng (s : State) (r : Code) : (s.setCode r).trng = s.trng :=
  State.setThread_trng _ _
@[simp] theorem State.setCode_mem (s : State) (r : Code) : (s.setCode r).mem = s.mem :=
  State.setThread_mem _ _
@[simp] theorem State.setCode_ctxs (s : State) (r : Code) : (s.setCode r).ctxs = s.ctxs :=
  State.setThread_ctxs _ _
@[simp] theorem State.setCode_slot (s : State) (r : Code) : (s.setCode r).slot = s.slot :=
  State.setThread_slot _ _
@[simp] theorem State.setCode_irqHandler (s : State) (r : Code) :
    (s.setCode r).irqHandler = s.irqHandler :=
  State.setThread_irqHandler _ _
@[simp] theorem State.setCode_inIsr (s : State) (r : Code) :
    (s.setCode r).inIsr = s.inIsr :=
  State.setThread_inIsr _ _
@[simp] theorem State.setCode_faults (s : State) (r : Code) :
    (s.setCode r).faults = s.faults :=
  State.setThread_faults _ _
@[simp] theorem State.setCode_callbacks (s : State) (r : Code) :
    (s.setCode r).callbacks = s.callbacks :=
  State.setThread_callbacks _ _
@[simp] theorem State.setCode_inputs (s : State) (r : Code) :
    (s.setCode r).inputs = s.inputs :=
  State.setThread_inputs _ _
@[simp] theorem State.setCode_thread (s : State) (r : Code) :
    (s.setCode r).thread = { s.thread with code := some r } :=
  State.setThread_thread _ _
@[simp] theorem State.setCode_trngPresent (s : State) (r : Code) :
    (s.setCode r).trngPresent = s.trngPresent := by
  simp [State.trngPresent]
@[simp] theorem State.setCode_drawn (s : State) (r : Code) : (s.setCode r).drawn = s.drawn := by
  simp [State.drawn]
@[simp] theorem State.setCode_drawn32 (s : State) (r : Code) :
    (s.setCode r).drawn32 = s.drawn32 := by
  simp [State.drawn32]
@[simp] theorem State.setCode_ctx (s : State) (r : Code) (k : Nat) :
    (s.setCode r).ctx k = s.ctx k := by
  simp [State.ctx]

/-! ### setStack -/

@[simp] theorem State.setStack_cfg (s : State) (fs : List Frame) :
    (s.setStack fs).cfg = s.cfg :=
  State.setThread_cfg _ _
@[simp] theorem State.setStack_sha (s : State) (fs : List Frame) :
    (s.setStack fs).sha = s.sha :=
  State.setThread_sha _ _
@[simp] theorem State.setStack_trng (s : State) (fs : List Frame) :
    (s.setStack fs).trng = s.trng :=
  State.setThread_trng _ _
@[simp] theorem State.setStack_mem (s : State) (fs : List Frame) :
    (s.setStack fs).mem = s.mem :=
  State.setThread_mem _ _
@[simp] theorem State.setStack_ctxs (s : State) (fs : List Frame) :
    (s.setStack fs).ctxs = s.ctxs :=
  State.setThread_ctxs _ _
@[simp] theorem State.setStack_slot (s : State) (fs : List Frame) :
    (s.setStack fs).slot = s.slot :=
  State.setThread_slot _ _
@[simp] theorem State.setStack_irqHandler (s : State) (fs : List Frame) :
    (s.setStack fs).irqHandler = s.irqHandler :=
  State.setThread_irqHandler _ _
@[simp] theorem State.setStack_inIsr (s : State) (fs : List Frame) :
    (s.setStack fs).inIsr = s.inIsr :=
  State.setThread_inIsr _ _
@[simp] theorem State.setStack_faults (s : State) (fs : List Frame) :
    (s.setStack fs).faults = s.faults :=
  State.setThread_faults _ _
@[simp] theorem State.setStack_callbacks (s : State) (fs : List Frame) :
    (s.setStack fs).callbacks = s.callbacks :=
  State.setThread_callbacks _ _
@[simp] theorem State.setStack_inputs (s : State) (fs : List Frame) :
    (s.setStack fs).inputs = s.inputs :=
  State.setThread_inputs _ _
@[simp] theorem State.setStack_thread (s : State) (fs : List Frame) :
    (s.setStack fs).thread = { s.thread with stack := fs } :=
  State.setThread_thread _ _
@[simp] theorem State.setStack_trngPresent (s : State) (fs : List Frame) :
    (s.setStack fs).trngPresent = s.trngPresent := by
  simp [State.trngPresent]
@[simp] theorem State.setStack_drawn (s : State) (fs : List Frame) :
    (s.setStack fs).drawn = s.drawn := by
  simp [State.drawn]
@[simp] theorem State.setStack_drawn32 (s : State) (fs : List Frame) :
    (s.setStack fs).drawn32 = s.drawn32 := by
  simp [State.drawn32]
@[simp] theorem State.setStack_ctx (s : State) (fs : List Frame) (k : Nat) :
    (s.setStack fs).ctx k = s.ctx k := by
  simp [State.ctx]

/-! ### push -/

@[simp] theorem State.push_cfg (s : State) (fs : List Frame) : (s.push fs).cfg = s.cfg :=
  State.setThread_cfg _ _
@[simp] theorem State.push_sha (s : State) (fs : List Frame) : (s.push fs).sha = s.sha :=
  State.setThread_sha _ _
@[simp] theorem State.push_trng (s : State) (fs : List Frame) :
    (s.push fs).trng = s.trng :=
  State.setThread_trng _ _
@[simp] theorem State.push_mem (s : State) (fs : List Frame) : (s.push fs).mem = s.mem :=
  State.setThread_mem _ _
@[simp] theorem State.push_ctxs (s : State) (fs : List Frame) :
    (s.push fs).ctxs = s.ctxs :=
  State.setThread_ctxs _ _
@[simp] theorem State.push_slot (s : State) (fs : List Frame) :
    (s.push fs).slot = s.slot :=
  State.setThread_slot _ _
@[simp] theorem State.push_irqHandler (s : State) (fs : List Frame) :
    (s.push fs).irqHandler = s.irqHandler :=
  State.setThread_irqHandler _ _
@[simp] theorem State.push_inIsr (s : State) (fs : List Frame) :
    (s.push fs).inIsr = s.inIsr :=
  State.setThread_inIsr _ _
@[simp] theorem State.push_faults (s : State) (fs : List Frame) :
    (s.push fs).faults = s.faults :=
  State.setThread_faults _ _
@[simp] theorem State.push_callbacks (s : State) (fs : List Frame) :
    (s.push fs).callbacks = s.callbacks :=
  State.setThread_callbacks _ _
@[simp] theorem State.push_inputs (s : State) (fs : List Frame) :
    (s.push fs).inputs = s.inputs :=
  State.setThread_inputs _ _
@[simp] theorem State.push_thread (s : State) (fs : List Frame) :
    (s.push fs).thread = { s.thread with stack := fs ++ s.thread.stack } := by
  simp [State.push]
@[simp] theorem State.push_trngPresent (s : State) (fs : List Frame) :
    (s.push fs).trngPresent = s.trngPresent := by
  simp [State.trngPresent]
@[simp] theorem State.push_drawn (s : State) (fs : List Frame) :
    (s.push fs).drawn = s.drawn := by
  simp [State.drawn]
@[simp] theorem State.push_drawn32 (s : State) (fs : List Frame) :
    (s.push fs).drawn32 = s.drawn32 := by
  simp [State.drawn32]
@[simp] theorem State.push_ctx (s : State) (fs : List Frame) (k : Nat) :
    (s.push fs).ctx k = s.ctx k := by
  simp [State.ctx]

/-! ### raiseFault -/

@[simp] theorem State.raiseFault_cfg (s : State) (f : ModelFault) :
    (s.raiseFault f).cfg = s.cfg :=
  State.setThread_cfg _ _
@[simp] theorem State.raiseFault_sha (s : State) (f : ModelFault) :
    (s.raiseFault f).sha = s.sha :=
  State.setThread_sha _ _
@[simp] theorem State.raiseFault_trng (s : State) (f : ModelFault) :
    (s.raiseFault f).trng = s.trng :=
  State.setThread_trng _ _
@[simp] theorem State.raiseFault_mem (s : State) (f : ModelFault) :
    (s.raiseFault f).mem = s.mem :=
  State.setThread_mem _ _
@[simp] theorem State.raiseFault_ctxs (s : State) (f : ModelFault) :
    (s.raiseFault f).ctxs = s.ctxs :=
  State.setThread_ctxs _ _
@[simp] theorem State.raiseFault_slot (s : State) (f : ModelFault) :
    (s.raiseFault f).slot = s.slot :=
  State.setThread_slot _ _
@[simp] theorem State.raiseFault_irqHandler (s : State) (f : ModelFault) :
    (s.raiseFault f).irqHandler = s.irqHandler :=
  State.setThread_irqHandler _ _
@[simp] theorem State.raiseFault_inIsr (s : State) (f : ModelFault) :
    (s.raiseFault f).inIsr = s.inIsr :=
  State.setThread_inIsr _ _
@[simp] theorem State.raiseFault_faults (s : State) (f : ModelFault) :
    (s.raiseFault f).faults = insertFault f s.faults := rfl
@[simp] theorem State.raiseFault_callbacks (s : State) (f : ModelFault) :
    (s.raiseFault f).callbacks = s.callbacks :=
  State.setThread_callbacks _ _
@[simp] theorem State.raiseFault_inputs (s : State) (f : ModelFault) :
    (s.raiseFault f).inputs = s.inputs :=
  State.setThread_inputs _ _
@[simp] theorem State.raiseFault_thread (s : State) (f : ModelFault) :
    (s.raiseFault f).thread = { s.thread with stopped := true } :=
  State.setThread_thread s _
@[simp] theorem State.raiseFault_trngPresent (s : State) (f : ModelFault) :
    (s.raiseFault f).trngPresent = s.trngPresent := by
  simp [State.trngPresent]
@[simp] theorem State.raiseFault_drawn (s : State) (f : ModelFault) :
    (s.raiseFault f).drawn = s.drawn := by
  simp [State.drawn]
@[simp] theorem State.raiseFault_drawn32 (s : State) (f : ModelFault) :
    (s.raiseFault f).drawn32 = s.drawn32 := by
  simp [State.drawn32]
@[simp] theorem State.raiseFault_ctx (s : State) (f : ModelFault) (k : Nat) :
    (s.raiseFault f).ctx k = s.ctx k := by
  simp [State.ctx]

/-! ### The two agents -/

/-- An update of the acting agent leaves HostMain alone inside the handler. -/
theorem State.setThread_main_of_inIsr {s : State} (t : Thread) (h : s.inIsr = true) : (s.setThread t).main = s.main := by
  simp [State.setThread, h]

/-- An update of the acting agent leaves HostISR alone outside the handler. -/
theorem State.setThread_isr_of_not_inIsr {s : State} (t : Thread) (h : s.inIsr = false) :
    (s.setThread t).isr = s.isr := by
  simp [State.setThread, h]

/-- Two updates of the acting agent are one. -/
@[simp] theorem State.setThread_setThread (s : State) (t u : Thread) : (s.setThread t).setThread u = s.setThread u := by
  unfold State.setThread
  split <;> simp_all

/-- Putting the acting agent back changes nothing. -/
@[simp] theorem State.setThread_thread_self (s : State) : s.setThread s.thread = s := by
  unfold State.setThread State.thread
  split <;> rfl

/-- Entering frames puts them above what the agent was inside. -/
theorem State.push_eq (s : State) (fs : List Frame) : s.push fs = s.setStack (fs ++ s.thread.stack) := rfl

end Sys2Proof.Machine
end

