-- ==== Sys2Proof/Laws/Commute.lean ====
section
/-! SUPPORT. Laws/Commute.lean: the named updates of the state in one order. Two updates of the same thing are the later one;
updates of different things commute, and the lemmas tagged `@[simp]` bring them into the order drew, withInputs, setSha, setTrng,
setMem, setSlot, setHandler, setCtx, setVal, setCode, setStack, the first innermost. -/

namespace Sys2Proof.Machine

/-! ### Taking a draw is a change of the inputs -/

theorem State.drew_eq (s : State) : s.drew = s.withInputs s.drew.inputs := rfl

@[simp] theorem State.withInputs_withInputs (s : State) (i j : Inputs) :
    (s.withInputs i).withInputs j = s.withInputs j := rfl
@[simp] theorem State.withInputs_self (s : State) : s.withInputs s.inputs = s := rfl
@[simp] theorem State.drew_withInputs (s : State) (i : Inputs) : s.drew.withInputs i = s.withInputs i := rfl
@[simp] theorem State.withInputs_drewN_drew (s : State) (n : Nat) :
    (s.withInputs (s.drewN n).inputs).drew = s.withInputs (s.drewN (n + 1)).inputs := rfl

/-! ### What a change of the inputs leaves alone -/

@[simp] theorem State.withInputs_cfg (s : State) (i : Inputs) : (s.withInputs i).cfg = s.cfg := rfl
@[simp] theorem State.withInputs_sha (s : State) (i : Inputs) : (s.withInputs i).sha = s.sha := rfl
@[simp] theorem State.withInputs_trng (s : State) (i : Inputs) : (s.withInputs i).trng = s.trng := rfl
@[simp] theorem State.withInputs_mem (s : State) (i : Inputs) : (s.withInputs i).mem = s.mem := rfl
@[simp] theorem State.withInputs_ctxs (s : State) (i : Inputs) : (s.withInputs i).ctxs = s.ctxs := rfl
@[simp] theorem State.withInputs_slot (s : State) (i : Inputs) : (s.withInputs i).slot = s.slot := rfl
@[simp] theorem State.withInputs_irqHandler (s : State) (i : Inputs) : (s.withInputs i).irqHandler = s.irqHandler := rfl
@[simp] theorem State.withInputs_inIsr (s : State) (i : Inputs) : (s.withInputs i).inIsr = s.inIsr := rfl
@[simp] theorem State.withInputs_faults (s : State) (i : Inputs) : (s.withInputs i).faults = s.faults := rfl
@[simp] theorem State.withInputs_main (s : State) (i : Inputs) : (s.withInputs i).main = s.main := rfl
@[simp] theorem State.withInputs_isr (s : State) (i : Inputs) : (s.withInputs i).isr = s.isr := rfl
@[simp] theorem State.withInputs_callbacks (s : State) (i : Inputs) : (s.withInputs i).callbacks = s.callbacks := rfl
@[simp] theorem State.withInputs_thread (s : State) (i : Inputs) : (s.withInputs i).thread = s.thread := rfl
@[simp] theorem State.withInputs_trngPresent (s : State) (i : Inputs) : (s.withInputs i).trngPresent = s.trngPresent := rfl
@[simp] theorem State.withInputs_inputs (s : State) (i : Inputs) : (s.withInputs i).inputs = i := rfl
@[simp] theorem State.withInputs_ctx (s : State) (i : Inputs) (k : Nat) : (s.withInputs i).ctx k = s.ctx k := rfl

/-! ### The later update of one thing is the one that counts -/

@[simp] theorem State.setSha_setSha (s : State) (u u' : ShaUnit) : (s.setSha u).setSha u' = s.setSha u' := rfl
@[simp] theorem State.setTrng_setTrng (s : State) (w w' : TrngUnit) : (s.setTrng w).setTrng w' = s.setTrng w' := rfl
@[simp] theorem State.setMem_setMem (s : State) (m m' : List Host.Cell) : (s.setMem m).setMem m' = s.setMem m' := rfl
@[simp] theorem State.setSlot_setSlot (s : State) (p p' : Option Pending) : (s.setSlot p).setSlot p' = s.setSlot p' := rfl
@[simp] theorem State.setHandler_setHandler (s : State) (r r' : Registration) : (s.setHandler r).setHandler r' = s.setHandler r' := rfl
@[simp] theorem State.setVal_setVal (s : State) (v v' : Word64) : (s.setVal v).setVal v' = s.setVal v' := by
  obtain ⟨_, _, _, _, _, _, _, b, _, _, _, _, _⟩ := s; cases b <;> rfl
@[simp] theorem State.setCode_setCode (s : State) (k k' : Code) : (s.setCode k).setCode k' = s.setCode k' := by
  obtain ⟨_, _, _, _, _, _, _, b, _, _, _, _, _⟩ := s; cases b <;> rfl
@[simp] theorem State.setStack_setStack (s : State) (fs fs' : List Frame) : (s.setStack fs).setStack fs' = s.setStack fs' := by
  obtain ⟨_, _, _, _, _, _, _, b, _, _, _, _, _⟩ := s; cases b <;> rfl

/-! ### Updates of different things -/

@[simp] theorem State.setSha_withInputs (s : State) (u : ShaUnit) (i : Inputs) :
    (s.setSha u).withInputs i = (s.withInputs i).setSha u := rfl
@[simp] theorem State.setTrng_withInputs (s : State) (w : TrngUnit) (i : Inputs) :
    (s.setTrng w).withInputs i = (s.withInputs i).setTrng w := rfl
@[simp] theorem State.setMem_withInputs (s : State) (m : List Host.Cell) (i : Inputs) :
    (s.setMem m).withInputs i = (s.withInputs i).setMem m := rfl
@[simp] theorem State.setSlot_withInputs (s : State) (p : Option Pending) (i : Inputs) :
    (s.setSlot p).withInputs i = (s.withInputs i).setSlot p := rfl
@[simp] theorem State.setHandler_withInputs (s : State) (r : Registration) (i : Inputs) :
    (s.setHandler r).withInputs i = (s.withInputs i).setHandler r := rfl
@[simp] theorem State.setCtx_withInputs (s : State) (c : Nat) (x : HashContext) (i : Inputs) :
    (s.setCtx c x).withInputs i = (s.withInputs i).setCtx c x := rfl
@[simp] theorem State.setTrng_setSha (s : State) (w : TrngUnit) (u : ShaUnit) :
    (s.setTrng w).setSha u = (s.setSha u).setTrng w := rfl
@[simp] theorem State.setMem_setSha (s : State) (m : List Host.Cell) (u : ShaUnit) :
    (s.setMem m).setSha u = (s.setSha u).setMem m := rfl
@[simp] theorem State.setSlot_setSha (s : State) (p : Option Pending) (u : ShaUnit) :
    (s.setSlot p).setSha u = (s.setSha u).setSlot p := rfl
@[simp] theorem State.setHandler_setSha (s : State) (r : Registration) (u : ShaUnit) :
    (s.setHandler r).setSha u = (s.setSha u).setHandler r := rfl
@[simp] theorem State.setCtx_setSha (s : State) (c : Nat) (x : HashContext) (u : ShaUnit) :
    (s.setCtx c x).setSha u = (s.setSha u).setCtx c x := rfl
@[simp] theorem State.setMem_setTrng (s : State) (m : List Host.Cell) (w : TrngUnit) :
    (s.setMem m).setTrng w = (s.setTrng w).setMem m := rfl
@[simp] theorem State.setSlot_setTrng (s : State) (p : Option Pending) (w : TrngUnit) :
    (s.setSlot p).setTrng w = (s.setTrng w).setSlot p := rfl
@[simp] theorem State.setHandler_setTrng (s : State) (r : Registration) (w : TrngUnit) :
    (s.setHandler r).setTrng w = (s.setTrng w).setHandler r := rfl
@[simp] theorem State.setCtx_setTrng (s : State) (c : Nat) (x : HashContext) (w : TrngUnit) :
    (s.setCtx c x).setTrng w = (s.setTrng w).setCtx c x := rfl
@[simp] theorem State.setSlot_setMem (s : State) (p : Option Pending) (m : List Host.Cell) :
    (s.setSlot p).setMem m = (s.setMem m).setSlot p := rfl
@[simp] theorem State.setHandler_setMem (s : State) (r : Registration) (m : List Host.Cell) :
    (s.setHandler r).setMem m = (s.setMem m).setHandler r := rfl
@[simp] theorem State.setCtx_setMem (s : State) (c : Nat) (x : HashContext) (m : List Host.Cell) :
    (s.setCtx c x).setMem m = (s.setMem m).setCtx c x := rfl
@[simp] theorem State.setHandler_setSlot (s : State) (r : Registration) (p : Option Pending) :
    (s.setHandler r).setSlot p = (s.setSlot p).setHandler r := rfl
@[simp] theorem State.setCtx_setSlot (s : State) (c : Nat) (x : HashContext) (p : Option Pending) :
    (s.setCtx c x).setSlot p = (s.setSlot p).setCtx c x := rfl
@[simp] theorem State.setCtx_setHandler (s : State) (c : Nat) (x : HashContext) (r : Registration) :
    (s.setCtx c x).setHandler r = (s.setHandler r).setCtx c x := rfl
@[simp] theorem State.setVal_withInputs (s : State) (v : Word64) (i : Inputs) :
    (s.setVal v).withInputs i = (s.withInputs i).setVal v := by
  obtain ⟨_, _, _, _, _, _, _, b, _, _, _, _, _⟩ := s; cases b <;> rfl
@[simp] theorem State.setVal_setSha (s : State) (v : Word64) (u : ShaUnit) :
    (s.setVal v).setSha u = (s.setSha u).setVal v := by
  obtain ⟨_, _, _, _, _, _, _, b, _, _, _, _, _⟩ := s; cases b <;> rfl
@[simp] theorem State.setVal_setTrng (s : State) (v : Word64) (w : TrngUnit) :
    (s.setVal v).setTrng w = (s.setTrng w).setVal v := by
  obtain ⟨_, _, _, _, _, _, _, b, _, _, _, _, _⟩ := s; cases b <;> rfl
@[simp] theorem State.setVal_setMem (s : State) (v : Word64) (m : List Host.Cell) :
    (s.setVal v).setMem m = (s.setMem m).setVal v := by
  obtain ⟨_, _, _, _, _, _, _, b, _, _, _, _, _⟩ := s; cases b <;> rfl
@[simp] theorem State.setVal_setSlot (s : State) (v : Word64) (p : Option Pending) :
    (s.setVal v).setSlot p = (s.setSlot p).setVal v := by
  obtain ⟨_, _, _, _, _, _, _, b, _, _, _, _, _⟩ := s; cases b <;> rfl
@[simp] theorem State.setVal_setHandler (s : State) (v : Word64) (r : Registration) :
    (s.setVal v).setHandler r = (s.setHandler r).setVal v := by
  obtain ⟨_, _, _, _, _, _, _, b, _, _, _, _, _⟩ := s; cases b <;> rfl
@[simp] theorem State.setVal_setCtx (s : State) (v : Word64) (c : Nat) (x : HashContext) :
    (s.setVal v).setCtx c x = (s.setCtx c x).setVal v := by
  obtain ⟨_, _, _, _, _, _, _, b, _, _, _, _, _⟩ := s; cases b <;> rfl
@[simp] theorem State.setCode_withInputs (s : State) (k : Code) (i : Inputs) :
    (s.setCode k).withInputs i = (s.withInputs i).setCode k := by
  obtain ⟨_, _, _, _, _, _, _, b, _, _, _, _, _⟩ := s; cases b <;> rfl
@[simp] theorem State.setCode_setSha (s : State) (k : Code) (u : ShaUnit) :
    (s.setCode k).setSha u = (s.setSha u).setCode k := by
  obtain ⟨_, _, _, _, _, _, _, b, _, _, _, _, _⟩ := s; cases b <;> rfl
@[simp] theorem State.setCode_setTrng (s : State) (k : Code) (w : TrngUnit) :
    (s.setCode k).setTrng w = (s.setTrng w).setCode k := by
  obtain ⟨_, _, _, _, _, _, _, b, _, _, _, _, _⟩ := s; cases b <;> rfl
@[simp] theorem State.setCode_setMem (s : State) (k : Code) (m : List Host.Cell) :
    (s.setCode k).setMem m = (s.setMem m).setCode k := by
  obtain ⟨_, _, _, _, _, _, _, b, _, _, _, _, _⟩ := s; cases b <;> rfl
@[simp] theorem State.setCode_setSlot (s : State) (k : Code) (p : Option Pending) :
    (s.setCode k).setSlot p = (s.setSlot p).setCode k := by
  obtain ⟨_, _, _, _, _, _, _, b, _, _, _, _, _⟩ := s; cases b <;> rfl
@[simp] theorem State.setCode_setHandler (s : State) (k : Code) (r : Registration) :
    (s.setCode k).setHandler r = (s.setHandler r).setCode k := by
  obtain ⟨_, _, _, _, _, _, _, b, _, _, _, _, _⟩ := s; cases b <;> rfl
@[simp] theorem State.setCode_setCtx (s : State) (k : Code) (c : Nat) (x : HashContext) :
    (s.setCode k).setCtx c x = (s.setCtx c x).setCode k := by
  obtain ⟨_, _, _, _, _, _, _, b, _, _, _, _, _⟩ := s; cases b <;> rfl
@[simp] theorem State.setStack_withInputs (s : State) (fs : List Frame) (i : Inputs) :
    (s.setStack fs).withInputs i = (s.withInputs i).setStack fs := by
  obtain ⟨_, _, _, _, _, _, _, b, _, _, _, _, _⟩ := s; cases b <;> rfl
@[simp] theorem State.setStack_setSha (s : State) (fs : List Frame) (u : ShaUnit) :
    (s.setStack fs).setSha u = (s.setSha u).setStack fs := by
  obtain ⟨_, _, _, _, _, _, _, b, _, _, _, _, _⟩ := s; cases b <;> rfl
@[simp] theorem State.setStack_setTrng (s : State) (fs : List Frame) (w : TrngUnit) :
    (s.setStack fs).setTrng w = (s.setTrng w).setStack fs := by
  obtain ⟨_, _, _, _, _, _, _, b, _, _, _, _, _⟩ := s; cases b <;> rfl
@[simp] theorem State.setStack_setMem (s : State) (fs : List Frame) (m : List Host.Cell) :
    (s.setStack fs).setMem m = (s.setMem m).setStack fs := by
  obtain ⟨_, _, _, _, _, _, _, b, _, _, _, _, _⟩ := s; cases b <;> rfl
@[simp] theorem State.setStack_setSlot (s : State) (fs : List Frame) (p : Option Pending) :
    (s.setStack fs).setSlot p = (s.setSlot p).setStack fs := by
  obtain ⟨_, _, _, _, _, _, _, b, _, _, _, _, _⟩ := s; cases b <;> rfl
@[simp] theorem State.setStack_setHandler (s : State) (fs : List Frame) (r : Registration) :
    (s.setStack fs).setHandler r = (s.setHandler r).setStack fs := by
  obtain ⟨_, _, _, _, _, _, _, b, _, _, _, _, _⟩ := s; cases b <;> rfl
@[simp] theorem State.setStack_setCtx (s : State) (fs : List Frame) (c : Nat) (x : HashContext) :
    (s.setStack fs).setCtx c x = (s.setCtx c x).setStack fs := by
  obtain ⟨_, _, _, _, _, _, _, b, _, _, _, _, _⟩ := s; cases b <;> rfl
@[simp] theorem State.setSha_drew (s : State) (u : ShaUnit) : (s.setSha u).drew = s.drew.setSha u := rfl
@[simp] theorem State.setTrng_drew (s : State) (w : TrngUnit) : (s.setTrng w).drew = s.drew.setTrng w := rfl
@[simp] theorem State.setMem_drew (s : State) (m : List Host.Cell) : (s.setMem m).drew = s.drew.setMem m := rfl
@[simp] theorem State.setSlot_drew (s : State) (p : Option Pending) : (s.setSlot p).drew = s.drew.setSlot p := rfl
@[simp] theorem State.setHandler_drew (s : State) (r : Registration) : (s.setHandler r).drew = s.drew.setHandler r := rfl
@[simp] theorem State.setCtx_drew (s : State) (c : Nat) (x : HashContext) : (s.setCtx c x).drew = s.drew.setCtx c x := rfl
@[simp] theorem State.setVal_drew (s : State) (v : Word64) : (s.setVal v).drew = s.drew.setVal v := by
  obtain ⟨_, _, _, _, _, _, _, b, _, _, _, _, _⟩ := s; cases b <;> rfl
@[simp] theorem State.setCode_drew (s : State) (k : Code) : (s.setCode k).drew = s.drew.setCode k := by
  obtain ⟨_, _, _, _, _, _, _, b, _, _, _, _, _⟩ := s; cases b <;> rfl
@[simp] theorem State.setStack_drew (s : State) (fs : List Frame) : (s.setStack fs).drew = s.drew.setStack fs := by
  obtain ⟨_, _, _, _, _, _, _, b, _, _, _, _, _⟩ := s; cases b <;> rfl
@[simp] theorem State.setCode_setVal (s : State) (k : Code) (v : Word64) :
    (s.setCode k).setVal v = (s.setVal v).setCode k := by
  obtain ⟨_, _, _, _, _, _, _, b, _, _, _, _, _⟩ := s; cases b <;> rfl
@[simp] theorem State.setStack_setVal (s : State) (fs : List Frame) (v : Word64) :
    (s.setStack fs).setVal v = (s.setVal v).setStack fs := by
  obtain ⟨_, _, _, _, _, _, _, b, _, _, _, _, _⟩ := s; cases b <;> rfl
@[simp] theorem State.setStack_setCode (s : State) (fs : List Frame) (k : Code) :
    (s.setStack fs).setCode k = (s.setCode k).setStack fs := by
  obtain ⟨_, _, _, _, _, _, _, b, _, _, _, _, _⟩ := s; cases b <;> rfl

end Sys2Proof.Machine
end

