-- ==== Sys2Proof/Laws/Memory.lean ====
section
/-! SUPPORT. Laws/Memory.lean: caller memory (R202, R206), the contexts (R140) and the set of faults (R153): a read after a
write, what a write leaves alone, that every operation keeps the one form, and what a load and a store do. -/

namespace Sys2Proof.Machine

/-! ### One byte -/

theorem memRead_memWrite (m : List Host.Cell) (a b : Nat) (v : Byte) :
    memRead (memWrite m a v) b = if b = a then (memRead m a).map fun _ => v else memRead m b := by
  induction m with
  | nil => simp [memRead, memWrite]
  | cons c m ih =>
    obtain ⟨k, x⟩ := c
    by_cases h : k = a
    · subst h
      by_cases hb : b = k
      · subst hb; simp [memRead, memWrite]
      · simp [memRead, memWrite, hb, Ne.symm hb]
    · by_cases hb : b = a
      · subst hb; simp [memRead, memWrite, h, ih]
      · by_cases hk : k = b
        · subst hk; simp [memRead, memWrite, h]
        · simp [memRead, memWrite, h, hk, hb, ih]

/-- A write makes no address a byte of a buffer, and none not. -/
@[simp] theorem memRead_memWrite_isSome (m : List Host.Cell) (a b : Nat) (v : Byte) :
    (memRead (memWrite m a v) b).isSome = (memRead m b).isSome := by
  rw [memRead_memWrite]
  split
  · next h => subst h; simp
  · rfl

theorem memWrite_comm (m : List Host.Cell) {a b : Nat} (h : a ≠ b) (v w : Byte) :
    memWrite (memWrite m a v) b w = memWrite (memWrite m b w) a v := by
  induction m with
  | nil => rfl
  | cons c m ih =>
    obtain ⟨k, x⟩ := c
    by_cases ha : k = a
    · have : k ≠ b := fun e => h (ha.symm.trans e)
      simp [memWrite, ha, h]
    · by_cases hb : k = b
      · simp [memWrite, hb, Ne.symm h]
      · simp [memWrite, ha, hb, ih]

theorem memWrite_map_fst (m : List Host.Cell) (a : Nat) (v : Byte) :
    (memWrite m a v).map (·.1) = m.map (·.1) := by
  induction m with
  | nil => rfl
  | cons c m ih =>
    obtain ⟨k, x⟩ := c
    by_cases h : k = a <;> simp [memWrite, h, ih]

/-- The one form is about the addresses alone. -/
theorem Memory.wf_iff (m : List Host.Cell) : Memory.wf m ↔ (m.map (·.1)).Pairwise (· < ·) := by
  rw [Memory.wf, List.pairwise_map]

theorem memWrite_wf {m : List Host.Cell} (h : Memory.wf m) (a : Nat) (v : Byte) : Memory.wf (memWrite m a v) := by
  rw [Memory.wf_iff, memWrite_map_fst, ← Memory.wf_iff]; exact h

/-! ### Strings of bytes -/

theorem memWrites_append (m : List Host.Cell) (a : Nat) (xs ys : List Byte) :
    memWrites m a (xs ++ ys) = memWrites (memWrites m a xs) (a + xs.length) ys := by
  induction xs generalizing m a with
  | nil => rfl
  | cons x xs ih => simp only [List.cons_append, memWrites, ih, List.length_cons]; congr 1; omega

theorem memWrites_wf {m : List Host.Cell} (h : Memory.wf m) (a : Nat) (bs : List Byte) :
    Memory.wf (memWrites m a bs) := by
  induction bs generalizing m a with
  | nil => exact h
  | cons b bs ih => exact ih (memWrite_wf h a b) (a + 1)

@[simp] theorem memRead_memWrites_isSome (m : List Host.Cell) (a b : Nat) (bs : List Byte) :
    (memRead (memWrites m a bs) b).isSome = (memRead m b).isSome := by
  induction bs generalizing m a with
  | nil => rfl
  | cons x bs ih => rw [memWrites, ih, memRead_memWrite_isSome]

/-- A byte outside the bytes written reads as before. -/
theorem memRead_memWrites_of_outside (m : List Host.Cell) (a b : Nat) (bs : List Byte)
    (h : b < a ∨ a + bs.length ≤ b) : memRead (memWrites m a bs) b = memRead m b := by
  induction bs generalizing m a with
  | nil => rfl
  | cons x bs ih =>
    simp only [List.length_cons] at h
    rw [memWrites, ih _ _ (by omega), memRead_memWrite, if_neg (by omega)]

/-- A byte that is written reads as written, where the buffer is valid. -/
theorem memRead_memWrites_of_inside (m : List Host.Cell) (a i : Nat) (bs : List Byte) (h : i < bs.length)
    (hv : (memRead m (a + i)).isSome) : memRead (memWrites m a bs) (a + i) = some bs[i] := by
  induction bs generalizing m a i with
  | nil => simp at h
  | cons x bs ih =>
    cases i with
    | zero =>
      rw [memWrites, memRead_memWrites_of_outside _ _ _ _ (by omega), memRead_memWrite, if_pos (by omega)]
      obtain ⟨y, hy⟩ := Option.isSome_iff_exists.mp hv
      simp only [Nat.add_zero] at hy
      simp [hy]
    | succ i =>
      have e : a + (i + 1) = a + 1 + i := by omega
      rw [e] at hv ⊢
      rw [memWrites, ih _ _ _ (by simpa using h) (by rw [memRead_memWrite_isSome]; exact hv)]
      simp

theorem memWrites_memWrite_comm (m : List Host.Cell) (a b : Nat) (v : Byte) (bs : List Byte)
    (h : b < a ∨ a + bs.length ≤ b) :
    memWrites (memWrite m b v) a bs = memWrite (memWrites m a bs) b v := by
  induction bs generalizing m a with
  | nil => rfl
  | cons x bs ih =>
    simp only [List.length_cons] at h
    rw [memWrites, memWrites, memWrite_comm _ (by omega), ih _ _ (by omega)]

/-- A string of bytes reads exactly when each of its bytes does. -/
theorem memReads_isSome (m : List Host.Cell) (a k : Nat) :
    (memReads m a k).isSome ↔ ∀ i < k, (memRead m (a + i)).isSome := by
  induction k generalizing a with
  | zero => simp [memReads]
  | succ k ih =>
    have hk := ih (a + 1)
    rw [memReads]
    constructor
    · intro h
      cases h0 : memRead m a with
      | none => simp [h0] at h
      | some b =>
        cases h1 : memReads m (a + 1) k with
        | none => simp [h0, h1] at h
        | some bs =>
          rw [h1] at hk
          intro i hi
          cases i with
          | zero => simp [h0]
          | succ i =>
            have := hk.mp rfl i (by omega)
            rwa [show a + (i + 1) = a + 1 + i by omega]
    · intro h
      have h0 := h 0 (by omega)
      have h1 := hk.mpr fun i hi => by
        have := h (i + 1) (by omega)
        rwa [show a + 1 + i = a + (i + 1) by omega]
      obtain ⟨b, hb⟩ := Option.isSome_iff_exists.mp h0
      obtain ⟨bs, hbs⟩ := Option.isSome_iff_exists.mp h1
      simp only [Nat.add_zero] at hb
      simp [hb, hbs]

theorem memReads_length {m : List Host.Cell} {a k : Nat} {bs : List Byte} (h : memReads m a k = some bs) :
    bs.length = k := by
  induction k generalizing a bs with
  | zero => simp [memReads] at h; simp [← h]
  | succ k ih =>
    simp only [memReads] at h
    split at h
    · next b cs hb hcs => cases h; simp [ih hcs]
    · cases h

@[simp] theorem memReads_memWrites_isSome (m : List Host.Cell) (a b k : Nat) (bs : List Byte) :
    (memReads (memWrites m a bs) b k).isSome = (memReads m b k).isSome := by
  rw [Bool.eq_iff_iff, memReads_isSome, memReads_isSome]
  simp only [memRead_memWrites_isSome]

/-- The first byte of a string and the rest of it. -/
theorem memReads_cons {m : List Host.Cell} {a : Nat} {b : Byte} {bs : List Byte}
    (h : memReads m a (bs.length + 1) = some (b :: bs)) :
    memReads m a 1 = some [b] ∧ memReads m (a + 1) bs.length = some bs := by
  simp only [memReads] at h ⊢
  split at h
  · next c cs hc hcs => cases h; simp [hc, hcs]
  · cases h

/-- What is written reads back, where the buffer is valid. -/
theorem memReads_memWrites (m : List Host.Cell) (a : Nat) (bs : List Byte) (h : (memReads m a bs.length).isSome) :
    memReads (memWrites m a bs) a bs.length = some bs := by
  induction bs generalizing m a with
  | nil => rfl
  | cons b bs ih =>
    have h' := (memReads_isSome _ _ _).mp h
    have hb : memRead (memWrites m a (b :: bs)) a = some b := by
      have := memRead_memWrites_of_inside m a 0 (b :: bs) (by simp) (h' 0 (by simp))
      simpa using this
    have hr : memReads (memWrites m a (b :: bs)) (a + 1) bs.length = some bs := by
      rw [memWrites]
      apply ih
      rw [memReads_isSome]
      intro i hi
      rw [memRead_memWrite_isSome, show a + 1 + i = a + (i + 1) by omega]
      exact h' (i + 1) (by simpa using hi)
    rw [List.length_cons, memReads, hb, hr]

/-- A string of bytes outside the bytes written reads as before. -/
theorem memReads_memWrites_of_outside (m : List Host.Cell) (a b k : Nat) (bs : List Byte)
    (h : b + k ≤ a ∨ a + bs.length ≤ b) : memReads (memWrites m a bs) b k = memReads m b k := by
  induction k generalizing b with
  | zero => rfl
  | succ k ih =>
    rw [memReads, memReads, memRead_memWrites_of_outside _ _ _ _ (by omega), ih (b + 1) (by omega)]

/-! ### Valid buffers -/

theorem memInsert_wf {m : List Host.Cell} (h : Memory.wf m) (a : Nat) (v : Byte) : Memory.wf (memInsert a v m) := by
  induction m with
  | nil => simp [memInsert, Memory.wf]
  | cons c m ih =>
    obtain ⟨k, b⟩ := c
    rw [Memory.wf, List.pairwise_cons] at h
    simp only [memInsert]
    split_ifs with h1 h2
    · exact List.pairwise_cons.mpr ⟨h.1, h.2⟩
    · refine List.pairwise_cons.mpr ⟨?_, List.pairwise_cons.mpr h⟩
      intro x hx
      rcases List.mem_cons.mp hx with rfl | hx
      · exact h2
      · exact Nat.lt_trans h2 (h.1 x hx)
    · refine List.pairwise_cons.mpr ⟨?_, ih h.2⟩
      intro x hx
      have : ∀ (l : List Host.Cell), x ∈ memInsert a v l → x.1 = a ∨ x ∈ l := by
        intro l
        induction l with
        | nil => intro hx; simp [memInsert] at hx; simp [hx]
        | cons d l ih =>
          obtain ⟨j, y⟩ := d
          intro hx
          simp only [memInsert] at hx
          split_ifs at hx with g1 g2
          · rcases List.mem_cons.mp hx with rfl | hx
            · exact .inl g1.symm
            · exact .inr (List.mem_cons_of_mem _ hx)
          · rcases List.mem_cons.mp hx with rfl | hx
            · exact .inl rfl
            · exact .inr hx
          · rcases List.mem_cons.mp hx with rfl | hx
            · exact .inr List.mem_cons_self
            · rcases ih hx with e | e
              · exact .inl e
              · exact .inr (List.mem_cons_of_mem _ e)
      rcases this m hx with e | e
      · show k < x.1; omega
      · exact h.1 x e

theorem memRead_memInsert (m : List Host.Cell) (a b : Nat) (v : Byte) :
    memRead (memInsert a v m) b = if b = a then some v else memRead m b := by
  induction m with
  | nil =>
    by_cases hb : b = a
    · simp [memInsert, memRead, hb]
    · simp [memInsert, memRead, hb, Ne.symm hb]
  | cons c m ih =>
    obtain ⟨k, x⟩ := c
    by_cases hb : b = a
    · subst hb
      by_cases h1 : b = k
      · simp [memInsert, memRead, h1]
      · by_cases h2 : b < k
        · simp [memInsert, memRead, h1, h2]
        · simp [memInsert, memRead, h1, Ne.symm h1, h2, ih]
    · by_cases h1 : a = k
      · subst h1; simp [memInsert, memRead, hb, Ne.symm hb]
      · by_cases h2 : a < k
        · simp [memInsert, memRead, h1, hb, Ne.symm hb, h2]
        · simp [memInsert, memRead, h1, hb, h2, ih]

/-! ### Buffers (R202) -/

/-- A stretch of a string of bytes that reads. -/
theorem memReads_sub {m : List Host.Cell} {a n : Nat} {bs : List Byte} (h : memReads m a n = some bs) {off k : Nat}
    (hk : off + k ≤ n) : memReads m (a + off) k = some ((bs.drop off).take k) := by
  induction off generalizing a n bs with
  | zero =>
    induction k generalizing a n bs with
    | zero => simp [memReads]
    | succ k ih =>
      obtain ⟨n, rfl⟩ : ∃ m, n = m + 1 := ⟨n - 1, by omega⟩
      simp only [memReads, Nat.add_zero] at h ih ⊢
      split at h
      · next b cs hb hcs => cases h; rw [hb, ih hcs (by omega)]; rfl
      · cases h
  | succ off ih =>
    obtain ⟨n, rfl⟩ : ∃ m, n = m + 1 := ⟨n - 1, by omega⟩
    simp only [memReads] at h
    split at h
    · next b cs hb hcs => cases h; rw [show a + (off + 1) = a + 1 + off by omega, ih hcs (by omega)]; rfl
    · cases h

/-- What a buffer holds depends on the memory alone. -/
theorem State.bufReads_congr {s t : State} (hm : t.mem = s.mem) (b : Buf) (off n : Nat) :
    t.bufReads b off n = s.bufReads b off n := by
  simp only [State.bufReads, hm]

@[simp] theorem State.bufReads_setSha (s : State) (u : ShaUnit) (b : Buf) (off n : Nat) :
    (s.setSha u).bufReads b off n = s.bufReads b off n := State.bufReads_congr (by simp) b off n
@[simp] theorem State.bufReads_setTrng (s : State) (u : TrngUnit) (b : Buf) (off n : Nat) :
    (s.setTrng u).bufReads b off n = s.bufReads b off n := State.bufReads_congr (by simp) b off n
@[simp] theorem State.bufReads_setSlot (s : State) (p : Option Pending) (b : Buf) (off n : Nat) :
    (s.setSlot p).bufReads b off n = s.bufReads b off n := State.bufReads_congr (by simp) b off n
@[simp] theorem State.bufReads_setHandler (s : State) (r : Registration) (b : Buf) (off n : Nat) :
    (s.setHandler r).bufReads b off n = s.bufReads b off n := State.bufReads_congr (by simp) b off n
@[simp] theorem State.bufReads_setCtx (s : State) (c : Nat) (x : HashContext) (b : Buf) (off n : Nat) :
    (s.setCtx c x).bufReads b off n = s.bufReads b off n := State.bufReads_congr (by simp) b off n
@[simp] theorem State.bufReads_drew (s : State) (b : Buf) (off n : Nat) :
    s.drew.bufReads b off n = s.bufReads b off n := State.bufReads_congr (by simp) b off n
@[simp] theorem State.bufReads_setVal (s : State) (v : Word64) (b : Buf) (off n : Nat) :
    (s.setVal v).bufReads b off n = s.bufReads b off n := State.bufReads_congr (by simp) b off n
@[simp] theorem State.bufReads_setCode (s : State) (c : Code) (b : Buf) (off n : Nat) :
    (s.setCode c).bufReads b off n = s.bufReads b off n := State.bufReads_congr (by simp) b off n
@[simp] theorem State.bufReads_setStack (s : State) (fs : List Frame) (b : Buf) (off n : Nat) :
    (s.setStack fs).bufReads b off n = s.bufReads b off n := State.bufReads_congr (by simp) b off n
@[simp] theorem State.bufReads_withInputs (s : State) (i : Inputs) (b : Buf) (off n : Nat) :
    (s.withInputs i).bufReads b off n = s.bufReads b off n := State.bufReads_congr rfl b off n
@[simp] theorem State.bufReads_push (s : State) (fs : List Frame) (b : Buf) (off n : Nat) :
    (s.push fs).bufReads b off n = s.bufReads b off n := State.bufReads_congr (by simp) b off n

/-- n bytes are in a buffer exactly when they are within its extent and each is a byte of caller memory. -/
theorem State.bufReads_isSome (s : State) (b : Buf) (off n : Nat) :
    (s.bufReads b off n).isSome ↔ off + n ≤ b.size ∧ ∀ i < n, (memRead s.mem (b.addr + off + i)).isSome := by
  unfold State.bufReads
  split
  · next h => rw [memReads_isSome]; exact ⟨fun e => ⟨h, e⟩, fun e => e.2⟩
  · next h => exact ⟨fun e => by simp at e, fun e => absurd e.1 h⟩

/-- The bytes of a buffer are those of the memory, within its extent. -/
theorem State.bufReads_eq_some {s : State} {b : Buf} {off n : Nat} {bs : List Byte} :
    s.bufReads b off n = some bs ↔ off + n ≤ b.size ∧ memReads s.mem (b.addr + off) n = some bs := by
  unfold State.bufReads
  split
  · next h => exact ⟨fun e => ⟨h, e⟩, fun e => e.2⟩
  · next h => exact ⟨fun e => (by cases e), fun e => absurd e.1 h⟩

theorem State.bufReads_length {s : State} {b : Buf} {off n : Nat} {bs : List Byte} (h : s.bufReads b off n = some bs) :
    bs.length = n :=
  memReads_length (State.bufReads_eq_some.mp h).2

/-- A stretch of a buffer. -/
theorem State.bufReads_sub {s : State} {b : Buf} {n : Nat} {bs : List Byte} (h : s.bufReads b 0 n = some bs) {off k : Nat}
    (hk : off + k ≤ n) : s.bufReads b off k = some ((bs.drop off).take k) := by
  obtain ⟨hs, hm⟩ := State.bufReads_eq_some.mp h
  exact State.bufReads_eq_some.mpr ⟨by omega, memReads_sub hm hk⟩

theorem State.bufReads_le {s : State} {b : Buf} {n : Nat} (h : (s.bufReads b 0 n).isSome) {off k : Nat} (hk : off + k ≤ n) :
    (s.bufReads b off k).isSome := by
  obtain ⟨bs, hb⟩ := Option.isSome_iff_exists.mp h
  rw [State.bufReads_sub hb hk]; rfl

@[simp] theorem State.setMem_self (s : State) : s.setMem s.mem = s := rfl

/-- A write makes no byte valid or invalid. -/
@[simp] theorem State.bufReads_setMem_memWrites (s : State) (m : List Host.Cell) (a : Nat) (xs : List Byte) (b : Buf)
    (off n : Nat) : ((s.setMem (memWrites m a xs)).bufReads b off n).isSome = ((s.setMem m).bufReads b off n).isSome := by
  rw [Bool.eq_iff_iff, State.bufReads_isSome, State.bufReads_isSome]
  simp

/-- The buffers before the bytes that s holds were written. -/
theorem State.bufReads_before {s : State} {m : List Host.Cell} {a : Nat} {xs : List Byte} {b : Buf} {off n : Nat}
    (h : s.mem = memWrites m a xs) (hv : (s.bufReads b off n).isSome) : ((s.setMem m).bufReads b off n).isSome := by
  rw [← State.setMem_self s, h, State.bufReads_setMem_memWrites] at hv
  exact hv

@[simp] theorem State.bufReads_setMem_memWrite (s : State) (m : List Host.Cell) (a : Nat) (x : Byte) (b : Buf) (off n : Nat) :
    ((s.setMem (memWrite m a x)).bufReads b off n).isSome = ((s.setMem m).bufReads b off n).isSome :=
  s.bufReads_setMem_memWrites m a [x] b off n

/-! ### Loads and stores (R202, R206) -/

/-- A load inside the buffer hands over the little-endian value. -/
theorem State.load_of_some {s : State} {k : Nat} {b : Buf} {off : Nat} {bs : List Byte} (h : s.bufReads b off k = some bs) :
    s.load k b off = s.setVal (BitVec.ofNat 64 (leVal bs)) := by
  rw [State.load, h]

/-- A load outside the buffer is MF_HOST_MEM. -/
theorem State.load_of_none {s : State} {k : Nat} {b : Buf} {off : Nat} (h : s.bufReads b off k = none) :
    s.load k b off = s.raiseFault .hostMem := by
  rw [State.load, h]

/-- A load of one byte of a buffer. -/
theorem State.load_byte {s : State} {a : Buf} {n i : Nat} {all rest : List Byte} {b : Byte}
    (h : s.bufReads a 0 n = some all) (hd : all.drop i = b :: rest) : s.load 1 a i = s.setVal (b.setWidth 64) := by
  have hl := State.bufReads_length h
  have hi : i < all.length := by
    rcases Nat.lt_or_ge i all.length with h | h
    · exact h
    · rw [List.drop_eq_nil_of_le h] at hd; cases hd
  rw [State.load_of_some (State.bufReads_sub h (by omega : i + 1 ≤ n)), hd]
  simp only [List.take_succ_cons, List.take_zero, leVal]
  congr 1
  apply BitVec.eq_of_toNat_eq
  simp

theorem State.store_of_isSome {s : State} {k : Nat} {b : Buf} {off n : Nat} {v : Word64}
    (h : (s.bufReads b 0 n).isSome) (hk : off + k ≤ n) :
    s.store k b off v = s.setMem (memWrites s.mem (b.addr + off) (leBytes k v.toNat)) := by
  obtain ⟨bs, hb⟩ := Option.isSome_iff_exists.mp (State.bufReads_le h hk)
  rw [State.store, hb]

theorem State.store_of_none {s : State} {k : Nat} {b : Buf} {off : Nat} {v : Word64} (h : s.bufReads b off k = none) :
    s.store k b off v = s.raiseFault .hostMem := by
  rw [State.store, h]

/-- Everything a load can do. -/
theorem State.load_cases (s : State) (k : Nat) (b : Buf) (off : Nat) :
    (∃ v, s.load k b off = s.setVal v) ∨ s.load k b off = s.raiseFault .hostMem := by
  rw [State.load]; split
  · exact .inl ⟨_, rfl⟩
  · exact .inr rfl

/-- Everything a store can do. -/
theorem State.store_cases (s : State) (k : Nat) (b : Buf) (off : Nat) (v : Word64) :
    s.store k b off v = s.setMem (memWrites s.mem (b.addr + off) (leBytes k v.toNat)) ∨
      s.store k b off v = s.raiseFault .hostMem := by
  rw [State.store]; split
  · exact .inl rfl
  · exact .inr rfl

theorem memInserts_wf {m : List Host.Cell} (h : Memory.wf m) (a : Nat) (bs : List Byte) :
    Memory.wf (memInserts m a bs) := by
  induction bs generalizing m a with
  | nil => exact h
  | cons b bs ih => exact ih (memInsert_wf h a b) (a + 1)

/-! ### Contexts (R140) -/

theorem ctxFind_ctxInsert (m : List (Nat × HashContext)) (c d : Nat) (x : HashContext) :
    ctxFind (ctxInsert c x m) d = if d = c then some x else ctxFind m d := by
  induction m with
  | nil =>
    by_cases hd : d = c
    · simp [ctxInsert, ctxFind, hd]
    · simp [ctxInsert, ctxFind, hd, Ne.symm hd]
  | cons e m ih =>
    obtain ⟨k, y⟩ := e
    by_cases hd : d = c
    · subst hd
      by_cases h1 : d = k
      · simp [ctxInsert, ctxFind, h1]
      · by_cases h2 : d < k
        · simp [ctxInsert, ctxFind, h1, h2]
        · simp [ctxInsert, ctxFind, h1, Ne.symm h1, h2, ih]
    · by_cases h1 : c = k
      · subst h1; simp [ctxInsert, ctxFind, hd, Ne.symm hd]
      · by_cases h2 : c < k
        · simp [ctxInsert, ctxFind, h1, hd, Ne.symm hd, h2]
        · simp [ctxInsert, ctxFind, h1, hd, h2, ih]

theorem ctxInsert_ctxInsert (m : List (Nat × HashContext)) (c : Nat) (x y : HashContext) :
    ctxInsert c y (ctxInsert c x m) = ctxInsert c y m := by
  induction m with
  | nil => simp [ctxInsert]
  | cons e m ih =>
    obtain ⟨k, z⟩ := e
    by_cases h1 : c = k
    · simp [ctxInsert, h1]
    · by_cases h2 : c < k
      · simp [ctxInsert, h1, h2]
      · simp [ctxInsert, h1, h2, ih]

theorem ctxInsert_wf {m : List (Nat × HashContext)} (h : CtxsWf m) (c : Nat) (x : HashContext) :
    CtxsWf (ctxInsert c x m) := by
  have mem : ∀ (l : List (Nat × HashContext)) (p : Nat × HashContext), p ∈ ctxInsert c x l → p.1 = c ∨ p ∈ l := by
    intro l p
    induction l with
    | nil => intro hp; simp [ctxInsert] at hp; simp [hp]
    | cons d l ih =>
      obtain ⟨j, y⟩ := d
      intro hp
      simp only [ctxInsert] at hp
      split_ifs at hp with g1 g2
      · rcases List.mem_cons.mp hp with rfl | hp
        · exact .inl g1.symm
        · exact .inr (List.mem_cons_of_mem _ hp)
      · rcases List.mem_cons.mp hp with rfl | hp
        · exact .inl rfl
        · exact .inr hp
      · rcases List.mem_cons.mp hp with rfl | hp
        · exact .inr List.mem_cons_self
        · rcases ih hp with e | e
          · exact .inl e
          · exact .inr (List.mem_cons_of_mem _ e)
  induction m with
  | nil => simp [ctxInsert, CtxsWf]
  | cons d m ih =>
    obtain ⟨k, y⟩ := d
    rw [CtxsWf, List.pairwise_cons] at h
    simp only [ctxInsert]
    split_ifs with h1 h2
    · exact List.pairwise_cons.mpr ⟨h.1, h.2⟩
    · refine List.pairwise_cons.mpr ⟨?_, List.pairwise_cons.mpr h⟩
      intro p hp
      rcases List.mem_cons.mp hp with rfl | hp
      · exact h2
      · exact Nat.lt_trans h2 (h.1 p hp)
    · refine List.pairwise_cons.mpr ⟨?_, ih h.2⟩
      intro p hp
      rcases mem m p hp with e | e
      · show k < p.1; omega
      · exact h.1 p e

/-- A context reads as it was stored; every other context as before. -/
theorem State.ctx_setCtx (s : State) (c d : Nat) (x : HashContext) :
    (s.setCtx c x).ctx d = if d = c then x else s.ctx d := by
  simp only [State.ctx, State.setCtx_ctxs, ctxFind_ctxInsert]
  split <;> rfl

@[simp] theorem State.ctx_setCtx_self (s : State) (c : Nat) (x : HashContext) : (s.setCtx c x).ctx c = x := by
  rw [State.ctx_setCtx, if_pos rfl]

@[simp] theorem State.setCtx_setCtx (s : State) (c : Nat) (x y : HashContext) :
    (s.setCtx c x).setCtx c y = s.setCtx c y := by
  simp only [State.setCtx, ctxInsert_ctxInsert]

/-! ### Faults (R153, R655) -/

theorem mem_insertFault (f g : ModelFault) (fs : List ModelFault) : g ∈ insertFault f fs ↔ g = f ∨ g ∈ fs := by
  induction fs with
  | nil => simp [insertFault]
  | cons h fs ih =>
    simp only [insertFault]
    split_ifs with h1 h2
    · subst h1
      simp only [List.mem_cons]
      exact ⟨fun e => .inr e, fun e => e.elim .inl id⟩
    · simp
    · simp only [List.mem_cons, ih]
      tauto

theorem ModelFault.rank_injective {f g : ModelFault} (h : f.rank = g.rank) : f = g := by
  cases f <;> cases g <;> first | rfl | cases h

theorem insertFault_wf {fs : List ModelFault} (h : FaultsWf fs) (f : ModelFault) : FaultsWf (insertFault f fs) := by
  induction fs with
  | nil => simp [insertFault, FaultsWf]
  | cons g fs ih =>
    rw [FaultsWf, List.pairwise_cons] at h
    simp only [insertFault]
    split_ifs with h1 h2
    · exact List.pairwise_cons.mpr h
    · refine List.pairwise_cons.mpr ⟨?_, List.pairwise_cons.mpr h⟩
      intro p hp
      rcases List.mem_cons.mp hp with rfl | hp
      · exact h2
      · exact Nat.lt_trans h2 (h.1 p hp)
    · refine List.pairwise_cons.mpr ⟨?_, ih h.2⟩
      intro p hp
      rcases (mem_insertFault f p fs).mp hp with rfl | hp
      · have : g.rank ≠ p.rank := fun e => h1 (ModelFault.rank_injective e.symm)
        omega
      · exact h.1 p hp

end Sys2Proof.Machine
end

