-- ==== Sys2Proof/Laws/Sha2.lean ====
section
/-! SUPPORT. Laws/Sha2.lean: byte encodings (R29) and block-input words (R203, R483) are inverse, the block buffer after
bytes are put into it (R456), and the lengths of digests and final blocks (R430, R431). -/

namespace Sys2Proof.Machine

/-! ### Byte encodings (R29) -/

@[simp] theorem leBytes_length (k v : Nat) : (leBytes k v).length = k := by
  induction k generalizing v with
  | zero => rfl
  | succ k ih => simp [leBytes, ih]

@[simp] theorem beBytes_length (k v : Nat) : (beBytes k v).length = k := by simp [beBytes]

theorem leVal_leBytes (k v : Nat) : leVal (leBytes k v) = v % 256 ^ k := by
  induction k generalizing v with
  | zero => simp [leBytes, leVal, Nat.mod_one]
  | succ k ih =>
    simp only [leBytes, leVal, ih, BitVec.toNat_ofNat]
    have h := Nat.mod_mul (x := v) (a := 256) (b := 256 ^ k)
    rw [show (256 : Nat) ^ (k + 1) = 256 * 256 ^ k from by rw [pow_succ, Nat.mul_comm], h]

theorem leVal_lt (bs : List Byte) : leVal bs < 256 ^ bs.length := by
  induction bs with
  | nil => simp [leVal]
  | cons b bs ih =>
    have := b.isLt
    simp only [leVal, List.length_cons, pow_succ]
    omega

theorem leBytes_leVal (bs : List Byte) : leBytes bs.length (leVal bs) = bs := by
  induction bs with
  | nil => rfl
  | cons b bs ih =>
    have hb := b.isLt
    simp only [List.length_cons, leBytes, leVal]
    congr 1
    · apply BitVec.eq_of_toNat_eq; rw [BitVec.toNat_ofNat]; omega
    · rw [show (b.toNat + 256 * leVal bs) / 256 = leVal bs by omega, ih]

theorem beVal_lt (bs : List Byte) : beVal bs < 256 ^ bs.length := by
  have := leVal_lt bs.reverse
  simpa [beVal] using this

theorem beBytes_beVal (bs : List Byte) : beBytes bs.length (beVal bs) = bs := by
  have := leBytes_leVal bs.reverse
  simp only [List.length_reverse] at this
  simp [beBytes, beVal, this]

/-- Only the low k bytes of a value are encoded. -/
theorem leBytes_mod (k v : Nat) : leBytes k (v % 256 ^ k) = leBytes k v := by
  have h := leBytes_leVal (leBytes k v)
  rwa [leBytes_length, leVal_leBytes] at h

theorem beBytes_mod (k v : Nat) : beBytes k (v % 256 ^ k) = beBytes k v := by rw [beBytes, leBytes_mod, beBytes]

/-- The bytes of a value, one at a time: byte b is bits 8b+7 .. 8b. -/
theorem leBytes_getElem (k v b : Nat) (h : b < (leBytes k v).length) :
    (leBytes k v)[b] = BitVec.ofNat 8 (v / 256 ^ b) := by
  induction k generalizing v b with
  | zero => simp [leBytes] at h
  | succ k ih =>
    cases b with
    | zero => simp [leBytes]
    | succ b =>
      simp only [leBytes, List.getElem_cons_succ]
      rw [ih, Nat.div_div_eq_div_mul, pow_succ, Nat.mul_comm]

/-- Byte order reversed and stored little-endian is big-endian (R479). -/
theorem leBytes_bswap {e : Nat} (he : e ≤ 8) (v : Word64) : leBytes e (bswap e v).toNat = beBytes e v.toNat := by
  rw [bswap, BitVec.toNat_ofNat]
  have hlt : leVal (beBytes e v.toNat) < 256 ^ e := by simpa using leVal_lt (beBytes e v.toNat)
  have h64 : 256 ^ e ≤ 2 ^ 64 := by
    calc 256 ^ e ≤ 256 ^ 8 := Nat.pow_le_pow_right (by norm_num) he
      _ = 2 ^ 64 := by norm_num
  rw [Nat.mod_eq_of_lt (by omega)]
  have h := leBytes_leVal (beBytes e v.toNat)
  rwa [beBytes_length] at h

/-! ### Block-input words (R203, R483) -/

@[simp] theorem fifoBytes_length (o : FifoOrder) (k v : Nat) : (fifoBytes o k v).length = k := by
  cases o <;> simp [fifoBytes]

/-- The write value of some bytes delivers those bytes in order (R483, R203). -/
theorem fifoBytes_fifoWord (o : FifoOrder) (bs : List Byte) (h : bs.length ≤ 8) :
    fifoBytes o bs.length (fifoWord o bs).toNat = bs := by
  have h64 : 256 ^ bs.length ≤ 2 ^ 64 := by
    calc 256 ^ bs.length ≤ 256 ^ 8 := Nat.pow_le_pow_right (by norm_num) h
      _ = 2 ^ 64 := by norm_num
  cases o with
  | leStream =>
    have := leVal_lt bs
    simp only [fifoBytes, fifoWord, BitVec.toNat_ofNat]
    rw [Nat.mod_eq_of_lt (by omega), leBytes_leVal]
  | beWord =>
    have := beVal_lt bs
    simp only [fifoBytes, fifoWord, BitVec.toNat_ofNat]
    rw [Nat.mod_eq_of_lt (by omega), beBytes_beVal]

/-- A 32-bit write value of four bytes delivers them in order. -/
theorem fifoBytes_fifoWord32 (o : FifoOrder) (bs : List Byte) (h : bs.length = 4) :
    fifoBytes o 4 ((fifoWord o bs).setWidth 32).toNat = bs := by
  have e : ((fifoWord o bs).setWidth 32).toNat = (fifoWord o bs).toNat := by
    rw [BitVec.toNat_setWidth, Nat.mod_eq_of_lt]
    cases o with
    | leStream =>
      have := leVal_lt bs
      rw [h] at this
      rw [fifoWord, BitVec.toNat_ofNat]; omega
    | beWord =>
      have := beVal_lt bs
      rw [h] at this
      rw [fifoWord, BitVec.toNat_ofNat]; omega
  have := fifoBytes_fifoWord o bs (by omega)
  rw [h] at this
  rw [e, this]

@[simp] theorem fifoWords_length (o : FifoOrder) (k n : Nat) (bs : List Byte) : (fifoWords o k n bs).length = n := by
  induction n generalizing bs with
  | zero => rfl
  | succ n ih => simp [fifoWords, ih]

/-! ### The block buffer (R456) -/

theorem blit_getElem (v : Vector Byte 128) (i : Nat) (bs : List Byte) (h : i + bs.length ≤ 128) (j : Nat) (hj : j < 128) :
    (blit v i bs)[j] = if h : i ≤ j ∧ j < i + bs.length then bs[j - i]'(by omega) else v[j] := by
  induction bs generalizing v i with
  | nil => simp only [blit, List.length_nil]; rw [dif_neg (by omega)]
  | cons b bs ih =>
    simp only [List.length_cons] at h
    rw [blit, ih _ _ (by omega)]
    by_cases h1 : i + 1 ≤ j ∧ j < i + 1 + bs.length
    · rw [dif_pos h1, dif_pos (by simp only [List.length_cons]; omega)]
      have : j - i = (j - (i + 1)) + 1 := by omega
      simp only [this, List.getElem_cons_succ]
    · rw [dif_neg h1, Vector.getElem_setIfInBounds]
      by_cases h2 : i = j
      · subst h2; simp
      · rw [if_neg h2, dif_neg (by simp only [List.length_cons]; omega)]

theorem blit_append (v : Vector Byte 128) (i : Nat) (xs ys : List Byte) :
    blit v i (xs ++ ys) = blit (blit v i xs) (i + xs.length) ys := by
  induction xs generalizing v i with
  | nil => rfl
  | cons x xs ih => simp only [List.cons_append, blit, ih, List.length_cons]; congr 1; omega

/-- The buffer starts with the bytes put at its start. -/
theorem blit_take (v : Vector Byte 128) (bs : List Byte) (h : bs.length ≤ 128) :
    (blit v 0 bs).toList.take bs.length = bs := by
  apply List.ext_getElem
  · simp [h]
  · intro j h1 h2
    rw [List.getElem_take, Vector.getElem_toList, blit_getElem _ _ _ (by omega), dif_pos ⟨by omega, by omega⟩]
    simp

/-! ### Lengths (R12, R430, R431) -/

theorem blockBytes_le (a : Alg) : a.blockBytes ≤ 128 := by cases a <;> decide

theorem blockBytes_pos (a : Alg) : 0 < a.blockBytes := by cases a <;> decide

theorem digestBytes_le (a : Alg) : a.digestBytes ≤ 8 * a.wordBytes := by cases a <;> decide

@[simp] theorem digest_length (a : Alg) (h : HashState) : (digest a h).length = a.digestBytes := by
  have : (h.toList.flatMap fun x => beBytes a.wordBytes x.toNat).length = 8 * a.wordBytes := by
    simp [List.length_flatMap]; omega
  rw [digest, List.length_take, this]
  exact Nat.min_eq_left (digestBytes_le a)

/-- Every final block is a whole block (R431). -/
theorem finalBlocks_length {a : Alg} {p : List Byte} (hp : p.length < a.blockBytes) (n : Word64) {b : List Byte}
    (hb : b ∈ finalBlocks a p n) : b.length = a.blockBytes := by
  have hl : a.lengthBytes < a.blockBytes := by cases a <;> decide
  simp only [finalBlocks] at hb
  split_ifs at hb with h
  · simp only [List.mem_singleton] at hb
    subst hb
    simp only [List.length_append, List.length_replicate, List.length_cons, List.length_nil, beBytes_length]
    omega
  · simp only [List.mem_cons, List.not_mem_nil, or_false] at hb
    rcases hb with rfl | rfl
    · simp only [List.length_append, List.length_replicate, List.length_cons, List.length_nil]
      omega
    · simp only [List.length_append, List.length_replicate, beBytes_length]
      omega

theorem fullBlocks_length_mem {b n : Nat} {m x : List Byte} (h : n * b ≤ m.length) (hx : x ∈ fullBlocks b n m) :
    x.length = b := by
  induction n generalizing m with
  | zero => simp [fullBlocks] at hx
  | succ n ih =>
    rw [Nat.succ_mul] at h
    rw [fullBlocks, List.mem_cons] at hx
    rcases hx with rfl | hx
    · rw [List.length_take]; omega
    · exact ih (by rw [List.length_drop]; omega) hx

/-- In the 32-bit modes a compression leaves the upper half of each storage word zero (R113). -/
theorem compress_lt {a : Alg} (ha : a.wordBytes = 4) (h : HashState) (blk : List Byte) (i : Nat) (hi : i < 8) :
    (compress a h blk)[i].toNat < 2 ^ 32 := by
  cases a with
  | sha224 | sha256 =>
    simp only [compress, Vector.getElem_map, BitVec.toNat_setWidth]
    have := ((compressFamily family256 (h.map fun x => x.setWidth 32) blk)[i]).isLt
    omega
  | sha384 | sha512 => simp [Alg.wordBytes] at ha

/-- In the 32-bit modes so does INIT (R451). -/
theorem initialHash_lt {a : Alg} (ha : a.wordBytes = 4) (i : Nat) (hi : i < 8) :
    (initialHash a)[i].toNat < 2 ^ 32 := by
  cases a with
  | sha224 | sha256 => revert i; decide
  | sha384 | sha512 => simp [Alg.wordBytes] at ha

end Sys2Proof.Machine
end

