-- ==== Sys2Proof/Laws/Exec.lean ====
section
/-! SUPPORT. Laws/Exec.lean: everything `exec` can do, said once: what an operation may do to the SHA unit, to the TRNG unit
and to the host, and that the invariants of the two units are kept. -/

namespace Sys2Proof.Machine

/-! ### Appending (R456) -/

/-- Everything a block-input write can do (R456, R661). -/
theorem State.append_cases (s : State) (bs : List Byte) :
    (s.sha.modeEff = none ∧ s.append bs = s.raiseFault .fifoNoInit) ∨
    (∃ alg, s.sha.modeEff = some alg ∧ s.sha.busy = true ∧ s.append bs = s.raiseFault .fifoBusy) ∨
    (∃ alg, s.sha.modeEff = some alg ∧ s.sha.busy = false ∧ alg.blockBytes < s.sha.fill + bs.length ∧
      s.append bs = s.raiseFault .fifoOverrun) ∨
    (∃ alg, s.sha.modeEff = some alg ∧ s.sha.busy = false ∧ s.sha.fill + bs.length ≤ alg.blockBytes ∧
      s.append bs = s.setSha (s.sha.append alg bs)) := by
  unfold State.append
  cases hm : s.sha.modeEff with
  | none => exact .inl ⟨rfl, rfl⟩
  | some alg =>
    right
    cases hb : s.sha.busy with
    | true => exact .inl ⟨alg, rfl, rfl, rfl⟩
    | false =>
      right
      by_cases hf : alg.blockBytes < s.sha.fill + bs.length
      · exact .inl ⟨alg, rfl, rfl, hf, by simp [hf]⟩
      · exact .inr ⟨alg, rfl, rfl, by omega, by simp [hf]⟩

theorem State.append_of_ready {s : State} {alg : Alg} {bs : List Byte} (hm : s.sha.modeEff = some alg)
    (hb : s.sha.busy = false) (hf : s.sha.fill + bs.length ≤ alg.blockBytes) :
    s.append bs = s.setSha (s.sha.append alg bs) := by
  simp [State.append, hm, hb, Nat.not_lt.mpr hf]

/-! ### What may happen to a unit -/

/-- What one operation may do to the SHA unit: nothing, a MODE write (R452), INIT (R451), a block-input write (R456), a
compression (R460). -/
inductive ShaChange (u : ShaUnit) : ShaUnit → Prop where
  | keep : ShaChange u u
  | mode (m : BitVec 2) : ShaChange u { u with modeField := m }
  | init (m : BitVec 2) (h : u.busy = false) : ShaChange u (u.init m)
  | append (alg : Alg) (bs : List Byte) (hm : u.modeEff = some alg) (hb : u.busy = false)
      (hf : u.fill + bs.length ≤ alg.blockBytes) (hl : bs.length % 4 = 0) (h0 : 0 < bs.length) :
      ShaChange u (u.append alg bs)
  | compress (alg : Alg) (hm : u.modeEff = some alg) (hb : u.busy = true) : ShaChange u (u.compressed alg)

/-- What one operation may do to the TRNG unit: nothing, a TRNG_CR write (R552), a TRNG_TRIM write (R555), consuming the
sample (R556), completing a test (R560), making a sample (R561). -/
inductive TrngChange (htsW : Nat) (u : TrngUnit) : TrngUnit → Prop where
  | keep : TrngChange htsW u u
  | writeCr (start ie : Bool) (x : Word32) : TrngChange htsW u (u.writeCr start ie (htsBits htsW x))
  | writeTrim (v : BitVec 31) (l : Bool) : TrngChange htsW u (u.writeTrim v l)
  | consume (h : u.htstart = false) (hr : u.rdy = true) : TrngChange htsW u { u with rdy := false }
  | complete (x : Word32) (h : u.htr = true) : TrngChange htsW u { u with htr := false, hts := htsBits htsW x }
  | sample (x : Word32) (h : u.htstart = false) (hr : u.rdy = false) :
      TrngChange htsW u { u with sample := x, rdy := true }

theorem ShaChange.inv {u v : ShaUnit} (c : ShaChange u v) (h : ShaInv u) : ShaInv v := by
  cases c with
  | keep => exact h
  | mode m => exact h
  | init m hb =>
    simp only [ShaInv, ShaUnit.init]
    refine ⟨by simp, Nat.zero_le _, ?_, fun ha i hi => initialHash_lt ha i hi⟩
    have := blockBytes_pos (algOfMode m)
    rw [hb]
    constructor
    · intro e; cases e
    · intro e; omega
  | append alg bs hm hb hf hl h0 =>
    simp only [ShaInv, hm] at h
    obtain ⟨h1, h2, h3, h4⟩ := h
    simp only [ShaInv, ShaUnit.append, hm]
    exact ⟨by omega, hf, by simp, h4⟩
  | compress alg hm hb =>
    simp only [ShaInv, ShaUnit.compressed, hm]
    have := blockBytes_pos alg
    exact ⟨by simp, Nat.zero_le _, by simp; omega, fun ha i hi => compress_lt ha _ _ i hi⟩

theorem TrngChange.inv {w : Nat} {u v : TrngUnit} (c : TrngChange w u v) (h : TrngInv w u) : TrngInv w v := by
  obtain ⟨h1, h2, h3⟩ := h
  cases c with
  | keep => exact ⟨h1, h2, h3⟩
  | writeCr start ie x =>
    unfold TrngUnit.writeCr TrngUnit.aborts
    cases hs : u.htstart <;> cases hr : u.htr <;> cases start <;> simp_all [TrngInv]
  | writeTrim v l => exact ⟨h1, h2, h3⟩
  | consume h hr => exact ⟨h1, fun _ => rfl, h3⟩
  | complete x h => exact ⟨fun _ => rfl, h2, by simp⟩
  | sample x h hr => exact ⟨h1, fun e => absurd e (by simp [h]), h3⟩

/-- The lock is never cleared, and a locked trim value never changes (R133, R555). -/
theorem TrngChange.lock {w : Nat} {u v : TrngUnit} (c : TrngChange w u v) (h : u.lock = true) :
    v.lock = true ∧ v.trimVal = u.trimVal := by
  cases c with
  | writeCr start ie x => unfold TrngUnit.writeCr; split_ifs <;> exact ⟨h, rfl⟩
  | writeTrim v l => simp [TrngUnit.writeTrim, h]
  | _ => exact ⟨h, rfl⟩

/-! ### exec -/

@[simp] theorem State.setVal_self (s : State) : s.setVal s.thread.val = s := by
  rw [State.setVal]; exact State.setThread_thread_self s

@[simp] theorem State.setSha_self (s : State) : s.setSha s.sha = s := rfl

@[simp] theorem State.setTrng_self (s : State) : s.setTrng s.trng = s := rfl

/-- What an operation of a unit leaves: other inputs, the units changed as they may, and a value read. -/
def UnitEffect (s t : State) : Prop :=
  ∃ x u w v, ShaChange s.sha u ∧ TrngChange s.cfg.htsW s.trng w ∧
    t = (((s.withInputs x).setSha u).setTrng w).setVal v

theorem UnitEffect.read (s : State) (v : Word64) : UnitEffect s (s.setVal v) :=
  ⟨s.inputs, s.sha, s.trng, v, .keep, .keep, rfl⟩

theorem UnitEffect.readDraw (s : State) (v : Word64) : UnitEffect s (s.drew.setVal v) :=
  ⟨s.drew.inputs, s.sha, s.trng, v, .keep, .keep, rfl⟩

theorem UnitEffect.sha {s : State} {u : ShaUnit} (c : ShaChange s.sha u) : UnitEffect s (s.setSha u) :=
  ⟨s.inputs, u, s.trng, s.thread.val, c, .keep, by
    show _ = State.setVal (s.setSha u) s.thread.val
    exact (State.setVal_self (s.setSha u)).symm⟩

theorem UnitEffect.trng {s : State} {w : TrngUnit} (c : TrngChange s.cfg.htsW s.trng w) : UnitEffect s (s.setTrng w) :=
  ⟨s.inputs, s.sha, w, s.thread.val, .keep, c, by
    show _ = State.setVal (s.setTrng w) s.thread.val
    exact (State.setVal_self (s.setTrng w)).symm⟩

theorem UnitEffect.trngDraw {s : State} {w : TrngUnit} (c : TrngChange s.cfg.htsW s.trng w) :
    UnitEffect s (s.drew.setTrng w) :=
  ⟨s.drew.inputs, s.sha, w, s.thread.val, .keep, c, by
    show _ = State.setVal (s.drew.setTrng w) s.thread.val
    exact (State.setVal_self (s.drew.setTrng w)).symm⟩

/-- What the call of a procedure leaves: a code, frames, nothing, or an initialised context. -/
inductive CallEffect (s : State) : State → Prop where
  | ret (c : Code) : CallEffect s (s.setCode c)
  | begin (fs : List Frame) : CallEffect s (s.push fs)
  | noop : CallEffect s s
  | init (c : Nat) (x : HashContext) : CallEffect s ((s.setCtx c x).setCode .ok)

/-- Everything an operation that answers a next state can do: a model fault, an effect on the units, the entry of the
handler, or the call of a procedure. -/
inductive ExecEffect (s : State) : State → Prop where
  | fault (f : ModelFault) : ExecEffect s (s.raiseFault f)
  | unit {t : State} (h : UnitEffect s t) : ExecEffect s t
  | enter (r : Registration) (h : s.inIsr = false) (hr : s.irqHandler = some r) : ExecEffect s (s.enterIsr r)
  | call {t : State} (h : CallEffect s t) : ExecEffect s t

theorem ifTrng_effect {s t u : State} (h : s.ifTrng t = .next u) (e : UnitEffect s t) : ExecEffect s u := by
  unfold State.ifTrng at h
  split at h
  · cases h; exact .unit e
  · cases h; exact .fault _

theorem append_effect (s : State) (bs : List Byte) (hl : bs.length % 4 = 0) (h0 : 0 < bs.length) :
    ExecEffect s (s.append bs) := by
  rcases s.append_cases bs with ⟨_, e⟩ | ⟨_, _, _, e⟩ | ⟨_, _, _, _, e⟩ | ⟨alg, hm, hb, hf, e⟩
  · rw [e]; exact .fault _
  · rw [e]; exact .fault _
  · rw [e]; exact .fault _
  · rw [e]; exact .unit (.sha (.append alg bs hm hb hf hl h0))

theorem slot_effect (s : State) (j : Nat) : s.slotAfter j = s ∨ s.slotAfter j = s.drew := by
  unfold State.slotAfter; split
  · exact .inl rfl
  · exact .inr rfl

theorem swInit_effect {a : Alg} {c : Option Nat} {e : Endian} {s t : State} (h : swInit a c e s = .next t) :
    CallEffect s t := by
  cases c with
  | none => cases h; exact .ret _
  | some c => cases h; exact .init c _

theorem swUpdate_effect {a : Alg} {c : Option Nat} {d : Option Buf} {n : Nat} {s t : State} (h : swUpdate a c d n s = .next t) :
    ExecEffect s t := by
  cases c with
  | none => cases h; exact .call (.ret _)
  | some c =>
    simp only [swUpdate] at h
    split_ifs at h <;> cases h
    · exact .call (.ret _)
    · exact .fault _
    · exact .call (.ret _)
    · exact .call (.begin _)

theorem swFinish_effect {a : Alg} {c : Option Nat} {o l : Option Buf} {s t : State} (h : swFinish a c o l s = .next t) :
    ExecEffect s t := by
  cases c <;> cases o <;> cases l <;> simp only [swFinish] at h
  all_goals first
    | (cases h; exact .call (.ret _))
    | (split_ifs at h <;> cases h
       · exact .fault _
       · exact .call (.begin _))

/-- `exec` said once. -/
theorem exec_effect {i : Instr} {s t : State} (h : exec i s = .next t) : ExecEffect s t := by
  cases i with
  | rd32ShaCr => cases h; exact .unit (.readDraw _ _)
  | wr32ShaCr v =>
    simp only [exec, execWr32ShaCr] at h
    split_ifs at h with h1 h2 <;> cases h
    · exact .fault _
    · exact .unit (.sha (.init _ (by simpa using h2)))
    · exact .unit (.sha (.mode _))
  | rd32ShaSr => cases h; exact .unit (.readDraw _ _)
  | wr32FifoIn v => cases h; exact append_effect _ _ (by simp) (by simp)
  | wr64FifoIn v => cases h; exact append_effect _ _ (by simp) (by simp)
  | rd32Hash j =>
    cases h
    rcases slot_effect s j with e | e <;> rw [e]
    · exact .unit (.read _ _)
    · exact .unit (.readDraw _ _)
  | rd64Hash j =>
    cases h
    rcases slot_effect s (2 * j) with e | e <;> rw [e]
    · rcases slot_effect s (2 * j + 1) with e' | e' <;> rw [e']
      · exact .unit (.read _ _)
      · exact .unit (.readDraw _ _)
    · rcases slot_effect s.drew (2 * j + 1) with e' | e' <;> rw [e']
      · exact .unit (.readDraw _ _)
      · exact .unit ⟨s.drew.drew.inputs, s.sha, s.trng, _, .keep, .keep, rfl⟩
  | rd32TrngRev => cases h; exact .unit (.read _ _)
  | rd32TrngCr => exact ifTrng_effect h (.readDraw _ _)
  | wr32TrngCr v =>
    refine ifTrng_effect h ?_
    split
    · exact .trngDraw (.writeCr _ _ _)
    · exact .trng (.writeCr _ _ _)
  | rd32TrngSr => exact ifTrng_effect h (.readDraw _ _)
  | rd32TrngTrim => exact ifTrng_effect h (.read _ _)
  | wr32TrngTrim v => exact ifTrng_effect h (.trng (.writeTrim _ _))
  | rd32TrngData =>
    refine ifTrng_effect h ?_
    split
    · exact .readDraw _ _
    · next hc =>
      simp only [Bool.or_eq_true, Bool.not_eq_true', not_or, Bool.not_eq_true, Bool.not_eq_false] at hc
      exact ⟨s.inputs, s.sha, _, _, .keep, .consume hc.1 hc.2, rfl⟩
  | busError w wide rsv off v => cases h; exact .fault _
  | shaCompress =>
    simp only [exec, execShaCompress] at h
    split at h
    · next alg hb hm => cases h; exact .unit (.sha (.compress alg hm hb))
    · cases h
  | trngHtComplete =>
    simp only [exec, execTrngHtComplete] at h
    split_ifs at h with hc
    cases h
    simp only [State.htCompleteEnabled, Bool.and_eq_true] at hc
    exact .unit (.trngDraw (.complete _ hc.2))
  | trngSample =>
    simp only [exec, execTrngSample] at h
    split_ifs at h with hc
    cases h
    simp only [State.sampleEnabled, Bool.and_eq_true, Bool.not_eq_true'] at hc
    exact .unit (.trngDraw (.sample _ hc.1.2 hc.2))
  | irqDeliver =>
    simp only [exec, execIrqDeliver] at h
    split at h
    · next r he hr =>
      cases h
      simp only [State.irqEnabled, State.irqWaits, Bool.and_eq_true, Bool.not_eq_true'] at he
      exact .enter r he.1.2 hr
    · cases h
  | hcaShaInit hd ctx tag endian =>
    simp only [exec, execHcaShaInit] at h
    split at h
    · cases h; exact .call (.ret _)
    · cases h; exact .call (.ret _)
    · cases h; exact .call (.ret _)
    · split_ifs at h <;> cases h
      · exact .fault _
      · exact .call (.begin _)
  | hcaShaUpdate hd ctx data len =>
    simp only [exec, execHcaShaUpdate] at h
    split at h
    · cases h; exact .call (.ret _)
    · cases h; exact .call (.ret _)
    · split_ifs at h <;> cases h
      · exact .call (.ret _)
      · exact .fault _
      · exact .fault _
      · exact .call (.ret _)
      · exact .call (.begin _)
  | hcaShaSubmit hd blk alg =>
    cases hd <;> cases h
    · exact .call (.ret _)
    · exact .call (.begin _)
  | hcaShaFinish hd ctx out outlen =>
    simp only [exec, execHcaShaFinish] at h
    split at h
    · cases h; exact .call (.ret _)
    · cases h; exact .call (.ret _)
    · cases h; exact .call (.ret _)
    · cases h; exact .call (.ret _)
    · split_ifs at h <;> cases h
      · exact .fault _
      · exact .fault _
      · exact .call (.begin _)
  | hcaShaRead hd alg out n => cases h; exact .call (.begin _)
  | sha224Init _ _ | sha256Init _ _ | sha384Init _ _ | sha512Init _ _ => exact .call (swInit_effect h)
  | sha224Update _ _ _ | sha256Update _ _ _ | sha384Update _ _ _ | sha512Update _ _ _ => exact swUpdate_effect h
  | sha224Finish _ _ _ | sha256Finish _ _ _ | sha384Finish _ _ _ | sha512Finish _ _ _ => exact swFinish_effect h
  | shaInit ctx tag endian =>
    simp only [exec, execShaInit] at h
    split at h
    · cases h; exact .call (.ret _)
    · cases h; exact .call (.ret _)
    · exact .call (swInit_effect h)
  | shaUpdate ctx data len =>
    simp only [exec, execShaUpdate] at h
    split at h
    · cases h; exact .call (.ret _)
    · split_ifs at h
      · cases h; exact .fault _
      · exact swUpdate_effect h
  | shaFinish ctx out outlen =>
    simp only [exec, execShaFinish] at h
    split at h
    · cases h; exact .call (.ret _)
    · split_ifs at h
      · cases h; exact .fault _
      · exact swFinish_effect h
  | trngInit hd =>
    cases hd
    · cases h; exact .call (.ret _)
    · simp only [exec, execTrngInit] at h
      split_ifs at h <;> cases h
      · exact .fault _
      · exact .fault _
      · exact .call (.begin _)
  | trngAcquireBlocking hd =>
    cases hd
    · cases h; exact .call (.ret _)
    · simp only [exec, execTrngAcquireBlocking] at h
      split_ifs at h <;> cases h
      · exact .fault _
      · exact .fault _
      · exact .call (.begin _)
  | trngAcquireAsync hd dst cb =>
    cases hd
    · cases h; exact .call (.ret _)
    · simp only [exec, execTrngAcquireAsync] at h
      split_ifs at h
      · cases h; exact .call (.ret _)
      · split at h
        · cases h; exact .call (.ret _)
        · cases h; exact .call (.ret _)
        · split_ifs at h <;> cases h
          · exact .fault _
          · exact .call (.begin _)
  | trngIsr c =>
    simp only [exec, execTrngIsr] at h
    split at h
    · cases h; exact .call .noop
    · cases h; exact .call .noop
    · cases h; exact .call (.begin _)

end Sys2Proof.Machine
end

