-- ==== Sys2Proof/Laws/Host.lean ====
section
/-! SUPPORT. Laws/Host.lean: what a host agent does around its one access a step: local work reaches no register, no caller
memory and no fault, and leaves the other agent alone; and everything a step of the machine can do, said once. -/

namespace Sys2Proof.Machine

/-! ### Local work -/

/-- t is s but for the acting agent's own stack, value and code, the contexts, the slot, the registration and the inputs:
what the local work of a procedure may change. -/
structure Local (s t : State) : Prop where
  cfg : t.cfg = s.cfg
  sha : t.sha = s.sha
  trng : t.trng = s.trng
  mem : t.mem = s.mem
  faults : t.faults = s.faults
  callbacks : t.callbacks = s.callbacks
  inIsr : t.inIsr = s.inIsr
  main : s.inIsr = true → t.main = s.main
  isr : s.inIsr = false → t.isr = s.isr
  stopped : t.thread.stopped = s.thread.stopped
  ctxs : CtxsWf s.ctxs → CtxsWf t.ctxs

theorem Local.refl (s : State) : Local s s :=
  ⟨rfl, rfl, rfl, rfl, rfl, rfl, rfl, fun _ => rfl, fun _ => rfl, rfl, id⟩

theorem Local.trans {s t u : State} (a : Local s t) (b : Local t u) : Local s u where
  cfg := b.cfg.trans a.cfg
  sha := b.sha.trans a.sha
  trng := b.trng.trans a.trng
  mem := b.mem.trans a.mem
  faults := b.faults.trans a.faults
  callbacks := b.callbacks.trans a.callbacks
  inIsr := b.inIsr.trans a.inIsr
  main h := (b.main (by rw [a.inIsr, h])).trans (a.main h)
  isr h := (b.isr (by rw [a.inIsr, h])).trans (a.isr h)
  stopped := b.stopped.trans a.stopped
  ctxs h := b.ctxs (a.ctxs h)

theorem Local.setThread (s : State) (x : Thread) (h : x.stopped = s.thread.stopped) : Local s (s.setThread x) where
  cfg := by simp
  sha := by simp
  trng := by simp
  mem := by simp
  faults := by simp
  callbacks := by simp
  inIsr := by simp
  main h := State.setThread_main_of_inIsr x h
  isr h := State.setThread_isr_of_not_inIsr x h
  stopped := by simpa using h
  ctxs h := by simpa using h

theorem Local.setVal (s : State) (v : Word64) : Local s (s.setVal v) := .setThread s _ rfl
theorem Local.setCode (s : State) (c : Code) : Local s (s.setCode c) := .setThread s _ rfl
theorem Local.setStack (s : State) (fs : List Frame) : Local s (s.setStack fs) := .setThread s _ rfl
theorem Local.push (s : State) (fs : List Frame) : Local s (s.push fs) := .setStack s _

theorem Local.drew (s : State) : Local s s.drew :=
  ⟨rfl, rfl, rfl, rfl, rfl, rfl, rfl, fun _ => rfl, fun _ => rfl, rfl, id⟩
theorem Local.setSlot (s : State) (p : Option Pending) : Local s (s.setSlot p) :=
  ⟨rfl, rfl, rfl, rfl, rfl, rfl, rfl, fun _ => rfl, fun _ => rfl, rfl, id⟩
theorem Local.setHandler (s : State) (r : Registration) : Local s (s.setHandler r) :=
  ⟨rfl, rfl, rfl, rfl, rfl, rfl, rfl, fun _ => rfl, fun _ => rfl, rfl, id⟩
theorem Local.setCtx (s : State) (c : Nat) (x : HashContext) : Local s (s.setCtx c x) :=
  ⟨rfl, rfl, rfl, rfl, rfl, rfl, rfl, fun _ => rfl, fun _ => rfl, rfl, fun h => ctxInsert_wf h c x⟩
theorem Local.setLife (s : State) (c : Nat) (l : Life) : Local s (s.setLife c l) := .setCtx s c _

theorem CallEffect.local {s t : State} (h : CallEffect s t) : Local s t := by
  cases h with
  | ret c => exact .setCode s c
  | begin fs => exact .push s fs
  | noop => exact .refl s
  | init c x => exact (Local.setCtx s c x).trans (.setCode _ _)

/-- What a waiting frame does is local (R32). -/
theorem onReturn_local {f : Frame} {s : State} {r : State × List Frame} (h : f.onReturn s = some r) : Local s r.1 := by
  cases f with
  | code ops => cases ops <;> cases h; exact .refl s
  | wrblk k ws => cases ws <;> cases h; exact .refl s
  | retCode c => cases h; exact .setCode s c
  | initPolled c alg e => cases h; exact .setCtx s c _
  | updateSubmitted c alg data len i =>
    cases h
    simp only [updateSubmittedNext]
    split
    · simp only [updateNext]; split
      · exact .refl s
      · exact (Local.setCtx s c _).trans (.setCode _ _)
    · exact .setLife s c _
  | submitWritten => cases h; exact .refl s
  | submitPolled =>
    cases h
    simp only [submitPolledNext]
    split
    · split
      · exact (Local.drew s).trans (.setCode _ _)
      · exact (Local.drew s).trans (.setCode _ _)
    · exact .setCode s _
  | finishSubmitted c alg out outlen bs =>
    cases h
    simp only [finishSubmittedNext]
    split
    · cases bs <;> exact .refl s
    · exact .setLife s c _
  | finishRead c alg outlen => cases h; exact .refl s
  | trngInitTrimmed => cases h; exact .refl s
  | trngInitStarted => cases h; exact .refl s
  | trngInitCleared c => cases h; exact .setCode s c
  | blockingPolled => cases h; exact .refl s
  | isrCleared cb =>
    cases h
    simp only [isrClearedNext]
    split <;> exact (Local.setSlot s none).trans (.setCode _ _)
  | _ => cases h

/-- What a procedure does after an access is local (R32). -/
theorem onAccess_local (v : Word64) (s : State) (f : Frame) : Local s (f.onAccess v s).1 := by
  cases f with
  | poll off mask val => simp only [Frame.onAccess]; split <;> exact .refl s
  | wrblk k ws => rcases ws with _ | ⟨a, _ | ⟨b, ws⟩⟩ <;> exact .refl s
  | initWrite alg => exact .setCode s _
  | updateLoad c alg data len i idx =>
    simp only [Frame.onAccess, updateLoaded]
    split
    · exact .setCtx s c _
    · simp only [updateNext]; split
      · exact .setCtx s c _
      · exact ((Local.setCtx s c _).trans (.setCtx _ c _)).trans (.setCode _ _)
  | finishCap c alg out outlen =>
    simp only [Frame.onAccess, finishCapLoaded]
    split
    · exact .setCode s _
    · generalize finalBlocks _ _ _ = bs
      cases bs <;> exact .refl s
  | finishLen c outlen n => exact (Local.setLife s c _).trans (.setCode _ _)
  | readWordStore alg out k n w => simp only [Frame.onAccess, readWordStored]; split <;> exact .refl s
  | readByteStore alg out len k n w b => simp only [Frame.onAccess, readByteStored]; split_ifs <;> exact .refl s
  | swLoad c alg data len i idx =>
    simp only [Frame.onAccess, swLoaded]
    split
    · exact .setCtx s c _
    · exact ((Local.setCtx s c _).trans (.setCtx _ c _)).trans (.setCode _ _)
  | swFinishCap c alg out outlen =>
    simp only [Frame.onAccess, swFinishCapLoaded]
    split
    · exact .setCode s _
    · exact .setCtx s c _
  | swFinishOut c alg out outlen j =>
    simp only [Frame.onAccess, swFinishStored]
    split <;> exact .refl s
  | trngInitRev =>
    simp only [Frame.onAccess, trngInitRevNext]
    split
    · exact .setCode s _
    · exact .refl s
  | trngInitStatus => simp only [Frame.onAccess, trngInitStatusNext]; split_ifs <;> exact .refl s
  | trngInitData => simp only [Frame.onAccess, trngInitDataNext]; split_ifs <;> exact .refl s
  | blockingRev =>
    simp only [Frame.onAccess, blockingRevNext]
    split
    · exact .setCode s _
    · exact .refl s
  | blockingData => exact .setCode s _
  | asyncRev dst cb =>
    simp only [Frame.onAccess, asyncRevNext]
    split_ifs
    · exact .setCode s _
    · exact .setCode s _
    · exact ((Local.drew s).trans (.setSlot _ _)).trans (.setHandler _ _)
    · exact ((Local.drew s).trans (.setSlot _ _)).trans (.setCode _ _)
  | _ => exact .refl s

/-- Settling is local. -/
theorem settle_local (fs : List Frame) (s : State) : Local s (settle fs s) := by
  induction fs generalizing s with
  | nil => exact .setStack s _
  | cons f fs ih =>
    simp only [settle]
    split
    · exact .setStack s _
    · next t h => exact (onReturn_local h).trans (ih t)
    · next t g gs h => exact (onReturn_local h).trans (.setStack _ _)

/-- The end of a step is local, but for the handler's return (R666). -/
theorem endStep_local (s : State) :
    Local s s.endStep ∨ ∃ t, Local s t ∧ t.inIsr = true ∧ s.endStep = t.leaveIsr := by
  unfold State.endStep
  split
  · exact .inl (.refl s)
  · simp only []
    split
    · next h =>
      simp only [Bool.and_eq_true] at h
      exact .inr ⟨_, settle_local _ _, h.1, rfl⟩
    · exact .inl (settle_local _ _)

/-! ### One step of a host agent -/

/-- What a host agent does to the rest of the machine in one step: a transaction or a call (R32), a load, a store, or
nothing. -/
inductive HostEffect (s : State) : State → Prop where
  | exec (i : Instr) (hk : i.kind ≠ .event) {t : State} (h : exec i s = .next t) : HostEffect s t
  | load (k : Nat) (b : Buf) (off : Nat) : HostEffect s (s.load k b off)
  | store (k : Nat) (b : Buf) (off : Nat) (v : Word64) : HostEffect s (s.store k b off v)
  | none : HostEffect s s

/-- A step's end: local work, and perhaps the handler's return. -/
def Ends (s t : State) : Prop := Local s t ∨ ∃ u, Local s u ∧ u.inIsr = true ∧ t = u.leaveIsr

theorem Ends.after {s t u : State} (a : Local s t) (b : Ends t u) : Ends s u := by
  rcases b with b | ⟨w, b, h, e⟩
  · exact .inl (a.trans b)
  · exact .inr ⟨w, a.trans b, h, e⟩

theorem endStep_ends (s : State) : Ends s s.endStep := endStep_local s

theorem afterAccess_ends (f : Frame) (fs : List Frame) (t : State) : Ends t (afterAccess f fs t) := by
  unfold afterAccess
  split
  · exact .inl (.refl t)
  · exact .after ((onAccess_local _ t f).trans (.setStack _ _)) (endStep_ends _)

theorem busInstr_kind (L : Layout) (n : Nat) (d : BitVec 16) (v : Word64) : (busInstr L n d v).kind = .bus := by
  unfold busInstr
  split <;> rfl

/-- A descriptor decodes to a bus row (R310). -/
theorem decodeTx_kind (L : Layout) (d : BitVec 16) (v : Word64) : (decodeTx L d v).kind = .bus :=
  busInstr_kind _ _ _ _

theorem onNext_next {o : Host.Outcome State Fault Refusal} {g : State → State} {t : State} (h : onNext o g = .next t) :
    ∃ u, o = .next u ∧ t = g u := by
  cases o <;> cases h
  exact ⟨_, rfl, rfl⟩

theorem perform_effect {a : Access} {s t : State} (h : perform a s = .next t) : HostEffect s t := by
  cases a with
  | bus d v => exact .exec _ (by rw [decodeTx_kind]; simp) h
  | load k a off => cases h; exact .load k a off
  | store k a off v => cases h; exact .store k a off v

/-- A step of a host agent said once: local work, one effect, the end of the step. -/
def HostStep (s t : State) : Prop := ∃ s0 t0, Local s s0 ∧ HostEffect s0 t0 ∧ Ends t0 t

theorem frameStep_effect {f : Frame} {fs : List Frame} {s t : State} (h : frameStep f fs s = .next t) :
    HostStep s t := by
  unfold frameStep at h
  split at h
  · obtain ⟨u, hu, rfl⟩ := onNext_next h
    exact ⟨s, u, .refl s, perform_effect hu, afterAccess_ends _ _ _⟩
  · cases h
    exact ⟨_, _, .setStack s _, .none, endStep_ends _⟩

theorem HostStep.after {s t u : State} (a : Local s t) (b : HostStep t u) : HostStep s u := by
  obtain ⟨s0, t0, l, e, h⟩ := b
  exact ⟨s0, t0, a.trans l, e, h⟩

theorem enterStep_effect {f : Frame} {fs : List Frame} {s t : State} (h : enterStep f fs s = .next t) : HostStep s t :=
  .after (.setStack s _) (frameStep_effect h)

theorem opStep_effect {op : HostOp} {ops : List HostOp} {fs : List Frame} {s t : State}
    (h : opStep op ops fs s = .next t) : HostStep s t := by
  cases op with
  | bus d v =>
    obtain ⟨u, hu, rfl⟩ := onNext_next h
    exact ⟨_, u, .setStack s _, .exec _ (by rw [decodeTx_kind]; simp) hu, endStep_ends _⟩
  | call i hk =>
    obtain ⟨u, hu, rfl⟩ := onNext_next h
    exact ⟨_, u, .setStack s _, .exec i (by rw [hk]; simp) hu, endStep_ends _⟩
  | memLd k a => cases h; exact ⟨_, _, .setStack s _, .load k _ 0, endStep_ends _⟩
  | memSt k a v => cases h; exact ⟨_, _, .setStack s _, .store k _ 0 v, endStep_ends _⟩
  | poll32 off mask val => exact enterStep_effect h
  | rmw32 off clr set => exact enterStep_effect h
  | wrblk bytes k => exact enterStep_effect h

theorem hostStep_effect {s t : State} (h : hostStep s = .next t) : HostStep s t := by
  unfold hostStep at h
  split at h
  · cases h
  · exact opStep_effect h
  · exact frameStep_effect h

/-! ### One step of the machine -/

/-- Everything `runStep` can do. -/
theorem runStep_cases {k : StepKind} {s t : State} (h : runStep k s = .next t) :
    (k.event = none ∧ HostStep s t) ∨ ∃ i, k.event = some i ∧ exec i s = .next t := by
  cases k with
  | hostMain => exact .inl ⟨rfl, hostStep_effect h⟩
  | hostIsr => exact .inl ⟨rfl, hostStep_effect h⟩
  | shaCompress => exact .inr ⟨_, rfl, h⟩
  | trngHtComplete => exact .inr ⟨_, rfl, h⟩
  | trngSample => exact .inr ⟨_, rfl, h⟩
  | irqDeliver => exact .inr ⟨_, rfl, h⟩

theorem State.chosen_eq (s : State) : s.chosen = s.withInputs s.chosen.inputs := rfl

/-- The step a machine takes is enabled, and none is taken exactly when none is enabled (R668). -/
theorem taken_ready {s : State} {k : StepKind} (h : taken s = some k) : ready s k = true := by
  unfold taken State.chooseStep at h
  have mem : ∀ e es, s.beginStep.enabledSteps = e :: es → ∀ n,
      s.beginStep.enabled ((e :: es).getD (n % (e :: es).length) e) = true := by
    intro e es he n
    have hlt : n % (e :: es).length < (e :: es).length := Nat.mod_lt _ (by simp)
    have : (e :: es).getD (n % (e :: es).length) e ∈ s.beginStep.enabledSteps := by
      rw [he, List.getD_eq_getElem _ _ hlt]; exact List.getElem_mem _
    exact (List.mem_filter.mp this).2
  split at h
  · cases h
  · next e es he =>
    split at h
    · next k' ks hs =>
      split at h
      · next hen => cases h; exact hen
      · cases h; exact mem e es he _
    · cases h; exact mem e es he _

theorem taken_none {s : State} : taken s = none ↔ ∀ k, ready s k = false := by
  constructor
  · intro h k
    have he : s.beginStep.enabledSteps = [] := by
      unfold taken State.chooseStep at h
      split at h
      · assumption
      · split at h
        · split at h <;> cases h
        · cases h
    have hk : k ∈ allSteps := by cases k <;> decide
    exact Bool.eq_false_iff.mpr (List.filter_eq_nil_iff.mp he k hk)
  · intro h
    cases ht : taken s with
    | none => rfl
    | some k => exact absurd (taken_ready ht) (by rw [h k]; simp)

/-- Everything a step of the machine can do: a chosen step, enabled, is taken (R668); or none is enabled and the machine
holds (R31). -/
theorem step_cases {s t : State} (h : step s = .next t) :
    (∃ k, taken s = some k ∧ ready s k = true ∧ runStep k s.chosen = .next t) ∨
      (taken s = none ∧ t = s.chosen) := by
  unfold step at h
  split at h
  · next hk => cases h; exact .inr ⟨hk, rfl⟩
  · next k hk => exact .inl ⟨k, hk, taken_ready hk, h⟩

/-- A host agent's step, a device's, or none, from a step of the machine. -/
theorem step_effect {s t : State} (h : step s = .next t) :
    (∃ k, taken s = some k ∧ ready s k = true ∧ k.event = none ∧ HostStep s.chosen t) ∨
      (∃ k i, taken s = some k ∧ ready s k = true ∧ k.event = some i ∧ exec i s.chosen = .next t) ∨
      (taken s = none ∧ t = s.chosen) := by
  rcases step_cases h with ⟨k, hk, hr, hs⟩ | hn
  · rcases runStep_cases hs with ⟨he, hh⟩ | ⟨i, he, hi⟩
    · exact .inl ⟨k, hk, hr, he, hh⟩
    · exact .inr (.inl ⟨k, i, hk, hr, he, hi⟩)
  · exact .inr (.inr hn)

end Sys2Proof.Machine
end

