-- ==== Sys2Proof/Laws/Access.lean ====
section
/-! SUPPORT. Laws/Access.lean: under a well-formed layout (R18, R212) each access a procedure makes is the transaction it
names (R31, R310), and the digest elements it reads are the words of the state (R120 to R122). -/

namespace Sys2Proof.Machine

theorem setWidth_setWidth_32 (v : Word32) : (v.setWidth 64).setWidth 32 = v := by
  apply BitVec.eq_of_toNat_eq
  simp only [BitVec.toNat_setWidth]
  have := v.isLt
  omega

/-! ### The transactions of the procedures -/

theorem perform_readShaSr {s : State} (h : s.cfg.Wf) :
    perform (Access.read32 s.cfg.layout.shaSr) s =
      .next (s.drew.setVal ((shaSrValue s.cfg s.sha s.drawn32).setWidth 64)) := by
  rw [Access.read32, perform, decodeTx_rd32ShaSr h.1, exec, execRd32ShaSr]

theorem perform_writeShaCr {s : State} (h : s.cfg.Wf) (v : Word32) :
    perform (Access.write32 s.cfg.layout.shaCr v) s = execWr32ShaCr v s := by
  rw [Access.write32, perform, decodeTx_wr32ShaCr h.1, setWidth_setWidth_32, exec]

theorem perform_writeFifo32 {s : State} (h : s.cfg.Wf) (v : Word32) :
    perform (Access.write32 s.cfg.layout.fifoIn v) s = .next (s.append (fifoBytes s.cfg.fifoOrder 4 v.toNat)) := by
  rw [Access.write32, perform, decodeTx_wr32FifoIn h.1, setWidth_setWidth_32, exec, execWr32FifoIn]

theorem perform_writeFifo64 {s : State} (h : s.cfg.Wf) (v : Word64) :
    perform (Access.write64 s.cfg.layout.fifoIn v) s = .next (s.append (fifoBytes s.cfg.fifoOrder 8 v.toNat)) := by
  rw [Access.write64, perform, decodeTx_wr64FifoIn h.1, exec, execWr64FifoIn]

theorem perform_readTrngRev {s : State} (h : s.cfg.Wf) :
    perform (Access.read32 s.cfg.layout.trngRev) s = .next (s.setVal (s.cfg.trngRev.setWidth 64)) := by
  rw [Access.read32, perform, decodeTx_rd32TrngRev h.1, exec, execRd32TrngRev]

theorem perform_readTrngCr {s : State} (h : s.cfg.Wf) (hp : s.trngPresent = true) :
    perform (Access.read32 s.cfg.layout.trngCr) s =
      .next (s.drew.setVal ((trngCrValue s.cfg s.trng s.drawn32).setWidth 64)) := by
  rw [Access.read32, perform, decodeTx_rd32TrngCr h.1, exec, execRd32TrngCr, State.ifTrng, if_pos hp]

theorem perform_writeTrngCr {s : State} (h : s.cfg.Wf) (v : Word32) :
    perform (Access.write32 s.cfg.layout.trngCr v) s = execWr32TrngCr v s := by
  rw [Access.write32, perform, decodeTx_wr32TrngCr h.1, setWidth_setWidth_32, exec]

theorem perform_readTrngSr {s : State} (h : s.cfg.Wf) (hp : s.trngPresent = true) :
    perform (Access.read32 s.cfg.layout.trngSr) s =
      .next (s.drew.setVal ((trngSrValue s.cfg s.trng s.drawn32).setWidth 64)) := by
  rw [Access.read32, perform, decodeTx_rd32TrngSr h.1, exec, execRd32TrngSr, State.ifTrng, if_pos hp]

theorem perform_readTrngTrim {s : State} (h : s.cfg.Wf) (hp : s.trngPresent = true) :
    perform (Access.read32 s.cfg.layout.trngTrim) s =
      .next (s.setVal ((trngTrimValue s.cfg s.trng).setWidth 64)) := by
  rw [Access.read32, perform, decodeTx_rd32TrngTrim h.1, exec, execRd32TrngTrim, State.ifTrng, if_pos hp]

theorem perform_writeTrngTrim {s : State} (h : s.cfg.Wf) (hp : s.trngPresent = true) (v : Word32) :
    perform (Access.write32 s.cfg.layout.trngTrim v) s =
      .next (s.setTrng (s.trng.writeTrim (trimVal s.cfg v) (trimLock s.cfg v))) := by
  rw [Access.write32, perform, decodeTx_wr32TrngTrim h.1, setWidth_setWidth_32, exec, execWr32TrngTrim, State.ifTrng,
    if_pos hp]

theorem perform_readTrngData {s : State} (h : s.cfg.Wf) :
    perform (Access.read32 s.cfg.layout.trngData) s = execRd32TrngData s := by
  rw [Access.read32, perform, decodeTx_rd32TrngData h.1, exec]

/-! ### The digest elements (R120 to R122) -/

theorem elemPos_lt {c : Config} {a : Alg} {i p : Nat} (h : elemPos c a i = some p) : p < 8 ∧ i < 8 := by
  have : a.elems ≤ 8 := by cases a <;> decide
  unfold elemPos at h
  split at h <;> split at h <;> first | (cases h; omega) | cases h

/-- The words that have an element include the words of the digest (R14, R120). -/
theorem elemPos_of_lt (c : Config) {a : Alg} {i : Nat} (h : i < a.elems) : ∃ p, elemPos c a i = some p := by
  have : a.elems ≤ 8 := by cases a <;> decide
  unfold elemPos
  split
  · exact ⟨_, if_pos (by omega)⟩
  · exact ⟨_, if_pos h⟩

/-- The element of a word holds that word (R120). -/
theorem wordAt_of_elemPos {c : Config} {a : Alg} {i p : Nat} (h : elemPos c a i = some p) : wordAt c a p = some i := by
  have hi := (elemPos_lt h).2
  unfold wordAt elemPos at *
  generalize c.hashAlign = al at h ⊢
  cases al <;> cases a <;> interval_cases i <;> simp [Alg.elems, Alg.digestBytes, Alg.wordBytes] at h <;>
    subst h <;> rfl

/-- A word the span holds at an element is the word of that element (R120). -/
theorem elemPos_of_wordAt {c : Config} {a : Alg} {i p : Nat} (h : wordAt c a p = some i) : elemPos c a i = some p := by
  have := List.find?_some h
  simpa using this

/-- A digest element read by a procedure while the unit is idle is its state word, and takes no draw (R121, R122, R477). -/
theorem perform_readElem {s : State} (h : s.cfg.Wf) {a : Alg} (hb : s.sha.busy = false) (hm : s.sha.modeEff = some a)
    {i : Nat} (hi : i < a.elems) :
    ∃ v : Word64, perform (readElem s.cfg a i) s = .next (s.setVal v) ∧
      v = (if a.wordBytes = 4 then ((s.sha.h.getD i 0).setWidth 32).setWidth 64 else s.sha.h.getD i 0) := by
  obtain ⟨p, hp⟩ := elemPos_of_lt s.cfg hi
  obtain ⟨hp8, hi8⟩ := elemPos_lt hp
  have hw := wordAt_of_elemPos hp
  refine ⟨_, ?_, rfl⟩
  by_cases h4 : a.wordBytes = 4
  · have hd := decodeTx_rd32Hash h.1 ⟨p, by omega⟩ 0
    have e : elemOffset s.cfg a i = s.cfg.layout.hash + BitVec.ofNat 12 (4 * p) := by
      rw [elemOffset, hp, h4]; rfl
    have hv : slotValue s.cfg s.sha p = some ((s.sha.h.getD i 0).setWidth 32) := by
      simp [slotValue, hb, hm, h4, hw]
    rw [readElem, if_pos h4, Access.read32, e, perform]
    rw [show ((⟨p, by omega⟩ : Fin 16) : Nat) = p from rfl] at hd
    rw [hd, exec, execRd32Hash, State.slotAfter, State.slotRead]
    simp [hv, h4]
  · have h8 : a.wordBytes = 8 := by cases a <;> simp_all [Alg.wordBytes]
    have hd := decodeTx_rd64Hash h.1 ⟨p, by omega⟩ 0
    have e : elemOffset s.cfg a i = s.cfg.layout.hash + BitVec.ofNat 12 (8 * p) := by
      rw [elemOffset, hp, h8]; rfl
    have hlo : slotValue s.cfg s.sha (2 * p) = some ((s.sha.h.getD i 0).setWidth 32) := by
      have : 2 * p / 2 = p := by omega
      simp [slotValue, hb, hm, h4, this, hw]
    have hhi : slotValue s.cfg s.sha (2 * p + 1) = some ((s.sha.h.getD i 0 >>> 32).setWidth 32) := by
      have h1 : (2 * p + 1) / 2 = p := by omega
      have h2 : (2 * p + 1) % 2 = 1 := by omega
      simp [slotValue, hb, hm, h4, h1, hw]
    rw [readElem, if_neg h4, Access.read64, e, perform]
    rw [show ((⟨p, by omega⟩ : Fin 8) : Nat) = p from rfl] at hd
    rw [hd, exec, execRd64Hash]
    simp only [State.slotAfter, State.slotRead, hlo, hhi, Option.isSome_some, if_true, Option.getD_some, if_neg h4]
    congr 2
    generalize s.sha.h.getD i 0 = x
    apply BitVec.eq_of_getLsbD_eq
    intro j hj
    simp only [BitVec.getLsbD_or, BitVec.getLsbD_setWidth, BitVec.getLsbD_shiftLeft, BitVec.getLsbD_ushiftRight]
    by_cases hj' : j < 32
    · simp [hj', hj]
    · have e : 32 + (j - 32) = j := by omega
      have e2 : j - 32 < 32 := by omega
      have e3 : j - 32 < 64 := by omega
      simp [hj', hj, e, e2, e3]

end Sys2Proof.Machine
end

