-- ==== Sys2Proof/Laws/Run.lean ====
section
/-! SUPPORT. Laws/Run.lean: how a host agent goes through the frames of a procedure: one step performs the innermost frame's
access and either leaves frames that wait for the next step, or ends a frame and resumes what is below it. Runs of a
schedule compose. -/

namespace Sys2Proof.Machine

/-! ### Schedules -/

theorem runSchedule_append (ks ls : List StepKind) (s : State) :
    runSchedule (ks ++ ls) s =
      match runSchedule ks s with
      | .next t => runSchedule ls t
      | .fault r => .fault r
      | .refused r => .refused r := by
  induction ks generalizing s with
  | nil => rfl
  | cons k ks ih =>
    simp only [List.cons_append, runSchedule]
    cases runStep k s with
    | next t => exact ih t
    | fault r => rfl
    | refused r => rfl

/-- Two runs, one after the other. -/
theorem runSchedule_trans {ks ls : List StepKind} {s t u : State} (a : runSchedule ks s = .next t)
    (b : runSchedule ls t = .next u) : runSchedule (ks ++ ls) s = .next u := by
  rw [runSchedule_append, a]; exact b

/-- A step, then a run. -/
theorem runSchedule_cons {k : StepKind} {ks : List StepKind} {s t u : State} (a : runStep k s = .next t)
    (b : runSchedule ks t = .next u) : runSchedule (k :: ks) s = .next u := by
  simp only [runSchedule, a]; exact b

theorem runSchedule_one {k : StepKind} {s t : State} (a : runStep k s = .next t) : runSchedule [k] s = .next t :=
  runSchedule_cons a rfl

/-- A step kind is a host agent's. -/
theorem runStep_host {k : StepKind} (h : k.event = none) (s : State) : runStep k s = hostStep s := by
  cases k <;> first | rfl | cases h

@[simp] theorem hostKind_event (s : State) : s.hostKind.event = none := by
  unfold State.hostKind; split <;> rfl

/-! ### The end of a step -/

@[simp] theorem State.setStack_self (s : State) : s.setStack s.thread.stack = s := by
  rw [State.setStack]; exact State.setThread_thread_self s

theorem stack_isEmpty_of_inIsr {s : State} (h : s.inIsr = true) : s.isr.stack = s.thread.stack := by
  simp [State.thread, h]

/-- A waiting frame does the same whatever its agent is said to be inside. -/
theorem onReturn_setStack (f : Frame) (gs : List Frame) (s : State) :
    f.onReturn (s.setStack gs) = (f.onReturn s).map fun r => (r.1.setStack gs, r.2) := by
  cases f with
  | code ops => cases ops <;> rfl
  | wrblk k ws => cases ws <;> rfl
  | retCode c => simp [Frame.onReturn, State.ends]
  | initPolled c alg e => simp [Frame.onReturn, initPolledNext]
  | updateSubmitted c alg data len i =>
    simp only [Frame.onReturn, updateSubmittedNext, updateNext, State.setLife, State.setStack_thread, State.setStack_ctx,
      State.setStack_setCtx, State.ends, State.setStack_setCode, Option.map_some]
    split
    · split <;> rfl
    · rfl
  | submitWritten => simp [Frame.onReturn, submitWrittenNext]
  | submitPolled =>
    simp only [Frame.onReturn, submitPolledNext, State.ends, State.setStack_cfg, State.setStack_drawn,
      State.setStack_drew, State.setStack_setCode, Option.map_some]
    split
    · split <;> rfl
    · rfl
  | finishSubmitted c alg out outlen bs =>
    simp only [Frame.onReturn, finishSubmittedNext, State.setLife, State.setStack_thread, State.setStack_ctx,
      State.setStack_setCtx, Option.map_some]
    split
    · cases bs <;> simp [finishNext]
    · rfl
  | finishRead c alg outlen => rfl
  | trngInitTrimmed => simp [Frame.onReturn, trngInitTrimmedNext]
  | trngInitStarted => rfl
  | trngInitCleared c => simp [Frame.onReturn, State.ends]
  | blockingPolled => rfl
  | isrCleared cb =>
    simp only [Frame.onReturn, isrClearedNext, State.setStack_callbacks, State.setStack_setSlot, State.setStack_setCode,
      Option.map_some]
    split <;> rfl
  | _ => rfl

theorem settle_setStack (fs gs : List Frame) (s : State) : settle fs (s.setStack gs) = settle fs s := by
  induction fs generalizing s with
  | nil => simp [settle]
  | cons f fs ih =>
    simp only [settle, onReturn_setStack]
    cases f.onReturn s with
    | none => simp
    | some r =>
      obtain ⟨t, _ | ⟨g, gs'⟩⟩ := r
      · exact ih t
      · simp

theorem endStep_eq_settle {s : State} (ns : s.thread.stopped = false) {t : State} (h : settle s.thread.stack s = t)
    (ne : t.inIsr = true → t.isr.stack ≠ []) : s.endStep = t := by
  unfold State.endStep
  simp only [ns, h, Bool.false_eq_true, if_false]
  by_cases hi : t.inIsr = true
  · have : t.isr.stack.isEmpty = false := by simpa using ne hi
    simp [hi, this]
  · simp [hi]

/-- Frames of which the first waits for the next step stay as they are. -/
theorem resume_wait {s : State} {f : Frame} {fs : List Frame} (ns : s.thread.stopped = false)
    (h : f.onReturn s = none) : s.resume (f :: fs) = s.setStack (f :: fs) := by
  refine endStep_eq_settle (by simpa using ns) ?_ ?_
  · simp only [State.setStack_thread, settle_setStack, settle, h]
  · intro hi
    rw [stack_isEmpty_of_inIsr hi]; simp

/-- A waiting frame on top goes on, and leaves frames that wait for the next step. -/
theorem resume_go {s t : State} {f g : Frame} {fs gs : List Frame} (ns : s.thread.stopped = false)
    (h : f.onReturn s = some (t, g :: gs)) : s.resume (f :: fs) = t.setStack (g :: gs ++ fs) := by
  refine endStep_eq_settle (by simpa using ns) ?_ ?_
  · simp only [State.setStack_thread, settle_setStack, settle, h]
  · intro hi
    rw [stack_isEmpty_of_inIsr hi]; simp

/-- A waiting frame on top ends, and what is below it is resumed. -/
theorem resume_pop {s t : State} {f : Frame} {fs : List Frame} (ns : s.thread.stopped = false)
    (h : f.onReturn s = some (t, [])) : s.resume (f :: fs) = t.resume fs := by
  have l := onReturn_local h
  unfold State.resume State.endStep
  simp only [State.setStack_thread, ns, l.stopped.trans ns, Bool.false_eq_true, if_false, settle_setStack]
  have : settle (f :: fs) s = settle fs t := by simp [settle, h]
  rw [this]

/-! ### One step inside a procedure -/

theorem hostStep_frame {s : State} {f : Frame} {fs : List Frame} (hs : s.thread.stack = f :: fs) {a : Access}
    (ha : f.access s = some a) : hostStep s = frameStep f fs s := by
  unfold hostStep
  rw [hs]
  cases f <;> first | rfl | (cases ha)

/-- One step: the innermost frame's access, then what replaces the frame. -/
theorem hostStep_access {s t : State} {f : Frame} {fs : List Frame} {a : Access} (hs : s.thread.stack = f :: fs)
    (ha : f.access s = some a) (hp : perform a s = .next t) (ns : t.thread.stopped = false) :
    hostStep s = .next ((f.onAccess t.thread.val t).1.resume ((f.onAccess t.thread.val t).2 ++ fs)) := by
  rw [hostStep_frame hs ha]
  simp only [frameStep, ha, hp, onNext, afterAccess, ns, Bool.false_eq_true, if_false]
  rfl

/-- One step that leaves frames which wait for the next. -/
theorem hostStep_more {s t u : State} {f g : Frame} {fs gs : List Frame} {a : Access} (hs : s.thread.stack = f :: fs)
    (ha : f.access s = some a) (hp : perform a s = .next t) (ns : t.thread.stopped = false)
    (ho : f.onAccess t.thread.val t = (u, g :: gs)) (hw : g.onReturn u = none) :
    hostStep s = .next (u.setStack (g :: gs ++ fs)) := by
  have l := onAccess_local t.thread.val t f
  rw [ho] at l
  rw [hostStep_access hs ha hp ns, ho]
  exact congrArg _ (resume_wait (l.stopped.trans ns) hw)

/-- One step that ends the innermost frame. -/
theorem hostStep_done {s t u : State} {f : Frame} {fs : List Frame} {a : Access} (hs : s.thread.stack = f :: fs)
    (ha : f.access s = some a) (hp : perform a s = .next t) (ns : t.thread.stopped = false)
    (ho : f.onAccess t.thread.val t = (u, [])) : hostStep s = .next (u.resume fs) := by
  rw [hostStep_access hs ha hp ns, ho]; rfl

/-- A word loaded from the start of its buffer. -/
theorem perform_load {s : State} {k : Nat} {b : Buf} {bs : List Byte} (h : s.bufReads b 0 k = some bs) :
    perform (.load k b 0) s = .next (s.setVal (BitVec.ofNat 64 (leVal bs))) := by
  rw [perform, State.load_of_some h]

theorem perform_store {s : State} {k : Nat} {b : Buf} {off n : Nat} {v : Word64} (h : (s.bufReads b 0 n).isSome)
    (hk : off + k ≤ n) :
    perform (.store k b off v) s = .next (s.setMem (memWrites s.mem (b.addr + off) (leBytes k v.toNat))) := by
  rw [perform, State.store_of_isSome h hk]

/-- One byte stored. -/
theorem perform_store_byte {s : State} {a : Buf} {off n : Nat} {b : Byte} (h : (s.bufReads a 0 n).isSome)
    (hk : off < n) : perform (.store 1 a off (b.setWidth 64)) s = .next (s.setMem (memWrite s.mem (a.addr + off) b)) := by
  rw [perform_store h (by omega)]
  have : BitVec.ofNat 8 (b.setWidth 64).toNat = b := by
    apply BitVec.eq_of_toNat_eq
    have := b.isLt
    rw [BitVec.toNat_ofNat, BitVec.toNat_setWidth]
    omega
  simp only [leBytes, memWrites, this]

theorem byte_of_setWidth (b : Byte) : (b.setWidth 64).setWidth 8 = b := by
  apply BitVec.eq_of_toNat_eq
  have := b.isLt
  simp only [BitVec.toNat_setWidth]
  omega

/-- One byte loaded. -/
theorem perform_load_byte {s : State} {a : Buf} {n i : Nat} {all rest : List Byte} {b : Byte}
    (h : s.bufReads a 0 n = some all) (hd : all.drop i = b :: rest) : perform (.load 1 a i) s = .next (s.setVal (b.setWidth 64)) := by
  rw [perform, State.load_byte h hd]

/-- The byte at a place of a list, and what is after it. -/
theorem drop_eq_cons {α : Type} {bs : List α} {i : Nat} (h : i < bs.length) : bs.drop i = bs[i] :: bs.drop (i + 1) :=
  List.drop_eq_getElem_cons h

end Sys2Proof.Machine
end

