-- ==== Sys2Proof/Laws/Stream.lean ====
section
/-! SUPPORT. Laws/Stream.lean: cutting a message into blocks as it arrives in pieces (R432, R472, R502): the blocks and the
tail depend on the concatenation alone (R504). -/

namespace Sys2Proof.Machine

theorem fullBlocks_add (b n k : Nat) (m : List Byte) :
    fullBlocks b (n + k) m = fullBlocks b n m ++ fullBlocks b k (m.drop (n * b)) := by
  induction n generalizing m with
  | zero => simp [fullBlocks]
  | succ n ih =>
    rw [Nat.add_right_comm, fullBlocks, ih, fullBlocks, List.drop_drop, List.cons_append]
    congr 4
    rw [Nat.succ_mul]; omega

theorem fullBlocks_of_prefix (b n : Nat) (m t : List Byte) (h : n * b ≤ m.length) :
    fullBlocks b n (m ++ t) = fullBlocks b n m := by
  induction n generalizing m with
  | zero => rfl
  | succ n ih =>
    rw [Nat.succ_mul] at h
    rw [fullBlocks, fullBlocks, List.take_append_of_le_length (by omega), List.drop_append_of_le_length (by omega),
      ih _ (by rw [List.length_drop]; omega)]

theorem tailOf_length (alg : Alg) (m : List Byte) : (tailOf alg m).length = m.length % alg.blockBytes := by
  rw [tailOf, List.length_drop]
  have := Nat.div_add_mod m.length alg.blockBytes
  rw [Nat.mul_comm] at this
  omega

theorem tailOf_length_lt (alg : Alg) (m : List Byte) : (tailOf alg m).length < alg.blockBytes := by
  rw [tailOf_length]; exact Nat.mod_lt _ (blockBytes_pos alg)

/-- The number of full blocks when more bytes arrive. -/
theorem blocks_append (alg : Alg) (m bs : List Byte) :
    (m ++ bs).length / alg.blockBytes =
      m.length / alg.blockBytes + (tailOf alg m ++ bs).length / alg.blockBytes := by
  have h := blockBytes_pos alg
  simp only [List.length_append, tailOf_length]
  have e : m.length + bs.length =
      alg.blockBytes * (m.length / alg.blockBytes) + (m.length % alg.blockBytes + bs.length) := by
    have := Nat.div_add_mod m.length alg.blockBytes
    omega
  rw [e, Nat.mul_add_div h]

theorem blocksOf_append (alg : Alg) (m bs : List Byte) :
    blocksOf alg (m ++ bs) = blocksOf alg m ++ blocksOf alg (tailOf alg m ++ bs) := by
  have hle : m.length / alg.blockBytes * alg.blockBytes ≤ m.length := Nat.div_mul_le_self _ _
  rw [blocksOf, blocks_append, fullBlocks_add, fullBlocks_of_prefix _ _ _ _ hle,
    List.drop_append_of_le_length hle]
  rfl

theorem tailOf_append (alg : Alg) (m bs : List Byte) :
    tailOf alg (m ++ bs) = tailOf alg (tailOf alg m ++ bs) := by
  have hle : m.length / alg.blockBytes * alg.blockBytes ≤ m.length := Nat.div_mul_le_self _ _
  rw [tailOf, blocks_append, Nat.add_mul, ← List.drop_drop, List.drop_append_of_le_length hle]
  rfl

theorem blocksOf_of_lt {alg : Alg} {m : List Byte} (h : m.length < alg.blockBytes) : blocksOf alg m = [] := by
  rw [blocksOf, Nat.div_eq_of_lt h]; rfl

theorem tailOf_of_lt {alg : Alg} {m : List Byte} (h : m.length < alg.blockBytes) : tailOf alg m = m := by
  rw [tailOf, Nat.div_eq_of_lt h]; simp

theorem blocksOf_nil (alg : Alg) : blocksOf alg [] = [] := blocksOf_of_lt (by simpa using blockBytes_pos alg)

theorem tailOf_nil (alg : Alg) : tailOf alg [] = [] := tailOf_of_lt (by simpa using blockBytes_pos alg)

/-- A block that is complete, and what comes after it. -/
theorem blocksOf_block {alg : Alg} {b : List Byte} (h : b.length = alg.blockBytes) (bs : List Byte) :
    blocksOf alg (b ++ bs) = b :: blocksOf alg bs := by
  have hp := blockBytes_pos alg
  have hd : b.length / alg.blockBytes = 1 := by rw [h, Nat.div_self hp]
  have h1 : blocksOf alg b = [b] := by
    rw [blocksOf, hd]
    simp only [fullBlocks]
    rw [List.take_of_length_le (by omega)]
  have h2 : tailOf alg b = [] := by
    rw [tailOf, hd]
    exact List.drop_eq_nil_of_le (by omega)
  rw [blocksOf_append, h1, h2]; rfl

theorem tailOf_block {alg : Alg} {b : List Byte} (h : b.length = alg.blockBytes) (bs : List Byte) :
    tailOf alg (b ++ bs) = tailOf alg bs := by
  have hp := blockBytes_pos alg
  have hd : b.length / alg.blockBytes = 1 := by rw [h, Nat.div_self hp]
  have h2 : tailOf alg b = [] := by
    rw [tailOf, hd]
    exact List.drop_eq_nil_of_le (by omega)
  rw [tailOf_append, h2]; rfl

/-- The digest of a message from the state after its full blocks (R432). -/
theorem sha_eq (alg : Alg) (m : List Byte) :
    sha alg m = digest alg ((finalBlocks alg (tailOf alg m) (BitVec.ofNat 64 (8 * m.length))).foldl (compress alg)
      (stateAfter alg m)) := by
  rw [sha, stateAfter, ← List.foldl_append]; rfl

/-! ### Contexts -/

@[simp] theorem bufTake_length (x : HashContext) {n : Nat} (h : n ≤ 128) : (x.bufTake n).length = n := by
  simp [HashContext.bufTake, h]

theorem idx_lt (x : HashContext) (alg : Alg) : x.idx alg < alg.blockBytes := Nat.mod_lt _ (blockBytes_pos alg)

@[simp] theorem buffered_length (alg : Alg) (x : HashContext) : (buffered alg x).length = x.idx alg := by
  have h1 := idx_lt x alg
  have h2 := blockBytes_le alg
  exact bufTake_length x (by omega)

/-- The buffer after one more byte. -/
theorem bufTake_setBuf (x : HashContext) {idx : Nat} (h : idx < 128) (b : Byte) :
    (x.setBuf idx b).bufTake (idx + 1) = x.bufTake idx ++ [b] := by
  apply List.ext_getElem
  · rw [bufTake_length _ (by omega), List.length_append, bufTake_length _ (by omega)]; rfl
  · intro j h1 h2
    rw [bufTake_length _ (by omega)] at h1
    simp only [HashContext.bufTake, HashContext.setBuf, List.getElem_take, Vector.getElem_toList]
    rw [Vector.getElem_setIfInBounds]
    by_cases hj : idx = j
    · subst hj
      rw [if_pos rfl, List.getElem_append_right (by simp)]
      simp
    · rw [if_neg hj, List.getElem_append_left (by simp; omega)]
      simp

/-- `idx` of a context whose counter is that of a message (R142), also once the counter has wrapped (R16). -/
theorem idx_of_bitlen {x : HashContext} {n : Nat} (h : x.bitlen = BitVec.ofNat 64 (8 * n)) (alg : Alg) :
    x.idx alg = n % alg.blockBytes := by
  rw [HashContext.idx, h, BitVec.toNat_ofNat]
  have e : 8 * n % 2 ^ 64 = 8 * (n % 2 ^ 61) := by omega
  rw [e, Nat.mul_div_cancel_left _ (by norm_num)]
  cases alg <;> simp only [Alg.blockBytes] <;> omega

theorem buffered_of_holds {alg : Alg} {x : HashContext} {m : List Byte} (h : HoldsMessage alg x m) :
    buffered alg x = tailOf alg m := by
  rw [buffered, idx_of_bitlen h.2.2.1, ← tailOf_length]
  exact h.2.2.2

/-- An update with a chunk leaves the context of the longer message (R504). -/
theorem holds_append {alg : Alg} {x y : HashContext} {m bs : List Byte} (h : HoldsMessage alg x m)
    (b : Buffers alg x bs y) : HoldsMessage alg y (m ++ bs) := by
  obtain ⟨h1, h2, h3, h4, h5⟩ := b
  rw [buffered_of_holds h, ← tailOf_append] at h5
  refine ⟨h1.trans h.1, h3.trans h.2.1, ?_, h5⟩
  rw [h4, h.2.2.1, List.length_append, Nat.mul_add, BitVec.ofNat_add]

theorem stateAfter_append (alg : Alg) (m bs : List Byte) :
    (blocksOf alg (tailOf alg m ++ bs)).foldl (compress alg) (stateAfter alg m) = stateAfter alg (m ++ bs) := by
  simp only [stateAfter]
  rw [blocksOf_append alg m bs, List.foldl_append]

/-- Absorbing bytes one at a time (R502). -/
def absorbList (alg : Alg) : Nat → List Byte → HashContext → HashContext
  | _, [], x => x
  | idx, b :: bs, x => absorbList alg (nextIdx alg idx) bs (x.absorb alg idx b)

/-- Absorbing bytes one at a time compresses the full blocks and buffers the tail. -/
theorem absorbList_spec (alg : Alg) (bs : List Byte) (x : HashContext) (p : List Byte) (hp : p.length < alg.blockBytes)
    (hx : x.bufTake p.length = p) :
    (absorbList alg p.length bs x).alg = x.alg ∧ (absorbList alg p.length bs x).endian = x.endian ∧
      (absorbList alg p.length bs x).life = x.life ∧ (absorbList alg p.length bs x).bitlen = x.bitlen ∧
      (absorbList alg p.length bs x).acc = (blocksOf alg (p ++ bs)).foldl (compress alg) x.acc ∧
      (absorbList alg p.length bs x).bufTake (tailOf alg (p ++ bs)).length = tailOf alg (p ++ bs) := by
  induction bs generalizing x p with
  | nil =>
    simp only [absorbList, List.append_nil, blocksOf_of_lt hp, tailOf_of_lt hp, List.foldl_nil]
    exact ⟨trivial, trivial, trivial, trivial, trivial, hx⟩
  | cons b bs ih =>
    have h128 := blockBytes_le alg
    have hb : (x.setBuf p.length b).bufTake (p.length + 1) = p ++ [b] := by
      rw [bufTake_setBuf x (by omega), hx]
    have ea : p ++ b :: bs = (p ++ [b]) ++ bs := by simp
    simp only [absorbList]
    by_cases hf : p.length + 1 = alg.blockBytes
    · have hn : nextIdx alg p.length = ([] : List Byte).length := by simp [nextIdx, hf]
      have hl : (p ++ [b]).length = alg.blockBytes := by simpa using hf
      rw [hn, ea, blocksOf_block hl, tailOf_block hl]
      have := ih (x.absorb alg p.length b) [] (blockBytes_pos alg) rfl
      rw [List.nil_append] at this
      refine ⟨this.1.trans ?_, this.2.1.trans ?_, this.2.2.1.trans ?_, this.2.2.2.1.trans ?_, ?_, this.2.2.2.2.2⟩
      · simp [HashContext.absorb, hf]; rfl
      · simp [HashContext.absorb, hf]; rfl
      · simp [HashContext.absorb, hf]; rfl
      · simp [HashContext.absorb, hf]; rfl
      · rw [this.2.2.2.2.1, List.foldl_cons]
        congr 1
        simp only [HashContext.absorb, hf, if_true]
        rw [← hf, hb]
        rfl
    · have hn : nextIdx alg p.length = (p ++ [b]).length := by simp [nextIdx, hf]
      have hl : (p ++ [b]).length < alg.blockBytes := by simp; omega
      rw [hn, ea]
      have e : x.absorb alg p.length b = x.setBuf p.length b := by simp [HashContext.absorb, hf]
      have := ih (x.absorb alg p.length b) (p ++ [b]) hl (by rw [e, List.length_append, ← hb]; rfl)
      rw [e] at this ⊢
      exact this

/-- What the software engine's update leaves of a context (R502). -/
theorem absorbList_buffers (alg : Alg) (bs : List Byte) (x : HashContext) :
    Buffers alg x bs ((absorbList alg (x.idx alg) bs x).addLen bs.length) ∧
      ((absorbList alg (x.idx alg) bs x).addLen bs.length).acc =
        (blocksOf alg (buffered alg x ++ bs)).foldl (compress alg) x.acc := by
  have hb : x.bufTake (buffered alg x).length = buffered alg x := by rw [buffered_length]; rfl
  have := absorbList_spec alg bs x (buffered alg x) (by rw [buffered_length]; exact idx_lt x alg) hb
  rw [buffered_length] at this
  obtain ⟨h1, h2, h3, h4, h5, h6⟩ := this
  exact ⟨⟨h1, h2, h3, by simp [HashContext.addLen, h4], h6⟩, h5⟩

end Sys2Proof.Machine
end

