-- ==== Sys2Proof/Laws/HwRun.lean ====
section
/-! SUPPORT. Laws/HwRun.lean: the hardware engine's procedures from call to return (R471 to R483), the compressions of the
SHA unit among their agent's steps: which steps happen and the state they end in. -/

namespace Sys2Proof.Machine

/-! ### Draws -/

theorem drewN_eq (s : State) (n : Nat) : s.drewN n = s.withInputs (s.drewN n).inputs := by
  induction n with
  | zero => rfl
  | succ n ih =>
    have : (s.drewN n).drew = (s.drewN n).withInputs (s.drewN n).drew.inputs := rfl
    rw [State.drewN, this, ih]; rfl

theorem drewN_drewN (s : State) (n m : Nat) : (s.drewN n).drewN m = s.drewN (n + m) := by
  induction m with
  | zero => rfl
  | succ m ih => rw [State.drewN, ih]; rfl

/-- The n-th draw from now: the environment's, or the opaque constant's. -/
theorem drewN_drawn (s : State) (n : Nat) :
    (s.drewN n).drawn = s.inputs.draws.getD n (Config.freeDraw (s.inputs.count + n)) := by
  have h : ∀ n, (s.drewN n).inputs.draws = s.inputs.draws.drop n ∧ (s.drewN n).inputs.count = s.inputs.count + n := by
    intro n
    induction n with
    | zero => simp [State.drewN]
    | succ n ih =>
      simp only [State.drewN, State.drew, ih.1, ih.2]
      exact ⟨by rw [List.tail_drop], by omega⟩
  rw [State.drawn, (h n).1, (h n).2]
  simp [List.headD_eq_head?_getD, List.getD_eq_getElem?_getD]

/-- Draws depend on the inputs alone. -/
theorem drewN_drawn_of_inputs {s t : State} (h : s.inputs = t.inputs) (n : Nat) :
    (s.drewN n).drawn = (t.drewN n).drawn := by rw [drewN_drawn, drewN_drawn, h]

theorem drawn_of_inputs {s t : State} (h : s.inputs = t.inputs) : s.drawn = t.drawn := by
  rw [State.drawn, h]; rfl

theorem drew_inputs_of_inputs {s t : State} (h : s.inputs = t.inputs) : s.drew.inputs = t.drew.inputs := by
  simp only [State.drew, h]

theorem drewN_inputs_of_inputs {s t : State} (h : s.inputs = t.inputs) (n : Nat) :
    (s.drewN n).inputs = (t.drewN n).inputs := by
  induction n with
  | zero => exact h
  | succ n ih => exact drew_inputs_of_inputs ih

/-! ### Polling BUSY -/

/-- One iteration of the poll for BUSY = 0 while the unit is idle: the poll ends (R315, R453). -/
theorem hostStep_pollIdle {s : State} {fs : List Frame} (hw : s.cfg.Wf)
    (hs : s.thread.stack = .poll s.cfg.layout.shaSr (bitMask s.cfg.layout.busyBit) 0 :: fs)
    (ns : s.thread.stopped = false) (hb : s.sha.busy = false) :
    ∃ v, hostStep s = .next ((s.drew.setVal v).resume fs) := by
  refine ⟨(shaSrValue s.cfg s.sha s.drawn32).setWidth 64,
    hostStep_done (u := s.drew.setVal ((shaSrValue s.cfg s.sha s.drawn32).setWidth 64)) hs rfl (perform_readShaSr hw)
      (by simpa using ns) ?_⟩
  have h1 : shaSrValue s.cfg s.sha s.drawn32 &&& bitMask s.cfg.layout.busyBit = 0 := by
    rw [and_bitMask_eq_zero hw.2.1.2.1, busy_shaSrValue hw, hb]
  simp only [Frame.onAccess, State.setVal_thread, setWidth_setWidth_32, h1, if_true]

/-- One iteration while a block is pending: the poll goes on (R315, R453). -/
theorem hostStep_pollBusy {s : State} {fs : List Frame} (hw : s.cfg.Wf)
    (hs : s.thread.stack = .poll s.cfg.layout.shaSr (bitMask s.cfg.layout.busyBit) 0 :: fs)
    (ns : s.thread.stopped = false) (hb : s.sha.busy = true) :
    ∃ v, hostStep s = .next (s.drew.setVal v) := by
  have h1 : ¬ shaSrValue s.cfg s.sha s.drawn32 &&& bitMask s.cfg.layout.busyBit = 0 := by
    rw [and_bitMask_eq_zero hw.2.1.2.1, busy_shaSrValue hw, hb]; simp
  refine ⟨((shaSrValue s.cfg s.sha s.drawn32).setWidth 64), ?_⟩
  rw [hostStep_more (u := s.drew.setVal ((shaSrValue s.cfg s.sha s.drawn32).setWidth 64))
    (g := .poll s.cfg.layout.shaSr (bitMask s.cfg.layout.busyBit) 0) (gs := []) hs rfl (perform_readShaSr hw)
    (by simpa using ns) ?_ rfl]
  · congr 1
    have : (s.drew.setVal ((shaSrValue s.cfg s.sha s.drawn32).setWidth 64)).thread.stack =
        .poll s.cfg.layout.shaSr (bitMask s.cfg.layout.busyBit) 0 :: fs := by simpa using hs
    simp only [List.singleton_append, ← this, State.setStack_self]
  · simp only [Frame.onAccess, State.setVal_thread, setWidth_setWidth_32, h1, if_false]

/-- The polls while a block is pending. -/
theorem run_pollBusy {k : StepKind} (hk : k.event = none) (fs : List Frame) (p : Nat) (s : State) (hw : s.cfg.Wf)
    (hs : s.thread.stack = .poll s.cfg.layout.shaSr (bitMask s.cfg.layout.busyBit) 0 :: fs)
    (ns : s.thread.stopped = false) (hb : s.sha.busy = true) :
    ∃ v, runSchedule (List.replicate p k) s = .next ((s.drewN p).setVal v) := by
  induction p with
  | zero => exact ⟨s.thread.val, by simp [runSchedule, State.drewN]⟩
  | succ p ih =>
    obtain ⟨v, hv⟩ := ih
    have e := drewN_eq s p
    obtain ⟨v', hv'⟩ := hostStep_pollBusy (s := (s.drewN p).setVal v) (fs := fs) (by rw [e]; simpa using hw)
      (by rw [e]; simpa using hs) (by rw [e]; simpa using ns) (by rw [e]; simpa using hb)
    refine ⟨v', ?_⟩
    rw [List.replicate_succ']
    refine runSchedule_trans hv (runSchedule_one ?_)
    rw [runStep_host hk, hv']
    simp [State.drewN]

/-! ### hca_sha_init (R471) -/

/-- hca_sha_init from the poll that finds the unit idle to its return: the poll, then the INIT write. -/
theorem run_initFromPoll {k : StepKind} (hk : k.event = none) (c : Nat) (alg : Alg) (e : Endian) (fs : List Frame)
    (s : State) (hw : s.cfg.Wf)
    (hs : s.thread.stack = .poll s.cfg.layout.shaSr (bitMask s.cfg.layout.busyBit) 0 :: .initPolled c alg e :: fs)
    (ns : s.thread.stopped = false) (hb : s.sha.busy = false) :
    ∃ v, runSchedule [k, k] s =
      .next ((((((s.withInputs s.drew.inputs).setSha (s.sha.init (modeCode alg))).setCtx c
        { s.ctx c with alg := alg, bitlen := 0, endian := e, life := .active }).setVal v).setCode .ok).resume fs) := by
  obtain ⟨v, hv⟩ := hostStep_pollIdle hw hs ns hb
  set x : HashContext := { s.ctx c with alg := alg, bitlen := 0, endian := e, life := .active } with hx
  rw [resume_go (t := (s.drew.setVal v).setCtx c x) (g := .initWrite alg) (gs := []) (by simpa using ns)
    (by simp [Frame.onReturn, initPolledNext, hx, State.ctx])] at hv
  refine ⟨v, runSchedule_cons (by rw [runStep_host hk]; exact hv) (runSchedule_one ?_)⟩
  rw [runStep_host hk]
  set s3 := ((s.drew.setVal v).setCtx c x).setStack ([.initWrite alg] ++ fs) with hs3
  have hp : perform (Access.write32 s3.cfg.layout.shaCr (initValue s3.cfg alg)) s3 =
      .next (s3.setSha (s.sha.init (modeCode alg))) := by
    rw [perform_writeShaCr (by simpa [hs3] using hw)]
    simp [execWr32ShaCr, hs3, crInit_initValue hw, crMode_initValue hw, hb]
  refine (hostStep_done (f := .initWrite alg) (fs := fs)
    (u := (s3.setSha (s.sha.init (modeCode alg))).setCode .ok) (by simp [hs3]) rfl hp (by simpa [hs3] using ns) rfl).trans ?_
  rw [← State.drew_eq s]
  simp [hs3, State.resume]

/-- hca_sha_init from call to return, on an idle unit. -/
theorem run_hcaShaInit (c : Nat) (alg : Alg) (e : Endian) (s : State) (hw : s.cfg.Wf) (ns : s.thread.stopped = false)
    (hi : s.inIsr = false) (hb : s.sha.busy = false) :
    ∃ t v, execHcaShaInit .present (some c) (.known alg) e s = .next t ∧
      runSchedule [s.hostKind, s.hostKind] t =
        .next ((((((s.withInputs (s.drewN 1).inputs).setSha (s.sha.init (modeCode alg))).setCtx c
          { s.ctx c with alg := alg, bitlen := 0, endian := e, life := .active }).setVal v).setCode .ok).resume
            s.thread.stack) := by
  obtain ⟨v, hv⟩ := run_initFromPoll (hostKind_event s) c alg e s.thread.stack
    (s.push [.poll s.cfg.layout.shaSr (bitMask s.cfg.layout.busyBit) 0, .initPolled c alg e]) (by simpa using hw)
    (by simp) (by simpa using ns) (by simpa using hb)
  refine ⟨_, v, by simp only [execHcaShaInit, hi, State.begin]; rfl, hv.trans ?_⟩
  simp [State.push_eq, State.resume, State.drewN]

/-- hca_sha_init from call to return, a block of mode a being pending: p polls, its compression, then as on an idle
unit. -/
theorem run_hcaShaInit_pending (c : Nat) (alg a : Alg) (e : Endian) (p : Nat) (s : State) (hw : s.cfg.Wf)
    (ns : s.thread.stopped = false) (hi : s.inIsr = false) (hb : s.sha.busy = true) (hm : s.sha.modeEff = some a) :
    ∃ t v, execHcaShaInit .present (some c) (.known alg) e s = .next t ∧
      runSchedule (List.replicate p s.hostKind ++ [.shaCompress, s.hostKind, s.hostKind]) t =
        .next ((((((s.withInputs (s.drewN (p + 1)).inputs).setSha ((s.sha.compressed a).init (modeCode alg))).setCtx c
          { s.ctx c with alg := alg, bitlen := 0, endian := e, life := .active }).setVal v).setCode .ok).resume
            s.thread.stack) := by
  set s0 := s.push [.poll s.cfg.layout.shaSr (bitMask s.cfg.layout.busyBit) 0, .initPolled c alg e] with hs0
  obtain ⟨v1, h1⟩ := run_pollBusy (hostKind_event s) (.initPolled c alg e :: s.thread.stack) p s0
    (by simpa [hs0] using hw) (by simp [hs0]) (by simpa [hs0] using ns) (by simpa [hs0] using hb)
  rw [drewN_eq s0 p, drewN_inputs_of_inputs (t := s) (by simp [hs0]) p] at h1
  set s1 := (s0.withInputs (s.drewN p).inputs).setVal v1 with hs1
  have h2 : runStep .shaCompress s1 = .next (s1.setSha (s.sha.compressed a)) := by
    simp [runStep, exec, execShaCompress, hs1, hs0, hb, hm]
  obtain ⟨v, h3⟩ := run_initFromPoll (hostKind_event s) c alg e s.thread.stack (s1.setSha (s.sha.compressed a))
    (by simpa [hs1, hs0] using hw) (by simp [hs1, hs0]) (by simpa [hs1, hs0] using ns) rfl
  have hin : (s1.setSha (s.sha.compressed a)).drew.inputs = (s.drewN (p + 1)).inputs :=
    drew_inputs_of_inputs (t := s.drewN p) (by simp [hs1])
  rw [hin] at h3
  refine ⟨s0, v, by simp only [execHcaShaInit, hi, State.begin]; rfl,
    runSchedule_trans h1 (runSchedule_cons h2 (h3.trans ?_))⟩
  simp [hs1, hs0, State.push_eq, State.resume]

/-! ### hca_sha_submit (R473) -/

theorem append_append (u : ShaUnit) (alg : Alg) (xs ys : List Byte) :
    (u.append alg xs).append alg ys = u.append alg (xs ++ ys) := by
  simp [ShaUnit.append, blit_append, Nat.add_assoc]

/-- The writes of a block (R315, R483): the unit receives its bytes in order. -/
theorem run_wrblk {k : StepKind} (hk : k.event = none) (alg : Alg) (w : Nat) (hw48 : w = 4 ∨ w = 8) (fs : List Frame)
    (n : Nat) (bs : List Byte) (s : State) (hw : s.cfg.Wf) (h0 : 0 < n) (hl : bs.length = n * w)
    (hs : s.thread.stack = .wrblk w (fifoWords s.cfg.fifoOrder w n bs) :: fs) (ns : s.thread.stopped = false)
    (hm : s.sha.modeEff = some alg) (hb : s.sha.busy = false) (hf : s.sha.fill + n * w ≤ alg.blockBytes) :
    runSchedule (List.replicate n k) s = .next ((s.setSha (s.sha.append alg bs)).resume fs) := by
  induction n generalizing bs s with
  | zero => omega
  | succ n ih =>
    rw [Nat.succ_mul] at hl hf
    have htake : (bs.take w).length = w := by rw [List.length_take]; omega
    have hp : ∀ a, (Frame.wrblk w (fifoWords s.cfg.fifoOrder w (n + 1) bs)).access s = some a →
        perform a s = .next (s.setSha (s.sha.append alg (bs.take w))) := by
      intro a ha
      simp only [fifoWords, Frame.access, Option.some.injEq] at ha
      subst ha
      rcases hw48 with rfl | rfl
      · rw [if_neg (by decide), perform_writeFifo32 hw, fifoBytes_fifoWord32 _ _ htake,
          State.append_of_ready hm hb (by rw [htake]; omega)]
      · have := fifoBytes_fifoWord s.cfg.fifoOrder (bs.take 8) (by omega)
        rw [htake] at this
        rw [if_pos rfl, perform_writeFifo64 hw, this, State.append_of_ready hm hb (by rw [htake]; omega)]
    rw [List.replicate_succ]
    cases n with
    | zero =>
      refine runSchedule_one ?_
      rw [runStep_host hk]
      have : bs.take w = bs := List.take_of_length_le (by omega)
      rw [this] at hp
      exact hostStep_done (u := s.setSha (s.sha.append alg bs)) hs rfl (hp _ rfl) (by simpa using ns) rfl
    | succ n =>
      have h1 : hostStep s = .next ((s.setSha (s.sha.append alg (bs.take w))).setStack
          (.wrblk w (fifoWords s.cfg.fifoOrder w (n + 1) (bs.drop w)) :: fs)) :=
        hostStep_more (u := s.setSha (s.sha.append alg (bs.take w)))
          (g := .wrblk w (fifoWords s.cfg.fifoOrder w (n + 1) (bs.drop w))) (gs := []) hs rfl (hp _ rfl)
          (by simpa using ns) rfl rfl
      refine runSchedule_cons (by rw [runStep_host hk]; exact h1) ?_
      have hw0 : 0 < w := by omega
      have hnw : w ≤ (n + 1) * w := Nat.le_mul_of_pos_left w (by omega)
      refine (ih (bs.drop w) _ (by simpa using hw) (by omega) (by rw [List.length_drop]; omega) (by simp)
        (by simpa using ns) (by simp only [State.setStack_sha, State.setSha_sha, ShaUnit.append]; exact hm) ?_ ?_).trans ?_
      · simp only [State.setStack_sha, State.setSha_sha, ShaUnit.append, htake]
        simp; omega
      · simp only [State.setStack_sha, State.setSha_sha, ShaUnit.append, htake]
        omega
      · simp [append_append, State.resume]

/-- A submission: the block's writes, p polls while it is pending, its compression, and the poll that finds the unit idle
(R473). -/
theorem run_submit {k : StepKind} (hk : k.event = none) (alg : Alg) (blk : List Byte) (p : Nat) (fs : List Frame)
    (s : State) (hw : s.cfg.Wf) (hl : blk.length = alg.blockBytes)
    (hs : s.thread.stack = submitFrames s.cfg blk alg ++ fs) (ns : s.thread.stopped = false) (hu : ShaIdle s.sha alg) :
    ∃ v, runSchedule (List.replicate (alg.blockBytes / alg.fifoBytes) k ++ List.replicate p k ++ [.shaCompress, k]) s =
      .next (((((s.withInputs (s.drewN (submitDraws s (p + 1))).inputs).setSha (s.sha.submitted alg blk)).setVal v).setCode
        (submitCode s (p + 1))).resume fs) := by
  obtain ⟨hm, hb, hf⟩ := hu
  have hw48 : alg.fifoBytes = 4 ∨ alg.fifoBytes = 8 := by cases alg <;> decide
  have hn : alg.blockBytes / alg.fifoBytes * alg.fifoBytes = alg.blockBytes := by cases alg <;> decide
  have hn0 : 0 < alg.blockBytes / alg.fifoBytes := by cases alg <;> decide
  rw [submitFrames, hl] at hs
  have h1 := run_wrblk hk alg alg.fifoBytes hw48 (.submitWritten :: fs) (alg.blockBytes / alg.fifoBytes) blk s hw hn0
    (by rw [hn]; exact hl) (by simpa using hs) ns hm hb (by rw [hf, hn]; omega)
  have happ : s.sha.append alg blk = { s.sha with blk := blit s.sha.blk 0 blk, fill := alg.blockBytes, busy := true } := by
    simp [ShaUnit.append, hf, hl]
  rw [resume_go (t := s.setSha (s.sha.append alg blk))
    (g := .poll s.cfg.layout.shaSr (bitMask s.cfg.layout.busyBit) 0) (gs := [.submitPolled]) (by simpa using ns)
    (by simp [Frame.onReturn, submitWrittenNext])] at h1
  set s1 := (s.setSha (s.sha.append alg blk)).setStack
    ([.poll s.cfg.layout.shaSr (bitMask s.cfg.layout.busyBit) 0, .submitPolled] ++ fs) with hs1
  obtain ⟨v1, h2⟩ := run_pollBusy hk (.submitPolled :: fs) p s1 (by simpa [hs1] using hw) (by simp [hs1])
    (by simpa [hs1] using ns) (by simp [hs1, happ])
  have e1 : (s1.drewN p).setVal v1 = (s1.withInputs (s.drewN p).inputs).setVal v1 := by
    rw [drewN_eq s1 p]
    have : ∀ p, (s1.drewN p).inputs = (s.drewN p).inputs := by
      intro p
      induction p with
      | zero => simp [State.drewN, hs1]
      | succ p ih => simp only [State.drewN, State.drew, ih]
    rw [this]
  rw [e1] at h2
  set s2 := ((s1.withInputs (s.drewN p).inputs).setVal v1).setSha (s.sha.submitted alg blk) with hs2
  have h3 : runStep .shaCompress ((s1.withInputs (s.drewN p).inputs).setVal v1) = .next s2 := by
    have hb1 : ((s1.withInputs (s.drewN p).inputs).setVal v1).sha = s.sha.append alg blk := by simp [hs1]
    have htake := blit_take s.sha.blk blk (by rw [hl]; exact blockBytes_le alg)
    rw [hl] at htake
    simp only [runStep, exec, execShaCompress, hb1, happ, hm]
    simp [hs2, ShaUnit.compressed, ShaUnit.submitted, htake, hm]
  obtain ⟨v2, h4⟩ := hostStep_pollIdle (s := s2) (fs := .submitPolled :: fs) (by simpa [hs2, hs1] using hw)
    (by simp [hs2, hs1]) (by simpa [hs2, hs1] using ns) (by simp [hs2, ShaUnit.submitted])
  refine ⟨v2, ?_⟩
  refine runSchedule_trans (runSchedule_trans h1 h2) (runSchedule_cons h3 (runSchedule_one ?_))
  rw [runStep_host hk, h4]
  have hin : s2.drew.inputs = (s.drewN (p + 1)).inputs := by simp [hs2, State.drew, State.drewN]
  have hdr : (s2.drew.setVal v2).drawn = (s.drewN (p + 1)).drawn :=
    drawn_of_inputs (by rw [State.setVal_inputs, hin])
  have hdi : s2.drew.drew.inputs = (s.drewN (p + 2)).inputs := drew_inputs_of_inputs hin
  congr 1
  rw [resume_pop (t := ((s2.withInputs (s.drewN (submitDraws s (p + 1))).inputs).setVal v2).setCode
    (submitCode s (p + 1))) (by simpa [hs2, hs1] using ns) ?_]
  · simp [hs2, hs1, State.resume]
  · have hcfg : s2.cfg = s.cfg := by simp [hs2, hs1]
    simp only [Frame.onReturn, submitPolledNext, State.setVal_cfg, hdr, submitCode, submitDraws, State.ends]
    have hd1 : s2.drew.cfg = s.cfg := hcfg
    rw [hd1]
    cases hmf : s.cfg.submitMayFail with
    | false =>
      simp only [Bool.false_and, Bool.false_eq_true, if_false]
      rw [State.drew_eq s2, hin]
    | true =>
      simp only [Bool.true_and, if_true]
      have hdd : s2.drew.drew = s2.withInputs (s.drewN (p + 1 + 1)).inputs := by rw [← hdi]; rfl
      rw [State.setVal_drew, hdd]
      split <;> rfl

end Sys2Proof.Machine
end

