-- ==== Sys2Proof/Laws/HwUpdate.lean ====
section
/-! SUPPORT. Laws/HwUpdate.lean: hca_sha_update from call to return (R472). -/

namespace Sys2Proof.Machine

theorem drewN_cfg (s : State) (n : Nat) : (s.drewN n).cfg = s.cfg := by rw [drewN_eq]; rfl

/-- A submission that does not fail answers Ok. -/
theorem submitCode_of_succeed {s : State} {n : Nat} (h : SubmitsSucceed s n) (hn : 0 < n) : submitCode s 1 = .ok := by
  unfold submitCode
  cases hm : s.cfg.submitMayFail with
  | false => simp
  | true => rw [h hm 0 hn]; rfl

/-- The submissions after the first. -/
theorem submitsSucceed_tail {s t : State} {n : Nat} (h : SubmitsSucceed s (n + 1)) (hc : t.cfg = s.cfg)
    (hi : t.inputs = (s.drewN (submitDraws s 1)).inputs) : SubmitsSucceed t n := by
  intro hm j hj
  rw [hc] at hm
  have e : submitDraws s 1 = 2 := by simp [submitDraws, hm]
  rw [e] at hi
  rw [drewN_drawn_of_inputs hi, drewN_drewN, show 2 + (2 * j + 1) = 2 * (j + 1) + 1 by omega]
  exact h hm _ (by omega)

theorem submitsSucceed_of_eq {s t : State} {n : Nat} (h : SubmitsSucceed s n) (hc : t.cfg = s.cfg)
    (hi : t.inputs = s.inputs) : SubmitsSucceed t n := by
  intro hm j hj
  rw [hc] at hm
  rw [drewN_drawn_of_inputs hi]
  exact h hm j hj

/-- y is x but for its buffer. -/
def BufferOnly (x y : HashContext) : Prop :=
  y.alg = x.alg ∧ y.endian = x.endian ∧ y.life = x.life ∧ y.bitlen = x.bitlen ∧ y.acc = x.acc

theorem BufferOnly.refl (x : HashContext) : BufferOnly x x := ⟨rfl, rfl, rfl, rfl, rfl⟩

theorem BufferOnly.setBuf (x : HashContext) (i : Nat) (b : Byte) : BufferOnly x (x.setBuf i b) :=
  ⟨rfl, rfl, rfl, rfl, rfl⟩

theorem BufferOnly.trans {x y z : HashContext} (a : BufferOnly x y) (b : BufferOnly y z) : BufferOnly x z :=
  ⟨b.1.trans a.1, b.2.1.trans a.2.1, b.2.2.1.trans a.2.2.1, b.2.2.2.1.trans a.2.2.2.1, b.2.2.2.2.trans a.2.2.2.2⟩

/-- The end state of an update: inputs, the SHA unit, the context, the last byte loaded, Ok. -/
def updateEnd (s : State) (c len : Nat) (h : HashState) (fs : List Frame) (x : Inputs) (b : Vector Byte 128)
    (y : HashContext) (v : Word64) : State :=
  (((((s.withInputs x).setSha { s.sha with blk := b, h := h }).setCtx c (y.addLen len)).setVal v).setCode .ok).resume fs

/-- hca_sha_update's loop from the load of data byte i on, p being buffered (R472). -/
theorem run_updateLoad {k : StepKind} (hk : k.event = none) (c : Nat) (alg : Alg) (data : Buf) (len n : Nat)
    (fs : List Frame) (all bs : List Byte) (s : State) (i : Nat) (p : List Byte)
    (hs : s.thread.stack = .updateLoad c alg data len i p.length :: fs) (ns : s.thread.stopped = false) (hw : s.cfg.Wf)
    (hu : ShaIdle s.sha alg) (hm : s.bufReads data 0 n = some all) (hd : all.drop i = bs) (h0 : bs ≠ [])
    (hl : i + bs.length = len) (hp : p.length < alg.blockBytes) (hx : (s.ctx c).bufTake p.length = p)
    (hca : (s.ctx c).alg = alg) (hf : SubmitsSucceed s (blocksOf alg (p ++ bs)).length) :
    ∃ x b y v, runSchedule (updateSteps k alg p.length bs.length) s =
        .next (updateEnd s c len ((blocksOf alg (p ++ bs)).foldl (compress alg) s.sha.h) fs x b y v) ∧
      BufferOnly (s.ctx c) y ∧ y.bufTake (tailOf alg (p ++ bs)).length = tailOf alg (p ++ bs) := by
  induction bs generalizing s i p with
  | nil => exact absurd rfl h0
  | cons b bs ih =>
    have h128 := blockBytes_le alg
    simp only [List.length_cons] at hl
    have hr : all.drop (i + 1) = bs := by rw [← List.drop_drop, hd]; rfl
    have hpl := perform_load_byte hm hd
    set t := s.setVal (b.setWidth 64) with ht
    have ha : (Frame.updateLoad c alg data len i p.length).access s = some (.load 1 data i) := rfl
    have hbuf : ((s.ctx c).setBuf p.length b).bufTake (p.length + 1) = p ++ [b] := by
      rw [bufTake_setBuf _ (by omega), hx]
    have ho : (Frame.updateLoad c alg data len i p.length).onAccess t.thread.val t =
        updateLoaded c alg data len i p.length (b.setWidth 64) t := by simp [Frame.onAccess, ht]
    have nst : t.thread.stopped = false := by simpa [ht] using ns
    have ea : p ++ b :: bs = (p ++ [b]) ++ bs := by simp
    rw [List.length_cons, updateSteps, ea]
    set y0 := (s.ctx c).setBuf p.length b with hy0
    by_cases hfull : p.length + 1 = alg.blockBytes
    · -- the buffer is full: it is submitted
      have hlen : (p ++ [b]).length = alg.blockBytes := by simpa using hfull
      have hblk : y0.bufTake alg.blockBytes = p ++ [b] := by rw [← hfull]; exact hbuf
      rw [ea, blocksOf_block hlen, List.length_cons] at hf
      rw [if_pos hfull, blocksOf_block hlen, tailOf_block hlen, List.foldl_cons]
      have h1 : hostStep s = .next ((t.setCtx c y0).setStack
          (submitFrames s.cfg (p ++ [b]) alg ++ (.updateSubmitted c alg data len i :: fs))) := by
        have hwn : (alg.blockBytes / alg.fifoBytes) ≠ 0 := by cases alg <;> decide
        obtain ⟨n, hn⟩ := Nat.exists_eq_succ_of_ne_zero hwn
        refine (hostStep_more (u := t.setCtx c y0) (fs := fs)
          (g := .wrblk alg.fifoBytes (fifoWords s.cfg.fifoOrder alg.fifoBytes (alg.blockBytes / alg.fifoBytes) (p ++ [b])))
          (gs := [.submitWritten, .updateSubmitted c alg data len i]) hs ha hpl nst ?_ ?_).trans ?_
        · rw [ho, updateLoaded, if_pos hfull]
          simp only [byte_of_setWidth, ht, State.setVal_ctx, State.setVal_cfg]
          rw [← hy0, hblk, show y0.alg = alg from hca, submitFrames, hlen]
          rfl
        · rw [hn]; rfl
        · rw [submitFrames, hlen]; rfl
      set s1 := (t.setCtx c y0).setStack
        (submitFrames s.cfg (p ++ [b]) alg ++ (.updateSubmitted c alg data len i :: fs)) with hs1
      have hsucc1 : SubmitsSucceed s1 ((blocksOf alg bs).length + 1) :=
        submitsSucceed_of_eq hf (by simp [hs1, ht]) (by simp [hs1, ht])
      obtain ⟨v, h2⟩ := run_submit hk alg (p ++ [b]) 0 (.updateSubmitted c alg data len i :: fs) s1
        (by simpa [hs1, ht] using hw) hlen (by simp [hs1, ht]) (by simpa [hs1, ht] using ns)
        (by simpa [hs1, ht] using hu)
      rw [submitCode_of_succeed hsucc1 (by omega)] at h2
      set s2 := (((s1.withInputs (s1.drewN (submitDraws s1 (0 + 1))).inputs).setSha
        (s1.sha.submitted alg (p ++ [b]))).setVal v).setCode .ok with hs2
      have hsteps : k :: (submitSteps k alg ++ updateSteps k alg 0 bs.length) =
          k :: ((List.replicate (alg.blockBytes / alg.fifoBytes) k ++ List.replicate 0 k ++ [.shaCompress, k]) ++
            updateSteps k alg 0 bs.length) := by simp [submitSteps]
      rw [hsteps]
      have hctx2 : s2.ctx c = y0 := by simp [hs2, hs1]
      have hsha2 : s2.sha = { s.sha with blk := blit s.sha.blk 0 (p ++ [b]), h := compress alg s.sha.h (p ++ [b]) } := by
        simp only [hs2, hs1, ht, State.setCode_sha, State.setVal_sha, State.setSha_sha, State.setStack_sha,
          State.setCtx_sha, ShaUnit.submitted]
        obtain ⟨h1', h2', h3'⟩ := hu
        rw [h2', h3']
      by_cases hbs : bs = []
      · subst hbs
        refine ⟨s2.inputs, blit s.sha.blk 0 (p ++ [b]), y0, v, ?_, BufferOnly.setBuf _ _ _, by
          rw [tailOf_nil]; rfl⟩
        refine runSchedule_cons (by rw [runStep_host hk]; exact h1) ?_
        have hlt : ¬ i + 1 < len := by simp at hl; omega
        rw [resume_pop (t := (s2.setCtx c (y0.addLen len)).setCode .ok) (by simpa [hs2, hs1, ht] using ns) ?_] at h2
        · simp only [List.length_nil, updateSteps, List.append_nil]
          rw [h2]
          simp [updateEnd, blocksOf_nil, hs2, hs1, ht, State.resume, ShaUnit.submitted, hu.2.1, hu.2.2]
        · simp only [Frame.onReturn, updateSubmittedNext, updateNext, if_neg hlt, State.ends, hctx2]
          simp [hs2]
      · have hne := List.length_pos_of_ne_nil hbs
        have hlt : i + 1 < len := by omega
        rw [resume_go (t := s2) (g := .updateLoad c alg data len (i + 1) 0) (gs := [])
          (by simpa [hs2, hs1, ht] using ns) ?_] at h2
        · set s3 := s2.setStack ([.updateLoad c alg data len (i + 1) 0] ++ fs) with hs3
          have hctx3 : s3.ctx c = y0 := by rw [hs3, State.setStack_ctx, hctx2]
          obtain ⟨x, bb, y, v', hrun, hbo, htl⟩ := ih s3 (i + 1) [] (by simp [hs3]) (by simpa [hs3, hs2, hs1, ht] using ns)
            (by simpa [hs3, hs2, hs1, ht] using hw)
            (by rw [hs3, State.setStack_sha, hsha2]; exact ⟨hu.1, hu.2.1, hu.2.2⟩)
            (by simpa [hs3, hs2, hs1, ht] using hm) hr hbs (by omega) (blockBytes_pos alg) rfl
            (by rw [hctx3]; exact hca)
            (submitsSucceed_tail hsucc1 (by simp [hs3, hs2]) (by simp [hs3, hs2]))
          rw [List.nil_append] at hrun htl
          refine ⟨x, bb, y, v', ?_, BufferOnly.trans (BufferOnly.setBuf _ _ _) (by rw [hctx3] at hbo; exact hbo), htl⟩
          refine runSchedule_cons (by rw [runStep_host hk]; exact h1) (runSchedule_trans h2 ?_)
          rw [List.length_nil] at hrun
          rw [hrun]
          have hsha3 : s3.sha = s2.sha := by simp [hs3]
          simp only [updateEnd, hsha3, hsha2]
          simp [hs3, hs2, hs1, ht, State.resume]
        · simp only [Frame.onReturn, updateSubmittedNext, updateNext, if_pos hlt]
          simp [hs2]
    · -- the byte is buffered
      rw [if_neg hfull]
      have hlen : (p ++ [b]).length < alg.blockBytes := by simp; omega
      have hpl1 : (p ++ [b]).length = p.length + 1 := by simp
      have hsucc : SubmitsSucceed s (blocksOf alg ((p ++ [b]) ++ bs)).length := by rw [← ea]; exact hf
      by_cases hbs : bs = []
      · subst hbs
        have hlt : ¬ i + 1 < len := by simp at hl; omega
        have h1 : hostStep s = .next (((t.setCtx c (y0.addLen len)).setCode .ok).resume fs) := by
          refine hostStep_done hs ha hpl nst ?_
          rw [ho, updateLoaded, if_neg hfull, updateNext, if_neg hlt]
          simp [State.ends, ht, hy0]
        rw [List.append_nil, blocksOf_of_lt hlen, tailOf_of_lt hlen]
        refine ⟨s.inputs, s.sha.blk, y0, b.setWidth 64, ?_, BufferOnly.setBuf _ _ _, by rw [hpl1]; exact hbuf⟩
        simp only [List.length_nil, updateSteps]
        refine runSchedule_one ?_
        rw [runStep_host hk, h1]
        simp only [updateEnd, List.foldl_nil, ht, State.withInputs_self, State.setVal_setCtx]
        rfl
      · have hne := List.length_pos_of_ne_nil hbs
        have hlt : i + 1 < len := by omega
        have h1 : hostStep s = .next ((t.setCtx c y0).setStack (.updateLoad c alg data len (i + 1) (p ++ [b]).length :: fs)) := by
          refine hostStep_more (g := .updateLoad c alg data len (i + 1) (p ++ [b]).length) (gs := []) hs ha hpl nst ?_ rfl
          rw [ho, updateLoaded, if_neg hfull, updateNext, if_pos hlt, hpl1]
          simp [ht, hy0]
        set s3 := (t.setCtx c y0).setStack (.updateLoad c alg data len (i + 1) (p ++ [b]).length :: fs) with hs3
        have hctx3 : s3.ctx c = y0 := by simp [hs3]
        obtain ⟨x, bb, y, v', hrun, hbo, htl⟩ := ih s3 (i + 1) (p ++ [b]) (by simp [hs3]) (by simpa [hs3, ht] using ns)
          (by simpa [hs3, ht] using hw) (by simpa [hs3, ht] using hu) (by simpa [hs3, ht] using hm) hr hbs
          (by omega) hlen (by rw [hctx3, hpl1]; exact hbuf) (by rw [hctx3]; exact hca)
          (submitsSucceed_of_eq hsucc (by simp [hs3, ht]) (by simp [hs3, ht]))
        rw [hpl1] at hrun
        refine ⟨x, bb, y, v', ?_, BufferOnly.trans (BufferOnly.setBuf _ _ _) (by rw [hctx3] at hbo; exact hbo), htl⟩
        refine runSchedule_cons (by rw [runStep_host hk]; exact h1) ?_
        rw [hrun]
        have hsha3 : s3.sha = s.sha := by simp [hs3, ht]
        simp only [updateEnd, hsha3]
        simp [hs3, ht, State.resume]

/-- hca_sha_update from call to return, on a valid data buffer of at least one byte and no failing submission (R472). -/
theorem run_hcaShaUpdate (c : Nat) (data : Buf) (bs : List Byte) (s : State) (hw : s.cfg.Wf) (ns : s.thread.stopped = false)
    (hi : s.inIsr = false) (hl : (s.ctx c).life = .active) (hu : ShaIdle s.sha (s.ctx c).alg)
    (hm : s.bufReads data 0 bs.length = some bs) (h0 : bs ≠ [])
    (hf : SubmitsSucceed s (blocksOf (s.ctx c).alg (buffered (s.ctx c).alg (s.ctx c) ++ bs)).length) :
    ∃ t x b y v, execHcaShaUpdate .present (some c) (some data) bs.length s = .next t ∧
      runSchedule (updateSteps s.hostKind (s.ctx c).alg ((s.ctx c).idx (s.ctx c).alg) bs.length) t =
        .next (((((s.withInputs x).setSha { s.sha with
          blk := b
          h := (blocksOf (s.ctx c).alg (buffered (s.ctx c).alg (s.ctx c) ++ bs)).foldl (compress (s.ctx c).alg)
            s.sha.h }).setCtx c y).setVal v).setCode .ok |>.resume s.thread.stack) ∧
      Buffers (s.ctx c).alg (s.ctx c) bs y ∧ y.acc = (s.ctx c).acc := by
  set alg := (s.ctx c).alg with halg
  have hlen : bs.length ≠ 0 := by simpa using h0
  have hbl := buffered_length alg (s.ctx c)
  set s0 := s.push [.updateLoad c alg data bs.length 0 ((s.ctx c).idx alg)] with hs0
  obtain ⟨x, b, y, v, hrun, hbo, htl⟩ := run_updateLoad (hostKind_event s) c alg data bs.length bs.length s.thread.stack
    bs bs s0 0
    (buffered alg (s.ctx c)) (by simp [hs0, hbl]) (by simpa [hs0] using ns) (by simpa [hs0] using hw)
    (by simpa [hs0] using hu) (by simpa [hs0] using hm) rfl h0 (by simp) (by rw [hbl]; exact idx_lt _ _)
    (by rw [hbl]; simp [hs0, buffered]) (by simp [hs0, halg]) (submitsSucceed_of_eq hf (by simp [hs0]) (by simp [hs0]))
  rw [hbl] at hrun
  obtain ⟨e1, e2, e3, e4, e5⟩ := hbo
  have hctx : s0.ctx c = s.ctx c := by simp [hs0]
  rw [hctx] at e1 e2 e3 e4 e5
  refine ⟨s0, x, b, y.addLen bs.length, v, ?_, ?_, ⟨e1, e2, e3, ?_, htl⟩, e5⟩
  · simp [execHcaShaUpdate, hl, hi, hlen, State.begin, hs0, halg]
  · rw [hrun]
    simp [updateEnd, hs0, State.push_eq, State.resume]
  · simp [HashContext.addLen, e4]

end Sys2Proof.Machine
end

