-- ==== Sys2Proof/Laws/HwRead.lean ====
section
/-! SUPPORT. Laws/HwRead.lean: the register read step from its first access to its last: both paths store the digest
(R477 to R481). -/

namespace Sys2Proof.Machine

/-! ### The digest word by word (R430) -/

theorem flatMap_take {α β : Type} (f : α → List β) (e n : Nat) (l : List α) (hf : ∀ x ∈ l, (f x).length = e) :
    (l.flatMap f).take (n * e) = (l.take n).flatMap f := by
  induction l generalizing n with
  | nil => simp
  | cons x l ih =>
    have hx := hf x (by simp)
    cases n with
    | zero => simp
    | succ n =>
      rw [List.flatMap_cons, List.take_succ_cons, List.flatMap_cons, Nat.succ_mul, List.take_append, hx,
        ← ih n (fun y hy => hf y (by simp [hy]))]
      rw [List.take_of_length_le (by omega)]
      congr 2
      omega

theorem range_flatMap_length {β : Type} (f : Nat → List β) (e n : Nat) (hf : ∀ i, (f i).length = e) :
    ((List.range n).flatMap f).length = n * e := by
  induction n with
  | zero => simp
  | succ n ih => rw [List.range_succ, List.flatMap_append, List.length_append, ih, Nat.succ_mul]; simp [hf]

theorem range_flatMap_getElem? {β : Type} (f : Nat → List β) (e n : Nat) (hf : ∀ i, (f i).length = e) (i r : Nat)
    (hi : i < n) (hr : r < e) : ((List.range n).flatMap f)[e * i + r]? = (f i)[r]? := by
  induction n with
  | zero => omega
  | succ n ih =>
    have hl := range_flatMap_length f e n hf
    rw [List.range_succ, List.flatMap_append]
    by_cases h : i = n
    · subst h
      rw [List.getElem?_append_right (by rw [hl, Nat.mul_comm]; omega), hl]
      simp only [List.flatMap_cons, List.flatMap_nil, List.append_nil]
      congr 1
      rw [Nat.mul_comm]; omega
    · have hin : i < n := by omega
      have hlt : e * i + r < n * e := by
        have h1 : e * (i + 1) ≤ e * n := Nat.mul_le_mul_left e hin
        rw [Nat.mul_add, Nat.mul_one] at h1
        rw [Nat.mul_comm n e]; omega
      rw [List.getElem?_append_left (by rw [hl]; exact hlt), ih hin]

/-- The bytes of state word i in the digest. -/
def wordBytesOf (alg : Alg) (h : HashState) (i : Nat) : List Byte := beBytes alg.wordBytes (h.getD i 0).toNat

@[simp] theorem wordBytesOf_length (alg : Alg) (h : HashState) (i : Nat) :
    (wordBytesOf alg h i).length = alg.wordBytes := by simp [wordBytesOf]

theorem elems_mul (alg : Alg) : alg.elems * alg.wordBytes = alg.digestBytes := by cases alg <;> decide

theorem hashState_toList (h : HashState) : h.toList = (List.range 8).map fun i => h.getD i 0 := by
  apply List.ext_getElem
  · simp
  · intro i h1 h2
    simp at h1
    simp [Vector.getD, h1]

/-- The digest is its words in order (R430, R481). -/
theorem digest_eq (alg : Alg) (h : HashState) : digest alg h = (List.range alg.elems).flatMap (wordBytesOf alg h) := by
  have he : alg.elems ≤ 8 := by cases alg <;> decide
  rw [digest, ← elems_mul, flatMap_take _ _ _ _ (by simp), hashState_toList, ← List.map_take, List.take_range,
    Nat.min_eq_left he, List.flatMap_map]
  rfl

/-- The value a digest read returns for word i. -/
def elemValue (alg : Alg) (h : HashState) (i : Nat) : Word64 :=
  if alg.wordBytes = 4 then ((h.getD i 0).setWidth 32).setWidth 64 else h.getD i 0

theorem beBytes_elemValue (alg : Alg) (h : HashState) (i : Nat) :
    beBytes alg.wordBytes (elemValue alg h i).toNat = wordBytesOf alg h i := by
  unfold elemValue wordBytesOf
  split
  · next h4 =>
    rw [h4, ← beBytes_mod 4 (h.getD i 0).toNat]
    congr 1
  · rfl

/-- Byte b of the read of word n−1−k is the digest byte the byte path stores (R480). -/
theorem byteOf_elemValue (alg : Alg) (h : HashState) (k b : Nat) (hk : k < alg.elems) (hb : b < alg.wordBytes)
    (hlt : alg.digestBytes - 1 - (alg.wordBytes * k + b) < (digest alg h).length) :
    byteOf (elemValue alg h (alg.elems - 1 - k)) b = (digest alg h)[alg.digestBytes - 1 - (alg.wordBytes * k + b)] := by
  have he := elems_mul alg
  have hidx : alg.digestBytes - 1 - (alg.wordBytes * k + b) =
      alg.wordBytes * (alg.elems - 1 - k) + (alg.wordBytes - 1 - b) := by
    have h1 : alg.elems - 1 - k + k + 1 = alg.elems := by omega
    have h2 : alg.wordBytes * (alg.elems - 1 - k) + alg.wordBytes * k + alg.wordBytes = alg.digestBytes := by
      rw [← he, ← Nat.mul_add, ← Nat.mul_succ, Nat.mul_comm, Nat.succ_eq_add_one, h1]
    omega
  have key : (digest alg h)[alg.digestBytes - 1 - (alg.wordBytes * k + b)]? =
      some (byteOf (elemValue alg h (alg.elems - 1 - k)) b) := by
    rw [digest_eq, hidx, range_flatMap_getElem? _ alg.wordBytes _ (by simp) _ _ (by omega) (by omega),
      ← beBytes_elemValue]
    rw [List.getElem?_eq_getElem (by simp; omega)]
    congr 1
    simp only [beBytes, List.getElem_reverse, leBytes_length]
    have e : alg.wordBytes - 1 - (alg.wordBytes - 1 - b) = b := by omega
    simp only [e, leBytes_getElem]
    apply BitVec.eq_of_toNat_eq
    simp only [byteOf, BitVec.toNat_ofNat, BitVec.extractLsb'_toNat, Nat.shiftRight_eq_div_pow]
    rw [show (256 : Nat) = 2 ^ 8 from rfl, ← Nat.pow_mul]
  rw [List.getElem?_eq_getElem hlt] at key
  exact (Option.some.inj key).symm

/-! ### The word path (R479) -/

theorem perform_readElem' {s : State} (hw : s.cfg.Wf) {alg : Alg} (hb : s.sha.busy = false)
    (hm : s.sha.modeEff = some alg) {i : Nat} (hi : i < alg.elems) :
    perform (readElem s.cfg alg i) s = .next (s.setVal (elemValue alg s.sha.h i)) := by
  obtain ⟨v, hv, e⟩ := perform_readElem hw hb hm hi
  rw [hv, e]; rfl

theorem wordBytes_le (alg : Alg) : alg.wordBytes ≤ 8 := by cases alg <;> decide

/-- The word path from element j on, m elements remaining (R479). -/
theorem run_readWords {k : StepKind} (hk : k.event = none) (alg : Alg) (out : Buf) (fs : List Frame) (m : Nat) (s : State)
    (j : Nat) (h0 : 0 < m) (hj : j + m = alg.elems) (hs : s.thread.stack = .readWord alg out j alg.elems :: fs)
    (ns : s.thread.stopped = false) (hw : s.cfg.Wf) (hb : s.sha.busy = false) (hm : s.sha.modeEff = some alg)
    (hv : (s.bufReads out 0 alg.digestBytes).isSome) :
    ∃ v, runSchedule (List.replicate (2 * m) k) s =
      .next (((s.setMem (memWrites s.mem (out.addr + alg.wordBytes * j)
        ((List.range' j m).flatMap (wordBytesOf alg s.sha.h)))).setVal v).resume fs) := by
  induction m generalizing s j with
  | zero => omega
  | succ m ih =>
    have hle : alg.wordBytes * j + alg.wordBytes ≤ alg.digestBytes := by
      rw [← elems_mul, ← Nat.mul_succ, Nat.mul_comm]
      exact Nat.mul_le_mul_right _ (by omega)
    set w := elemValue alg s.sha.h j with hwv
    have h1 : hostStep s = .next ((s.setVal w).setStack (.readWordStore alg out j alg.elems w :: fs)) :=
      hostStep_more (u := s.setVal w) (g := .readWordStore alg out j alg.elems w) (gs := []) hs rfl
        (perform_readElem' hw hb hm (by omega)) (by simpa using ns) (by simp [Frame.onAccess, hwv]) rfl
    set s1 := (s.setVal w).setStack (.readWordStore alg out j alg.elems w :: fs) with hs1
    have hst : (s1.bufReads out 0 alg.digestBytes).isSome := by simpa [hs1] using hv
    have hp := perform_store (v := bswap alg.wordBytes w) hst hle
    rw [leBytes_bswap (wordBytes_le alg), hwv, beBytes_elemValue, ← hwv] at hp
    rw [show 2 * (m + 1) = 2 * m + 1 + 1 by omega, List.replicate_succ, List.replicate_succ]
    by_cases hm0 : m = 0
    · subst hm0
      refine ⟨w, ?_⟩
      refine runSchedule_cons (by rw [runStep_host hk]; exact h1) (runSchedule_one ?_)
      rw [runStep_host hk]
      refine (hostStep_done (f := .readWordStore alg out j alg.elems w) (fs := fs)
        (u := s1.setMem (memWrites s1.mem (out.addr + alg.wordBytes * j) (wordBytesOf alg s.sha.h j))) (by simp [hs1]) rfl hp
        (by simpa [hs1] using ns) ?_).trans ?_
      · simp only [Frame.onAccess, readWordStored]
        rw [if_neg (by omega)]
      · simp [hs1, State.resume]
    · have h2 : hostStep s1 = .next ((s1.setMem (memWrites s1.mem (out.addr + alg.wordBytes * j)
          (wordBytesOf alg s.sha.h j))).setStack (.readWord alg out (j + 1) alg.elems :: fs)) := by
        refine hostStep_more (f := .readWordStore alg out j alg.elems w) (fs := fs)
          (u := s1.setMem (memWrites s1.mem (out.addr + alg.wordBytes * j) (wordBytesOf alg s.sha.h j)))
          (g := .readWord alg out (j + 1) alg.elems) (gs := []) (by simp [hs1]) rfl hp (by simpa [hs1] using ns) ?_ rfl
        simp only [Frame.onAccess, readWordStored]
        rw [if_pos (by omega)]
      set s2 := (s1.setMem (memWrites s1.mem (out.addr + alg.wordBytes * j)
          (wordBytesOf alg s.sha.h j))).setStack (.readWord alg out (j + 1) alg.elems :: fs) with hs2
      have hsha : s2.sha = s.sha := by simp [hs2, hs1]
      have hmem : s2.mem = memWrites s.mem (out.addr + alg.wordBytes * j) (wordBytesOf alg s.sha.h j) := by simp [hs2, hs1]
      have e1 : out.addr + alg.wordBytes * (j + 1) = out.addr + alg.wordBytes * j + alg.wordBytes := by
        rw [Nat.mul_add]; omega
      obtain ⟨v, hrun⟩ := ih s2 (j + 1) (by omega) (by omega) (by simp [hs2]) (by simpa [hs2, hs1] using ns)
        (by simpa [hs2, hs1] using hw) (by rw [hsha]; exact hb) (by rw [hsha]; exact hm)
        (by simpa [hs2, hs1] using hv)
      refine ⟨v, ?_⟩
      refine runSchedule_cons (by rw [runStep_host hk]; exact h1) (runSchedule_cons (by rw [runStep_host hk]; exact h2) ?_)
      rw [hrun, hsha, hmem, e1]
      have hcat : memWrites (memWrites s.mem (out.addr + alg.wordBytes * j) (wordBytesOf alg s.sha.h j))
          (out.addr + alg.wordBytes * j + alg.wordBytes) ((List.range' (j + 1) m).flatMap (wordBytesOf alg s.sha.h)) =
          memWrites s.mem (out.addr + alg.wordBytes * j) ((List.range' j (m + 1)).flatMap (wordBytesOf alg s.sha.h)) := by
        rw [List.range'_succ, List.flatMap_cons, memWrites_append, wordBytesOf_length]
      rw [hcat]
      simp [hs2, hs1, State.resume]

/-! ### The byte path (R480) -/

/-- One more byte stored below the bytes stored so far, from the tail backward. -/
theorem memWrite_below (m : List Host.Cell) (a : Nat) (d : List Byte) (t : Nat) (ht : t < d.length)
    (hi : d.length - 1 - t < d.length) :
    memWrite (memWrites m (a + (d.length - t)) (d.drop (d.length - t))) (a + (d.length - 1 - t)) d[d.length - 1 - t] =
      memWrites m (a + (d.length - (t + 1))) (d.drop (d.length - (t + 1))) := by
  have e1 : d.length - (t + 1) = d.length - 1 - t := by omega
  have e2 : d.length - t = d.length - 1 - t + 1 := by omega
  rw [e1, List.drop_eq_getElem_cons hi, memWrites, e2, ← memWrites_memWrite_comm _ _ _ _ _ (by omega)]
  rfl

/-- What the byte path goes on with after element k. -/
def nextRead (alg : Alg) (out : Buf) (k : Nat) : List Frame :=
  if k + 1 < alg.elems then [.readByte alg out alg.digestBytes (k + 1) alg.elems] else []

/-- The stores of one element from byte b on, r bytes remaining (R480); m0 is the memory before the read step. -/
theorem run_readByteStores {kd : StepKind} (hk : kd.event = none) (alg : Alg) (out : Buf) (m0 : List Host.Cell)
    (h : HashState) (k : Nat) (hke : k < alg.elems) (fs : List Frame)
    (r : Nat) (s : State) (b : Nat) (hv : (s.bufReads out 0 alg.digestBytes).isSome) (h0 : 0 < r)
    (hbr : b + r = alg.wordBytes)
    (hs : s.thread.stack =
      .readByteStore alg out alg.digestBytes k alg.elems (elemValue alg h (alg.elems - 1 - k)) b :: fs)
    (ns : s.thread.stopped = false)
    (hm : s.mem = memWrites m0 (out.addr + (alg.digestBytes - (alg.wordBytes * k + b)))
      ((digest alg h).drop (alg.digestBytes - (alg.wordBytes * k + b)))) :
    runSchedule (List.replicate r kd) s =
      .next ((s.setMem (memWrites m0 (out.addr + (alg.digestBytes - alg.wordBytes * (k + 1)))
        ((digest alg h).drop (alg.digestBytes - alg.wordBytes * (k + 1))))).resume (nextRead alg out k ++ fs)) := by
  induction r generalizing s b with
  | zero => omega
  | succ r ih =>
    have he := elems_mul alg
    have hdl := digest_length alg h
    have ht : alg.wordBytes * k + b < alg.digestBytes := by
      have h1 : alg.wordBytes * (k + 1) ≤ alg.wordBytes * alg.elems := Nat.mul_le_mul_left _ hke
      rw [Nat.mul_comm alg.wordBytes alg.elems, he, Nat.mul_add, Nat.mul_one] at h1
      omega
    have hi : alg.digestBytes - 1 - (alg.wordBytes * k + b) < (digest alg h).length := by omega
    have hbyte := byteOf_elemValue alg h k b hke (by omega) hi
    have hp := perform_store_byte (off := alg.digestBytes - 1 - (alg.wordBytes * k + b))
      (b := byteOf (elemValue alg h (alg.elems - 1 - k)) b) hv (by omega)
    have hnew := memWrite_below m0 out.addr (digest alg h) (alg.wordBytes * k + b) (by omega) (by omega)
    simp only [hdl] at hnew
    rw [hm, hbyte, hnew] at hp
    set M := memWrites m0 (out.addr + (alg.digestBytes - (alg.wordBytes * k + b + 1)))
      ((digest alg h).drop (alg.digestBytes - (alg.wordBytes * k + b + 1))) with hM
    have ha : (Frame.readByteStore alg out alg.digestBytes k alg.elems (elemValue alg h (alg.elems - 1 - k)) b).access
        s = some (.store 1 out (alg.digestBytes - 1 - (alg.wordBytes * k + b))
          ((byteOf (elemValue alg h (alg.elems - 1 - k)) b).setWidth 64)) := rfl
    rw [List.replicate_succ]
    rw [← hbyte] at hp
    by_cases hr0 : r = 0
    · subst hr0
      have hlast : alg.wordBytes * k + b + 1 = alg.wordBytes * (k + 1) := by rw [Nat.mul_add]; omega
      refine runSchedule_one ?_
      rw [runStep_host hk]
      refine (hostStep_access hs ha hp (by simpa using ns)).trans ?_
      simp only [Frame.onAccess, readByteStored]
      rw [if_neg (by omega), hM, hlast, nextRead]
      split <;> rfl
    · have h1 : hostStep s = .next ((s.setMem M).setStack
          (.readByteStore alg out alg.digestBytes k alg.elems (elemValue alg h (alg.elems - 1 - k)) (b + 1) :: fs)) := by
        refine hostStep_more (u := s.setMem M)
          (g := .readByteStore alg out alg.digestBytes k alg.elems (elemValue alg h (alg.elems - 1 - k)) (b + 1))
          (gs := []) hs ha hp (by simpa using ns) ?_ rfl
        simp only [Frame.onAccess, readByteStored]
        rw [if_pos (by omega)]
      refine runSchedule_cons (by rw [runStep_host hk]; exact h1) ?_
      rw [ih _ (b + 1) (by simpa [hM] using State.bufReads_before hm hv) (by omega) (by omega) (by simp) (by simpa using ns)
        (by simp [hM, Nat.add_assoc])]
      simp [State.resume]

/-- The byte path from element k on, m elements remaining (R480); m0 is the memory before the read step. -/
theorem run_readBytes {kd : StepKind} (hk : kd.event = none) (alg : Alg) (out : Buf) (m0 : List Host.Cell)
    (fs : List Frame) (m : Nat) (s : State) (k : Nat) (hv : (s.bufReads out 0 alg.digestBytes).isSome) (h0 : 0 < m)
    (hkm : k + m = alg.elems) (hs : s.thread.stack = .readByte alg out alg.digestBytes k alg.elems :: fs)
    (ns : s.thread.stopped = false) (hw : s.cfg.Wf) (hb : s.sha.busy = false) (hm : s.sha.modeEff = some alg)
    (hmem : s.mem = memWrites m0 (out.addr + (alg.digestBytes - alg.wordBytes * k))
      ((digest alg s.sha.h).drop (alg.digestBytes - alg.wordBytes * k))) :
    ∃ v, runSchedule (List.replicate ((1 + alg.wordBytes) * m) kd) s =
      .next (((s.setMem (memWrites m0 out.addr (digest alg s.sha.h))).setVal v).resume fs) := by
  induction m generalizing s k with
  | zero => omega
  | succ m ih =>
    have hwb : 0 < alg.wordBytes := by cases alg <;> decide
    set w := elemValue alg s.sha.h (alg.elems - 1 - k) with hwv
    have h1 : hostStep s = .next ((s.setVal w).setStack (.readByteStore alg out alg.digestBytes k alg.elems w 0 :: fs)) :=
      hostStep_more (u := s.setVal w) (g := .readByteStore alg out alg.digestBytes k alg.elems w 0) (gs := []) hs rfl
        (perform_readElem' hw hb hm (by omega)) (by simpa using ns) (by simp [Frame.onAccess, hwv]) rfl
    have hst := run_readByteStores hk alg out m0 s.sha.h k (by omega) fs alg.wordBytes
      ((s.setVal w).setStack (.readByteStore alg out alg.digestBytes k alg.elems w 0 :: fs)) 0 (by simpa using hv) hwb (by omega)
      (by simp [hwv]) (by simpa using ns) (by simpa using hmem)
    have hsteps : List.replicate ((1 + alg.wordBytes) * (m + 1)) kd =
        kd :: (List.replicate alg.wordBytes kd ++ List.replicate ((1 + alg.wordBytes) * m) kd) := by
      rw [List.replicate_append_replicate, ← List.replicate_succ]
      congr 1
      rw [Nat.mul_add]; omega
    rw [hsteps]
    by_cases hm0 : m = 0
    · subst hm0
      refine ⟨w, ?_⟩
      refine runSchedule_cons (by rw [runStep_host hk]; exact h1) ?_
      have hn : nextRead alg out k = [] := by rw [nextRead, if_neg (by omega)]
      have hend : alg.digestBytes - alg.wordBytes * (k + 1) = 0 := by
        have : k + 1 = alg.elems := by omega
        rw [this, Nat.mul_comm, elems_mul]; omega
      simp only [Nat.mul_zero, List.replicate_zero, List.append_nil]
      rw [hst, hn, hend]
      simp [State.resume]
    · have hn : nextRead alg out k = [.readByte alg out alg.digestBytes (k + 1) alg.elems] := by
        rw [nextRead, if_pos (by omega)]
      rw [hn, List.singleton_append, resume_wait (by simpa using ns) rfl] at hst
      simp only [State.setStack_setMem, State.setStack_setStack] at hst
      set s2 := ((s.setVal w).setMem (memWrites m0 (out.addr + (alg.digestBytes - alg.wordBytes * (k + 1)))
        ((digest alg s.sha.h).drop (alg.digestBytes - alg.wordBytes * (k + 1))))).setStack
          (.readByte alg out alg.digestBytes (k + 1) alg.elems :: fs) with hs2
      have hsha : s2.sha = s.sha := by simp [hs2]
      have hv2 : (s2.bufReads out 0 alg.digestBytes).isSome := by
        have e := State.bufReads_before hmem hv
        simpa [hs2] using e
      obtain ⟨v, hrun⟩ := ih s2 (k + 1) hv2 (by omega) (by omega) (by simp [hs2]) (by simpa [hs2] using ns)
        (by simpa [hs2] using hw) (by rw [hsha]; exact hb) (by rw [hsha]; exact hm) (by rw [hsha]; simp [hs2])
      refine ⟨v, ?_⟩
      refine runSchedule_cons (by rw [runStep_host hk]; exact h1) (runSchedule_trans hst ?_)
      rw [hrun, hsha]
      simp [hs2, State.resume]

/-! ### Both paths (R478, R481) -/

theorem elems_pos (alg : Alg) : 0 < alg.elems := by cases alg <;> decide

theorem elems_eq (alg : Alg) : alg.digestBytes / alg.wordBytes = alg.elems := rfl

/-- The register read step from its first access to its last (R477). -/
theorem run_read {k : StepKind} (hk : k.event = none) (alg : Alg) (out : Buf) (fs : List Frame) (s : State)
    (hs : s.thread.stack = readFrames s.cfg alg out alg.digestBytes ++ fs) (ns : s.thread.stopped = false) (hw : s.cfg.Wf)
    (hb : s.sha.busy = false) (hm : s.sha.modeEff = some alg) (hv : (s.bufReads out 0 alg.digestBytes).isSome) :
    ∃ v, runSchedule (List.replicate (readSteps s.cfg alg out) k) s =
      .next (((s.setMem (memWrites s.mem out.addr (digest alg s.sha.h))).setVal v).resume fs) := by
  have hp := elems_pos alg
  rw [readFrames, elems_eq, if_neg (by omega)] at hs
  unfold readSteps
  split at hs
  · next h0 =>
    rw [if_pos h0]
    obtain ⟨v, hr⟩ := run_readWords hk alg out fs alg.elems s 0 hp (by omega) (by simpa using hs) ns hw hb hm
      hv
    refine ⟨v, ?_⟩
    rw [hr, digest_eq, Nat.mul_zero, Nat.add_zero, List.range_eq_range']
  · next h0 =>
    rw [if_neg h0]
    have hdl := digest_length alg s.sha.h
    exact run_readBytes hk alg out s.mem fs alg.elems s 0 hv hp (by omega) (by simpa using hs) ns hw hb hm (by
      rw [Nat.mul_zero, Nat.sub_zero, List.drop_eq_nil_of_le (by omega)]; rfl)

/-- hca_sha_read from call to return, on an idle unit and a valid output buffer (R477). -/
theorem run_hcaShaRead (hd : HandleRef) (alg : Alg) (out : Buf) (s : State) (ns : s.thread.stopped = false)
    (hw : s.cfg.Wf) (hb : s.sha.busy = false) (hm : s.sha.modeEff = some alg)
    (hv : (s.bufReads out 0 alg.digestBytes).isSome) :
    ∃ t v, execHcaShaRead hd alg out alg.digestBytes s = .next t ∧
      runSchedule (List.replicate (readSteps s.cfg alg out) s.hostKind) t =
        .next (((s.setMem (memWrites s.mem out.addr (digest alg s.sha.h))).setVal v).resume s.thread.stack) := by
  obtain ⟨v, hr⟩ := run_read (hostKind_event s) alg out s.thread.stack
    (s.push (readFrames s.cfg alg out alg.digestBytes)) (by simp) (by simpa using ns) (by simpa using hw)
    (by simpa using hb) (by simpa using hm) (by simpa using hv)
  refine ⟨_, v, rfl, ?_⟩
  rw [State.push_cfg] at hr
  rw [hr]
  simp [State.push_eq, State.resume]

end Sys2Proof.Machine
end

