-- ==== Sys2Proof/Laws/HwFinish.lean ====
section
/-! SUPPORT. Laws/HwFinish.lean: hca_sha_finish from call to return (R475, R476). -/

namespace Sys2Proof.Machine

theorem native_digestBytes (alg : Alg) : (BitVec.ofNat 64 alg.digestBytes).toNat = alg.digestBytes := by
  cases alg <;> rfl

/-- The length word as the procedures load it (R206). -/
theorem capacity_toNat {s : State} {a : Buf} {n : Native} {cap : List Byte}
    (h : s.bufReads a 0 n.bytes = some cap) : (BitVec.ofNat 64 (leVal cap)).toNat = leVal cap := by
  have hl := State.bufReads_length h
  rw [BitVec.toNat_ofNat, Nat.mod_eq_of_lt]
  have := leVal_lt cap
  rw [hl] at this
  cases n <;> simp only [Native.bytes] at this <;> omega

/-- The end state of a finish. -/
def finishEnd (s : State) (c : Nat) (alg : Alg) (out outlen : Buf) (h : HashState) (fs : List Frame) (x : Inputs)
    (b : Vector Byte 128) (v : Word64) : State :=
  ((((((s.withInputs x).setSha { s.sha with blk := b, h := h }).setMem
    (memWrites (memWrites s.mem out.addr (digest alg h)) outlen.addr (leBytes s.cfg.native.bytes alg.digestBytes))).setCtx c
      { s.ctx c with life := .consumed }).setVal v).setCode .ok).resume fs

/-- hca_sha_finish from the first final block on (R475, R476). -/
theorem run_finishBlocks {k : StepKind} (hk : k.event = none) (c : Nat) (alg : Alg) (out outlen : Buf) (fs : List Frame)
    (blocks : List (List Byte)) (s : State) (hl : ∀ b ∈ blocks, b.length = alg.blockBytes)
    (hs : s.thread.stack = (finishNext c alg out outlen blocks s).2 ++ fs) (ns : s.thread.stopped = false)
    (hw : s.cfg.Wf) (hu : ShaIdle s.sha alg) (ho : (s.bufReads out 0 alg.digestBytes).isSome)
    (hlw : (s.bufReads outlen 0 s.cfg.native.bytes).isSome) (hca : (s.ctx c).alg = alg) (hf : SubmitsSucceed s blocks.length) :
    ∃ x b v, runSchedule (finishSteps k s.cfg alg out blocks.length) s =
      .next (finishEnd s c alg out outlen (blocks.foldl (compress alg) s.sha.h) fs x b v) := by
  induction blocks generalizing s with
  | nil =>
    simp only [finishNext, hca, List.append_assoc, List.singleton_append] at hs
    obtain ⟨v, h1⟩ := run_read hk alg out (.finishRead c alg outlen :: fs) s hs ns hw hu.2.1 hu.1 ho
    rw [resume_go (t := (s.setMem (memWrites s.mem out.addr (digest alg s.sha.h))).setVal v)
      (g := .finishLen c outlen alg.digestBytes) (gs := []) (by simpa using ns) rfl] at h1
    set s1 := ((s.setMem (memWrites s.mem out.addr (digest alg s.sha.h))).setVal v).setStack
      ([.finishLen c outlen alg.digestBytes] ++ fs) with hs1
    refine ⟨s.inputs, s.sha.blk, v, ?_⟩
    refine runSchedule_trans h1 (runSchedule_one ?_)
    rw [runStep_host hk]
    have hst : (s1.bufReads outlen 0 s1.cfg.native.bytes).isSome := by simp [hs1, hlw]
    refine (hostStep_done (f := .finishLen c outlen alg.digestBytes) (fs := fs) (by simp [hs1]) rfl (perform_store (off := 0) hst
      (by omega))
      (by simpa [hs1] using ns) rfl).trans ?_
    rw [native_digestBytes alg]
    simp only [List.foldl_nil, finishEnd, State.withInputs_self]
    simp [hs1, State.resume, State.setLife]
    rfl
  | cons b bs ih =>
    simp only [finishNext, hca, List.append_assoc, List.singleton_append] at hs
    have hbl : b.length = alg.blockBytes := hl b (by simp)
    rw [List.length_cons] at hf
    obtain ⟨v, h1⟩ := run_submit hk alg b 0 (.finishSubmitted c alg out outlen bs :: fs) s hw hbl hs ns hu
    rw [submitCode_of_succeed hf (by omega)] at h1
    set s1 := (((s.withInputs (s.drewN (submitDraws s (0 + 1))).inputs).setSha (s.sha.submitted alg b)).setVal v).setCode
      .ok with hs1
    have hne : (finishNext c alg out outlen bs s1).2 ≠ [] := by cases bs <;> simp [finishNext, submitFrames]
    obtain ⟨g, gs, hg⟩ := List.exists_cons_of_ne_nil hne
    have hfst : (finishNext c alg out outlen bs s1).1 = s1 := by cases bs <;> rfl
    have hfn : finishNext c alg out outlen bs s1 = (s1, g :: gs) := by rw [← hg, ← hfst]; cases bs <;> rfl
    rw [resume_go (t := s1) (g := g) (gs := gs) (by simpa [hs1] using ns) (by
      simp only [Frame.onReturn, finishSubmittedNext]
      rw [if_pos (by simp [hs1]), hfn])] at h1
    set s2 := s1.setStack (g :: gs ++ fs) with hs2
    have hsha : s2.sha = s.sha.submitted alg b := by simp [hs2, hs1]
    have hfn2 : (finishNext c alg out outlen bs s2).2 = g :: gs := by
      rw [← hg]; cases bs <;> simp [finishNext, hs2]
    obtain ⟨x, bb, v', hrun⟩ := ih s2 (fun y hy => hl y (by simp [hy])) (by rw [hfn2]; simp [hs2])
      (by simpa [hs2, hs1] using ns) (by simpa [hs2, hs1] using hw)
      (by rw [hsha]; exact ⟨hu.1, rfl, rfl⟩) (by simpa [hs2, hs1] using ho) (by simpa [hs2, hs1] using hlw)
      (by simpa [hs2, hs1] using hca)
      (submitsSucceed_tail hf (by simp [hs2, hs1]) (by simp [hs2, hs1]))
    refine ⟨x, bb, v', ?_⟩
    rw [List.length_cons, finishSteps]
    have e1 : submitSteps k alg = List.replicate (alg.blockBytes / alg.fifoBytes) k ++ List.replicate 0 k ++
        [.shaCompress, k] := by simp [submitSteps]
    rw [e1]
    refine runSchedule_trans h1 ?_
    have hcfg : s2.cfg = s.cfg := by simp [hs2, hs1]
    rw [hcfg] at hrun
    rw [hrun]
    have hsub : ({ s.sha.submitted alg b with blk := bb, h := bs.foldl (compress alg) (compress alg s.sha.h b) } : ShaUnit) =
        { s.sha with blk := bb, h := bs.foldl (compress alg) (compress alg s.sha.h b) } := by
      simp only [ShaUnit.submitted, hu.2.1, hu.2.2]
    have hh : (s.sha.submitted alg b).h = compress alg s.sha.h b := rfl
    simp only [finishEnd, hsha, hcfg, List.foldl_cons, hh, hsub]
    simp [hs2, hs1, State.resume]

/-- hca_sha_finish from call to return, on valid output and length buffers of enough capacity and no failing submission
(R475). -/
theorem run_hcaShaFinish (c : Nat) (out outlen : Buf) (s : State) (hw : s.cfg.Wf) (ns : s.thread.stopped = false)
    (hi : s.inIsr = false) (hl : (s.ctx c).life = .active) (hu : ShaIdle s.sha (s.ctx c).alg) (cap : List Byte)
    (hc : s.bufReads outlen 0 s.cfg.native.bytes = some cap) (hn : (s.ctx c).alg.digestBytes ≤ leVal cap)
    (ho : (s.bufReads out 0 (s.ctx c).alg.digestBytes).isSome)
    (hf : SubmitsSucceed s
      (finalBlocks (s.ctx c).alg (buffered (s.ctx c).alg (s.ctx c)) (s.ctx c).bitlen).length) :
    ∃ t x b v, execHcaShaFinish .present (some c) (some out) (some outlen) s = .next t ∧
      runSchedule (s.hostKind :: finishSteps s.hostKind s.cfg (s.ctx c).alg out
          (finalBlocks (s.ctx c).alg (buffered (s.ctx c).alg (s.ctx c)) (s.ctx c).bitlen).length) t =
        .next (finishEnd s c (s.ctx c).alg out outlen
          ((finalBlocks (s.ctx c).alg (buffered (s.ctx c).alg (s.ctx c)) (s.ctx c).bitlen).foldl
            (compress (s.ctx c).alg) s.sha.h) s.thread.stack x b v) := by
  set alg := (s.ctx c).alg with halg
  set blocks := finalBlocks alg (buffered alg (s.ctx c)) (s.ctx c).bitlen with hblocks
  have hcap := capacity_toNat hc
  have hidx : (buffered alg (s.ctx c)).length < alg.blockBytes := by rw [buffered_length]; exact idx_lt _ _
  set s0 := s.push [.finishCap c alg out outlen] with hs0
  have hctx0 : s0.ctx c = s.ctx c := by simp [hs0]
  set w := BitVec.ofNat 64 (leVal cap) with hwv
  have hp : perform (.load s.cfg.native.bytes outlen 0) s0 = .next (s0.setVal w) := perform_load (by simpa [hs0] using hc)
  have hne : (finishNext c alg out outlen blocks (s0.setVal w)).2 ≠ [] := by
    cases blocks <;> simp [finishNext, submitFrames]
  obtain ⟨g, gs, hg⟩ := List.exists_cons_of_ne_nil hne
  have hfn : finishNext c alg out outlen blocks (s0.setVal w) = (s0.setVal w, g :: gs) := by
    rw [← hg]; cases blocks <;> rfl
  have hgw : g.onReturn (s0.setVal w) = none := by
    have hwn : (alg.blockBytes / alg.fifoBytes) ≠ 0 := by cases alg <;> decide
    obtain ⟨n, hn'⟩ := Nat.exists_eq_succ_of_ne_zero hwn
    have hmem : blocks ≠ [] := by
      rw [hblocks, finalBlocks]; split <;> simp
    obtain ⟨b, bs, hb⟩ := List.exists_cons_of_ne_nil hmem
    have hbl : b.length = alg.blockBytes :=
      finalBlocks_length hidx (s.ctx c).bitlen (by rw [← hblocks, hb]; simp)
    rw [hb] at hg
    simp only [finishNext, submitFrames, List.cons_append, List.cons.injEq] at hg
    rw [← hg.1, hbl, show ((s0.setVal w).ctx c).alg = alg by simp [hs0, halg], hn']
    rfl
  have h1 : hostStep s0 = .next ((s0.setVal w).setStack (g :: gs ++ s.thread.stack)) := by
    refine hostStep_more (f := .finishCap c alg out outlen) (fs := s.thread.stack) (u := s0.setVal w) (g := g) (gs := gs)
      (by simp [hs0]) (by simp [Frame.access, hs0]) hp (by simpa [hs0] using ns) ?_ hgw
    simp only [Frame.onAccess, finishCapLoaded, State.setVal_thread, hcap, if_neg (Nat.not_lt.mpr hn), State.setVal_ctx,
      hctx0]
    exact hfn
  set s1 := (s0.setVal w).setStack (g :: gs ++ s.thread.stack) with hs1
  have hfn2 : (finishNext c alg out outlen blocks s1).2 = g :: gs := by
    rw [← hg]; cases blocks <;> simp [finishNext, hs1]
  obtain ⟨x, b, v, hrun⟩ := run_finishBlocks (hostKind_event s) c alg out outlen s.thread.stack blocks s1
    (fun b hb => finalBlocks_length hidx _ hb) (by rw [hfn2]; simp [hs1])
    (by simpa [hs1, hs0] using ns) (by simpa [hs1, hs0] using hw) (by simpa [hs1, hs0] using hu)
    (by simpa [hs1, hs0] using ho) (by simp [hs1, hs0, hc]) (by simp [hs1, hs0, halg])
    (submitsSucceed_of_eq hf (by simp [hs1, hs0]) (by simp [hs1, hs0]))
  refine ⟨s0, x, b, v, ?_, ?_⟩
  · simp [execHcaShaFinish, hl, hi, State.begin, hs0, halg]
  · refine runSchedule_cons (by rw [runStep_host (hostKind_event s)]; exact h1) ?_
    have hcfg : s1.cfg = s.cfg := by simp [hs1, hs0]
    rw [hcfg] at hrun
    rw [hrun]
    have hsha : s1.sha = s.sha := by simp [hs1, hs0]
    simp only [finishEnd, hsha, hcfg]
    simp [hs1, hs0, State.push_eq, State.resume]

end Sys2Proof.Machine
end

