-- ==== Sys2Proof/Laws/PerInstr.lean ====
section
/-! SUPPORT. Laws/PerInstr.lean: one lemma per operation of the family TxShape: an operation has a transaction's bytes exactly
when its row is of kind bus (R310, R316), and they are no longer than the longest transaction (R300). -/

namespace Sys2Proof.Laws

/-- The operation has a descriptor exactly when it is a bus transaction, and its bytes fit the longest transaction. -/
def TxShape.Statement (i : Instr) : Prop :=
  ∀ L : Layout, (encode L i).isSome = (i.kind == .bus) ∧ ((encode L i).getD []).length ≤ maxTxBytes

theorem bytesOfWord_length (k : Nat) (v : Word64) : (bytesOfWord k v).length = k := by
  induction k generalizing v with
  | zero => rfl
  | succ k ih => simp [bytesOfWord, ih]

theorem txBytes_length_le (d : BitVec 16) (v : Word64) : (txBytes d v).length ≤ maxTxBytes := by
  simp only [txBytes, List.length_cons, bytesOfWord_length, maxTxBytes]
  cases descW d <;> cases descS d <;> simp [dataBytes]

/-- A bus transaction. -/
theorem txShape_bus {i : Instr} (hk : i.kind = .bus) (p : Layout → BitVec 16 × Word64) (h : ∀ L, encodeTx L i = some (p L)) :
    TxShape.Statement i := by
  intro L
  rw [encode, h]
  exact ⟨by rw [hk]; rfl, txBytes_length_le _ _⟩

/-- An event or a procedure. -/
theorem txShape_none {i : Instr} (hk : (i.kind == .bus) = false) (h : ∀ L, encodeTx L i = none) : TxShape.Statement i := by
  intro L
  rw [encode, h]
  exact ⟨by rw [hk]; rfl, by simp⟩

theorem TxShape.rd32ShaCr : TxShape.Statement (.rd32ShaCr) :=
  txShape_bus rfl _ fun _ => rfl
theorem TxShape.wr32ShaCr (v : Word32) : TxShape.Statement (.wr32ShaCr v) :=
  txShape_bus rfl _ fun _ => rfl
theorem TxShape.rd32ShaSr : TxShape.Statement (.rd32ShaSr) :=
  txShape_bus rfl _ fun _ => rfl
theorem TxShape.wr32FifoIn (v : Word32) : TxShape.Statement (.wr32FifoIn v) :=
  txShape_bus rfl _ fun _ => rfl
theorem TxShape.wr64FifoIn (v : Word64) : TxShape.Statement (.wr64FifoIn v) :=
  txShape_bus rfl _ fun _ => rfl
theorem TxShape.rd32Hash (j : Fin 16) : TxShape.Statement (.rd32Hash j) :=
  txShape_bus rfl _ fun _ => rfl
theorem TxShape.rd64Hash (e : Fin 8) : TxShape.Statement (.rd64Hash e) :=
  txShape_bus rfl _ fun _ => rfl
theorem TxShape.rd32TrngRev : TxShape.Statement (.rd32TrngRev) :=
  txShape_bus rfl _ fun _ => rfl
theorem TxShape.rd32TrngCr : TxShape.Statement (.rd32TrngCr) :=
  txShape_bus rfl _ fun _ => rfl
theorem TxShape.wr32TrngCr (v : Word32) : TxShape.Statement (.wr32TrngCr v) :=
  txShape_bus rfl _ fun _ => rfl
theorem TxShape.rd32TrngSr : TxShape.Statement (.rd32TrngSr) :=
  txShape_bus rfl _ fun _ => rfl
theorem TxShape.rd32TrngTrim : TxShape.Statement (.rd32TrngTrim) :=
  txShape_bus rfl _ fun _ => rfl
theorem TxShape.wr32TrngTrim (v : Word32) : TxShape.Statement (.wr32TrngTrim v) :=
  txShape_bus rfl _ fun _ => rfl
theorem TxShape.rd32TrngData : TxShape.Statement (.rd32TrngData) :=
  txShape_bus rfl _ fun _ => rfl
theorem TxShape.busError (w s : Bool) (rsv : BitVec 2) (off : BitVec 12) (v : Word64) : TxShape.Statement (.busError w s rsv off v) :=
  txShape_bus rfl _ fun _ => rfl
theorem TxShape.shaCompress : TxShape.Statement (.shaCompress) :=
  txShape_none rfl fun _ => rfl
theorem TxShape.trngHtComplete : TxShape.Statement (.trngHtComplete) :=
  txShape_none rfl fun _ => rfl
theorem TxShape.trngSample : TxShape.Statement (.trngSample) :=
  txShape_none rfl fun _ => rfl
theorem TxShape.irqDeliver : TxShape.Statement (.irqDeliver) :=
  txShape_none rfl fun _ => rfl
theorem TxShape.hcaShaInit (h : HandleRef) (ctx : Option Nat) (tag : Tag) (endian : Endian) : TxShape.Statement (.hcaShaInit h ctx tag endian) :=
  txShape_none rfl fun _ => rfl
theorem TxShape.hcaShaUpdate (h : HandleRef) (ctx : Option Nat) (data : Option Buf) (len : Nat) : TxShape.Statement (.hcaShaUpdate h ctx data len) :=
  txShape_none rfl fun _ => rfl
theorem TxShape.hcaShaSubmit (h : HandleRef) (blk : List Byte) (alg : Alg) : TxShape.Statement (.hcaShaSubmit h blk alg) :=
  txShape_none rfl fun _ => rfl
theorem TxShape.hcaShaFinish (h : HandleRef) (ctx : Option Nat) (out outlen : Option Buf) : TxShape.Statement (.hcaShaFinish h ctx out outlen) :=
  txShape_none rfl fun _ => rfl
theorem TxShape.hcaShaRead (h : HandleRef) (alg : Alg) (out : Buf) (n : Nat) : TxShape.Statement (.hcaShaRead h alg out n) :=
  txShape_none rfl fun _ => rfl
theorem TxShape.sha224Init (ctx : Option Nat) (endian : Endian) : TxShape.Statement (.sha224Init ctx endian) :=
  txShape_none rfl fun _ => rfl
theorem TxShape.sha256Init (ctx : Option Nat) (endian : Endian) : TxShape.Statement (.sha256Init ctx endian) :=
  txShape_none rfl fun _ => rfl
theorem TxShape.sha384Init (ctx : Option Nat) (endian : Endian) : TxShape.Statement (.sha384Init ctx endian) :=
  txShape_none rfl fun _ => rfl
theorem TxShape.sha512Init (ctx : Option Nat) (endian : Endian) : TxShape.Statement (.sha512Init ctx endian) :=
  txShape_none rfl fun _ => rfl
theorem TxShape.sha224Update (ctx : Option Nat) (data : Option Buf) (len : Nat) : TxShape.Statement (.sha224Update ctx data len) :=
  txShape_none rfl fun _ => rfl
theorem TxShape.sha256Update (ctx : Option Nat) (data : Option Buf) (len : Nat) : TxShape.Statement (.sha256Update ctx data len) :=
  txShape_none rfl fun _ => rfl
theorem TxShape.sha384Update (ctx : Option Nat) (data : Option Buf) (len : Nat) : TxShape.Statement (.sha384Update ctx data len) :=
  txShape_none rfl fun _ => rfl
theorem TxShape.sha512Update (ctx : Option Nat) (data : Option Buf) (len : Nat) : TxShape.Statement (.sha512Update ctx data len) :=
  txShape_none rfl fun _ => rfl
theorem TxShape.sha224Finish (ctx : Option Nat) (out outlen : Option Buf) : TxShape.Statement (.sha224Finish ctx out outlen) :=
  txShape_none rfl fun _ => rfl
theorem TxShape.sha256Finish (ctx : Option Nat) (out outlen : Option Buf) : TxShape.Statement (.sha256Finish ctx out outlen) :=
  txShape_none rfl fun _ => rfl
theorem TxShape.sha384Finish (ctx : Option Nat) (out outlen : Option Buf) : TxShape.Statement (.sha384Finish ctx out outlen) :=
  txShape_none rfl fun _ => rfl
theorem TxShape.sha512Finish (ctx : Option Nat) (out outlen : Option Buf) : TxShape.Statement (.sha512Finish ctx out outlen) :=
  txShape_none rfl fun _ => rfl
theorem TxShape.shaInit (ctx : Option Nat) (tag : Tag) (endian : Endian) : TxShape.Statement (.shaInit ctx tag endian) :=
  txShape_none rfl fun _ => rfl
theorem TxShape.shaUpdate (ctx : Option Nat) (data : Option Buf) (len : Nat) : TxShape.Statement (.shaUpdate ctx data len) :=
  txShape_none rfl fun _ => rfl
theorem TxShape.shaFinish (ctx : Option Nat) (out outlen : Option Buf) : TxShape.Statement (.shaFinish ctx out outlen) :=
  txShape_none rfl fun _ => rfl
theorem TxShape.trngInit (h : HandleRef) : TxShape.Statement (.trngInit h) :=
  txShape_none rfl fun _ => rfl
theorem TxShape.trngAcquireBlocking (h : HandleRef) : TxShape.Statement (.trngAcquireBlocking h) :=
  txShape_none rfl fun _ => rfl
theorem TxShape.trngAcquireAsync (h : HandleRef) (dst : Option Buf) (cb : Option Nat) : TxShape.Statement (.trngAcquireAsync h dst cb) :=
  txShape_none rfl fun _ => rfl
theorem TxShape.trngIsr (c : HandleRef) : TxShape.Statement (.trngIsr c) :=
  txShape_none rfl fun _ => rfl

end Sys2Proof.Laws
end

