-- ==== Sys2Proof/Laws/SwRun.lean ====
section
/-! SUPPORT. Laws/SwRun.lean: the software engine's procedures from call to return (R501 to R503): which steps their agent
takes and the state they end in. -/

namespace Sys2Proof.Machine

/-- SwUpdate's loop from the load of data byte i on (R502). -/
theorem run_swLoad {k : StepKind} (hk : k.event = none) (c : Nat) (alg : Alg) (data : Buf) (len n : Nat) (fs : List Frame)
    (all bs : List Byte) (s : State) (i idx : Nat) (hs : s.thread.stack = .swLoad c alg data len i idx :: fs)
    (ns : s.thread.stopped = false) (hm : s.bufReads data 0 n = some all) (hd : all.drop i = bs) (h0 : bs ≠ [])
    (hl : i + bs.length = len) :
    ∃ v, runSchedule (List.replicate bs.length k) s =
      .next ((((s.setCtx c ((absorbList alg idx bs (s.ctx c)).addLen len)).setVal v).setCode .ok).resume fs) := by
  induction bs generalizing s i idx with
  | nil => exact absurd rfl h0
  | cons b bs ih =>
    simp only [List.length_cons] at hl
    have hp := perform_load_byte hm hd
    have ha : (Frame.swLoad c alg data len i idx).access s = some (.load 1 data i) := rfl
    have ho : (Frame.swLoad c alg data len i idx).onAccess (s.setVal (b.setWidth 64)).thread.val
        (s.setVal (b.setWidth 64)) = swLoaded c alg data len i idx (b.setWidth 64) (s.setVal (b.setWidth 64)) := by
      simp [Frame.onAccess]
    have nsv : (s.setVal (b.setWidth 64)).thread.stopped = false := by simpa using ns
    rw [List.length_cons, List.replicate_succ]
    by_cases hbs : bs = []
    · subst hbs
      have hlt : ¬ i + 1 < len := by simp at hl; omega
      refine ⟨b.setWidth 64, ?_⟩
      apply runSchedule_one
      rw [runStep_host hk]
      refine hostStep_done hs ha hp nsv ?_
      rw [ho, swLoaded, if_neg hlt]
      simp [State.ends, absorbList]
    · have hlt : i + 1 < len := by
        have := List.length_pos_of_ne_nil hbs
        omega
      have h1 : hostStep s = .next (((s.setVal (b.setWidth 64)).setCtx c ((s.ctx c).absorb alg idx b)).setStack
          (.swLoad c alg data len (i + 1) (nextIdx alg idx) :: fs)) := by
        refine hostStep_more (g := .swLoad c alg data len (i + 1) (nextIdx alg idx)) (gs := []) hs ha hp nsv ?_ rfl
        rw [ho, swLoaded, if_pos hlt]
        simp
      obtain ⟨v, hv⟩ := ih (((s.setVal (b.setWidth 64)).setCtx c ((s.ctx c).absorb alg idx b)).setStack
        (.swLoad c alg data len (i + 1) (nextIdx alg idx) :: fs)) (i + 1) (nextIdx alg idx) (by simp) (by simpa using ns)
        (by simpa using hm) (by rw [← List.drop_drop, hd]; rfl) hbs (by omega)
      refine ⟨v, ?_⟩
      refine runSchedule_cons (by rw [runStep_host hk]; exact h1) ?_
      rw [hv]
      simp [State.resume, absorbList]

/-- SwUpdate from call to return, on a valid data buffer of at least one byte (R502). -/
theorem run_swUpdate (alg : Alg) (c : Nat) (data : Buf) (bs : List Byte) (s : State) (ns : s.thread.stopped = false)
    (hl : (s.ctx c).life = .active) (hm : s.bufReads data 0 bs.length = some bs) (h0 : bs ≠ []) :
    ∃ t v, swUpdate alg (some c) (some data) bs.length s = .next t ∧
      runSchedule (List.replicate bs.length s.hostKind) t =
        .next ((((s.setCtx c ((absorbList alg ((s.ctx c).idx alg) bs (s.ctx c)).addLen bs.length)).setVal v).setCode
          .ok).resume s.thread.stack) := by
  have hlen : bs.length ≠ 0 := by simpa using h0
  refine ⟨s.push [.swLoad c alg data bs.length 0 ((s.ctx c).idx alg)], ?_⟩
  obtain ⟨v, hv⟩ := run_swLoad (hostKind_event s) c alg data bs.length bs.length s.thread.stack bs bs
    (s.push [.swLoad c alg data bs.length 0 ((s.ctx c).idx alg)]) 0 ((s.ctx c).idx alg) (by simp) (by simpa using ns)
    (by simpa using hm) rfl h0 (by simp)
  refine ⟨v, ?_, ?_⟩
  · simp [swUpdate, hl, hlen, State.begin]
  · rw [hv]; simp [State.push_eq, State.resume]

/-- SwFinish's stores of the digest bytes from place j on, then of the length word (R503). -/
theorem run_swFinishOut {k : StepKind} (hk : k.event = none) (c : Nat) (alg : Alg) (out outlen : Buf) (fs : List Frame)
    (bs : List Byte) (s : State) (j : Nat) (hs : s.thread.stack = .swFinishOut c alg out outlen j :: fs)
    (ns : s.thread.stopped = false) (hd : (digest alg (s.ctx c).acc).drop j = bs) (h0 : bs ≠ [])
    (hm : (s.bufReads out 0 alg.digestBytes).isSome) (hw : (s.bufReads outlen 0 s.cfg.native.bytes).isSome) :
    runSchedule (List.replicate (bs.length + 1) k) s =
      .next ((((s.setMem (memWrites (memWrites s.mem (out.addr + j) bs) outlen.addr
        (leBytes s.cfg.native.bytes (BitVec.ofNat 64 alg.digestBytes).toNat))).setCtx c
          { s.ctx c with life := .consumed }).setCode .ok).resume fs) := by
  induction bs generalizing s j with
  | nil => exact absurd rfl h0
  | cons b bs ih =>
    have hlen : j + (bs.length + 1) = alg.digestBytes := by
      have e := congrArg List.length hd
      rw [List.length_drop, digest_length, List.length_cons] at e
      omega
    have hb : swDigestByte c alg j s = b := by
      
      have e : (digest alg (s.ctx c).acc)[j]? = some b := by rw [← List.head?_drop, hd]; rfl
      rw [swDigestByte, List.getD_eq_getElem?_getD, e]; rfl
    have ha : (Frame.swFinishOut c alg out outlen j).access s = some (.store 1 out j (b.setWidth 64)) := by
      rw [← hb]; rfl
    have hp := perform_store_byte (off := j) (b := b) hm (by omega)
    have nsv : (s.setMem (memWrite s.mem (out.addr + j) b)).thread.stopped = false := by simpa using ns
    rw [List.length_cons, List.replicate_succ]
    by_cases hbs : bs = []
    · subst hbs
      have h1 : hostStep s = .next ((s.setMem (memWrite s.mem (out.addr + j) b)).setStack
          (.finishLen c outlen alg.digestBytes :: fs)) := by
        refine hostStep_more (g := .finishLen c outlen alg.digestBytes) (gs := []) hs ha hp nsv ?_ rfl
        have : ¬ j + 1 < alg.digestBytes := by simp at hlen; omega
        simp [Frame.onAccess, swFinishStored, this]
      refine runSchedule_cons (by rw [runStep_host hk]; exact h1) (runSchedule_one ?_)
      rw [runStep_host hk]
      have hw' : (((s.setMem (memWrite s.mem (out.addr + j) b)).setStack
          (.finishLen c outlen alg.digestBytes :: fs)).bufReads outlen 0 s.cfg.native.bytes).isSome := by
        simpa using hw
      refine (hostStep_done (f := .finishLen c outlen alg.digestBytes) (fs := fs) (by simp) rfl
        (perform_store (off := 0) hw' (by simp)) (by simpa using ns) rfl).trans ?_
      simp [State.setLife, State.resume, memWrites]
    · have hne := List.length_pos_of_ne_nil hbs
      have h1 : hostStep s = .next ((s.setMem (memWrite s.mem (out.addr + j) b)).setStack
          (.swFinishOut c alg out outlen (j + 1) :: fs)) := by
        refine hostStep_more (g := .swFinishOut c alg out outlen (j + 1)) (gs := []) hs ha hp nsv ?_ rfl
        have : j + 1 < alg.digestBytes := by omega
        simp [Frame.onAccess, swFinishStored, this]
      refine runSchedule_cons (by rw [runStep_host hk]; exact h1) ?_
      rw [ih _ (j + 1) (by simp) (by simpa using ns) (by simp [← List.drop_drop, hd]) hbs (by simpa using hm)
        (by simpa using hw)]
      simp [State.resume, memWrites, Nat.add_assoc]

/-- SwFinish from call to return, on valid output and length buffers of enough capacity (R503). -/
theorem run_swFinish (alg : Alg) (c : Nat) (out outlen : Buf) (s : State) (ns : s.thread.stopped = false)
    (hl : (s.ctx c).life = .active) (cap : List Byte) (hc : s.bufReads outlen 0 s.cfg.native.bytes = some cap)
    (hn : alg.digestBytes ≤ leVal cap) (ho : (s.bufReads out 0 alg.digestBytes).isSome) :
    ∃ t v, swFinish alg (some c) (some out) (some outlen) s = .next t ∧
      runSchedule (List.replicate (alg.digestBytes + 2) s.hostKind) t =
        .next (((((s.setMem (memWrites (memWrites s.mem out.addr (digest alg ((s.ctx c).finalize alg).acc)) outlen.addr
          (leBytes s.cfg.native.bytes alg.digestBytes))).setCtx c
            { (s.ctx c).finalize alg with life := .consumed }).setVal v).setCode .ok).resume s.thread.stack) := by
  have hcl := State.bufReads_length hc
  have hv : (BitVec.ofNat 64 (leVal cap)).toNat = leVal cap := by
    rw [BitVec.toNat_ofNat, Nat.mod_eq_of_lt]
    have := leVal_lt cap
    rw [hcl] at this
    cases hx : s.cfg.native <;> rw [hx] at this <;> simp only [Native.bytes] at this <;> omega
  have hd : (BitVec.ofNat 64 alg.digestBytes).toNat = alg.digestBytes := by cases alg <;> rfl
  have hpos : 0 < alg.digestBytes := by cases alg <;> decide
  refine ⟨s.push [.swFinishCap c alg out outlen], BitVec.ofNat 64 (leVal cap), ?_, ?_⟩
  · simp [swFinish, hl, State.begin]
  · set s0 := s.push [.swFinishCap c alg out outlen] with hs0
    have hs : s0.thread.stack = .swFinishCap c alg out outlen :: s.thread.stack := by simp [hs0]
    have hp : perform (.load s.cfg.native.bytes outlen 0) s0 = .next (s0.setVal (BitVec.ofNat 64 (leVal cap))) :=
      perform_load (by simpa [hs0] using hc)
    have h1 : hostStep s0 = .next (((s0.setVal (BitVec.ofNat 64 (leVal cap))).setCtx c ((s.ctx c).finalize alg)).setStack
        (.swFinishOut c alg out outlen 0 :: s.thread.stack)) := by
      refine hostStep_more (g := .swFinishOut c alg out outlen 0)
        (gs := []) hs (by simp [Frame.access, hs0]) hp (by simpa [hs0] using ns) ?_ rfl
      simp only [Frame.onAccess, swFinishCapLoaded, State.setVal_thread, hv, if_neg (Nat.not_lt.mpr hn), State.setVal_ctx]
      simp [hs0]
    rw [show alg.digestBytes + 2 = (alg.digestBytes + 1) + 1 from rfl, List.replicate_succ]
    refine runSchedule_cons (by rw [runStep_host (hostKind_event s)]; exact h1) ?_
    have hdl := digest_length alg ((s.ctx c).finalize alg).acc
    have := run_swFinishOut (hostKind_event s) c alg out outlen s.thread.stack
      (digest alg ((s.ctx c).finalize alg).acc)
      (((s0.setVal (BitVec.ofNat 64 (leVal cap))).setCtx c ((s.ctx c).finalize alg)).setStack
        (.swFinishOut c alg out outlen 0 :: s.thread.stack)) 0
      (by simp) (by simpa [hs0] using ns) (by simp) (by intro e; rw [e] at hdl; simp at hdl; omega)
      (by simpa [hs0] using ho) (by simp [hs0, hc])
    rw [hdl] at this
    rw [this]
    simp [hs0, State.push_eq, State.resume, hd]

end Sys2Proof.Machine
end

