-- ==== Sys2Proof/Laws/TrngRun.lean ====
section
/-! SUPPORT. Laws/TrngRun.lean: the TRNG driver's procedures from call to return (R570 to R573, R576): which steps happen and
the state they end in. -/

namespace Sys2Proof.Machine

/-! ### Read-modify-write of TRNG_CR and TRNG_TRIM (R315, R726) -/

/-- rmw32 TRNG_CR: the read, then the write (R315). -/
theorem run_rmwCr {k : StepKind} (hk : k.event = none) (clr set : Word32) (start ie : Bool) (fs : List Frame) (s : State)
    (hs : s.thread.stack = .rmwRead s.cfg.layout.trngCr clr set :: fs) (ns : s.thread.stopped = false) (hw : s.cfg.Wf)
    (hp : s.trngPresent = true)
    (hv : ∀ x, crHtstart s.cfg ((trngCrValue s.cfg s.trng x &&& ~~~clr) ||| set) = start ∧
      crIe s.cfg ((trngCrValue s.cfg s.trng x &&& ~~~clr) ||| set) = ie) :
    ∃ v, runSchedule [k, k] s =
      .next ((((s.withInputs (s.drewN (if s.trng.aborts start then 2 else 1)).inputs).setTrng
        (s.trng.writeCr start ie (htsBits s.cfg.htsW ((s.drewN 1).drawn.setWidth 32)))).setVal v).resume fs) := by
  set r := trngCrValue s.cfg s.trng s.drawn32 with hr
  set w := (r &&& ~~~clr) ||| set with hwv
  have hv1 : crHtstart s.cfg w = start := (hv s.drawn32).1
  have hv2 : crIe s.cfg w = ie := (hv s.drawn32).2
  have h1 : hostStep s = .next ((s.drew.setVal (r.setWidth 64)).setStack (.rmwWrite s.cfg.layout.trngCr w :: fs)) := by
    refine hostStep_more (u := s.drew.setVal (r.setWidth 64)) (g := .rmwWrite s.cfg.layout.trngCr w) (gs := []) hs rfl
      (perform_readTrngCr hw hp) (by simpa using ns) ?_ rfl
    simp [Frame.onAccess, hwv, hr]
  set s1 := (s.drew.setVal (r.setWidth 64)).setStack (.rmwWrite s.cfg.layout.trngCr w :: fs) with hs1
  have hcfg : s1.cfg = s.cfg := by simp [hs1]
  have htr : s1.trng = s.trng := by simp [hs1]
  have hpr : s1.trngPresent = true := by simpa [hs1] using hp
  have hdr : s1.drawn = (s.drewN 1).drawn := drawn_of_inputs (by simp [hs1]; rfl)
  refine ⟨r.setWidth 64, ?_⟩
  refine runSchedule_cons (by rw [runStep_host hk]; exact h1) (runSchedule_one ?_)
  rw [runStep_host hk]
  have hpf : perform (Access.write32 s.cfg.layout.trngCr w) s1 =
      .next ((if s.trng.aborts start then s1.drew else s1).setTrng
        (s.trng.writeCr start ie (htsBits s.cfg.htsW ((s.drewN 1).drawn.setWidth 32)))) := by
    have := perform_writeTrngCr (s := s1) (by rw [hcfg]; exact hw) w
    rw [hcfg] at this
    rw [this]
    simp only [execWr32TrngCr, State.ifTrng, hpr, if_true, hcfg, htr, State.drawn32, hdr, hv1, hv2]
  by_cases hab : s.trng.aborts start = true
  · rw [if_pos hab] at hpf ⊢
    refine (hostStep_done (f := .rmwWrite s.cfg.layout.trngCr w) (fs := fs) (by simp [hs1]) rfl hpf
      (by simpa [hs1] using ns) rfl).trans ?_
    have : s.drew.drew = s.withInputs (s.drewN 2).inputs := rfl
    simp [hs1, State.resume, this]
  · rw [if_neg hab] at hpf ⊢
    refine (hostStep_done (f := .rmwWrite s.cfg.layout.trngCr w) (fs := fs) (by simp [hs1]) rfl hpf
      (by simpa [hs1] using ns) rfl).trans ?_
    have : s.drew = s.withInputs (s.drewN 1).inputs := rfl
    rw [← this]
    simp [hs1, State.resume]

/-- rmw32 TRNG_TRIM, 0, LOCK (R570): the trim is locked, its value unchanged. -/
theorem run_rmwLock {k : StepKind} (hk : k.event = none) (fs : List Frame) (s : State)
    (hs : s.thread.stack = .rmwRead s.cfg.layout.trngTrim 0 (bitMask s.cfg.layout.lockBit) :: fs)
    (ns : s.thread.stopped = false) (hw : s.cfg.Wf) (hp : s.trngPresent = true) :
    ∃ v, runSchedule [k, k] s = .next (((s.setTrng { s.trng with lock := true }).setVal v).resume fs) := by
  set r := trngTrimValue s.cfg s.trng with hr
  set w := (r &&& ~~~(0 : Word32)) ||| bitMask s.cfg.layout.lockBit with hwv
  have hv1 : trimVal s.cfg w = s.trng.trimVal := (rmw_set_lock hw s.trng).1
  have hv2 : trimLock s.cfg w = true := (rmw_set_lock hw s.trng).2
  have h1 : hostStep s = .next ((s.setVal (r.setWidth 64)).setStack (.rmwWrite s.cfg.layout.trngTrim w :: fs)) := by
    refine hostStep_more (u := s.setVal (r.setWidth 64)) (g := .rmwWrite s.cfg.layout.trngTrim w) (gs := []) hs rfl
      (perform_readTrngTrim hw hp) (by simpa using ns) ?_ rfl
    simp [Frame.onAccess, hwv, hr]
  set s1 := (s.setVal (r.setWidth 64)).setStack (.rmwWrite s.cfg.layout.trngTrim w :: fs) with hs1
  have hcfg : s1.cfg = s.cfg := by simp [hs1]
  have htr : s1.trng = s.trng := by simp [hs1]
  refine ⟨r.setWidth 64, ?_⟩
  refine runSchedule_cons (by rw [runStep_host hk]; exact h1) (runSchedule_one ?_)
  rw [runStep_host hk]
  have hpf : perform (Access.write32 s.cfg.layout.trngTrim w) s1 = .next (s1.setTrng { s.trng with lock := true }) := by
    have := perform_writeTrngTrim (s := s1) (by rw [hcfg]; exact hw) (by simpa [hs1] using hp) w
    rw [hcfg] at this
    rw [this, htr]
    simp [TrngUnit.writeTrim, hv1, hv2]
  refine (hostStep_done (f := .rmwWrite s.cfg.layout.trngTrim w) (fs := fs) (by simp [hs1]) rfl hpf
    (by simpa [hs1] using ns) rfl).trans ?_
  simp [hs1, State.resume]

/-! ### The status poll of the health test (R570) -/

/-- The status read while the test runs: on to the data (R570, R553). -/
theorem hostStep_statusRunning {s : State} {fs : List Frame} (hs : s.thread.stack = .trngInitStatus :: fs)
    (ns : s.thread.stopped = false) (hw : s.cfg.Wf) (hp : s.trngPresent = true) (hh : s.trng.htr = true) :
    ∃ v, hostStep s = .next ((s.drew.setVal v).setStack (.trngInitData :: fs)) := by
  refine ⟨(trngSrValue s.cfg s.trng s.drawn32).setWidth 64,
    hostStep_more (u := s.drew.setVal ((trngSrValue s.cfg s.trng s.drawn32).setWidth 64)) (g := .trngInitData) (gs := [])
      hs rfl (perform_readTrngSr hw hp) (by simpa using ns) ?_ rfl⟩
  have := htr_trngSrValue hw s.trng s.drawn32
  rw [hh] at this
  simp [Frame.onAccess, trngInitStatusNext, this]

/-- The status read once the test is complete: HTS decides (R570, R553). -/
theorem hostStep_statusDone {s : State} {fs : List Frame} (hs : s.thread.stack = .trngInitStatus :: fs)
    (ns : s.thread.stopped = false) (hw : s.cfg.Wf) (hp : s.trngPresent = true) (hh : s.trng.htr = false)
    (hi : htsBits s.cfg.htsW s.trng.hts = s.trng.hts) :
    ∃ v, hostStep s = .next ((s.drew.setVal v).setStack
      (.rmwRead s.cfg.layout.trngCr (bitMask s.cfg.layout.htstartBit) 0 ::
        .trngInitCleared (if s.trng.hts = 0 then .ok else .rngError) :: fs)) := by
  refine ⟨(trngSrValue s.cfg s.trng s.drawn32).setWidth 64,
    hostStep_more (u := s.drew.setVal ((trngSrValue s.cfg s.trng s.drawn32).setWidth 64))
      (g := .rmwRead s.cfg.layout.trngCr (bitMask s.cfg.layout.htstartBit) 0)
      (gs := [.trngInitCleared (if s.trng.hts = 0 then .ok else .rngError)])
      hs rfl (perform_readTrngSr hw hp) (by simpa using ns) ?_ rfl⟩
  have h1 := htr_trngSrValue hw s.trng s.drawn32
  have h2 := hts_trngSrValue hw s.trng s.drawn32 hh
  rw [hh] at h1
  rw [hi] at h2
  simp only [Frame.onAccess, trngInitStatusNext, State.setVal_thread, setWidth_setWidth_32, State.setVal_cfg,
    State.drew_cfg, h1, h2, Bool.false_eq_true, if_false, leaveTest]
  split <;> rfl

/-- A data read during the test (R556): a draw, nothing consumed. -/
theorem perform_dataInTest {s : State} (hw : s.cfg.Wf) (hp : s.trngPresent = true) (hh : s.trng.htstart = true) :
    perform (Access.read32 s.cfg.layout.trngData) s = .next (s.drew.setVal (s.drawn32.setWidth 64)) := by
  rw [perform_readTrngData hw, execRd32TrngData, State.ifTrng, if_pos hp]
  simp [hh]

/-- A data read of 0 during the test: on to the next status read (R570). -/
theorem hostStep_dataZero {s : State} {fs : List Frame} (hs : s.thread.stack = .trngInitData :: fs)
    (ns : s.thread.stopped = false) (hw : s.cfg.Wf) (hp : s.trngPresent = true) (hh : s.trng.htstart = true)
    (hz : s.drawn32 = 0) : hostStep s = .next ((s.drew.setVal (s.drawn32.setWidth 64)).setStack (.trngInitStatus :: fs)) := by
  refine hostStep_more (u := s.drew.setVal (s.drawn32.setWidth 64)) (g := .trngInitStatus) (gs := []) hs rfl
    (perform_dataInTest hw hp hh) (by simpa using ns) ?_ rfl
  simp [Frame.onAccess, trngInitDataNext, hz]

/-- A non-zero data read during the test: the test has failed (R570, R654). -/
theorem hostStep_dataNonzero {s : State} {fs : List Frame} (hs : s.thread.stack = .trngInitData :: fs)
    (ns : s.thread.stopped = false) (hw : s.cfg.Wf) (hp : s.trngPresent = true) (hh : s.trng.htstart = true)
    (hz : s.drawn32 ≠ 0) :
    hostStep s = .next ((s.drew.setVal (s.drawn32.setWidth 64)).setStack
      (.rmwRead s.cfg.layout.trngCr (bitMask s.cfg.layout.htstartBit) 0 :: .trngInitCleared .rngError :: fs)) := by
  refine hostStep_more (u := s.drew.setVal (s.drawn32.setWidth 64))
    (g := .rmwRead s.cfg.layout.trngCr (bitMask s.cfg.layout.htstartBit) 0) (gs := [.trngInitCleared .rngError]) hs rfl
    (perform_dataInTest hw hp hh) (by simpa using ns) ?_ rfl
  have hz' : ¬ s.drawn32 = 0#32 := hz
  simp [Frame.onAccess, trngInitDataNext, hz', leaveTest]

/-- m iterations of the test loop in which the test runs and the data reads 0 (R570). -/
theorem run_testLoop {k : StepKind} (hk : k.event = none) (fs : List Frame) (m : Nat) (s : State)
    (hs : s.thread.stack = .trngInitStatus :: fs) (ns : s.thread.stopped = false) (hw : s.cfg.Wf)
    (hp : s.trngPresent = true) (hh : s.trng.htstart = true) (hr : s.trng.htr = true)
    (hz : ∀ j < m, (s.drewN (2 * j + 1)).drawn32 = 0) :
    ∃ v, runSchedule (List.replicate (2 * m) k) s = .next ((s.withInputs (s.drewN (2 * m)).inputs).setVal v) := by
  induction m with
  | zero => exact ⟨s.thread.val, by simp [runSchedule, State.drewN]⟩
  | succ m ih =>
    obtain ⟨v, hv⟩ := ih fun j hj => hz j (by omega)
    set s1 := (s.withInputs (s.drewN (2 * m)).inputs).setVal v with hs1
    obtain ⟨w, h1⟩ := hostStep_statusRunning (s := s1) (fs := fs) (by simp [hs1, hs]) (by simpa [hs1] using ns)
      (by simpa [hs1] using hw) (by simpa [hs1] using hp) (by simpa [hs1] using hr)
    set s2 := (s1.drew.setVal w).setStack (.trngInitData :: fs) with hs2
    have hin : s2.inputs = (s.drewN (2 * m + 1)).inputs := by simp [hs2, hs1]
    have hd : s2.drawn32 = 0 := by
      have := hz m (by omega)
      rwa [State.drawn32, drawn_of_inputs hin]
    have h2 := hostStep_dataZero (s := s2) (fs := fs) (by simp [hs2]) (by simpa [hs2, hs1] using ns)
      (by simpa [hs2, hs1] using hw) (by simpa [hs2, hs1] using hp) (by simpa [hs2, hs1] using hh) hd
    refine ⟨s2.drawn32.setWidth 64, ?_⟩
    rw [show 2 * (m + 1) = 2 * m + 2 by omega, List.replicate_add]
    refine runSchedule_trans hv (runSchedule_cons (by rw [runStep_host hk]; exact h1) (runSchedule_one ?_))
    rw [runStep_host hk, h2]
    have e : s1.drew.drew = (s.withInputs (s.drewN (2 * m + 2)).inputs).setVal v := by
      simp [hs1]
    have e2 : (s.withInputs (s.drewN (2 * m + 2)).inputs).thread.stack = .trngInitStatus :: fs := by simp [hs]
    congr 1
    simp only [hs2, State.setStack_drew, State.setVal_drew, e, State.setStack_setVal, State.setVal_setVal,
      State.setStack_setStack]
    rw [← e2]
    have := State.setStack_self ((s.withInputs (s.drewN (2 * m + 2)).inputs).setVal (s2.drawn32.setWidth 64))
    rw [State.setVal_thread] at this
    exact this

/-- trng_init up to its first status read, from NORMAL (R570). -/
theorem run_trngInitStart (s : State) (hw : s.cfg.Wf) (ns : s.thread.stopped = false) (hi : s.inIsr = false)
    (hsl : s.slot = none) (hp : s.trngPresent = true) (hh : s.trng.htstart = false) :
    ∃ t v, execTrngInit .present s = .next t ∧
      runSchedule (List.replicate 5 s.hostKind) t =
        .next ((((s.withInputs (s.drewN 1).inputs).setTrng s.trng.testing).setVal v).setStack
          (.trngInitStatus :: s.thread.stack)) := by
  have hk := hostKind_event s
  set fs := s.thread.stack with hfs
  set s0 := s.push [.trngInitRev] with hs0
  have hrev : (s.cfg.trngRev.setWidth 64).setWidth 32 ≠ (0 : Word32) := by
    rw [setWidth_setWidth_32]; simpa [State.trngPresent] using hp
  have h1 : hostStep s0 = .next ((s.setVal (s.cfg.trngRev.setWidth 64)).setStack
      (.rmwRead s.cfg.layout.trngTrim 0 (bitMask s.cfg.layout.lockBit) :: .trngInitTrimmed :: fs)) := by
    refine (hostStep_more (f := .trngInitRev) (fs := fs) (u := s0.setVal (s.cfg.trngRev.setWidth 64))
      (g := .rmwRead s.cfg.layout.trngTrim 0 (bitMask s.cfg.layout.lockBit)) (gs := [.trngInitTrimmed]) (by simp [hs0, hfs])
      rfl (perform_readTrngRev (by simpa [hs0] using hw)) (by simpa [hs0] using ns) ?_ rfl).trans ?_
    · simp only [Frame.onAccess, trngInitRevNext, State.setVal_thread]
      rw [if_neg (by simpa [hs0] using hrev)]
      simp [hs0]
    · simp [hs0, State.push_eq]
  set s1 := (s.setVal (s.cfg.trngRev.setWidth 64)).setStack
      (.rmwRead s.cfg.layout.trngTrim 0 (bitMask s.cfg.layout.lockBit) :: .trngInitTrimmed :: fs) with hs1
  obtain ⟨v2, h2⟩ := run_rmwLock hk (.trngInitTrimmed :: fs) s1 (by simp [hs1]) (by simpa [hs1] using ns)
    (by simpa [hs1] using hw) (by simpa [hs1] using hp)
  rw [resume_go (t := (s1.setTrng { s1.trng with lock := true }).setVal v2)
    (g := .rmwRead s.cfg.layout.trngCr 0 (bitMask s.cfg.layout.htstartBit)) (gs := [.trngInitStarted])
    (by simpa [hs1] using ns) (by simp [Frame.onReturn, trngInitTrimmedNext, hs1])] at h2
  set s2 := ((s1.setTrng { s1.trng with lock := true }).setVal v2).setStack
    ([.rmwRead s.cfg.layout.trngCr 0 (bitMask s.cfg.layout.htstartBit), .trngInitStarted] ++ fs) with hs2
  have hcfg2 : s2.cfg = s.cfg := by simp [hs2, hs1]
  have htr2 : s2.trng = { s.trng with lock := true } := by simp [hs2, hs1]
  obtain ⟨v3, h3⟩ := run_rmwCr hk 0 (bitMask s.cfg.layout.htstartBit) true s2.trng.ie (.trngInitStarted :: fs) s2
    (by simp [hs2, hs1]) (by simpa [hs2, hs1] using ns) (by rw [hcfg2]; exact hw) (by simpa [hs2, hs1] using hp)
    (fun x => by rw [hcfg2]; exact rmw_set_htstart hw s2.trng x)
  have hab : s2.trng.aborts true = false := by simp [TrngUnit.aborts]
  have hwr : ∀ y, s2.trng.writeCr true s2.trng.ie y = s.trng.testing := by
    intro y
    simp [TrngUnit.writeCr, htr2, hh, TrngUnit.testing]
  rw [hab, hwr] at h3
  simp only [Bool.false_eq_true, if_false] at h3
  have hin : (s2.drewN 1).inputs = (s.drewN 1).inputs := drewN_inputs_of_inputs (by simp [hs2, hs1]) 1
  rw [hin] at h3
  rw [resume_go (t := ((s2.withInputs (s.drewN 1).inputs).setTrng s.trng.testing).setVal v3) (g := .trngInitStatus)
    (gs := []) (by simpa [hs2, hs1] using ns) rfl] at h3
  refine ⟨s0, v3, by simp [execTrngInit, hi, hsl, State.begin, hs0], ?_⟩
  have e5 : List.replicate 5 s.hostKind = s.hostKind :: ([s.hostKind, s.hostKind] ++ [s.hostKind, s.hostKind]) := rfl
  rw [e5]
  refine runSchedule_cons (by rw [runStep_host hk]; exact h1) (runSchedule_trans h2 ?_)
  rw [h3]
  simp [hs2, hs1]

/-- Leaving test mode and returning (R570, R725). -/
theorem run_leaveTest {k : StepKind} (hk : k.event = none) (c : Code) (fs : List Frame) (s : State)
    (hs : s.thread.stack = .rmwRead s.cfg.layout.trngCr (bitMask s.cfg.layout.htstartBit) 0 :: .trngInitCleared c :: fs)
    (ns : s.thread.stopped = false) (hw : s.cfg.Wf) (hp : s.trngPresent = true) :
    ∃ x v, runSchedule [k, k] s =
      .next (((((s.withInputs x).setTrng
        (s.trng.writeCr false s.trng.ie (htsBits s.cfg.htsW ((s.drewN 1).drawn.setWidth 32)))).setVal v).setCode c).resume
          fs) := by
  obtain ⟨v, h⟩ := run_rmwCr hk (bitMask s.cfg.layout.htstartBit) 0 false s.trng.ie (.trngInitCleared c :: fs) s hs ns hw hp
    fun x => rmw_clear_htstart hw s.trng x
  refine ⟨(s.drewN (if s.trng.aborts false then 2 else 1)).inputs, v, h.trans ?_⟩
  rw [resume_pop (by simpa using ns) rfl]

/-- trng_init from call to return, m iterations of the test loop reading 0 and then the completion of the test: Ok exactly
when the status drawn at completion is 0 (R570). -/
theorem run_trngInit_complete (m : Nat) (s : State) (hw : s.cfg.Wf) (ns : s.thread.stopped = false)
    (hi : s.inIsr = false) (hsl : s.slot = none) (hp : s.trngPresent = true) (hh : s.trng.htstart = false)
    (hz : ∀ j < m, (s.drewN (2 * j + 2)).drawn32 = 0) :
    ∃ t x v, execTrngInit .present s = .next t ∧
      runSchedule (List.replicate 5 s.hostKind ++ List.replicate (2 * m) s.hostKind ++ [.trngHtComplete] ++
          List.replicate 3 s.hostKind) t =
        .next (((((s.withInputs x).setTrng { s.trng with
          lock := true, htstart := false, htr := false, rdy := false
          hts := htsBits s.cfg.htsW (s.drewN (2 * m + 1)).drawn32 }).setVal v).setCode
            (if htsBits s.cfg.htsW (s.drewN (2 * m + 1)).drawn32 = 0 then .ok else .rngError)).resume s.thread.stack) := by
  have hk := hostKind_event s
  obtain ⟨t, v1, ht, h1⟩ := run_trngInitStart s hw ns hi hsl hp hh
  set fs := s.thread.stack with hfs
  set s1 := (((s.withInputs (s.drewN 1).inputs).setTrng s.trng.testing).setVal v1).setStack (.trngInitStatus :: fs) with hs1
  have hin1 : s1.inputs = (s.drewN 1).inputs := by simp [hs1]
  obtain ⟨v2, h2⟩ := run_testLoop hk fs m s1 (by simp [hs1]) (by simpa [hs1] using ns) (by simpa [hs1] using hw)
    (by simpa [hs1] using hp) (by simp [hs1, TrngUnit.testing]) (by simp [hs1, TrngUnit.testing]) (by
      intro j hj
      have := hz j hj
      rw [State.drawn32, drewN_drawn_of_inputs hin1, drewN_drewN]
      rwa [show 1 + (2 * j + 1) = 2 * j + 2 by omega])
  set s2 := (s1.withInputs (s1.drewN (2 * m)).inputs).setVal v2 with hs2
  have hin2 : s2.inputs = (s.drewN (2 * m + 1)).inputs := by
    have : (s1.drewN (2 * m)).inputs = ((s.drewN 1).drewN (2 * m)).inputs := drewN_inputs_of_inputs hin1 _
    simp only [hs2, State.setVal_inputs, State.withInputs_inputs, this, drewN_drewN, Nat.add_comm]
  set d := htsBits s.cfg.htsW (s.drewN (2 * m + 1)).drawn32 with hd
  have hd2 : htsBits s.cfg.htsW s2.drawn32 = d := by rw [hd, State.drawn32, State.drawn32, drawn_of_inputs hin2]
  set s3 := s2.drew.setTrng { s.trng.testing with htr := false, hts := d } with hs3
  have h3 : runStep .trngHtComplete s2 = .next s3 := by
    have hen : s2.htCompleteEnabled = true := by
      simp only [State.htCompleteEnabled, Bool.and_eq_true]
      exact ⟨by simpa [hs2, hs1] using hp, by simp [hs2, hs1, TrngUnit.testing]⟩
    have hcfg : s2.cfg = s.cfg := by simp [hs2, hs1]
    have htr : s2.trng = s.trng.testing := by simp [hs2, hs1]
    simp only [runStep, exec, execTrngHtComplete, hen, if_true, hcfg, hd2, htr, hs3]
  have hcfg3 : s3.cfg = s.cfg := by simp [hs3, hs2, hs1]
  obtain ⟨v4, h4⟩ := hostStep_statusDone (s := s3) (fs := fs) (by simp [hs3, hs2, hs1]) (by simpa [hs3, hs2, hs1] using ns)
    (by rw [hcfg3]; exact hw) (by simpa [hs3, hs2, hs1] using hp) (by simp [hs3])
    (by rw [hcfg3]; simp [hs3, hd])
  set c : Code := if s3.trng.hts = 0 then .ok else .rngError with hc
  set s4 := (s3.drew.setVal v4).setStack
    (.rmwRead s3.cfg.layout.trngCr (bitMask s3.cfg.layout.htstartBit) 0 :: .trngInitCleared c :: fs) with hs4
  have hcfg4 : s4.cfg = s3.cfg := by simp [hs4]
  obtain ⟨x, v5, h5⟩ := run_leaveTest hk c fs s4 (by rw [hcfg4]; simp [hs4]) (by simpa [hs4, hs3, hs2, hs1] using ns)
    (by rw [hcfg4, hcfg3]; exact hw) (by simpa [hs4, hs3, hs2, hs1] using hp)
  refine ⟨t, x, v5, ht, ?_⟩
  have e3 : List.replicate 3 s.hostKind = s.hostKind :: [s.hostKind, s.hostKind] := rfl
  rw [e3, List.append_assoc, List.append_assoc]
  refine runSchedule_trans h1 (runSchedule_trans h2 (runSchedule_cons h3 (runSchedule_cons (t := s4) ?_ ?_)))
  · rw [runStep_host hk]; exact h4
  · rw [h5]
    have hts3 : s3.trng.hts = d := by simp [hs3]
    have htr4 : s4.trng = { s.trng.testing with htr := false, hts := d } := by simp [hs4, hs3]
    have hwr : ∀ y, s4.trng.writeCr false s4.trng.ie y =
        { s.trng with lock := true, htstart := false, htr := false, rdy := false, hts := d } := by
      intro y
      rw [htr4]
      simp [TrngUnit.writeCr, TrngUnit.aborts, TrngUnit.testing]
    rw [hwr, hc, hts3]
    simp [hs4, hs3, hs2, hs1, State.resume]

/-- trng_init from call to return when the data read after m zero reads is not 0: RngError, test mode left (R570, R654). -/
theorem run_trngInit_nonzero (m : Nat) (s : State) (hw : s.cfg.Wf) (ns : s.thread.stopped = false)
    (hi : s.inIsr = false) (hsl : s.slot = none) (hp : s.trngPresent = true) (hh : s.trng.htstart = false)
    (hz : ∀ j < m, (s.drewN (2 * j + 2)).drawn32 = 0) (hnz : (s.drewN (2 * m + 2)).drawn32 ≠ 0) :
    ∃ t x y v, execTrngInit .present s = .next t ∧
      runSchedule (List.replicate 5 s.hostKind ++ List.replicate (2 * m) s.hostKind ++ List.replicate 4 s.hostKind) t =
        .next (((((s.withInputs x).setTrng { s.trng with
          lock := true, htstart := false, htr := false, rdy := false, hts := htsBits s.cfg.htsW y }).setVal v).setCode
            .rngError).resume s.thread.stack) := by
  have hk := hostKind_event s
  obtain ⟨t, v1, ht, h1⟩ := run_trngInitStart s hw ns hi hsl hp hh
  set fs := s.thread.stack with hfs
  set s1 := (((s.withInputs (s.drewN 1).inputs).setTrng s.trng.testing).setVal v1).setStack (.trngInitStatus :: fs) with hs1
  have hin1 : s1.inputs = (s.drewN 1).inputs := by simp [hs1]
  obtain ⟨v2, h2⟩ := run_testLoop hk fs m s1 (by simp [hs1]) (by simpa [hs1] using ns) (by simpa [hs1] using hw)
    (by simpa [hs1] using hp) (by simp [hs1, TrngUnit.testing]) (by simp [hs1, TrngUnit.testing]) (by
      intro j hj
      have := hz j hj
      rw [State.drawn32, drewN_drawn_of_inputs hin1, drewN_drewN]
      rwa [show 1 + (2 * j + 1) = 2 * j + 2 by omega])
  set s2 := (s1.withInputs (s1.drewN (2 * m)).inputs).setVal v2 with hs2
  have hin2 : s2.inputs = (s.drewN (2 * m + 1)).inputs := by
    have : (s1.drewN (2 * m)).inputs = ((s.drewN 1).drewN (2 * m)).inputs := drewN_inputs_of_inputs hin1 _
    simp only [hs2, State.setVal_inputs, State.withInputs_inputs, this, drewN_drewN, Nat.add_comm]
  obtain ⟨v3, h3⟩ := hostStep_statusRunning (s := s2) (fs := fs) (by simp [hs2, hs1]) (by simpa [hs2, hs1] using ns)
    (by simpa [hs2, hs1] using hw) (by simpa [hs2, hs1] using hp) (by simp [hs2, hs1, TrngUnit.testing])
  set s3 := (s2.drew.setVal v3).setStack (.trngInitData :: fs) with hs3
  have hin3 : s3.inputs = (s.drewN (2 * m + 2)).inputs := by
    simp only [hs3, State.setStack_inputs, State.setVal_inputs]
    exact drew_inputs_of_inputs hin2
  have h4 := hostStep_dataNonzero (s := s3) (fs := fs) (by simp [hs3]) (by simpa [hs3, hs2, hs1] using ns)
    (by simpa [hs3, hs2, hs1] using hw) (by simpa [hs3, hs2, hs1] using hp) (by simp [hs3, hs2, hs1, TrngUnit.testing])
    (by rwa [State.drawn32, drawn_of_inputs hin3])
  set s4 := (s3.drew.setVal (s3.drawn32.setWidth 64)).setStack
    (.rmwRead s3.cfg.layout.trngCr (bitMask s3.cfg.layout.htstartBit) 0 :: .trngInitCleared .rngError :: fs) with hs4
  have hcfg4 : s4.cfg = s3.cfg := by simp [hs4]
  have hcfg3 : s3.cfg = s.cfg := by simp [hs3, hs2, hs1]
  obtain ⟨x, v5, h5⟩ := run_leaveTest hk .rngError fs s4 (by rw [hcfg4]; simp [hs4])
    (by simpa [hs4, hs3, hs2, hs1] using ns) (by rw [hcfg4, hcfg3]; exact hw) (by simpa [hs4, hs3, hs2, hs1] using hp)
  refine ⟨t, x, (s4.drewN 1).drawn.setWidth 32, v5, ht, ?_⟩
  have e4 : List.replicate 4 s.hostKind = s.hostKind :: s.hostKind :: [s.hostKind, s.hostKind] := rfl
  rw [e4, List.append_assoc]
  refine runSchedule_trans h1 (runSchedule_trans h2 (runSchedule_cons (t := s3) ?_ (runSchedule_cons (t := s4) ?_ ?_)))
  · rw [runStep_host hk]; exact h3
  · rw [runStep_host hk]; exact h4
  · rw [h5]
    have htr4 : s4.trng = s.trng.testing := by simp [hs4, hs3, hs2, hs1]
    have hwr : ∀ y, s4.trng.writeCr false s4.trng.ie y =
        { s.trng with lock := true, htstart := false, htr := false, rdy := false, hts := y } := by
      intro y
      rw [htr4]
      simp [TrngUnit.writeCr, TrngUnit.aborts, TrngUnit.testing]
    rw [hwr, hcfg4, hcfg3]
    simp [hs4, hs3, hs2, hs1, State.resume]

/-! ### trng_acquire_blocking (R571) -/

/-- The read of TRNG_REV finds the TRNG present. -/
theorem trngRev_ne {s : State} (hp : s.trngPresent = true) : (s.cfg.trngRev.setWidth 64).setWidth 32 ≠ (0 : Word32) := by
  rw [setWidth_setWidth_32]; simpa [State.trngPresent] using hp

/-- One iteration of the poll for RDY = 1 once a sample is ready: the poll ends (R315, R553). -/
theorem hostStep_pollReady {s : State} {fs : List Frame} (hw : s.cfg.Wf) (hp : s.trngPresent = true)
    (hs : s.thread.stack = .poll s.cfg.layout.trngSr (bitMask s.cfg.layout.rdyBit) (bitMask s.cfg.layout.rdyBit) :: fs)
    (ns : s.thread.stopped = false) (hr : s.trng.rdy = true) :
    ∃ v, hostStep s = .next ((s.drew.setVal v).resume fs) := by
  refine ⟨(trngSrValue s.cfg s.trng s.drawn32).setWidth 64,
    hostStep_done (u := s.drew.setVal ((trngSrValue s.cfg s.trng s.drawn32).setWidth 64)) hs rfl
      (perform_readTrngSr hw hp) (by simpa using ns) ?_⟩
  have h1 : trngSrValue s.cfg s.trng s.drawn32 &&& bitMask s.cfg.layout.rdyBit = bitMask s.cfg.layout.rdyBit := by
    rw [and_bitMask_eq_bitMask hw.2.1.2.2.2.1.2.1, rdy_trngSrValue hw, hr]
  simp only [Frame.onAccess, State.setVal_thread, setWidth_setWidth_32, h1, if_true]

/-- One iteration while no sample is ready: the poll goes on (R315, R553). -/
theorem hostStep_pollUnready {s : State} {fs : List Frame} (hw : s.cfg.Wf) (hp : s.trngPresent = true)
    (hs : s.thread.stack = .poll s.cfg.layout.trngSr (bitMask s.cfg.layout.rdyBit) (bitMask s.cfg.layout.rdyBit) :: fs)
    (ns : s.thread.stopped = false) (hr : s.trng.rdy = false) :
    ∃ v, hostStep s = .next (s.drew.setVal v) := by
  have h1 : ¬ trngSrValue s.cfg s.trng s.drawn32 &&& bitMask s.cfg.layout.rdyBit = bitMask s.cfg.layout.rdyBit := by
    rw [and_bitMask_eq_bitMask hw.2.1.2.2.2.1.2.1, rdy_trngSrValue hw, hr]; simp
  refine ⟨((trngSrValue s.cfg s.trng s.drawn32).setWidth 64), ?_⟩
  rw [hostStep_more (u := s.drew.setVal ((trngSrValue s.cfg s.trng s.drawn32).setWidth 64))
    (g := .poll s.cfg.layout.trngSr (bitMask s.cfg.layout.rdyBit) (bitMask s.cfg.layout.rdyBit)) (gs := []) hs rfl
    (perform_readTrngSr hw hp) (by simpa using ns) ?_ rfl]
  · congr 1
    have : (s.drew.setVal ((trngSrValue s.cfg s.trng s.drawn32).setWidth 64)).thread.stack =
        .poll s.cfg.layout.trngSr (bitMask s.cfg.layout.rdyBit) (bitMask s.cfg.layout.rdyBit) :: fs := by simpa using hs
    simp only [List.singleton_append, ← this, State.setStack_self]
  · simp only [Frame.onAccess, State.setVal_thread, setWidth_setWidth_32, h1, if_false]

/-- p polls while no sample is ready. -/
theorem run_pollUnready {k : StepKind} (hk : k.event = none) (fs : List Frame) (p : Nat) (s : State) (hw : s.cfg.Wf)
    (hp : s.trngPresent = true)
    (hs : s.thread.stack = .poll s.cfg.layout.trngSr (bitMask s.cfg.layout.rdyBit) (bitMask s.cfg.layout.rdyBit) :: fs)
    (ns : s.thread.stopped = false) (hr : s.trng.rdy = false) :
    ∃ v, runSchedule (List.replicate p k) s = .next ((s.withInputs (s.drewN p).inputs).setVal v) := by
  induction p with
  | zero => exact ⟨s.thread.val, by simp [runSchedule, State.drewN]⟩
  | succ p ih =>
    obtain ⟨v, hv⟩ := ih
    obtain ⟨v', hv'⟩ := hostStep_pollUnready (s := (s.withInputs (s.drewN p).inputs).setVal v) (fs := fs)
      (by simpa using hw) (by simpa using hp) (by simpa using hs) (by simpa using ns) (by simpa using hr)
    refine ⟨v', ?_⟩
    rw [List.replicate_succ']
    refine runSchedule_trans hv (runSchedule_one ?_)
    rw [runStep_host hk, hv']
    simp

/-- From the poll that finds a sample ready to the return: the sample is the agent's value, and consumed (R571, R556). -/
theorem run_takeSample {k : StepKind} (hk : k.event = none) (fs : List Frame) (s : State) (hw : s.cfg.Wf)
    (hp : s.trngPresent = true)
    (hs : s.thread.stack = .poll s.cfg.layout.trngSr (bitMask s.cfg.layout.rdyBit) (bitMask s.cfg.layout.rdyBit) ::
      .blockingPolled :: fs)
    (ns : s.thread.stopped = false) (hr : s.trng.rdy = true) (hh : s.trng.htstart = false) :
    runSchedule [k, k] s = .next (((((s.withInputs (s.drewN 1).inputs).setTrng { s.trng with rdy := false }).setVal
      (s.trng.sample.setWidth 64)).setCode .ok).resume fs) := by
  obtain ⟨v, h1⟩ := hostStep_pollReady hw hp hs ns hr
  rw [resume_go (t := s.drew.setVal v) (g := .blockingData) (gs := []) (by simpa using ns) rfl] at h1
  set s1 := (s.drew.setVal v).setStack ([.blockingData] ++ fs) with hs1
  refine runSchedule_cons (by rw [runStep_host hk]; exact h1) (runSchedule_one ?_)
  rw [runStep_host hk]
  have hcfg : s1.cfg = s.cfg := by simp [hs1]
  have htr : s1.trng = s.trng := by simp [hs1]
  have hpf : perform (Access.read32 s1.cfg.layout.trngData) s1 =
      .next ((s1.setTrng { s.trng with rdy := false }).setVal (s.trng.sample.setWidth 64)) := by
    rw [perform_readTrngData (by rw [hcfg]; exact hw), execRd32TrngData, State.ifTrng,
      if_pos (by simpa [hs1] using hp), htr]
    simp [hr, hh]
  refine (hostStep_done (f := .blockingData) (fs := fs)
    (u := ((s1.setTrng { s.trng with rdy := false }).setVal (s.trng.sample.setWidth 64)).setCode .ok)
    (by simp [hs1]) rfl hpf (by simpa [hs1] using ns) rfl).trans ?_
  have : s.drew = s.withInputs (s.drewN 1).inputs := rfl
  rw [← this]
  simp [hs1, State.resume]

/-- The call of trng_acquire_blocking and the read of TRNG_REV: the poll of RDY is what it stands in (R571). -/
theorem run_blockingRev (s : State) (hw : s.cfg.Wf) (ns : s.thread.stopped = false) (hi : s.inIsr = false)
    (hsl : s.slot = none) (hp : s.trngPresent = true) :
    ∃ t v, execTrngAcquireBlocking .present s = .next t ∧ runSchedule [s.hostKind] t =
      .next ((s.setVal v).setStack (.poll s.cfg.layout.trngSr (bitMask s.cfg.layout.rdyBit)
        (bitMask s.cfg.layout.rdyBit) :: .blockingPolled :: s.thread.stack)) := by
  refine ⟨s.push [.blockingRev], s.cfg.trngRev.setWidth 64, by simp [execTrngAcquireBlocking, hi, hsl, State.begin], ?_⟩
  refine runSchedule_one ?_
  rw [runStep_host (hostKind_event s)]
  refine (hostStep_more (f := .blockingRev) (fs := s.thread.stack)
    (u := (s.push [.blockingRev]).setVal (s.cfg.trngRev.setWidth 64))
    (g := .poll s.cfg.layout.trngSr (bitMask s.cfg.layout.rdyBit) (bitMask s.cfg.layout.rdyBit))
    (gs := [.blockingPolled]) (by simp) rfl (perform_readTrngRev (by simpa using hw)) (by simpa using ns) ?_ rfl).trans ?_
  · simp only [Frame.onAccess, blockingRevNext, State.setVal_thread]
    rw [if_neg (by simpa using trngRev_ne hp)]
    simp
  · simp [State.push_eq]

/-- trng_acquire_blocking with a sample ready (R571). -/
theorem run_blocking_ready (s : State) (hw : s.cfg.Wf) (ns : s.thread.stopped = false) (hi : s.inIsr = false)
    (hsl : s.slot = none) (hp : s.trngPresent = true) (hh : s.trng.htstart = false) (hr : s.trng.rdy = true) :
    ∃ t, execTrngAcquireBlocking .present s = .next t ∧ runSchedule (List.replicate 3 s.hostKind) t =
      .next (((((s.withInputs (s.drewN 1).inputs).setTrng { s.trng with rdy := false }).setVal
        (s.trng.sample.setWidth 64)).setCode .ok).resume s.thread.stack) := by
  obtain ⟨t, v, ht, h1⟩ := run_blockingRev s hw ns hi hsl hp
  refine ⟨t, ht, ?_⟩
  set s1 := (s.setVal v).setStack (.poll s.cfg.layout.trngSr (bitMask s.cfg.layout.rdyBit)
    (bitMask s.cfg.layout.rdyBit) :: .blockingPolled :: s.thread.stack) with hs1
  have h2 := run_takeSample (hostKind_event s) s.thread.stack s1 (by simpa [hs1] using hw) (by simpa [hs1] using hp)
    (by simp [hs1]) (by simpa [hs1] using ns) (by simpa [hs1] using hr) (by simpa [hs1] using hh)
  rw [drewN_inputs_of_inputs (t := s) (by simp [hs1]) 1] at h2
  have := runSchedule_trans h1 h2
  rw [show List.replicate 3 s.hostKind = [s.hostKind] ++ [s.hostKind, s.hostKind] from rfl, this]
  simp [hs1, State.resume]

/-- trng_acquire_blocking with no sample ready: p polls, the sample, and its return (R571, R561). -/
theorem run_blocking_wait (p : Nat) (s : State) (hw : s.cfg.Wf) (ns : s.thread.stopped = false) (hi : s.inIsr = false)
    (hsl : s.slot = none) (hp : s.trngPresent = true) (hh : s.trng.htstart = false) (hr : s.trng.rdy = false) :
    ∃ t, execTrngAcquireBlocking .present s = .next t ∧
      runSchedule ([s.hostKind] ++ List.replicate p s.hostKind ++ [.trngSample] ++ [s.hostKind, s.hostKind]) t =
      .next (((((s.withInputs (s.drewN (p + 2)).inputs).setTrng
        { s.trng with rdy := false, sample := (s.drewN p).drawn32 }).setVal
          ((s.drewN p).drawn32.setWidth 64)).setCode .ok).resume s.thread.stack) := by
  obtain ⟨t, v, ht, h1⟩ := run_blockingRev s hw ns hi hsl hp
  refine ⟨t, ht, ?_⟩
  set s1 := (s.setVal v).setStack (.poll s.cfg.layout.trngSr (bitMask s.cfg.layout.rdyBit)
    (bitMask s.cfg.layout.rdyBit) :: .blockingPolled :: s.thread.stack) with hs1
  have hin1 : s1.inputs = s.inputs := by simp [hs1]
  obtain ⟨v2, h2⟩ := run_pollUnready (hostKind_event s) (.blockingPolled :: s.thread.stack) p s1
    (by simpa [hs1] using hw) (by simpa [hs1] using hp) (by simp [hs1]) (by simpa [hs1] using ns)
    (by simpa [hs1] using hr)
  rw [drewN_inputs_of_inputs hin1 p] at h2
  set s2 := (s1.withInputs (s.drewN p).inputs).setVal v2 with hs2
  have hin2 : s2.inputs = (s.drewN p).inputs := by simp [hs2]
  have hd : s2.drawn32 = (s.drewN p).drawn32 := by rw [State.drawn32, drawn_of_inputs hin2]; rfl
  set s3 := s2.drew.setTrng { s.trng with sample := (s.drewN p).drawn32, rdy := true } with hs3
  have h3 : runStep .trngSample s2 = .next s3 := by
    have hen : s2.sampleEnabled = true := by
      simp only [State.sampleEnabled, Bool.and_eq_true]
      exact ⟨⟨by simpa [hs2, hs1] using hp, by simp [hs2, hs1, hh]⟩, by simp [hs2, hs1, hr]⟩
    have htr : s2.trng = s.trng := by simp [hs2, hs1]
    simp only [runStep, exec, execTrngSample, hen, if_true, hd, htr, hs3]
  have h4 := run_takeSample (hostKind_event s) s.thread.stack s3 (by simpa [hs3, hs2, hs1] using hw)
    (by simpa [hs3, hs2, hs1] using hp) (by simp [hs3, hs2, hs1]) (by simpa [hs3, hs2, hs1] using ns) (by simp [hs3])
    (by simp [hs3, hh])
  have hin3 : (s3.drewN 1).inputs = (s.drewN (p + 2)).inputs :=
    drew_inputs_of_inputs (s := s3) (t := s.drewN (p + 1))
      (by simp only [hs3, State.setTrng_inputs]; exact drew_inputs_of_inputs hin2)
  rw [hin3] at h4
  rw [List.append_assoc, List.append_assoc]
  refine runSchedule_trans h1 (runSchedule_trans h2 (runSchedule_cons h3 (h4.trans ?_)))
  simp [hs3, hs2, hs1, State.resume]

/-- A procedure whose first read finds TRNG_REV = 0 ends there with a code (R557, R570 to R572). -/
theorem run_revAbsent (f : Frame) (c : Code) (s : State) (hw : s.cfg.Wf) (ns : s.thread.stopped = false)
    (ha : ∀ t : State, f.access t = some (Access.read32 t.cfg.layout.trngRev)) (h0 : s.cfg.trngRev = 0)
    (ho : ∀ t : State, f.onAccess 0 t = t.ends c) :
    runSchedule [s.hostKind] (s.push [f]) = .next (((s.setVal 0).setCode c).resume s.thread.stack) := by
  refine runSchedule_one ?_
  rw [runStep_host (hostKind_event s)]
  refine (hostStep_done (f := f) (fs := s.thread.stack) (u := ((s.push [f]).setVal 0).setCode c) (by simp)
    (by simpa using ha (s.push [f])) (t := (s.push [f]).setVal 0) ?_ (by simpa using ns) ?_).trans ?_
  · have := perform_readTrngRev (s := s.push [f]) (by simpa using hw)
    simpa [h0] using this
  · rw [State.setVal_thread]; exact ho _
  · simp [State.push_eq, State.resume]

/-! ### trng_acquire_async (R572, R576) -/

/-- trng_acquire_async whose handler is registered: the request is recorded, IE set, Ok (R572). -/
theorem run_async_ok (dst : Buf) (cb : Nat) (s : State) (hw : s.cfg.Wf) (ns : s.thread.stopped = false)
    (hreg : s.cfg.irqRegister = true) (hd : dst.addr % 4 = 0) (hsl : s.slot = none) (hp : s.trngPresent = true)
    (h0 : s.drawn32 = 0) :
    ∃ t v, execTrngAcquireAsync .present (some dst) (some cb) s = .next t ∧
      runSchedule (List.replicate 3 s.hostKind) t =
        .next (((((((s.withInputs (s.drewN 2).inputs).setTrng { s.trng with ie := true }).setSlot
          (some ⟨dst, cb⟩)).setHandler ⟨.trngIsr, .present⟩).setVal v).setCode .ok).resume s.thread.stack) := by
  have hk := hostKind_event s
  set fs := s.thread.stack with hfs
  set s0 := s.push [.asyncRev dst cb] with hs0
  set s1 := ((((s.drew.setSlot (some ⟨dst, cb⟩)).setHandler ⟨.trngIsr, .present⟩).setVal
    (s.cfg.trngRev.setWidth 64)).setStack
      (.rmwRead s.cfg.layout.trngCr 0 (bitMask s.cfg.layout.ieBit) :: .retCode .ok :: fs)) with hs1
  have h1 : hostStep s0 = .next s1 := by
    refine (hostStep_more (f := .asyncRev dst cb) (fs := fs)
      (u := (((s0.setVal (s.cfg.trngRev.setWidth 64)).drew.setSlot (some ⟨dst, cb⟩)).setHandler ⟨.trngIsr, .present⟩))
      (g := .rmwRead s.cfg.layout.trngCr 0 (bitMask s.cfg.layout.ieBit)) (gs := [.retCode .ok]) (by simp [hs0, hfs])
      rfl (perform_readTrngRev (by simpa [hs0] using hw)) (by simpa [hs0] using ns) ?_ rfl).trans ?_
    · simp only [Frame.onAccess, asyncRevNext, State.setVal_thread]
      rw [if_neg (by simpa [hs0] using trngRev_ne hp), if_neg (by simp [hs0, hsl]),
        if_pos (by simpa [hs0, State.push_eq, State.drawn32] using h0)]
      simp [asyncRegistered, hs0]
    · simp [hs0, State.push_eq, hs1]
  have htr : s1.trng = s.trng := by simp [hs1]
  have hcfg : s1.cfg = s.cfg := by simp [hs1]
  obtain ⟨v, h2⟩ := run_rmwCr hk 0 (bitMask s.cfg.layout.ieBit) s1.trng.htstart true (.retCode .ok :: fs) s1
    (by simp [hs1]) (by simpa [hs1] using ns) (by rw [hcfg]; exact hw) (by simpa [hs1] using hp)
    (fun x => by rw [hcfg]; exact rmw_set_ie hw s1.trng x)
  have hab : s1.trng.aborts s1.trng.htstart = false := by simp [TrngUnit.aborts]
  have hwr : ∀ y, s1.trng.writeCr s1.trng.htstart true y = { s.trng with ie := true } := by
    intro y
    rw [htr]
    cases h : s.trng.htstart <;> simp [TrngUnit.writeCr, TrngUnit.aborts, h]
  have hin : (s1.drewN 1).inputs = (s.drewN 2).inputs :=
    drew_inputs_of_inputs (s := s1) (t := s.drewN 1) (by simp [hs1]; rfl)
  rw [hab, hwr] at h2
  simp only [Bool.false_eq_true, if_false] at h2
  rw [hin, resume_pop (by simpa [hs1] using ns) rfl] at h2
  refine ⟨s0, v, by simp [execTrngAcquireAsync, hreg, hd, State.begin, hs0], ?_⟩
  rw [show List.replicate 3 s.hostKind = s.hostKind :: [s.hostKind, s.hostKind] from rfl]
  refine runSchedule_cons (by rw [runStep_host hk]; exact h1) ?_
  rw [h2]
  simp [hs1, State.resume]

/-- trng_acquire_async whose registration fails: the slot is freed again, Error (R572). -/
theorem run_async_fail (dst : Buf) (cb : Nat) (s : State) (hw : s.cfg.Wf) (ns : s.thread.stopped = false)
    (hreg : s.cfg.irqRegister = true) (hd : dst.addr % 4 = 0) (hsl : s.slot = none) (hp : s.trngPresent = true)
    (h0 : s.drawn32 ≠ 0) :
    ∃ t v, execTrngAcquireAsync .present (some dst) (some cb) s = .next t ∧
      runSchedule [s.hostKind] t =
        .next (((((s.withInputs (s.drewN 1).inputs).setSlot none).setVal v).setCode .error).resume s.thread.stack) := by
  refine ⟨s.push [.asyncRev dst cb], s.cfg.trngRev.setWidth 64,
    by simp [execTrngAcquireAsync, hreg, hd, State.begin], runSchedule_one ?_⟩
  rw [runStep_host (hostKind_event s)]
  refine (hostStep_done (f := .asyncRev dst cb) (fs := s.thread.stack)
    (u := ((((s.push [.asyncRev dst cb]).setVal (s.cfg.trngRev.setWidth 64)).drew.setSlot none).setCode .error))
    (by simp) rfl (perform_readTrngRev (by simpa using hw)) (by simpa using ns) ?_).trans ?_
  · simp only [Frame.onAccess, asyncRevNext, State.setVal_thread]
    rw [if_neg (by simpa using trngRev_ne hp), if_neg (by simp [hsl]),
      if_neg (by simpa [State.push_eq, State.drawn32] using h0)]
    simp [State.ends]
  · have : s.drew = s.withInputs (s.drewN 1).inputs := rfl
    rw [← this]
    simp [State.push_eq, State.resume]

/-- trng_acquire_async while a request is outstanding: Error, nothing else changed (R572, R576). -/
theorem run_async_pending (dst : Buf) (cb : Nat) (s : State) (hw : s.cfg.Wf) (ns : s.thread.stopped = false)
    (hreg : s.cfg.irqRegister = true) (hd : dst.addr % 4 = 0) (hsl : s.slot.isSome = true) (hp : s.trngPresent = true) :
    ∃ t v, execTrngAcquireAsync .present (some dst) (some cb) s = .next t ∧
      runSchedule [s.hostKind] t = .next (((s.setVal v).setCode .error).resume s.thread.stack) := by
  refine ⟨s.push [.asyncRev dst cb], s.cfg.trngRev.setWidth 64,
    by simp [execTrngAcquireAsync, hreg, hd, State.begin], runSchedule_one ?_⟩
  rw [runStep_host (hostKind_event s)]
  refine (hostStep_done (f := .asyncRev dst cb) (fs := s.thread.stack)
    (u := (((s.push [.asyncRev dst cb]).setVal (s.cfg.trngRev.setWidth 64)).setCode .error))
    (by simp) rfl (perform_readTrngRev (by simpa using hw)) (by simpa using ns) ?_).trans ?_
  · simp only [Frame.onAccess, asyncRevNext, State.setVal_thread]
    rw [if_neg (by simpa using trngRev_ne hp), if_pos (by simpa using hsl)]
    simp [State.ends]
  · simp [State.push_eq, State.resume]

/-! ### trng_isr (R573, R216) -/

/-- trng_isr up to the moment its callback begins: the sample is read and stored, IE cleared, the slot freed, in this
order (R573). -/
theorem run_trngIsr (p : Pending) (s : State) (hw : s.cfg.Wf) (ns : s.thread.stopped = false) (hsl : s.slot = some p)
    (hp : s.trngPresent = true) (hh : s.trng.htstart = false) (hr : s.trng.rdy = true)
    (hm : (s.bufReads p.dst 0 4).isSome = true) :
    ∃ t v, execTrngIsr .present s = .next t ∧ runSchedule (List.replicate 4 s.hostKind) t =
      .next (((((((s.withInputs (s.drewN 1).inputs).setTrng { s.trng with rdy := false, ie := false }).setMem
        (memWrites s.mem p.dst.addr (leBytes 4 s.trng.sample.toNat))).setSlot none).setVal v).setCode .ok).resume
          (.code (callbackCode s.callbacks p.cb) :: s.thread.stack)) := by
  have hk := hostKind_event s
  set fs := s.thread.stack with hfs
  set s0 := s.push [.isrData p.dst p.cb] with hs0
  have htr0 : s0.trng = s.trng := by simp [hs0]
  set s1 := ((s.setTrng { s.trng with rdy := false }).setVal (s.trng.sample.setWidth 64)).setStack
    (.isrStore p.dst p.cb s.trng.sample :: fs) with hs1
  have h1 : hostStep s0 = .next s1 := by
    refine (hostStep_more (f := .isrData p.dst p.cb) (fs := fs)
      (u := (s0.setTrng { s.trng with rdy := false }).setVal (s.trng.sample.setWidth 64))
      (t := (s0.setTrng { s.trng with rdy := false }).setVal (s.trng.sample.setWidth 64))
      (g := .isrStore p.dst p.cb s.trng.sample) (gs := []) (by simp [hs0, hfs]) rfl ?_ (by simpa [hs0] using ns) ?_
      rfl).trans ?_
    · rw [perform_readTrngData (by simpa [hs0] using hw), execRd32TrngData, State.ifTrng,
        if_pos (by simpa [hs0] using hp), htr0]
      simp [hr, hh]
    · simp [Frame.onAccess]
    · simp [hs0, State.push_eq, hs1]
  have hv : (s.trng.sample.setWidth 64).toNat = s.trng.sample.toNat := by
    have := s.trng.sample.isLt
    rw [BitVec.toNat_setWidth]; omega
  set m := memWrites s.mem p.dst.addr (leBytes 4 s.trng.sample.toNat) with hmm
  set s2 := (s1.setMem m).setStack
    (.rmwRead s.cfg.layout.trngCr (bitMask s.cfg.layout.ieBit) 0 :: .isrCleared p.cb :: fs) with hs2
  have h2 : hostStep s1 = .next s2 := by
    refine (hostStep_more (f := .isrStore p.dst p.cb s.trng.sample) (fs := fs) (u := s1.setMem m) (t := s1.setMem m)
      (g := .rmwRead s.cfg.layout.trngCr (bitMask s.cfg.layout.ieBit) 0) (gs := [.isrCleared p.cb]) (by simp [hs1]) rfl
      ?_ (by simpa [hs1] using ns) ?_ rfl).trans ?_
    · rw [perform_store (off := 0) (n := 4) (by simpa [hs1] using hm) (by omega), hv]
      simp [hs1, hmm]
    · simp [Frame.onAccess, isrStored, hs1]
    · simp [hs2]
  have htr : s2.trng = { s.trng with rdy := false } := by simp [hs2, hs1]
  have hcfg : s2.cfg = s.cfg := by simp [hs2, hs1]
  obtain ⟨v, h3⟩ := run_rmwCr hk (bitMask s.cfg.layout.ieBit) 0 s2.trng.htstart false (.isrCleared p.cb :: fs) s2
    (by simp [hs2, hs1]) (by simpa [hs2, hs1] using ns) (by rw [hcfg]; exact hw) (by simpa [hs2, hs1] using hp)
    (fun x => by rw [hcfg]; exact rmw_clear_ie hw s2.trng x)
  have hab : s2.trng.aborts s2.trng.htstart = false := by simp [TrngUnit.aborts]
  have hwr : ∀ y, s2.trng.writeCr s2.trng.htstart false y = { s.trng with rdy := false, ie := false } := by
    intro y
    rw [htr]
    simp [TrngUnit.writeCr, TrngUnit.aborts, hh]
  have hin : (s2.drewN 1).inputs = (s.drewN 1).inputs := drewN_inputs_of_inputs (by simp [hs2, hs1]) 1
  rw [hab, hwr] at h3
  simp only [Bool.false_eq_true, if_false] at h3
  rw [hin] at h3
  set s3 := ((s2.withInputs (s.drewN 1).inputs).setTrng { s.trng with rdy := false, ie := false }).setVal v with hs3
  have hcb : s3.callbacks = s.callbacks := by simp [hs3, hs2, hs1]
  have ns3 : s3.thread.stopped = false := by simpa [hs3, hs2, hs1] using ns
  have h4 : s3.resume (.isrCleared p.cb :: fs) =
      ((s3.setSlot none).setCode .ok).resume (.code (callbackCode s.callbacks p.cb) :: fs) := by
    cases hc : callbackCode s.callbacks p.cb with
    | nil =>
      rw [resume_pop ns3 (t := (s3.setSlot none).setCode .ok) (by simp [Frame.onReturn, isrClearedNext, hcb, hc]),
        resume_pop (by simpa using ns3) rfl]
    | cons op ops =>
      rw [resume_go ns3 (t := (s3.setSlot none).setCode .ok) (g := .code (op :: ops)) (gs := [])
        (by simp [Frame.onReturn, isrClearedNext, hcb, hc]), resume_wait (by simpa using ns3) rfl]
      rfl
  refine ⟨s0, v, by simp [execTrngIsr, hsl, State.begin, hs0], ?_⟩
  rw [show List.replicate 4 s.hostKind = s.hostKind :: s.hostKind :: [s.hostKind, s.hostKind] from rfl]
  refine runSchedule_cons (by rw [runStep_host hk]; exact h1) (runSchedule_cons (by rw [runStep_host hk]; exact h2) ?_)
  rw [h3, h4]
  simp [hs3, hs2, hs1, State.resume]

end Sys2Proof.Machine
end

