-- ==== Sys2Proof/Tests/Slice0.lean ====
section
/-! SUPPORT. Tests/Slice0.lean: ill-formed operations the check refuses; descriptors written out from R301 and R310; the
vectors of spec/95_test_vectors.md on small states, each theorem naming its row; and, for every obligation with hypotheses,
a state and operands that meet them. Expected values come from the spec's tables, never from the model. -/

namespace Sys2Proof.Tests

set_option Elab.async false

open Sys2Proof.Machine

/-! ### Small states -/

/-- Reset draws with a value in every field, so that an unwritten field shows. -/
def draws0 : ResetDraws where
  modeField := 1
  blk := Vector.replicate 128 0
  h := Vector.replicate 8 0
  hts := 1
  trimVal := 5
  sample := 9

/-- The reference machine after reset, the next draws given: 0, then 0x1234abcd, then zeros. -/
def base : State :=
  (State.resetWith Config.reference draws0).withInputs
    { draws := [0, 0x1234abcd, 0, 0, 0, 0, 0, 0], sched := [], irqOn := [true, true, true, true], count := 0
      hostIrqOn := true }

/-- A SHA unit in a mode with the initial hash value. -/
def unitIn (alg : Alg) (fill : Nat) (busy : Bool) : ShaUnit where
  modeField := modeCode alg
  modeEff := some alg
  fill := fill
  blk := Vector.replicate 128 0
  h := initialHash alg
  busy := busy

/-- base with the SHA unit in a mode. -/
def shaAt (alg : Alg) (fill : Nat) (busy : Bool) : State := base.setSha (unitIn alg fill busy)

/-- base with the SHA unit busy on the padded block of "abc" (R431). -/
def abcBlock (alg : Alg) : State :=
  base.setSha { unitIn alg alg.blockBytes true with
    blk := blit (Vector.replicate 128 0) 0 ((finalBlocks alg [0x61, 0x62, 0x63] 24).headD []) }

/-- The hash state as words. -/
def wordsH (s : State) : List Nat := s.sha.h.toList.map BitVec.toNat

/-- base with the TRNG bits set. -/
def trngAt (htstart htr rdy ie : Bool) : State :=
  base.setTrng { base.trng with htstart := htstart, htr := htr, rdy := rdy, ie := ie }

/-- base without a TRNG. -/
def noTrng : State := { base with cfg := { base.cfg with trngRev := 0 } }

/-- base in an interrupt handler. -/
def inHandler : State := { base with inIsr := true }

/-- An Active context of an algorithm that holds nothing, as the software engine's init leaves it. -/
def activeCtx (alg : Alg) : HashContext where
  alg := alg
  bitlen := 0
  buf := Vector.replicate 128 0
  endian := .big
  life := .active
  acc := initialHash alg

/-- The buffers the procedures of the tests are given. -/
abbrev dataBuf : Buf := { addr := 0x1000, size := 3 }
abbrev outBuf : Buf := { addr := 0x2000, size := 64 }
abbrev lenBuf : Buf := { addr := 0x3000, size := 8 }

/-- base with "abc" at 0x1000, 64 output bytes at 0x2000, a length word of the value cap at 0x3000, and context 0 Active. -/
def hostAt (alg : Alg) (cap : Nat) : State :=
  (((base.withBuffer 0x1000 [0x61, 0x62, 0x63]).withBuffer 0x2000 (List.replicate 64 0)).withBuffer 0x3000
    (leBytes 8 cap)).setCtx 0 (activeCtx alg)

/-- hostAt with the SHA unit at a block boundary of the same algorithm. -/
def hwAt (alg : Alg) (cap : Nat) : State := (hostAt alg cap).setSha (unitIn alg 0 false)

/-- An outcome is a next state with a property. -/
def nextIs (o : Host.Outcome State Fault Refusal) (q : State → Bool) : Bool :=
  match o with
  | .next t => q t
  | .fault _ => false
  | .refused _ => false

theorem nextIs_exists {o : Host.Outcome State Fault Refusal} {q : State → Bool} (h : nextIs o q = true) :
    ∃ t, o = .next t ∧ q t = true := by
  cases o with
  | next t => exact ⟨t, rfl, h⟩
  | fault r => simp [nextIs] at h
  | refused r => simp [nextIs] at h

/-! ### WellFormed: ill-formed operations are refused -/

theorem test_wellFormed_refuses_busError_of_a_legal_descriptor :
    (Instr.busError true true 0 0x008 5).wellFormed Layout.reference = false := by decide

theorem test_wellFormed_refuses_busError_with_data_on_a_read :
    (Instr.busError false true 0 0x07C 5).wellFormed Layout.reference = false := by decide

theorem test_wellFormed_refuses_busError_data_wider_than_the_write :
    (Instr.busError true false 0 0x004 0x100000000).wellFormed Layout.reference = false := by decide

theorem test_wellFormed_refuses_submit_of_a_short_block :
    (Instr.hcaShaSubmit .present (List.replicate 63 0) .sha256).wellFormed Layout.reference = false := by decide

theorem test_wellFormed_refuses_read_of_another_length :
    (Instr.hcaShaRead .present .sha384 outBuf 64).wellFormed Layout.reference = false := by decide

theorem test_wellFormed_accepts :
    (Instr.busError true false 0 0x004 0xFFFFFFFF).wellFormed Layout.reference = true ∧
      (Instr.hcaShaSubmit .present (List.replicate 128 0) .sha512).wellFormed Layout.reference = true ∧
      (Instr.hcaShaRead .present .sha384 outBuf 48).wellFormed Layout.reference = true := by decide +kernel

/-! ### Decoding: W | S | RSV | OFF (R301) at the offsets of R302 -/

/-- Every row of R310, its descriptor written out: W in bit 15, S in bit 14, RSV in 13..12, OFF in 11..0. -/
theorem test_decode_sha_rows :
    decodeTableWord 16 0b0000000000000000 = some .rd32ShaCr ∧
      decodeTableWord 48 (0b1000000000000000 + 0x12 * 2 ^ 16) = some (.wr32ShaCr 0x12) ∧
      decodeTableWord 16 0b0000000000000100 = some .rd32ShaSr ∧
      decodeTableWord 48 (0b1000000000001000 + 0x80636261 * 2 ^ 16) = some (.wr32FifoIn 0x80636261) ∧
      decodeTableWord 80 (0b1100000000001000 + 0x6867666564636261 * 2 ^ 16) = some (.wr64FifoIn 0x6867666564636261) ∧
      decodeTableWord 16 0b0000000001011100 = some (.rd32Hash 7) ∧
      decodeTableWord 16 0b0100000001111000 = some (.rd64Hash 7) := by decide +kernel

theorem test_decode_trng_rows :
    decodeTableWord 16 0b0000000100000000 = some .rd32TrngRev ∧
      decodeTableWord 16 0b0000000100000100 = some .rd32TrngCr ∧
      decodeTableWord 48 (0b1000000100000100 + 3 * 2 ^ 16) = some (.wr32TrngCr 3) ∧
      decodeTableWord 16 0b0000000100001000 = some .rd32TrngSr ∧
      decodeTableWord 16 0b0000000100001100 = some .rd32TrngTrim ∧
      decodeTableWord 48 (0b1000000100001100 + 0x80000009 * 2 ^ 16) = some (.wr32TrngTrim 0x80000009) ∧
      decodeTableWord 16 0b0000000100010000 = some .rd32TrngData := by decide +kernel

/-- The descriptors of rows H7, H21 to H28, T28 to T30 of V2.8 and V2.13 are BUS_ERROR. -/
theorem test_decode_bus_errors :
    decodeTableWord 16 0x407C = some (.busError false true 0 0x07C 0) ∧
      decodeTableWord 16 0x0008 = some (.busError false false 0 0x008 0) ∧
      decodeTableWord 16 0x8004 = some (.busError true false 0 0x004 0) ∧
      decodeTableWord 16 0x8040 = some (.busError true false 0 0x040 0) ∧
      decodeTableWord 16 0x000C = some (.busError false false 0 0x00C 0) ∧
      decodeTableWord 16 0xC000 = some (.busError true true 0 0x000 0) ∧
      decodeTableWord 16 0x1000 = some (.busError false false 1 0x000 0) ∧
      decodeTableWord 16 0x0080 = some (.busError false false 0 0x080 0) ∧
      decodeTableWord 16 0xD008 = some (.busError true true 1 0x008 0) ∧
      decodeTableWord 16 0x8110 = some (.busError true false 0 0x110 0) ∧
      decodeTableWord 16 0x8100 = some (.busError true false 0 0x100 0) ∧
      decodeTableWord 16 0x4110 = some (.busError false true 0 0x110 0) := by decide +kernel

/-- The two ends of the digest span, and the offsets on either side of it (R310). -/
theorem test_decode_hash_boundaries :
    decodeTx Layout.reference 0x0040 0 = .rd32Hash 0 ∧ decodeTx Layout.reference 0x007C 0 = .rd32Hash 15 ∧
      decodeTx Layout.reference 0x003C 0 = .busError false false 0 0x03C 0 ∧
      decodeTx Layout.reference 0x0080 0 = .busError false false 0 0x080 0 ∧
      decodeTx Layout.reference 0x0041 0 = .busError false false 0 0x041 0 ∧
      decodeTx Layout.reference 0x4044 0 = .busError false true 0 0x044 0 := by decide +kernel

/-- R207, R212: a layout with the digest span at 0x048 and a window of 0x114 bytes. -/
def movedHash : Layout := { Layout.reference with hash := 0x048, window := 0x114 }

theorem test_decode_moved_hash : movedHash.OffsetsWf ∧
    decodeTx movedHash 0x0048 0 = .rd32Hash 0 ∧ decodeTx movedHash 0x0084 0 = .rd32Hash 15 ∧
      decodeTx movedHash 0x4080 0 = .rd64Hash 7 ∧ decodeTx movedHash 0x0044 0 = .busError false false 0 0x044 0 ∧
      decodeTx movedHash 0x0088 0 = .busError false false 0 0x088 0 ∧ decodeTx movedHash 0x0110 0 = .rd32TrngData := by
  decide +kernel

/-- R201: an offset outside the window of the layout is no register, whatever the offsets say. -/
theorem test_decode_outside_the_window :
    decodeTx { movedHash with window := 0x110 } 0x0110 0 = .busError false false 0 0x110 0 := by decide +kernel

/-! ### SHA-2 (V2.1 to V2.6) -/

/-- V2.1, row 00000001 of each table. -/
theorem test_V2_1_word_functions :
    family256.bigSigma0 1 = 0x40080400 ∧ family256.bigSigma1 1 = 0x04200080 ∧ family256.smallSigma0 1 = 0x02004000 ∧
      family256.smallSigma1 1 = 0x0000a000 ∧ family512.bigSigma0 1 = 0x0000001042000000 ∧
      family512.bigSigma1 1 = 0x0004400000800000 ∧ family512.smallSigma0 1 = 0x8100000000000000 ∧
      family512.smallSigma1 1 = 0x0000200000000008 := by decide +kernel

/-- V2.3: W16 to W19 and W63 of "abc". -/
theorem test_V2_3_schedule :
    ((schedule family256 ((finalBlocks .sha256 [0x61, 0x62, 0x63] 24).headD [])).drop 16).take 4 =
        [0x61626380, 0x000f0000, 0x7da86405, 0x600003c6] ∧
      (schedule family256 ((finalBlocks .sha256 [0x61, 0x62, 0x63] 24).headD [])).getD 63 0 = 0x12b1edeb ∧
      (schedule family512 ((finalBlocks .sha512 [0x61, 0x62, 0x63] 24).headD [])).getD 79 0 = 0x92aeeed1a7bcf7d2 := by
  decide +kernel

/-- K2, K5, K8, K11: "abc" on the four algorithms. -/
theorem test_K2_sha224_abc : beVal (sha .sha224 [0x61, 0x62, 0x63]) =
    0x23097d223405d8228642a477bda255b32aadbce4bda0b3f7e36c9da7 := by decide +kernel

theorem test_K5_sha256_abc : beVal (sha .sha256 [0x61, 0x62, 0x63]) =
    0xba7816bf8f01cfea414140de5dae2223b00361a396177a9cb410ff61f20015ad := by decide +kernel

theorem test_K8_sha384_abc : beVal (sha .sha384 [0x61, 0x62, 0x63]) =
    0xcb00753f45a35e8bb5a03d699ac65007272c32ab0eded1631a8b605a43ff5bed8086072ba1e7cc2358baeca134c825a7 := by
  decide +kernel

/-- K1, K4, K7, K10: the empty message on the four algorithms. -/
theorem test_K1_K4_sha256_empty :
    beVal (sha .sha224 []) = 0xd14a028c2a3a2bc9476102bb288234c415a2b01f828ea62ac5b3e42f ∧
      beVal (sha .sha256 []) = 0xe3b0c44298fc1c149afbf4c8996fb92427ae41e4649b934ca495991b7852b855 := by decide +kernel

theorem test_K7_K10_sha512_empty :
    beVal (sha .sha384 []) =
        0x38b060a751ac96384cd9327eb1b1e36a21fdb71114be07434c0cc7bf63f6e1da274edebfe76f65fbd51ad2f14898b95b ∧
      beVal (sha .sha512 []) =
        0xcf83e1357eefb8bdf1542850d66d8007d620e4050b5715dc83f4a921d36ce9ce47d0d13c5d85f2b0ff8318d2877eec2f63b931bd47417a81a538327af927da3e := by
  decide +kernel

theorem test_K11_sha512_abc : beVal (sha .sha512 [0x61, 0x62, 0x63]) =
    0xddaf35a193617abacc417349ae20413112e6fa4e89a97ea20a9eeee64b55d39a2192992a274fc1a836ba3c23a3feebbd454d4423643ce80e2a9ac94fa54ca49f := by
  decide +kernel

/-- V2.6, rows n = 56 of SHA-256 and n = 55: the padding boundary. -/
theorem test_V2_6_padding_boundary :
    beVal (sha .sha256 (List.replicate 56 0x61)) =
        0xb35439a4ac6f0948b6d6f9e3c6af0f5f590ce20f1bde7090ef7970686ec6738a ∧
      beVal (sha .sha256 (List.replicate 55 0x61)) =
        0x9f4390f8d30c2dd92ec9f095b65e2b9ae9b0a925a5258e241c9f1e910f734318 := by decide +kernel

/-- V2.6, row n = 128 of SHA-512: one full block and one final block. -/
theorem test_V2_6_full_block : beVal (sha .sha512 (List.replicate 128 0x61)) =
    0xb73d1929aa615934e61a871596b3f3b33359f42b8175602e89f7e06e5f658a243667807ed300314b95cacdd579f3e33abdfbe351909519a846d465c59582f321 := by
  decide +kernel

/-! ### SHA unit transactions (V2.8, V2.9) -/

theorem test_H1_fifo_before_init : nextIs (exec (.wr32FifoIn 0) base) (fun t =>
    t.faults == [.fifoNoInit] && t.main.stopped && t.sha == base.sha) = true := by decide +kernel

theorem test_H2_hash_before_init_is_a_draw : nextIs (exec (.rd32Hash 7) base.drew) (fun t =>
    t.main.val == 0x1234abcd && t.sha == base.sha) = true := by decide +kernel

theorem test_H3_init : nextIs (exec (.wr32ShaCr 0x12) base) (fun t =>
    t.sha.modeField == 2 && t.sha.modeEff == some .sha384 && t.sha.h == initialHash .sha384 && t.sha.fill == 0) =
    true := by decide +kernel

theorem test_H4_read_cr : nextIs (exec .rd32ShaCr (shaAt .sha384 0 false).drew) (fun t =>
    t.main.val == 0x1234abce) = true := by decide +kernel

theorem test_H5_read_halves : nextIs (exec (.rd32Hash 14) (shaAt .sha384 0 false)) (fun t => t.main.val == 0xc1059ed8) =
      true ∧
    nextIs (exec (.rd32Hash 15) (shaAt .sha384 0 false)) (fun t => t.main.val == 0xcbbb9d5d) = true := by decide +kernel

theorem test_H6_read64 : nextIs (exec (.rd64Hash 7) (shaAt .sha384 0 false)) (fun t =>
    t.main.val == 0xcbbb9d5dc1059ed8) = true := by decide +kernel

theorem test_H7_bus_error : nextIs (exec (.busError false true 0 0x07C 0) (shaAt .sha384 0 false)) (fun t =>
    t.faults == [.bus] && t.main.stopped && t.sha == unitIn .sha384 0 false) = true := by decide +kernel

theorem test_H9_overrun : nextIs (exec (.wr64FifoIn 1) (shaAt .sha384 124 false)) (fun t =>
    t.faults == [.fifoOverrun] && t.sha.fill == 124) = true := by decide +kernel

theorem test_H10_block_full : nextIs (exec (.wr32FifoIn 1) (shaAt .sha384 124 false)) (fun t =>
    t.faults == [] && t.sha.fill == 128 && t.sha.busy) = true := by decide +kernel

theorem test_H11_busy_read : nextIs (exec .rd32ShaSr (shaAt .sha384 128 true)) (fun t => t.main.val == 1) = true := by
  decide +kernel

theorem test_H13_init_while_busy : nextIs (exec (.wr32ShaCr 0x13) (shaAt .sha384 128 true)) (fun t =>
    t.faults == [.initBusy] && t.sha == unitIn .sha384 128 true) = true := by decide +kernel

theorem test_H16_compress_sha384 : nextIs (exec .shaCompress (abcBlock .sha384)) (fun t =>
    wordsH t == [0xcb00753f45a35e8b, 0xb5a03d699ac65007, 0x272c32ab0eded163, 0x1a8b605a43ff5bed, 0x8086072ba1e7cc23,
      0x58baeca134c825a7, 0xa303edfdf3b89cd7, 0x0c66918ece57ba15] && t.sha.fill == 0 && !t.sha.busy) = true := by
  decide +kernel

/-- V2.5, row C2. -/
theorem test_C2_compress_sha224 : nextIs (exec .shaCompress (abcBlock .sha224)) (fun t =>
    wordsH t == [0x23097d22, 0x3405d822, 0x8642a477, 0xbda255b3, 0x2aadbce4, 0xbda0b3f7, 0xe36c9da7, 0xd2da082d]) =
    true := by decide +kernel

theorem test_H18_wide_write_in_a_32_bit_mode : nextIs (exec (.wr64FifoIn 0x6867666564636261) (shaAt .sha256 0 false))
    (fun t => t.sha.blk.toList.take 9 == [0x61, 0x62, 0x63, 0x64, 0x65, 0x66, 0x67, 0x68, 0] && t.sha.fill == 8) =
    true := by decide +kernel

/-- V2.9, SHA-256: `rd64 HASH+0x18` spans slots 6 and 7. -/
theorem test_V2_9_read64_in_a_32_bit_mode : nextIs (exec (.rd64Hash 3) (shaAt .sha256 0 false)) (fun t =>
    t.main.val == 0x6a09e667bb67ae85) = true := by decide +kernel

/-! ### TRNG unit transactions (V2.13) -/

theorem test_T5_rev_absent : nextIs (exec .rd32TrngRev noTrng) (fun t => t.main.val == 0 && t.faults == []) = true := by
  decide +kernel

theorem test_rev_present : nextIs (exec .rd32TrngRev base) (fun t => t.main.val == 1) = true := by decide +kernel

theorem test_T6_absent_sr : nextIs (exec .rd32TrngSr noTrng) (fun t => t.faults == [.bus]) = true := by decide +kernel

theorem test_T7_absent_cr : nextIs (exec (.wr32TrngCr 1) noTrng) (fun t => t.faults == [.bus] && t.trng == base.trng) =
    true := by decide +kernel

theorem test_T8_read_cr : nextIs (exec .rd32TrngCr base) (fun t => t.main.val == 0) = true := by decide +kernel

theorem test_T9_start_test : nextIs (exec (.wr32TrngCr 1) (trngAt false false true true)) (fun t =>
    t.trng.htstart && t.trng.htr && !t.trng.rdy && !t.trng.ie) = true := by decide +kernel

theorem test_T12_abort_test : nextIs (exec (.wr32TrngCr 0) (trngAt true true false false).drew) (fun t =>
    !t.trng.htstart && !t.trng.htr && t.trng.hts == 1 && t.trng.mode == .normal) = true := by decide +kernel

theorem test_T13_complete : nextIs (exec .trngHtComplete (trngAt true true false false).drew) (fun t =>
    !t.trng.htr && t.trng.hts == 1 && t.trng.mode == .testDone) = true := by decide +kernel

theorem test_T14_read_sr : nextIs (exec .rd32TrngSr (trngAt true false false false)) (fun t => t.main.val == 0x10) =
    true := by decide +kernel

theorem test_T17_data_in_test : nextIs (exec .rd32TrngData (trngAt true false false false).drew) (fun t =>
    t.main.val == 0x1234abcd && t.trng == (trngAt true false false false).trng) = true := by decide +kernel

theorem test_T18_T19_sample_not_enabled :
    exec .trngSample (trngAt true true false false) = .refused (.notEnabled "TRNG.SAMPLE") ∧
      exec .trngSample (trngAt false false true false) = .refused (.notEnabled "TRNG.SAMPLE") := by
  constructor <;> rfl

theorem test_T20_sample : nextIs (exec .trngSample base.drew) (fun t => t.trng.sample == 0x1234abcd && t.trng.rdy) =
    true := by decide +kernel

theorem test_T22_data : nextIs (exec .rd32TrngData (trngAt false false true false)) (fun t =>
    t.main.val == 9 && !t.trng.rdy) = true := by decide +kernel

theorem test_T24_trim : nextIs (exec (.wr32TrngTrim 0x80000009) base) (fun t => t.trng.trimVal == 9 && t.trng.lock) =
    true := by decide +kernel

theorem test_T25_trim_locked : nextIs (exec (.wr32TrngTrim 3) (base.setTrng { base.trng with lock := true })) (fun t =>
    t.trng.trimVal == 5 && t.trng.lock) = true := by decide +kernel

theorem test_T26_read_trim : nextIs (exec .rd32TrngTrim (base.setTrng { base.trng with lock := true, trimVal := 9 }))
    (fun t => t.main.val == 0x80000009) = true := by decide +kernel

/-- V2.15: the line high, a handler registered: HostISR begins it. -/
theorem test_irq_deliver :
    nextIs (exec .irqDeliver ((trngAt false false true true).setHandler { fn := .trngIsr, ctx := .present })) (fun t =>
      t.inIsr && t.isr.stack == [.code [.call (.trngIsr .present) rfl]] && t.main == base.main) = true := by decide +kernel

/-! ### Procedures (V2.12, V2.14) -/

theorem test_E2_E3_tags :
    nextIs (exec (.shaInit (some 0) (.unknown 7) .big) base) (fun t => t.main.code == some .error && t.ctxs == []) = true ∧
      nextIs (exec (.shaInit none (.unknown 7) .big) base) (fun t => t.main.code == some .invalidInput) = true := by
  decide +kernel

theorem test_E4_E5_empty_update :
    nextIs (exec (.sha256Update (some 0) none 0) (hostAt .sha256 32)) (fun t => t.main.code == some .ok) = true ∧
      nextIs (exec (.sha256Update (some 0) none 5) (hostAt .sha256 32)) (fun t =>
        t.main.code == some .invalidInput) = true := by decide +kernel

/-- E6 to E8: the order of the argument and the lifecycle checks, in the engine and in the dispatcher. -/
theorem test_E6_E7_E8_check_order :
    let s := base.setCtx 0 { activeCtx .sha256 with life := .consumed }
    nextIs (exec (.sha256Update (some 0) (some dataBuf) 1) s) (fun t => t.faults == [.ctxState]) = true ∧
      nextIs (exec (.sha256Update (some 0) none 5) s) (fun t => t.main.code == some .invalidInput) = true ∧
      nextIs (exec (.shaUpdate (some 0) none 5) s) (fun t => t.faults == [.ctxState]) = true := by decide +kernel

theorem test_E9_finish_output : nextIs (exec (.sha256Finish (some 0) none (some lenBuf)) (hostAt .sha256 32)) (fun t =>
    t.main.code == some .invalidOutput) = true := by decide +kernel

theorem test_E16_E17_E18_hca_init :
    nextIs (exec (.hcaShaInit .absent (some 0) (.known .sha256) .big) base) (fun t =>
        t.main.code == some .invalidInput) = true ∧
      nextIs (exec (.hcaShaInit .present (some 0) (.unknown 9) .big) base) (fun t => t.main.code == some .error) = true ∧
      nextIs (exec (.hcaShaInit .present (some 0) (.known .sha256) .big) inHandler) (fun t =>
        t.faults == [.isrContext] && t.isr.stopped && !t.main.stopped) = true := by decide +kernel

theorem test_T33_T34_T35_trng_init :
    nextIs (exec (.trngInit .absent) base) (fun t => t.main.code == some .invalidInput) = true ∧
      nextIs (exec (.trngInit .present) inHandler) (fun t => t.faults == [.isrContext]) = true ∧
      nextIs (exec (.trngInit .present) (base.setSlot (some { dst := outBuf, cb := 0 }))) (fun t =>
        t.faults == [.trngOverlap]) = true := by decide +kernel

theorem test_A3_A4_A5_async :
    nextIs (exec (.trngAcquireAsync .present none (some 1)) base) (fun t => t.main.code == some .invalidOutput) = true ∧
      nextIs (exec (.trngAcquireAsync .present (some outBuf) none) base) (fun t =>
        t.main.code == some .invalidInput) = true ∧
      nextIs (exec (.trngAcquireAsync .present (some { addr := 0x80002002, size := 4 }) (some 1)) base) (fun t => t.faults == [.dstAlign]) =
        true := by decide +kernel

/-! ### Single steps of a host agent -/

/-- Five bytes of caller memory, of which buffers are passed that nest and overlap. -/
def nested : State := base.withBuffer 0x1000 [1, 2, 3, 4, 5]
abbrev outerBuf : Buf := { addr := 0x1000, size := 5 }
abbrev innerBuf : Buf := { addr := 0x1001, size := 2 }

/-- R202: an access is valid within the buffer it was given, whatever other buffers hold: the outer buffer is whole, and the
inner one ends though caller memory goes on. -/
theorem test_nested_buffers :
    (nested.load 1 outerBuf 4).main.val = 5 ∧ (nested.load 1 outerBuf 4).faults = [] ∧
      (nested.load 1 innerBuf 1).main.val = 3 ∧ (nested.load 1 innerBuf 2).faults = [.hostMem] ∧
      (nested.store 4 innerBuf 0 7).faults = [.hostMem] ∧ (nested.store 4 innerBuf 0 7).mem = nested.mem ∧
      (nested.load 1 { addr := 0x1004, size := 2 } 1).faults = [.hostMem] := by decide +kernel

/-- R31: with no step enabled every agent holds; the free inputs go on. -/
theorem test_no_step_enabled : nextIs (step noTrng) (fun t =>
    t.withInputs noTrng.inputs == noTrng && t.inputs.irqOn == [true, true, true]) = true := by decide +kernel

/-- R503: the digest byte stored is that of the accumulator as it is at the store. -/
theorem test_finish_stores_the_present_accumulator :
    let s := (hostAt .sha256 32).push [.swFinishOut 0 .sha256 outBuf lenBuf 0]
    nextIs (hostStep (s.setCtx 0 (activeCtx .sha224))) (fun t => memRead t.mem 0x2000 == some 0xc1) = true ∧
      nextIs (hostStep s) (fun t => memRead t.mem 0x2000 == some 0x6a) = true := by decide +kernel

/-- R574: HTSTART set begins Health-Testing, HTSTART cleared ends it by the code, and other steps change nothing. -/
theorem test_driver_phases :
    let starts := base.push [.rmwWrite 0x104 1, .trngInitStarted]
    let ends := fun c => (trngAt true false false false).push [.rmwWrite 0x104 0, .trngInitCleared c]
    nextIs (hostStep starts) (fun t => DriverPhase.next .uninitialized starts t == .healthTesting) = true ∧
      nextIs (hostStep (ends .ok)) (fun t => DriverPhase.next .healthTesting (ends .ok) t == .ready) = true ∧
      nextIs (hostStep (ends .rngError)) (fun t => DriverPhase.next .healthTesting (ends .rngError) t == .error) =
        true ∧
      nextIs (exec .trngSample base) (fun t => DriverPhase.next .ready base t == .ready) = true := by decide +kernel

/-- W1 of V2.11: the first write of the padded block of "abc" is 80636261. -/
theorem test_W1_first_write :
    (fifoWords .leStream 4 16 ((finalBlocks .sha256 [0x61, 0x62, 0x63] 24).headD [])).headD 0 = 0x80636261 ∧
      (fifoWords .beWord 4 16 ((finalBlocks .sha256 [0x61, 0x62, 0x63] 24).headD [])).headD 0 = 0x61626380 := by
  decide +kernel

/-- The last data byte of a software update: the buffer, the counter, the code (R502). -/
theorem test_sw_update_last_byte :
    nextIs (hostStep ((hostAt .sha256 32).push [.swLoad 0 .sha256 dataBuf 3 2 2])) (fun t =>
      ((t.ctx 0).buf.toList.drop 2).head? == some 0x63 && (t.ctx 0).bitlen == 24 && t.main.code == some .ok &&
        t.main.stack == []) = true := by decide +kernel

/-- E10: a capacity of 31 is refused and nothing is stored. -/
theorem test_E10_capacity :
    nextIs (hostStep ((hostAt .sha256 31).push [.swFinishCap 0 .sha256 outBuf lenBuf])) (fun t =>
      t.main.code == some .invalidOutput && (t.ctx 0).life == .active && t.mem == (hostAt .sha256 31).mem) = true := by
  decide +kernel

/-- D4 of V2.10: the byte path reads 0x04 first, and stores the least significant byte at out[27]. -/
theorem test_D4_byte_path :
    (Frame.readByte .sha224 { addr := 0x2003, size := 28 } 28 0 7).access base = some (Access.read32 0x044) ∧
      (Frame.readByteStore .sha224 { addr := 0x2003, size := 28 } 28 0 7 0xe36c9da7 0).access base =
        some (.store 1 { addr := 0x2003, size := 28 } 27 0xa7) ∧
      (Frame.readByteStore .sha224 { addr := 0x2003, size := 28 } 28 0 7 0xe36c9da7 3).access base =
        some (.store 1 { addr := 0x2003, size := 28 } 24 0xe3) := by decide +kernel

/-- D5 of V2.10: the word path reads 0x38 first and stores the bytes of the element reversed. -/
theorem test_D5_word_path :
    (Frame.readWord .sha384 outBuf 0 6).access base = some (Access.read64 0x078) ∧
      (Frame.readWordStore .sha384 outBuf 1 6 0x0102030405060708).access base =
        some (.store 8 outBuf 8 0x0807060504030201) := by decide +kernel

/-- A word placed by withFetchWord runs at the very next step. -/
theorem test_fetched_word_runs :
    nextIs (step (base.withFetchWord 48 (0x8000 + 0x12 * 2 ^ 16))) (fun t =>
      t.sha.modeEff == some .sha384 && t.main.stack == []) = true := by decide +kernel

/-! ### Witnesses: for each obligation with hypotheses, a state and operands that meet them -/

/-- The environment's next choice is a step. -/
def scheduled (k : StepKind) (s : State) : State := { s with inputs := { s.inputs with sched := [k] } }

/-- A machine about to write the last four bytes of a SHA-384 block. -/
def lastWrite : State := (shaAt .sha384 124 false).withFetchWord 48 0x8008

theorem witness_StepKeepsInvariant : Inv lastWrite ∧ ∃ t, step lastWrite = .next t ∧ t.sha.busy = true := by
  refine ⟨⟨?_, ?_, ?_, ?_, ?_⟩, nextIs_exists (by decide +kernel)⟩
  · show ShaInv (unitIn .sha384 124 false)
    simp [ShaInv, unitIn, Alg.wordBytes, Alg.blockBytes]
  · show TrngInv 1 base.trng
    refine ⟨by decide, by decide, by decide⟩
  · exact List.Pairwise.nil
  · exact List.Pairwise.nil
  · exact List.Pairwise.nil

theorem witness_FaultsAreNeverCleared : ModelFault.bus ∈ ({ lastWrite with faults := [.bus] } : State).faults ∧
    ∃ t, step { lastWrite with faults := [.bus] } = .next t ∧ decide (ModelFault.bus ∈ t.faults) = true :=
  ⟨by decide, nextIs_exists (by decide +kernel)⟩

/-- Locked, and about to write the trim. -/
theorem witness_StepKeepsLockAndParameters :
    let s := (base.setTrng { base.trng with lock := true }).withFetchWord 48 (0x810C + 3 * 2 ^ 16)
    s.trng.lock = true ∧ ∃ t, step s = .next t ∧ (t.trng.trimVal == 5) = true :=
  ⟨by decide, nextIs_exists (by decide +kernel)⟩

theorem witness_StoppedAgentStays :
    (let s := scheduled .trngSample (base.raiseFault .bus);
      s.main.stopped = true ∧ ∃ t, step s = .next t ∧ t.trng.rdy = true) ∧
      (let s := scheduled .trngSample (inHandler.raiseFault .bus);
        s.inIsr = true ∧ s.isr.stopped = true ∧ ∃ t, step s = .next t ∧ t.inIsr = true) :=
  ⟨⟨by decide, nextIs_exists (by decide +kernel)⟩, by decide, by decide, nextIs_exists (by decide +kernel)⟩

/-- The line high, a handler registered, the host accepting. -/
def irqReady : State := (trngAt false false true true).setHandler { fn := .trngIsr, ctx := .present }

/-- A handler at its last operation, and an interrupt about to be delivered. -/
theorem witness_InterruptsDoNotNest :
    (let s := scheduled .hostIsr (inHandler.push [.code [.call (.trngIsr .absent) rfl]]);
      s.inIsr = true ∧ ∃ t, step s = .next t ∧ (!t.inIsr) = true) ∧
      (irqReady.inIsr = false ∧ taken (scheduled .irqDeliver irqReady) = some .irqDeliver ∧
        ∃ t, step (scheduled .irqDeliver irqReady) = .next t ∧ t.inIsr = true) :=
  ⟨⟨by decide, nextIs_exists (by decide +kernel)⟩, by decide, by decide +kernel, nextIs_exists (by decide +kernel)⟩

/-- DecodeOfEncode, EncodeOfDecode: the reference layout, and operands at the ends of their ranges. -/
theorem witness_DecodeOfEncode : Layout.reference.OffsetsWf ∧
    (∀ i ∈ [Instr.rd64Hash 7, .rd32Hash 15, .wr64FifoIn 1, .busError true false 0 0x004 0xFFFFFFFF],
      i.wellFormed Layout.reference = true ∧ i.kind = .bus) := ⟨Layout.reference_offsetsWf, by decide +kernel⟩

/-- Both sides of the alignment rule of a 64-bit read at the end of the digest span, and of its RSV. -/
theorem witness_IllegalTransactions :
    (Layout.reference.hash.toNat ≤ (0x078 : BitVec 12).toNat ∧
      (0x078 : BitVec 12).toNat < Layout.reference.hash.toNat + 64 ∧ (0x078 : BitVec 12).toNat % 8 = 0) ∧
      ¬ (0x07C : BitVec 12).toNat % 8 = 0 ∧ ¬ (0x080 : BitVec 12).toNat < Layout.reference.hash.toNat + 64 ∧
      (1 : BitVec 2) ≠ 0 := by decide +kernel

/-- A fault that is new, and the same one when it is recorded already, in HostMain and in HostISR. -/
theorem witness_FaultingStepChangesNothingElse :
    (∃ t, step (base.withFetchWord 16 0x407C) = .next t ∧
      decide (t.faults ≠ (base.withFetchWord 16 0x407C).faults) = true) ∧
      (let s := { base.withFetchWord 16 0x407C with faults := [.bus] };
        s.main.stopped = false ∧ ∃ t, step s = .next t ∧ (t.main.stopped && t.faults == s.faults) = true) ∧
      (let s := { inHandler.withFetchWord 16 0x407C with faults := [.bus] };
        s.isr.stopped = false ∧ ∃ t, step s = .next t ∧ (t.isr.stopped && t.faults == s.faults) = true) :=
  ⟨nextIs_exists (by decide +kernel), ⟨by decide, nextIs_exists (by decide +kernel)⟩, by decide,
    nextIs_exists (by decide +kernel)⟩

/-- Hypotheses of ReadShaRegisters and ReadTrngRegisters: the reference parameters are admitted, with a TRNG. -/
theorem witness_ReadRegisters : base.cfg.Wf ∧ base.cfg.trngRev ≠ 0 := ⟨Config.reference_wf, by decide⟩

theorem witness_WriteShaCr : crInit base.cfg 0x12 = true ∧ base.sha.busy = false ∧
    (shaAt .sha384 128 true).sha.busy = true ∧ crInit base.cfg 0x03 = false := by decide +kernel

/-- The last slot of a block at each width. -/
theorem witness_FifoWrites_append : (shaAt .sha384 124 false).sha.modeEff = some .sha384 ∧
    (shaAt .sha384 124 false).sha.busy = false ∧ (shaAt .sha384 124 false).sha.fill + 4 ≤ Alg.blockBytes .sha384 ∧
    (shaAt .sha384 120 false).sha.fill + 8 ≤ Alg.blockBytes .sha384 := by decide +kernel

theorem witness_FifoWrites_faults : base.sha.modeEff = none ∧ (shaAt .sha256 64 true).sha.modeEff.isSome = true ∧
    (shaAt .sha256 64 true).sha.busy = true ∧ Alg.blockBytes .sha256 < (shaAt .sha256 60 false).sha.fill + 8 ∧
    Alg.blockBytes .sha256 < (shaAt .sha256 61 false).sha.fill + 4 := by decide

/-- At fill = B − 4 both writes: the 64-bit one overruns, the 32-bit one fills the block. -/
theorem witness_OverrunOnlyByWideWrite : Inv (shaAt .sha384 124 false) ∧
    ModelFault.fifoOverrun ∉ (shaAt .sha384 124 false).faults ∧
    (∃ t, exec (.wr32FifoIn 1) (shaAt .sha384 124 false) = .next t ∧ (t.faults == []) = true) ∧
    ∃ t, exec (.wr64FifoIn 1) (shaAt .sha384 124 false) = .next t ∧ decide (.fifoOverrun ∈ t.faults) = true := by
  refine ⟨⟨?_, ⟨by decide, by decide, by decide⟩, List.Pairwise.nil, List.Pairwise.nil, List.Pairwise.nil⟩,
    by decide, nextIs_exists (by decide +kernel), nextIs_exists (by decide +kernel)⟩
  show ShaInv (unitIn .sha384 124 false)
  simp [ShaInv, unitIn, Alg.wordBytes, Alg.blockBytes]

theorem witness_BlockInputOrder : (4 : Nat) ≤ 8 ∧ (List.replicate 64 (0 : Byte)).length = 16 * 4 ∧ 15 < 16 ∧
    (List.replicate 128 (0 : Byte)).length = 16 * 8 := by decide +kernel

/-- ReadHash32, ReadHash64. Each kind of slot: a 32-bit word, the two halves of a 64-bit word, an empty slot. -/
theorem witness_ReadHash :
    elemPos base.cfg .sha256 0 = some 7 ∧ elemPos base.cfg .sha256 7 = some 0 ∧
      elemPos base.cfg .sha512 0 = some (15 / 2) ∧ elemPos base.cfg .sha512 7 = some (0 / 2) ∧
      (shaAt .sha256 0 false).sha.busy = false ∧ (shaAt .sha256 0 false).sha.modeEff = some .sha256 ∧
      (∀ i, i < 8 → elemPos base.cfg .sha256 i ≠ some 8) ∧ base.sha.modeEff = none ∧
      (15 : Fin 16).val = 2 * (7 : Fin 8).val + 1 := by decide +kernel

theorem witness_ShaCompress : (abcBlock .sha256).sha.busy = true ∧
    (abcBlock .sha256).sha.modeEff = some .sha256 ∧ base.sha.busy = false ∧ Alg.wordBytes .sha256 = 4 ∧
    (∀ i, i < 8 → ((initialHash .sha256).getD i 0).setWidth 32 =
      (((initialHash .sha256).set 0 0xFFFFFFFF6a09e667).getD i 0).setWidth 32) := by decide +kernel

/-- Both alignments (V2.9, rows slot32(7), slot32(6) and slot32(0) of SHA-224), and no test running. -/
theorem witness_ReferenceFields :
    elemPos base.cfg .sha224 0 = some 7 ∧ elemPos { base.cfg with hashAlign := .bottom } .sha224 0 = some 6 ∧
      elemPos { base.cfg with hashAlign := .bottom } .sha224 6 = some 0 ∧
      elemPos { base.cfg with hashAlign := .bottom } .sha224 7 = none ∧ base.trng.htr = false := by decide

/-- The two ends of each clause of MessageSchedule. -/
theorem witness_MessageSchedule : 15 < 16 ∧ (16 ≤ 16 ∧ 63 < 64) ∧ 79 < 80 := by decide

theorem witness_FinalBlocks : (List.replicate 63 (0 : Byte)).length < Alg.blockBytes .sha256 ∧
    (List.replicate 127 (0 : Byte)).length < Alg.blockBytes .sha512 := by decide +kernel

theorem witness_TrngAutonomousSteps :
    ((trngAt true true false false).cfg.trngRev ≠ 0 ∧ (trngAt true true false false).trng.htr = true) ∧
      (base.trng.htstart = false ∧ base.trng.rdy = false) ∧ base.trng.htr = false ∧
      (trngAt false false true false).trng.rdy = true := by decide +kernel

theorem witness_SampleKeptUntilRead :
    (∃ t, step (scheduled .trngSample base.drew) = .next t ∧
      decide (t.trng.sample ≠ (scheduled .trngSample base.drew).trng.sample) = true) ∧
      (let s := (trngAt false false true false).withFetchWord 16 0x0110;
        s.trng.rdy = true ∧ ∃ t, step s = .next t ∧ (!t.trng.rdy) = true) :=
  ⟨nextIs_exists (by decide +kernel), by decide, nextIs_exists (by decide +kernel)⟩

theorem witness_IrqDeliver : irqReady.cfg.trngRev ≠ 0 ∧ irqReady.trng.ie = true ∧ irqReady.trng.rdy = true ∧
    irqReady.irqHandler = some { fn := .trngIsr, ctx := .present } ∧ irqReady.inIsr = false ∧
    irqReady.inputs.hostIrqOn = true ∧ base.irqHandler = none := by decide +kernel

theorem witness_WriteTrngCr :
    (base.trng.htstart = false ∧ crHtstart base.cfg 1 = true) ∧
      ((trngAt true true false false).trng.htstart = true ∧ crHtstart base.cfg 2 = false ∧
        (trngAt true true false false).trng.htr = true) ∧
      ((trngAt true false false false).trng.htstart = true ∧ (trngAt true false false false).trng.htr = false) ∧
      base.trng.htstart = crHtstart base.cfg 2 := by decide +kernel

theorem witness_WriteTrngTrim_ReadTrngData : base.trng.lock = false ∧
    (base.setTrng { base.trng with lock := true }).trng.lock = true ∧
    ((trngAt false false true false).trng.htstart = false ∧ (trngAt false false true false).trng.rdy = true) ∧
    (trngAt true false false false).trng.htstart = true := by decide +kernel

theorem witness_TrngAbsent : noTrng.cfg.trngRev = 0 ∧
    ∃ t, step (noTrng.withFetchWord 48 (0x8104 + 2 ^ 16)) = .next t ∧ (t.faults == [.bus]) = true :=
  ⟨by decide, nextIs_exists (by decide +kernel)⟩

theorem witness_BusFrame : Instr.kind (.wr32FifoIn 1) = .bus ∧
    ∃ t, exec (.wr32FifoIn 1) (shaAt .sha384 124 false) = .next t ∧ t.sha.busy = true :=
  ⟨rfl, nextIs_exists (by decide +kernel)⟩

theorem witness_CallFrame : Instr.kind (.shaInit (some 0) (.known .sha256) .big) = .procedure ∧
    ∃ t, exec (.shaInit (some 0) (.known .sha256) .big) (hostAt .sha512 64) = .next t ∧
      decide (t.ctx 0 ≠ (hostAt .sha512 64).ctx 0) = true := ⟨rfl, nextIs_exists (by decide +kernel)⟩

/-- A store of one byte changes the byte, and the compression is a device step that happens. -/
theorem witness_MemoryChangesByStoresOnly :
    (∃ t, hostStep ((hostAt .sha256 32).push [.code [.memSt 1 0x1000 7]]) = .next t ∧
      decide (memRead t.mem 0x1000 ≠ memRead (hostAt .sha256 32).mem 0x1000) = true) ∧
      ∃ t, runStep .shaCompress (abcBlock .sha256) = .next t ∧ (t.mem == []) = true :=
  ⟨nextIs_exists (by decide +kernel), nextIs_exists (by decide +kernel)⟩

/-- The last byte of a buffer inside another, the byte after it, which is caller memory but not the buffer's, and the first
address past caller memory. -/
theorem witness_HostMemoryAccess :
    (1 + 1 ≤ innerBuf.size ∧ ∀ i, i < 1 → (memRead nested.mem (innerBuf.addr + 1 + i)).isSome = true) ∧
      (¬ 2 + 1 ≤ innerBuf.size ∧ (memRead nested.mem (innerBuf.addr + 2)).isSome = true) ∧
      nested.bufReads outerBuf 0 5 = some [1, 2, 3, 4, 5] ∧ memRead nested.mem (0x1000 + 5) = none := by decide +kernel

/-- A transaction, a call, a load, a store and the three pseudo-operations at the head of the chosen agent's program. -/
theorem witness_StepRunsTheOperation :
    (∀ op ∈ [HostOp.bus 0x0100 0, .call (.trngIsr .absent) rfl, .memLd 1 0x1000, .memSt 1 0x1000 7,
        .poll32 0x004 1 0, .rmw32 0x104 0 1, .wrblk (List.replicate 64 0) 4],
      let s := scheduled .hostMain ((hostAt .sha256 32).push [.code [op]]);
      s.thread.stack = .code (op :: []) :: [] ∧ taken s = some s.hostKind) ∧
      (taken (scheduled .shaCompress (abcBlock .sha256)) = some .shaCompress ∧
        StepKind.shaCompress.event = some .shaCompress) := by decide +kernel

/-- A chosen step that is ready, and a machine in which no step is. -/
theorem witness_AnyEnabledStepIsNext :
    (∃ t, step (scheduled .shaCompress (abcBlock .sha256)) = .next t ∧ (!t.sha.busy) = true) ∧
      ready (scheduled .shaCompress (abcBlock .sha256)) .shaCompress = true ∧
      (∀ k ∈ allSteps, ready noTrng k = false) ∧ inHandler.inIsr = true :=
  ⟨nextIs_exists (by decide +kernel), by decide +kernel, by decide +kernel, rfl⟩

/-- A block, a test and a sample that wait while another step is taken. -/
theorem witness_DeviceStepsStayEnabled :
    (let s := (abcBlock .sha256).withFetchWord 16 0x0004;
      (∃ t, step s = .next t ∧ t.sha.busy = true) ∧ ready s .shaCompress = true ∧ taken s ≠ some .shaCompress) ∧
      (let s := (trngAt true true false false).withFetchWord 48 0x8104;
        (∃ t, step s = .next t ∧ (!t.trng.htstart) = true) ∧ ready s .trngHtComplete = true ∧
          taken s ≠ some .trngHtComplete) ∧
      (let s := base.withFetchWord 48 (0x8104 + 2 ^ 16);
        (∃ t, step s = .next t ∧ t.trng.htstart = true) ∧ ready s .trngSample = true ∧ taken s ≠ some .trngSample) :=
  ⟨⟨nextIs_exists (by decide +kernel), by decide +kernel, by decide +kernel⟩,
    ⟨nextIs_exists (by decide +kernel), by decide +kernel, by decide +kernel⟩,
    nextIs_exists (by decide +kernel), by decide +kernel, by decide +kernel⟩

/-- A poll that ends and one that goes on, and the two halves of a read-modify-write. -/
theorem witness_PollRmwAndReturn :
    ((shaAt .sha256 0 false).push [.poll 0x004 1 0]).thread.stack = [.poll 0x004 1 0] ∧
      (base.push [.rmwRead 0x104 0 1]).thread.stack = [.rmwRead 0x104 0 1] ∧
      (base.push [.rmwWrite 0x104 1]).thread.stack = [.rmwWrite 0x104 1] ∧
      (∃ t, exec (decodeTx Layout.reference (descriptor false false 0 0x004) 0) (shaAt .sha256 0 false) = .next t ∧
        (!t.thread.stopped && t.thread.val.setWidth 32 &&& (1 : Word32) == 0) = true) ∧
      (∃ t, exec (decodeTx Layout.reference (descriptor false false 0 0x004) 0) (shaAt .sha256 64 true) = .next t ∧
        (!t.thread.stopped && t.thread.val.setWidth 32 &&& (1 : Word32) == 1) = true) ∧
      (∃ t, exec (decodeTx Layout.reference (descriptor false false 0 0x104) 0) base = .next t ∧
        (!t.thread.stopped) = true) ∧
      (∃ t, exec (decodeTx Layout.reference (descriptor true false 0 0x104) ((1 : Word32).setWidth 64)) base = .next t ∧
        (!t.thread.stopped) = true) ∧
      ((shaAt .sha256 0 false).push [.wrblk 4 [1, 2]]).thread.stack = .wrblk 4 (1 :: [2]) :: [] ∧
      ((shaAt .sha512 0 false).push [.wrblk 8 [1]]).thread.stack = .wrblk 8 (1 :: []) :: [] ∧
      (∃ t, exec (decodeTx Layout.reference (descriptor true false 0 0x008) (((1 : Word64).setWidth 32 : Word32).setWidth 64))
        (shaAt .sha256 0 false) = .next t ∧ (!t.thread.stopped) = true) ∧
      ∃ t, exec (decodeTx Layout.reference (descriptor true true 0 0x008) 1) (shaAt .sha512 0 false) = .next t ∧
        (!t.thread.stopped) = true :=
  ⟨by decide +kernel, by decide +kernel, by decide +kernel, nextIs_exists (by decide +kernel),
    nextIs_exists (by decide +kernel), nextIs_exists (by decide +kernel), nextIs_exists (by decide +kernel),
    by decide +kernel, by decide +kernel, nextIs_exists (by decide +kernel), nextIs_exists (by decide +kernel)⟩

/-- SwUpdate, SwFinish: an Active context, a valid data buffer, a capacity of exactly the digest length. -/
theorem witness_SwUpdate_SwFinish :
    (hostAt .sha512 64).thread.stopped = false ∧ ((hostAt .sha512 64).ctx 0).life = .active ∧
      ((hostAt .sha512 64).ctx 0).alg = .sha512 ∧
      (hostAt .sha512 64).bufReads dataBuf 0 3 = some [0x61, 0x62, 0x63] ∧ [0x61, 0x62, 0x63] ≠ ([] : List Byte) ∧
      (hostAt .sha512 64).bufReads lenBuf 0 8 = some (leBytes 8 64) ∧
      Alg.digestBytes .sha512 ≤ leVal (leBytes 8 64) ∧
      ((hostAt .sha512 64).bufReads outBuf 0 64).isSome = true := by decide +kernel

/-- SwChecks, HcaChecks, DispatcherAgrees: a context that is not Active, and capacities one below the digest length. -/
theorem witness_Checks :
    ((hostAt .sha256 31).ctx 1).life ≠ .active ∧ ((hostAt .sha256 31).ctx 0).life = .active ∧
      (hostAt .sha256 31).bufReads lenBuf 0 8 = some (leBytes 8 31) ∧
      leVal (leBytes 8 31) < Alg.digestBytes .sha256 ∧ leVal (leBytes 8 27) < Alg.digestBytes .sha224 ∧
      inHandler.inIsr = true ∧ (inHandler.setCtx 0 (activeCtx .sha256)).inIsr = true ∧
      ((inHandler.setCtx 0 (activeCtx .sha256)).ctx 0).life = .active := by decide +kernel

/-- A context that holds "abc", as SwStreaming and HwStreaming assume one. -/
theorem witness_HoldsMessage :
    HoldsMessage .sha256 { activeCtx .sha256 with
      bitlen := 24, buf := blit (Vector.replicate 128 0) 0 [0x61, 0x62, 0x63] } [0x61, 0x62, 0x63] ∧
      (activeCtx .sha256).acc = stateAfter .sha256 [0x61, 0x62, 0x63] := by
  refine ⟨⟨rfl, rfl, by decide, by decide +kernel⟩, by decide +kernel⟩

/-- HcaShaInit: a block of another mode is pending. -/
theorem witness_HcaShaInit_pending : (abcBlock .sha512).cfg.Wf ∧ (abcBlock .sha512).thread.stopped = false ∧
    (abcBlock .sha512).inIsr = false ∧ (abcBlock .sha512).sha.busy = true ∧
    (abcBlock .sha512).sha.modeEff = some .sha512 := ⟨Config.reference_wf, by decide +kernel⟩

/-- HcaShaInit, HcaShaSubmit, HcaShaUpdate, HcaShaFinish, HcaShaRead: an idle unit in the context's mode. -/
theorem witness_HcaRuns :
    (hwAt .sha256 32).cfg.Wf ∧ (hwAt .sha256 32).thread.stopped = false ∧ (hwAt .sha256 32).inIsr = false ∧
      (hwAt .sha256 32).sha.busy = false ∧ ((hwAt .sha256 32).ctx 0).life = .active ∧
      ((hwAt .sha256 32).ctx 0).alg = .sha256 ∧ (hwAt .sha256 32).sha.modeEff = some .sha256 ∧
      (hwAt .sha256 32).sha.fill = 0 ∧ (List.replicate 64 (0 : Byte)).length = Alg.blockBytes .sha256 ∧
      (hwAt .sha256 32).bufReads dataBuf 0 3 = some [0x61, 0x62, 0x63] ∧
      (hwAt .sha256 32).bufReads lenBuf 0 8 = some (leBytes 8 32) ∧
      Alg.digestBytes .sha256 ≤ leVal (leBytes 8 32) ∧
      ((hwAt .sha256 32).bufReads outBuf 0 32).isSome = true := ⟨Config.reference_wf, by decide +kernel⟩

/-- HwStreaming, HcaShaUpdate, HcaShaFinish: no submission fails, whatever the polls draw, from a unit and a context that hold
nothing. -/
theorem witness_SubmitsSucceed : (hwAt .sha256 32).cfg.submitMayFail = true ∧
    SubmitsSucceed ((hwAt .sha256 32).withInputs { base.inputs with draws := [1, 2, 3, 6] }) 2 ∧
    (finalBlocks .sha256 (tailOf .sha256 []) (BitVec.ofNat 64 (8 * ([] : List Byte).length))).length ≤ 2 ∧
    HoldsMessage .sha256 ((hwAt .sha256 32).ctx 0) [] ∧ ShaIdle (hwAt .sha256 32).sha .sha256 ∧
    (hwAt .sha256 32).sha.h = stateAfter .sha256 [] := by
  refine ⟨by decide +kernel, fun _ => by decide +kernel, by decide +kernel, ⟨?_, ?_, ?_, ?_⟩, ⟨?_, ?_, ?_⟩, ?_⟩ <;> decide +kernel

/-- A submission about to fail: the second draw has bit 0 set. -/
theorem witness_SubmitFailurePropagates :
    let s := (base.drew.setCtx 0 (activeCtx .sha256)).push
      [.poll base.cfg.layout.shaSr (bitMask base.cfg.layout.busyBit) 0, .submitPolled, .updateSubmitted 0 .sha256 dataBuf 64 63]
    let t := s.withInputs { s.inputs with draws := [0, 1] }
    t.cfg.Wf ∧ t.thread.stopped = false ∧ t.sha.busy = false ∧ t.cfg.submitMayFail = true ∧
      (t.drewN 1).drawn.getLsbD 0 = true ∧
      t.thread.stack = .poll t.cfg.layout.shaSr (bitMask t.cfg.layout.busyBit) 0 :: .submitPolled ::
        .updateSubmitted 0 .sha256 dataBuf 64 63 :: [] := ⟨Config.reference_wf, by decide +kernel⟩

/-- TrngInit, TrngAcquireBlocking, TrngAcquireAsync, TrngIsr, TrngChecks. -/
theorem witness_TrngRuns :
    base.cfg.Wf ∧ base.thread.stopped = false ∧ base.inIsr = false ∧ base.slot = none ∧ base.cfg.trngRev ≠ 0 ∧
      base.trng.htstart = false ∧ base.trng.rdy = false ∧ base.cfg.irqRegister = true ∧ outBuf.addr % 4 = 0 ∧
      base.drawn32 = 0 ∧ base.drew.drawn32 ≠ 0 :=
  ⟨Config.reference_wf, by decide +kernel⟩

/-- A test that runs one iteration, a ready sample, a pending request, and no TRNG. -/
theorem witness_TrngRuns_rest :
    noTrng.cfg.Wf ∧ (∀ j, j < 1 → (base.drewN (2 * j + 2)).drawn32 = 0) ∧
      (trngAt false false true false).trng.rdy = true ∧
      noTrng.cfg.trngRev = 0 :=
  ⟨Config.reference_wf, by decide +kernel⟩

/-- HostISR about to run trng_isr: a pending request with a valid destination, a ready sample. -/
theorem witness_TrngIsr :
    let s := { (hostAt .sha256 32).setTrng { base.trng with rdy := true, ie := true } with
      slot := some { dst := outBuf, cb := 0 }, inIsr := true }
    s.cfg.Wf ∧ s.thread.stopped = false ∧ s.slot = some { dst := outBuf, cb := 0 } ∧ s.cfg.trngRev ≠ 0 ∧
      s.trng.htstart = false ∧ s.trng.rdy = true ∧ (s.bufReads outBuf 0 4).isSome = true :=
  ⟨Config.reference_wf, by decide +kernel⟩

/-- The test reads a non-zero value: the draw of the first data read. -/
theorem witness_TrngInit_nonzero :
    ((base.withInputs { base.inputs with draws := [0, 0, 5] }).drewN (2 * 0 + 2)).drawn32 ≠ 0 := by decide +kernel

/-! A fair run in which a block, a test or a sample waits: the device steps come first, then HostMain polls for ever. -/

/-- A state whose only step is a poll of SHA_SR that never ends. -/
abbrev PollsForever (b : Bool) (s : State) : Prop :=
  s.cfg = Config.reference ∧ s.inIsr = false ∧ s.main.stopped = false ∧ s.main.stack = [.poll 0x004 0 1] ∧
    s.sha.busy = false ∧ (s.trng.htr = false ∧ (s.trng.htstart = b ∧ (b = true ∨ s.trng.rdy = true))) ∧ s.trng.ie = false

/-- The state after a step. -/
def after (s : State) : State :=
  match step s with
  | .next t => t
  | .fault _ => s
  | .refused _ => s

theorem pollsForever_ready {b : Bool} {s : State} (h : PollsForever b s) (k : StepKind) : ready s k = (k == .hostMain) := by
  obtain ⟨-, h2, h3, h4, h5, ⟨h6, h9, h7⟩, h8⟩ := h
  rcases h7 with h7 | h7 <;> cases k <;>
    simp [ready, State.enabled, State.beginStep, State.compressEnabled, State.htCompleteEnabled, State.sampleEnabled,
      State.irqEnabled, State.irqWaits, State.irqTrng, Thread.runs, h2, h3, h4, h5, h6, h7, h8, h9]

theorem pollsForever_taken {b : Bool} {s : State} (h : PollsForever b s) : taken s = some .hostMain := by
  have e : s.beginStep.enabledSteps = [.hostMain] := by
    have : s.beginStep.enabled = fun k => k == .hostMain := funext fun k => pollsForever_ready h k
    rw [State.enabledSteps, this]; rfl
  have hk := pollsForever_ready h
  simp only [ready] at hk
  unfold taken State.chooseStep
  rw [e]
  dsimp only
  split <;> simp [hk, Nat.mod_one]
  

theorem pollsForever_step {b : Bool} {s : State} (h : PollsForever b s) :
    ∃ t, step s = .next t ∧ PollsForever b t := by
  have hs : step s = hostStep s.chosen := by
    have := pollsForever_taken h
    unfold taken at this
    simp only [step, this]; rfl
  obtain ⟨h1, h2, h3, h4, h5, h6, h8⟩ := h
  have hw : s.chosen.cfg.Wf := by rw [show s.chosen.cfg = s.cfg from rfl, h1]; exact Config.reference_wf
  have e : s.chosen.cfg.layout.shaSr = 0x004 := by rw [show s.chosen.cfg = s.cfg from rfl, h1]; rfl
  have hth : s.chosen.thread = s.main := by simp [State.thread, State.chosen, State.chose, State.beginStep, h2]
  have hp := perform_readShaSr hw
  rw [e] at hp
  rw [hs, hostStep_more (f := .poll 0x004 0 1) (fs := []) (g := .poll 0x004 0 1) (gs := []) (by rw [hth, h4]) rfl hp (by simp [hth, h3]) (by simp [Frame.onAccess]; rfl) rfl]
  refine ⟨_, rfl, ?_⟩
  simp [PollsForever, State.setStack, State.setVal, State.setThread, State.drew, State.chosen, State.chose, State.beginStep, h1, h2, h3, h5, h6, h8, State.thread]

/-- The run that a state starts. -/
def runFrom (s : State) : Nat → State
  | 0 => s
  | n + 1 => after (runFrom s n)

theorem step_after {s : State} {q : State → Bool} (h : nextIs (step s) q = true) :
    step s = .next (after s) ∧ q (after s) = true := by
  obtain ⟨t, ht, hq⟩ := nextIs_exists h
  simp [after, ht, hq]

/-- Two steps, and then the poll for ever. -/
theorem run_of_two {b : Bool} {s : State} (h0 : nextIs (step s) (fun t => t.trng.htstart == b) = true)
    (h1 : nextIs (step (after s)) (fun t => decide (PollsForever b t)) = true) (hb : s.trng.htstart = b) :
    IsRun (runFrom s) ∧ WeaklyFair (runFrom s) ∧ ∀ m, (runFrom s m).trng.htstart = b := by
  have all : ∀ n, PollsForever b (runFrom s (n + 2)) := by
    intro n
    induction n with
    | zero => exact of_decide_eq_true (step_after h1).2
    | succ n ih =>
      obtain ⟨t, ht, hq⟩ := pollsForever_step ih
      rw [show runFrom s (n + 1 + 2) = after (runFrom s (n + 2)) from rfl]
      simpa [after, ht] using hq
  refine ⟨?_, ?_, ?_⟩
  · intro n
    match n with
    | 0 => exact (step_after h0).1
    | 1 => exact (step_after h1).1
    | n + 2 =>
      obtain ⟨t, ht, -⟩ := pollsForever_step (all n)
      rw [show runFrom s (n + 2 + 1) = after (runFrom s (n + 2)) from rfl, ht]
      simp [after, ht]
  · constructor
    · intro k hk n h
      have := h (n + 2) (by omega)
      rw [pollsForever_ready (all n)] at this
      simp only [beq_iff_eq] at this
      subst this
      simp at hk
    · intro n h
      have := h (n + 2) (by omega)
      simp [State.irqWaits, State.irqTrng, (all n).2.2.2.2.2.2] at this
  · intro m
    match m with
    | 0 => exact hb
    | 1 => exact eq_of_beq (step_after h0).2
    | n + 2 => exact (all n).2.2.2.2.2.1.2.1

/-- A block is pending, HostMain polls, and the device step k is chosen after the compression. -/
def waiting (u : TrngUnit) (k : StepKind) : State :=
  (((shaAt .sha256 64 true).setTrng u).setStack [.poll 0x004 0 1]).withInputs
    { base.inputs with sched := [.shaCompress, k], irqOn := [false, false] }

theorem waiting_inv {u : TrngUnit} (h : TrngInv 1 u) (k : StepKind) : Inv (waiting u k) := by
  refine ⟨?_, h, List.Pairwise.nil, List.Pairwise.nil, List.Pairwise.nil⟩
  show ShaInv (unitIn .sha256 64 true)
  refine ⟨by decide, by decide, by decide, fun _ => by decide +kernel⟩

/-- In NORMAL a block and a sample wait; in test mode a block and a test. -/
theorem witness_DeviceProgress :
    (∃ r, IsRun r ∧ WeaklyFair r ∧ Inv (r 0) ∧ (r 0).sha.busy = true ∧ (r 0).cfg.trngRev ≠ 0 ∧
      ∀ m, 0 ≤ m → (r m).trng.htstart = false) ∧
      ∃ r, IsRun r ∧ WeaklyFair r ∧ Inv (r 0) ∧ (r 0).sha.busy = true ∧ (r 0).cfg.trngRev ≠ 0 ∧
        (r 0).trng.htr = true := by
  constructor
  · obtain ⟨h1, h2, h3⟩ := run_of_two (b := false) (s := waiting base.trng .trngSample) (by decide +kernel)
      (by decide +kernel) rfl
    exact ⟨_, h1, h2, waiting_inv ⟨by decide, by decide, by decide⟩ _, rfl, by decide, fun m _ => h3 m⟩
  · obtain ⟨h1, h2, -⟩ := run_of_two (b := true)
      (s := waiting (trngAt true true false false).trng .trngHtComplete) (by decide +kernel) (by decide +kernel) rfl
    exact ⟨_, h1, h2, waiting_inv ⟨by decide, by decide, by decide⟩ _, rfl, by decide, rfl⟩

end Sys2Proof.Tests
end

/-! SUPPORT. What the statements on the state need beside the laws: no step clears a fault (R153), and a 32-bit read of the
digest span by the value of its slot (R121, R122, R124). -/

namespace Sys2Proof.Machine

/-! ### Recorded faults stay (R153) -/

theorem State.faults_subset_raiseFault (s : State) (f : ModelFault) : s.faults ⊆ (s.raiseFault f).faults :=
  fun _ hg => (mem_insertFault f _ _).mpr (.inr hg)

theorem Local.faults_subset {s t : State} (h : Local s t) : s.faults ⊆ t.faults := by
  rw [h.faults]; exact List.Subset.refl _

theorem Ends.faults_subset {s t : State} (h : Ends s t) : s.faults ⊆ t.faults := by
  rcases h with hl | ⟨u, hl, -, rfl⟩
  · exact hl.faults_subset
  · rw [State.leaveIsr_faults]
    exact hl.faults_subset

theorem UnitEffect.faults_eq {s t : State} (h : UnitEffect s t) : t.faults = s.faults := by
  obtain ⟨x, u, w, v, -, -, rfl⟩ := h
  simp

theorem ExecEffect.faults_subset {s t : State} (h : ExecEffect s t) : s.faults ⊆ t.faults := by
  cases h with
  | fault f => exact s.faults_subset_raiseFault f
  | unit h => rw [h.faults_eq]; exact List.Subset.refl _
  | enter r => rw [State.enterIsr_faults]; exact List.Subset.refl _
  | call h => exact h.local.faults_subset

theorem HostEffect.faults_subset {s t : State} (h : HostEffect s t) : s.faults ⊆ t.faults := by
  cases h with
  | exec i _ h => exact (exec_effect h).faults_subset
  | load k b off =>
    rcases s.load_cases k b off with ⟨v, e⟩ | e <;> rw [e]
    · exact (Local.setVal s v).faults_subset
    · exact s.faults_subset_raiseFault _
  | store k b off v =>
    rcases s.store_cases k b off v with e | e <;> rw [e]
    · rw [State.setMem_faults]; exact List.Subset.refl _
    · exact s.faults_subset_raiseFault _
  | none => exact List.Subset.refl _

theorem HostStep.faults_subset {s t : State} (h : HostStep s t) : s.faults ⊆ t.faults := by
  obtain ⟨s0, t0, hbefore, heffect, hends⟩ := h
  exact List.Subset.trans (List.Subset.trans hbefore.faults_subset heffect.faults_subset) hends.faults_subset

@[simp] theorem State.chosen_faults (s : State) : s.chosen.faults = s.faults := rfl

theorem step_faults_subset {s t : State} (h : step s = .next t) : s.faults ⊆ t.faults := by
  rw [← s.chosen_faults]
  rcases step_effect h with ⟨k, -, -, -, hh⟩ | ⟨k, i, -, -, -, hi⟩ | ⟨-, rfl⟩
  · exact hh.faults_subset
  · exact (exec_effect hi).faults_subset
  · exact List.Subset.refl _

/-- Settles O4: everything a step can do leaves the fault set or adds to it, and reset begins with none. -/
theorem faultsAreNeverCleared : Obligations.FaultsAreNeverCleared :=
  ⟨fun _ _ h _ hf => step_faults_subset h hf, fun _ _ => rfl⟩

/-! ### A 32-bit read of the digest span (R121, R122, R124, R457) -/

theorem wordAt_eq_none {c : Config} {a : Alg} {e : Nat} (h : ∀ i, elemPos c a i ≠ some e) : wordAt c a e = none :=
  Option.eq_none_iff_forall_ne_some.mpr fun i hi => h i (elemPos_of_wordAt hi)

section SlotValue

variable {c : Config} {u : ShaUnit} {j i : Nat} {alg : Alg}

/-- In a 32-bit mode a slot is the state word at its position (R121). -/
theorem slotValue_of_word32 (hb : u.busy = false) (hm : u.modeEff = some alg) (h4 : alg.wordBytes = 4)
    (hi : elemPos c alg i = some j) : slotValue c u j = some ((u.h.getD i 0).setWidth 32) := by
  simp [slotValue, hb, hm, h4, wordAt_of_elemPos hi]

/-- In a 64-bit mode a slot is a half of the state word at its element, the low one at the even slot (R122). -/
theorem slotValue_of_word64 (hb : u.busy = false) (hm : u.modeEff = some alg) (h8 : alg.wordBytes = 8)
    (hi : elemPos c alg i = some (j / 2)) :
    slotValue c u j =
      some (if j % 2 = 0 then (u.h.getD i 0).setWidth 32 else (u.h.getD i 0 >>> 32).setWidth 32) := by
  simp [slotValue, hb, hm, h8, wordAt_of_elemPos hi]

theorem slotValue_of_busy (hb : u.busy = true) : slotValue c u j = none := by
  simp [slotValue, hb]

theorem slotValue_of_no_mode (hm : u.modeEff = none) : slotValue c u j = none := by
  simp [slotValue, hm]

/-- A slot that no state word has holds no value (R121, R122). -/
theorem slotValue_of_no_word (hm : u.modeEff = some alg)
    (h : ∀ i, elemPos c alg i ≠ some (if alg.wordBytes = 4 then j else j / 2)) : slotValue c u j = none := by
  have hw := wordAt_eq_none h
  unfold slotValue
  rw [hm]
  by_cases h4 : alg.wordBytes = 4
  · rw [if_pos h4] at hw
    cases u.busy <;> simp [h4, hw]
  · rw [if_neg h4] at hw
    cases u.busy <;> simp [h4, hw]

end SlotValue

/-- A read of a slot with a value hands the value over and changes nothing else. -/
theorem exec_rd32Hash_of_some {s : State} {j : Fin 16} {x : Word32} (h : slotValue s.cfg s.sha j = some x) :
    exec (.rd32Hash j) s = .next (s.setVal (x.setWidth 64)) := by
  simp [exec, execRd32Hash, State.slotAfter, State.slotRead, h]

/-- A read of a slot without a value hands over a fresh draw. -/
theorem exec_rd32Hash_of_none {s : State} {j : Fin 16} (h : slotValue s.cfg s.sha j = none) :
    exec (.rd32Hash j) s = .next (s.drew.setVal (s.drawn32.setWidth 64)) := by
  simp [exec, execRd32Hash, State.slotAfter, State.slotRead, h]

/-- Settles O19: the value of the slot in each mode, then the read of a slot with that value. -/
theorem readHash32 : Obligations.ReadHash32 := by
  intro s j
  refine ⟨fun alg i hb hm h4 hi => exec_rd32Hash_of_some (slotValue_of_word32 hb hm h4 hi),
    fun alg i hb hm h8 hi => exec_rd32Hash_of_some (slotValue_of_word64 hb hm h8 hi),
    fun h => exec_rd32Hash_of_none ?_⟩
  rcases h with hb | hm | ⟨alg, hm, hno⟩
  · exact slotValue_of_busy hb
  · exact slotValue_of_no_mode hm
  · exact slotValue_of_no_word hm hno

end Sys2Proof.Machine

/-! SUPPORT. What the statements on the encoding need beside the laws: a descriptor decodes to BUS_ERROR exactly when no row
admits it, which descriptors are admitted under a well-formed layout (R302, R310, R311), and what BUS_ERROR does to a state. -/

namespace Sys2Proof

/-! ### BUS_ERROR is what no row admits (R310, R311) -/

/-- The admitted rows stand before BUS_ERROR, and none of them gives it. -/
theorem busInstr_ne_busError (L : Layout) {n : Nat} (hn : n < (busRows L).length) (d : BitVec 16) (v x : Word64)
    (a b : Bool) (r : BitVec 2) (o : BitVec 12) : busInstr L n d v ≠ .busError a b r o x := by
  have h14 : n < 14 := hn
  interval_cases n <;> rintro ⟨⟩

theorem decodeTx_of_not_admitted {L : Layout} {d : BitVec 16} (h : ¬ admitted L d = true) (v : Word64) :
    decodeTx L d v = .busError (descW d) (descS d) (descRsv d) (descOff d) (busData (descW d) (descS d) v) := by
  have hlast : (if inWindow L d then (busRows L).findIdx (·.admits d) else (busRows L).length) = (busRows L).length := by
    split_ifs with hw
    · rw [List.findIdx_eq_length]
      simpa [admitted, hw] using h
    · rfl
  rw [decodeTx, hlast]
  rfl

theorem decodeTx_ne_busError_of_admitted {L : Layout} {d : BitVec 16} (h : admitted L d = true) (v x : Word64)
    (a b : Bool) (r : BitVec 2) (o : BitVec 12) : decodeTx L d v ≠ .busError a b r o x := by
  obtain ⟨hw, hrow⟩ := Bool.and_eq_true_iff.mp h
  rw [decodeTx, if_pos hw]
  exact busInstr_ne_busError L (List.findIdx_lt_length.mpr (List.any_eq_true.mp hrow)) d v x a b r o

/-! ### The admitted descriptors (R302, R311) -/

section Admitted

variable {L : Layout} (h : L.OffsetsWf) (r : BitVec 2) (o : BitVec 12)
include h

/-- Under a well-formed layout a row admits nothing outside the window (R201). -/
theorem admitted_descriptor (w s : Bool) :
    admitted L (descriptor w s r o) = (busRows L).any (·.admits (descriptor w s r o)) := by
  obtain ⟨hslots, hdigest⟩ := h.window
  by_cases hw : o.toNat < L.window
  · simp [admitted, inWindow, hw]
  · have ne : ∀ x ∈ L.slots, o ≠ x := by rintro x hx rfl; exact hw (hslots _ hx)
    have nd : ∀ s, ¬ L.Digest s o := fun s hs => hw (hdigest s o hs)
    simp only [Layout.slots, List.forall_mem_cons] at ne
    simp [admitted, inWindow, hw, busRows, admits_at, admits_span, ne, nd]

theorem admitted_read32 : admitted L (descriptor false false r o) = true ↔
    r = 0 ∧ (o ∈ L.wordOffsets ∨ L.Digest false o) := by
  rw [admitted_descriptor h]
  simp only [busRows, List.any_cons, List.any_nil, admits_at, admits_span, Bool.or_eq_true, decide_eq_true_eq,
    Bool.false_eq_true, false_and, and_false, true_and, or_false, false_or, ← and_or_left, Layout.wordOffsets,
    List.mem_cons, List.not_mem_nil]
  simp only [or_assoc, or_comm (a := L.Digest false o)]

theorem admitted_read64 : admitted L (descriptor false true r o) = true ↔ r = 0 ∧ L.Digest true o := by
  rw [admitted_descriptor h]
  simp [busRows, admits_at, admits_span]

theorem admitted_write32 : admitted L (descriptor true false r o) = true ↔
    r = 0 ∧ o ∈ [L.shaCr, L.fifoIn, L.trngCr, L.trngTrim] := by
  rw [admitted_descriptor h]
  simp [busRows, admits_at, admits_span, and_or_left]

theorem admitted_write64 : admitted L (descriptor true true r o) = true ↔ r = 0 ∧ o = L.fifoIn := by
  rw [admitted_descriptor h]
  simp [busRows, admits_at, admits_span]

end Admitted

/-- A condition that says which descriptors are admitted says which decode to BUS_ERROR. -/
theorem decodeTx_busError_of_admitted_iff {L : Layout} {w s : Bool} {r : BitVec 2} {o : BitVec 12} {legal : Prop}
    (hlegal : admitted L (descriptor w s r o) = true ↔ legal) (v : Word64) :
    (¬ legal → decodeTx L (descriptor w s r o) v = .busError w s r o (busData w s v)) ∧
      (legal → ∀ a b r' o' x, decodeTx L (descriptor w s r o) v ≠ .busError a b r' o' x) := by
  rw [← hlegal]
  refine ⟨fun hn => ?_, fun ha a b r' o' x => decodeTx_ne_busError_of_admitted ha v x a b r' o'⟩
  simpa only [descW_descriptor, descS_descriptor, descRsv_descriptor, descOff_descriptor]
    using decodeTx_of_not_admitted hn v

end Sys2Proof

namespace Sys2Proof.Machine

/-! ### BUS_ERROR raises MF_BUS (R311, R655) -/

theorem exec_busError (w sz : Bool) (rsv : BitVec 2) (off : BitVec 12) (v : Word64) (s : State) :
    exec (.busError w sz rsv off v) s = .next (s.raiseFault .bus) := rfl

theorem State.raiseFault_main_of_inIsr {s : State} (f : ModelFault) (h : s.inIsr = true) :
    (s.raiseFault f).main = s.main := State.setThread_main_of_inIsr _ h

theorem State.raiseFault_isr_of_not_inIsr {s : State} (f : ModelFault) (h : s.inIsr = false) :
    (s.raiseFault f).isr = s.isr := State.setThread_isr_of_not_inIsr _ h

/-- Settles O11: the admitted descriptors by direction and width, and the frame of a raised fault. -/
theorem illegalTransactions : Obligations.IllegalTransactions := by
  constructor
  · intro L h w sz rsv off v
    cases w <;> cases sz
    · exact decodeTx_busError_of_admitted_iff (admitted_read32 h rsv off) v
    · exact decodeTx_busError_of_admitted_iff (admitted_read64 h rsv off) v
    · exact decodeTx_busError_of_admitted_iff (admitted_write32 h rsv off) v
    · exact decodeTx_busError_of_admitted_iff (admitted_write64 h rsv off) v
  · intro w sz rsv off v s
    refine ⟨s.raiseFault .bus, exec_busError w sz rsv off v s, fun f => mem_insertFault .bus f s.faults,
      s.raiseFault_thread .bus, State.raiseFault_main_of_inIsr .bus, State.raiseFault_isr_of_not_inIsr .bus, ?_⟩
    simp

end Sys2Proof.Machine

/-! SUPPORT. What the statements on compression need beside the laws: the message schedule grows by the recurrence and keeps
the words it has (R410, R411), and the two forms of the final blocks (R431). -/

namespace Sys2Proof.Machine

/-! ### The words of a block (R410) -/

@[simp] theorem blockWords_length (w e n : Nat) (bs : List Byte) : (blockWords w e n bs).length = n := by
  induction n generalizing bs with
  | zero => rfl
  | succ n ih => simp [blockWords, ih]

/-- Word t is the big-endian value of the e bytes at offset e·t. -/
theorem blockWords_getD {w e n t : Nat} (ht : t < n) (bs : List Byte) :
    (blockWords w e n bs).getD t 0 = BitVec.ofNat w (beVal ((bs.drop (e * t)).take e)) := by
  induction n generalizing t bs with
  | zero => omega
  | succ n ih =>
    cases t with
    | zero => simp [blockWords]
    | succ t =>
      rw [blockWords, List.getD_cons_succ, ih (by omega), List.drop_drop, Nat.mul_succ, Nat.add_comm]

/-! ### The schedule grows (R411) -/

section Schedule

variable {w : Nat} (f : Family w)

/-- Every word of W from the 16th on follows R411's recurrence. -/
def FollowsRecurrence (W : List (BitVec w)) : Prop :=
  ∀ t, 16 ≤ t → t < W.length → W.getD t 0 =
    f.smallSigma1 (W.getD (t - 2) 0) + W.getD (t - 7) 0 + f.smallSigma0 (W.getD (t - 15) 0) + W.getD (t - 16) 0

/-- The model keeps the words latest first; this is its next word on the words in order. -/
theorem scheduleNext_reverse {W : List (BitVec w)} (h : 16 ≤ W.length) :
    scheduleNext f W.reverse =
      f.smallSigma1 (W.getD (W.length - 2) 0) + W.getD (W.length - 7) 0 +
        f.smallSigma0 (W.getD (W.length - 15) 0) + W.getD (W.length - 16) 0 := by
  have back : ∀ i, i < 16 → W.reverse.getD i 0 = W.getD (W.length - (i + 1)) 0 := fun i hi => by
    rw [List.getD_reverse i (by omega), Nat.sub_sub, Nat.add_comm 1 i]
  rw [scheduleNext, back 1 (by omega), back 6 (by omega), back 14 (by omega), back 15 (by omega)]

variable {f}

/-- The words before the last are the old ones, and the last follows the recurrence. -/
theorem FollowsRecurrence.append_next {W : List (BitVec w)} (hW : FollowsRecurrence f W) (h : 16 ≤ W.length) :
    FollowsRecurrence f (W ++ [scheduleNext f W.reverse]) := by
  intro t h16 ht
  rw [List.length_append, List.length_singleton] at ht
  have old : ∀ i, i < W.length → (W ++ [scheduleNext f W.reverse]).getD i 0 = W.getD i 0 :=
    fun i hi => List.getD_append _ _ _ i hi
  rw [old (t - 2) (by omega), old (t - 7) (by omega), old (t - 15) (by omega), old (t - 16) (by omega)]
  rcases Nat.lt_succ_iff_lt_or_eq.mp ht with hlt | rfl
  · rw [old t hlt, hW t h16 hlt]
  · rw [List.getD_append_right _ _ _ _ le_rfl, Nat.sub_self, List.getD_cons_zero, scheduleNext_reverse f h]

theorem FollowsRecurrence.grow {rev : List (BitVec w)} (hrev : FollowsRecurrence f rev.reverse)
    (h : 16 ≤ rev.length) (n : Nat) : FollowsRecurrence f (scheduleGrow f n rev).reverse := by
  induction n generalizing rev with
  | zero => exact hrev
  | succ n ih =>
    refine ih ?_ (Nat.le_succ_of_le h)
    simpa using hrev.append_next (by simpa using h)

variable (f)

@[simp] theorem scheduleGrow_length (n : Nat) (rev : List (BitVec w)) :
    (scheduleGrow f n rev).length = rev.length + n := by
  induction n generalizing rev with
  | zero => rfl
  | succ n ih => rw [scheduleGrow, ih, List.length_cons]; omega

/-- Growing the schedule keeps the words it has. -/
theorem suffix_scheduleGrow (n : Nat) (rev : List (BitVec w)) : rev <:+ scheduleGrow f n rev := by
  induction n generalizing rev with
  | zero => exact List.suffix_refl _
  | succ n ih => exact (List.suffix_cons _ _).trans (ih _)

/-! ### The schedule of a block (R410, R411) -/

theorem schedule_length (hk : 16 ≤ f.k.length) (b : List Byte) : (schedule f b).length = f.k.length := by
  simp [schedule, hk]

theorem blockWords_prefix_schedule (b : List Byte) : blockWords w (w / 8) 16 b <+: schedule f b := by
  simpa [schedule] using
    List.reverse_prefix.mpr (suffix_scheduleGrow f (f.k.length - 16) (blockWords w (w / 8) 16 b).reverse)

theorem schedule_getD_of_lt {t : Nat} (ht : t < 16) (b : List Byte) :
    (schedule f b).getD t 0 = BitVec.ofNat w (beVal ((b.drop (w / 8 * t)).take (w / 8))) := by
  obtain ⟨rest, hrest⟩ := blockWords_prefix_schedule f b
  rw [← hrest, List.getD_append _ _ _ _ (by simpa using ht), blockWords_getD ht]

/-- The 16 words of the block have nothing to follow, and every word added follows them. -/
theorem followsRecurrence_schedule (b : List Byte) : FollowsRecurrence f (schedule f b) := by
  refine FollowsRecurrence.grow ?_ (by simp) _
  intro t h16 ht
  exact absurd (by simpa using ht) (Nat.not_lt.mpr h16)

end Schedule

theorem family256_k_length : family256.k.length = 64 := by decide

theorem family512_k_length : family512.k.length = 80 := by decide

/-- Settles O22: the schedule of either family has one word per round constant, begins with the words of the block, and
follows the recurrence from there. -/
theorem messageSchedule : Obligations.MessageSchedule := by
  intro b
  have len256 : (schedule family256 b).length = 64 :=
    (schedule_length family256 (by decide) b).trans family256_k_length
  have len512 : (schedule family512 b).length = 80 :=
    (schedule_length family512 (by decide) b).trans family512_k_length
  exact ⟨⟨len256, fun t ht => schedule_getD_of_lt family256 ht b,
      fun t h16 ht => followsRecurrence_schedule family256 b t h16 (len256.symm ▸ ht)⟩,
    len512, fun t ht => schedule_getD_of_lt family512 ht b,
      fun t h16 ht => followsRecurrence_schedule family512 b t h16 (len512.symm ▸ ht)⟩

/-! ### The two forms of the final blocks (R431) -/

section FinalBlocks

variable {alg : Alg} {p : List Byte} (hp : p.length < alg.blockBytes) (bitlen : Word64)

theorem finalBlocks_of_fits (h : p.length + 1 + alg.lengthBytes ≤ alg.blockBytes) :
    finalBlocks alg p bitlen =
      [p ++ [0x80] ++ List.replicate (alg.blockBytes - alg.lengthBytes - p.length - 1) 0 ++
        beBytes alg.lengthBytes bitlen.toNat] :=
  if_pos (by omega)

include hp

theorem finalBlocks_of_not_fits (h : ¬ p.length + 1 + alg.lengthBytes ≤ alg.blockBytes) :
    finalBlocks alg p bitlen =
      [p ++ [0x80] ++ List.replicate (alg.blockBytes - p.length - 1) 0,
        List.replicate (alg.blockBytes - alg.lengthBytes) 0 ++ beBytes alg.lengthBytes bitlen.toNat] :=
  if_neg (by omega)

theorem finalBlocks_count : (finalBlocks alg p bitlen).length =
    if p.length + 1 + alg.lengthBytes ≤ alg.blockBytes then 1 else 2 := by
  split_ifs with h
  · rw [finalBlocks_of_fits bitlen h]; rfl
  · rw [finalBlocks_of_not_fits hp bitlen h]; rfl

/-- In two blocks the zeros after the terminator and those before the length field are one run. -/
theorem finalBlocks_flatten : (finalBlocks alg p bitlen).flatten = p ++ [0x80] ++
    List.replicate ((finalBlocks alg p bitlen).length * alg.blockBytes - alg.lengthBytes - p.length - 1) 0 ++
      beBytes alg.lengthBytes bitlen.toNat := by
  rw [finalBlocks_count hp]
  split_ifs with h
  · rw [finalBlocks_of_fits bitlen h, List.flatten_singleton, Nat.one_mul]
  · have hl : alg.lengthBytes < alg.blockBytes := by cases alg <;> decide
    have hzeros : 2 * alg.blockBytes - alg.lengthBytes - p.length - 1 =
        (alg.blockBytes - p.length - 1) + (alg.blockBytes - alg.lengthBytes) := by omega
    rw [finalBlocks_of_not_fits hp bitlen h, hzeros, List.replicate_add]
    simp only [List.flatten_cons, List.flatten_nil, List.append_nil, List.append_assoc]

end FinalBlocks

/-- Settles O23: the count and the joined content from the two forms, and each block a whole one. -/
theorem finalBlocks_spec : Obligations.FinalBlocks := fun _ _ bitlen hp =>
  ⟨finalBlocks_count hp bitlen, fun _ hb => finalBlocks_length hp bitlen hb, finalBlocks_flatten hp bitlen⟩

end Sys2Proof.Machine

/-! SUPPORT. What the statements on the SHA unit's writes need beside the laws: the branches of a SHA_CR write (R451, R452),
and what appending bytes does in each state, whatever their number (R454, R455, R456). -/

namespace Sys2Proof.Machine

/-! ### Writes of SHA_CR (R451, R452) -/

section WriteShaCr

variable {s : State} {v : Word32}

theorem exec_wr32ShaCr_of_init_idle (hi : crInit s.cfg v = true) (hb : s.sha.busy = false) :
    exec (.wr32ShaCr v) s = .next (s.setSha (s.sha.init (crMode s.cfg v))) := by
  simp [exec, execWr32ShaCr, hi, hb]

theorem exec_wr32ShaCr_of_init_busy (hi : crInit s.cfg v = true) (hb : s.sha.busy = true) :
    exec (.wr32ShaCr v) s = .next (s.raiseFault .initBusy) := by
  simp [exec, execWr32ShaCr, hi, hb]

theorem exec_wr32ShaCr_of_not_init (hi : crInit s.cfg v = false) :
    exec (.wr32ShaCr v) s = .next (s.setSha { s.sha with modeField := crMode s.cfg v }) := by
  simp [exec, execWr32ShaCr, hi]

end WriteShaCr

/-- Settles O14: the three branches of the write; INIT on an idle unit leaves BUSY at 0. -/
theorem writeShaCr : Obligations.WriteShaCr := by
  refine fun s v => ⟨fun hi hb => ?_, exec_wr32ShaCr_of_init_busy, exec_wr32ShaCr_of_not_init⟩
  rw [exec_wr32ShaCr_of_init_idle hi hb, ShaUnit.init, hb]

/-! ### Block input in every state (R454, R455, R456) -/

theorem exec_wr32FifoIn (v : Word32) (s : State) :
    exec (.wr32FifoIn v) s = .next (s.append (fifoBytes s.cfg.fifoOrder 4 v.toNat)) := rfl

theorem exec_wr64FifoIn (v : Word64) (s : State) :
    exec (.wr64FifoIn v) s = .next (s.append (fifoBytes s.cfg.fifoOrder 8 v.toNat)) := rfl

section Append

variable {s : State} {alg : Alg} {bs : List Byte} {k : Nat}

theorem State.append_of_no_mode (hm : s.sha.modeEff = none) : s.append bs = s.raiseFault .fifoNoInit := by
  simp [State.append, hm]

theorem State.append_of_busy (hm : s.sha.modeEff.isSome) (hb : s.sha.busy = true) :
    s.append bs = s.raiseFault .fifoBusy := by
  obtain ⟨alg, hm⟩ := Option.isSome_iff_exists.mp hm
  simp [State.append, hm, hb]

theorem State.append_of_overrun (hl : bs.length = k) (hm : s.sha.modeEff = some alg) (hb : s.sha.busy = false)
    (hf : alg.blockBytes < s.sha.fill + k) : s.append bs = s.raiseFault .fifoOverrun := by
  simp [State.append, hm, hb, hl, hf]

/-- The block buffer at every index: the bytes put into it stand at their places, and every other byte is the old one. -/
theorem blit_getD {b : Vector Byte 128} {i j : Nat} (h : i + bs.length ≤ 128) (hj : j < 128) :
    (blit b i bs).getD j 0 = if i ≤ j ∧ j < i + bs.length then bs.getD (j - i) 0 else b.getD j 0 := by
  have getD_eq : ∀ w : Vector Byte 128, w.getD j 0 = w[j] := fun w => by simp [Vector.getD, hj]
  rw [getD_eq, getD_eq, blit_getElem b i bs h j hj]
  split_ifs with hin
  · rw [List.getD_eq_getElem]
  · rfl

/-- Bytes that fit the block stand at `fill` afterwards, and the block is submitted exactly when they fill it. -/
theorem State.append_of_fits (hl : bs.length = k) (hm : s.sha.modeEff = some alg) (hb : s.sha.busy = false)
    (hf : s.sha.fill + k ≤ alg.blockBytes) :
    ∃ b : Vector Byte 128, s.append bs = s.setSha { s.sha with
        blk := b, fill := s.sha.fill + k, busy := decide (s.sha.fill + k = alg.blockBytes) } ∧
      ∀ i, i < 128 → b.getD i 0 = if s.sha.fill ≤ i ∧ i < s.sha.fill + k
        then bs.getD (i - s.sha.fill) 0 else s.sha.blk.getD i 0 := by
  subst hl
  exact ⟨blit s.sha.blk s.sha.fill bs, State.append_of_ready hm hb hf,
    fun _ hi => blit_getD (hf.trans (blockBytes_le alg)) hi⟩

end Append

/-- Settles O16: both widths append the bytes of the value, 4 or 8 of them, and the state decides what appending does. -/
theorem fifoWrites : Obligations.FifoWrites := by
  intro s
  simp only [exec_wr32FifoIn, exec_wr64FifoIn, Host.Outcome.next.injEq]
  refine ⟨fun hm _ _ => ⟨State.append_of_no_mode hm, State.append_of_no_mode hm⟩,
    fun hm hb _ _ => ⟨State.append_of_busy hm hb, State.append_of_busy hm hb⟩,
    fun alg hm hb => ⟨fun hf _ => ?_, fun hf _ => ?_, fun hf _ => ?_, fun hf _ => ?_⟩⟩
  · exact State.append_of_overrun (fifoBytes_length _ _ _) hm hb hf
  · exact State.append_of_overrun (fifoBytes_length _ _ _) hm hb hf
  · exact State.append_of_fits (fifoBytes_length _ _ _) hm hb hf
  · exact State.append_of_fits (fifoBytes_length _ _ _) hm hb hf

end Sys2Proof.Machine

/-! SUPPORT. What the statement on the dispatcher needs beside the laws: what sha_init, sha_update and sha_finish do for a
present context, in terms of the software engine's common bodies (R520 to R523). -/

namespace Sys2Proof.Machine

section Dispatcher

variable {s : State} {c : Nat} {alg : Alg} {e : Endian} {d o l : Option Buf} {n : Nat}

/-! ### The dispatcher in terms of the engine (R520, R521, R522) -/

theorem exec_shaInit_known : exec (.shaInit (some c) (.known alg) e) s = swInit alg (some c) e s := rfl

theorem exec_shaUpdate_of_not_active (h : (s.ctx c).life ≠ .active) :
    exec (.shaUpdate (some c) d n) s = .next (s.raiseFault .ctxState) := if_pos h

theorem exec_shaFinish_of_not_active (h : (s.ctx c).life ≠ .active) :
    exec (.shaFinish (some c) o l) s = .next (s.raiseFault .ctxState) := if_pos h

theorem exec_shaUpdate_of_active (h : (s.ctx c).life = .active) :
    exec (.shaUpdate (some c) d n) s = swUpdate (s.ctx c).alg (some c) d n s := if_neg (not_not_intro h)

theorem exec_shaFinish_of_active (h : (s.ctx c).life = .active) :
    exec (.shaFinish (some c) o l) s = swFinish (s.ctx c).alg (some c) o l s := if_neg (not_not_intro h)

/-- The dispatcher agrees with any entry points that are the engine's bodies for one algorithm (R523). -/
theorem dispatcher_eq_entryPoints {init update finish : Instr} (hinit : exec init s = swInit alg (some c) e s)
    (hupdate : exec update s = swUpdate alg (some c) d n s) (hfinish : exec finish s = swFinish alg (some c) o l s) :
    exec (.shaInit (some c) (.known alg) e) s = exec init s ∧
      ((s.ctx c).life = .active → (s.ctx c).alg = alg →
        exec (.shaUpdate (some c) d n) s = exec update s ∧ exec (.shaFinish (some c) o l) s = exec finish s) := by
  refine ⟨exec_shaInit_known.trans hinit.symm, fun hactive halg => ⟨?_, ?_⟩⟩
  · rw [exec_shaUpdate_of_active hactive, halg, hupdate]
  · rw [exec_shaFinish_of_active hactive, halg, hfinish]

end Dispatcher

/-- Settles O46: the dispatcher's own checks come first; past them it is the engine's body for the context's algorithm,
which is what each of the four variants is. -/
theorem dispatcherAgrees : Obligations.DispatcherAgrees := by
  intro s c
  refine ⟨fun _ _ => rfl, fun _ _ => rfl, fun _ _ => rfl, fun _ _ => rfl, fun h =>
    ⟨fun _ _ => exec_shaUpdate_of_not_active h, fun _ _ => exec_shaFinish_of_not_active h, fun _ => rfl⟩,
    fun e d n o l => ?_⟩
  simp only [List.forall_mem_cons]
  exact ⟨dispatcher_eq_entryPoints rfl rfl rfl, dispatcher_eq_entryPoints rfl rfl rfl,
    dispatcher_eq_entryPoints rfl rfl rfl, dispatcher_eq_entryPoints rfl rfl rfl, List.forall_mem_nil _⟩

end Sys2Proof.Machine

/-! SUPPORT. What the statements on the TRNG unit need beside the laws: an access to a TRNG register with and without the
TRNG (R557), the edges of HTSTART and the mode each leaves (R135, R552), what a call can answer, and that without the TRNG
no step changes the unit (R557). -/

namespace Sys2Proof.Machine

/-! ### Accesses with and without the TRNG (R130, R557) -/

theorem State.ifTrng_of_absent {s t : State} (h : s.cfg.trngRev = 0) : s.ifTrng t = .next (s.raiseFault .bus) := by
  simp [State.ifTrng, State.trngPresent, h]

theorem State.ifTrng_of_present {s t : State} (h : s.cfg.trngRev ≠ 0) : s.ifTrng t = .next t :=
  if_pos (bne_iff_ne.mpr h)

/-- Every transaction to a TRNG register but TRNG_REV raises MF_BUS where the TRNG is absent (R557). -/
theorem exec_trngRegister_of_absent {s : State} (h : s.cfg.trngRev = 0) (v : Word32) :
    ∀ i ∈ [Instr.rd32TrngCr, .wr32TrngCr v, .rd32TrngSr, .rd32TrngTrim, .wr32TrngTrim v, .rd32TrngData],
      exec i s = .next (s.raiseFault .bus) := by
  simp only [List.forall_mem_cons]
  exact ⟨State.ifTrng_of_absent h, State.ifTrng_of_absent h, State.ifTrng_of_absent h, State.ifTrng_of_absent h,
    State.ifTrng_of_absent h, State.ifTrng_of_absent h, List.forall_mem_nil _⟩

/-! ### Writes of TRNG_CR (R552) -/

section WriteTrngCr

variable {u : TrngUnit} {start ie : Bool} {x : Word32}

theorem TrngUnit.writeCr_of_rising (hs : u.htstart = false) :
    u.writeCr true ie x = { u with htstart := true, htr := true, rdy := false, ie := ie } := by
  simp [TrngUnit.writeCr, hs]

theorem TrngUnit.writeCr_of_aborts (ha : u.aborts start = true) :
    u.writeCr start ie x = { u with htstart := false, htr := false, hts := x, ie := ie } := by
  have hs : u.htstart = true := by simp_all [TrngUnit.aborts]
  simp [TrngUnit.writeCr, hs, ha]

/-- Neither a rising edge nor an aborted test: HTSTART and IE are stored, and nothing else changes. -/
theorem TrngUnit.writeCr_of_plain (hr : (!u.htstart && start) = false) (ha : u.aborts start = false) :
    u.writeCr start ie x = { u with htstart := start, ie := ie } := by
  simp only [TrngUnit.writeCr, hr, ha, Bool.false_eq_true, if_false]

theorem TrngUnit.writeCr_htstart : (u.writeCr start ie x).htstart = start := by
  cases hr : !u.htstart && start with
  | true =>
    simp only [Bool.and_eq_true, Bool.not_eq_true'] at hr
    rw [hr.2, TrngUnit.writeCr_of_rising hr.1]
  | false =>
    cases ha : u.aborts start with
    | true =>
      rw [TrngUnit.writeCr_of_aborts ha]
      simp_all [TrngUnit.aborts]
    | false => rw [TrngUnit.writeCr_of_plain hr ha]

/-- The mode afterwards depends on the HTSTART written and the mode before alone (R135, R552, R563). -/
theorem TrngUnit.writeCr_mode : (u.writeCr start ie x).mode =
    if start then (if u.mode = .normal then .testing else u.mode) else .normal := by
  cases start with
  | false => simp [TrngUnit.mode, TrngUnit.writeCr_htstart]
  | true =>
    cases hs : u.htstart with
    | false => simp [TrngUnit.writeCr_of_rising hs, TrngUnit.mode, hs]
    | true =>
      rw [TrngUnit.writeCr_of_plain (by simp [hs]) (by simp [TrngUnit.aborts])]
      cases hr : u.htr <;> simp [TrngUnit.mode, hs, hr]

end WriteTrngCr

section ExecWriteTrngCr

variable {s : State} {v : Word32}

theorem exec_wr32TrngCr_of_aborts (hp : s.cfg.trngRev ≠ 0) (ha : s.trng.aborts (crHtstart s.cfg v) = true) :
    exec (.wr32TrngCr v) s = .next (s.drew.setTrng
      (s.trng.writeCr (crHtstart s.cfg v) (crIe s.cfg v) (htsBits s.cfg.htsW s.drawn32))) := by
  simp only [exec, execWr32TrngCr, State.ifTrng_of_present hp, ha, if_true]

theorem exec_wr32TrngCr_of_not_aborts (hp : s.cfg.trngRev ≠ 0) (ha : s.trng.aborts (crHtstart s.cfg v) = false) :
    exec (.wr32TrngCr v) s = .next (s.setTrng
      (s.trng.writeCr (crHtstart s.cfg v) (crIe s.cfg v) (htsBits s.cfg.htsW s.drawn32))) := by
  simp only [exec, execWr32TrngCr, State.ifTrng_of_present hp, ha, Bool.false_eq_true, if_false]

/-- Whether or not HTS is drawn, the unit after the write is that of `TrngUnit.writeCr`. -/
theorem trng_of_exec_wr32TrngCr {t : State} (hp : s.cfg.trngRev ≠ 0) (h : exec (.wr32TrngCr v) s = .next t) :
    t.trng = s.trng.writeCr (crHtstart s.cfg v) (crIe s.cfg v) (htsBits s.cfg.htsW s.drawn32) := by
  cases ha : s.trng.aborts (crHtstart s.cfg v) with
  | true => cases (exec_wr32TrngCr_of_aborts hp ha).symm.trans h; rfl
  | false => cases (exec_wr32TrngCr_of_not_aborts hp ha).symm.trans h; rfl

end ExecWriteTrngCr

/-- Settles O29: the edge, and whether the test still runs, decide what the write stores; the mode follows from the unit
it leaves. -/
theorem writeTrngCr : Obligations.WriteTrngCr := by
  refine fun s v => ⟨State.ifTrng_of_absent, fun hp => ⟨fun hs hv => ?rising, fun hs hv hr => ?aborted,
    fun hs hv hr => ?completed, fun hv => ?noEdge, fun t h => ?mode⟩⟩
  case rising =>
    rw [exec_wr32TrngCr_of_not_aborts hp (by simp [TrngUnit.aborts, hs]), hv, TrngUnit.writeCr_of_rising hs]
  case aborted =>
    have ha : s.trng.aborts (crHtstart s.cfg v) = true := by simp [TrngUnit.aborts, hs, hv, hr]
    rw [exec_wr32TrngCr_of_aborts hp ha, TrngUnit.writeCr_of_aborts ha]
  case completed =>
    have ha : s.trng.aborts (crHtstart s.cfg v) = false := by simp [TrngUnit.aborts, hr]
    rw [exec_wr32TrngCr_of_not_aborts hp ha, TrngUnit.writeCr_of_plain (by simp [hs]) ha, hv]
  case noEdge =>
    have ha : s.trng.aborts (crHtstart s.cfg v) = false := by simp [TrngUnit.aborts, hv]
    rw [exec_wr32TrngCr_of_not_aborts hp ha, TrngUnit.writeCr_of_plain (by simp [hv]) ha, ← hv]
  case mode => rw [trng_of_exec_wr32TrngCr hp h, TrngUnit.writeCr_mode]

/-! ### Writes of TRNG_TRIM (R555) -/

section WriteTrngTrim

variable {u : TrngUnit} {trim : BitVec 31} {lock : Bool}

theorem TrngUnit.writeTrim_of_unlocked (h : u.lock = false) :
    u.writeTrim trim lock = { u with trimVal := trim, lock := lock } := by
  simp [TrngUnit.writeTrim, h]

theorem TrngUnit.writeTrim_of_locked (h : u.lock = true) : u.writeTrim trim lock = u := by
  simp only [TrngUnit.writeTrim, h, if_true, Bool.true_or]
  rw [← h]

end WriteTrngTrim

theorem exec_wr32TrngTrim_of_present {s : State} (hp : s.cfg.trngRev ≠ 0) (v : Word32) :
    exec (.wr32TrngTrim v) s = .next (s.setTrng (s.trng.writeTrim (trimVal s.cfg v) (trimLock s.cfg v))) :=
  State.ifTrng_of_present hp

/-- Settles O30: the lock decides what the write stores; a locked unit is written back as it is. -/
theorem writeTrngTrim : Obligations.WriteTrngTrim := by
  refine fun s v => ⟨State.ifTrng_of_absent, fun hp hl => ?_, fun hp hl => ?_⟩
  · rw [exec_wr32TrngTrim_of_present hp, TrngUnit.writeTrim_of_unlocked hl]
  · rw [exec_wr32TrngTrim_of_present hp, TrngUnit.writeTrim_of_locked hl, State.setTrng_self]

/-! ### Reads of TRNG_DATA (R556) -/

section ReadTrngData

variable {s : State}

theorem exec_rd32TrngData_of_ready (hp : s.cfg.trngRev ≠ 0) (hs : s.trng.htstart = false) (hr : s.trng.rdy = true) :
    exec .rd32TrngData s = .next ((s.setTrng { s.trng with rdy := false }).setVal (s.trng.sample.setWidth 64)) := by
  simp [exec, execRd32TrngData, State.ifTrng_of_present hp, hs, hr]

theorem exec_rd32TrngData_of_unready (hp : s.cfg.trngRev ≠ 0) (h : s.trng.htstart = true ∨ s.trng.rdy = false) :
    exec .rd32TrngData s = .next (s.drew.setVal (s.drawn32.setWidth 64)) := by
  simp [exec, execRd32TrngData, State.ifTrng_of_present hp, h]

end ReadTrngData

/-- Settles O31: a sample is handed over and consumed only in NORMAL and only when it is ready. -/
theorem readTrngData : Obligations.ReadTrngData :=
  fun _ => ⟨State.ifTrng_of_absent, exec_rd32TrngData_of_ready, exec_rd32TrngData_of_unready⟩

/-! ### What a call can answer (R31, R32)

`exec_effect` says what any operation can do; of a call it can be said more sharply, since a call makes no access. -/

/-- The answers of a call: a code, a model fault, the frames of what it does next, nothing, or an initialised context. -/
inductive CallAnswer (s : State) : Host.Outcome State Fault Refusal → Prop where
  | ret (c : Code) : CallAnswer s (s.ret c)
  | fail (f : ModelFault) : CallAnswer s (s.fail f)
  | begin (fs : List Frame) : CallAnswer s (s.begin fs)
  | noop : CallAnswer s (.next s)
  | init (c : Nat) (x : HashContext) : CallAnswer s ((s.setCtx c x).ret .ok)

/-- A call answers a model fault, or a state that is local to its agent. -/
theorem CallAnswer.cases_next {s t : State} {o : Host.Outcome State Fault Refusal} (h : CallAnswer s o) (ho : o = .next t) :
    (∃ f, t = s.raiseFault f) ∨ CallEffect s t := by
  cases h <;> cases ho
  case fail f => exact .inl ⟨f, rfl⟩
  case ret c => exact .inr (.ret c)
  case begin fs => exact .inr (.begin fs)
  case noop => exact .inr .noop
  case init c x => exact .inr (.init c x)

section CallAnswers

variable (s : State) (alg : Alg) (ctx : Option Nat) (endian : Endian) (data out outlen : Option Buf) (len : Nat)

theorem swInit_answer : CallAnswer s (swInit alg ctx endian s) := by
  cases ctx with
  | none => exact .ret _
  | some c => exact .init c _

theorem swUpdate_answer : CallAnswer s (swUpdate alg ctx data len s) := by
  cases ctx with
  | none => exact .ret _
  | some c => simp only [swUpdate]; split_ifs <;> constructor

theorem swFinish_answer : CallAnswer s (swFinish alg ctx out outlen s) := by
  unfold swFinish
  split
  case h_4 => split_ifs <;> constructor
  all_goals constructor

end CallAnswers

/-- Every branch of a procedure's call is one of the answers of a call. -/
theorem exec_answer_of_procedure {i : Instr} (hk : i.kind = .procedure) (s : State) : CallAnswer s (exec i s) := by
  cases i with
  | hcaShaInit hd ctx tag endian =>
    simp only [exec, execHcaShaInit]
    split
    case h_4 => split_ifs <;> constructor
    all_goals constructor
  | hcaShaUpdate hd ctx data len =>
    simp only [exec, execHcaShaUpdate]
    split
    case h_3 => split_ifs <;> constructor
    all_goals constructor
  | hcaShaSubmit hd blk alg => cases hd <;> constructor
  | hcaShaFinish hd ctx out outlen =>
    simp only [exec, execHcaShaFinish]
    split
    case h_5 => split_ifs <;> constructor
    all_goals constructor
  | hcaShaRead hd alg out n => constructor
  | sha224Init _ _ | sha256Init _ _ | sha384Init _ _ | sha512Init _ _ => exact swInit_answer _ _ _ _
  | sha224Update _ _ _ | sha256Update _ _ _ | sha384Update _ _ _ | sha512Update _ _ _ => exact swUpdate_answer _ _ _ _ _
  | sha224Finish _ _ _ | sha256Finish _ _ _ | sha384Finish _ _ _ | sha512Finish _ _ _ => exact swFinish_answer _ _ _ _ _
  | shaInit ctx tag endian =>
    simp only [exec, execShaInit]
    split
    case h_3 => exact swInit_answer _ _ _ _
    all_goals constructor
  | shaUpdate ctx data len =>
    cases ctx with
    | none => constructor
    | some c =>
      simp only [exec, execShaUpdate]
      split_ifs
      · constructor
      · exact swUpdate_answer _ _ _ _ _
  | shaFinish ctx out outlen =>
    cases ctx with
    | none => constructor
    | some c =>
      simp only [exec, execShaFinish]
      split_ifs
      · constructor
      · exact swFinish_answer _ _ _ _ _
  | trngInit hd =>
    cases hd with
    | absent => constructor
    | present => simp only [exec, execTrngInit]; split_ifs <;> constructor
  | trngAcquireBlocking hd =>
    cases hd with
    | absent => constructor
    | present => simp only [exec, execTrngAcquireBlocking]; split_ifs <;> constructor
  | trngAcquireAsync hd dst cb =>
    cases hd with
    | absent => constructor
    | present =>
      simp only [exec, execTrngAcquireAsync]
      split_ifs
      · constructor
      · split
        case h_3 => split_ifs <;> constructor
        all_goals constructor
  | trngIsr hd =>
    simp only [exec, execTrngIsr]
    split <;> constructor
  | _ => cases hk

/-! ### Without the TRNG no step changes the unit (R557) -/

theorem State.append_trng (s : State) (bs : List Byte) : (s.append bs).trng = s.trng := by
  rcases s.append_cases bs with ⟨-, e⟩ | ⟨_, -, -, e⟩ | ⟨_, -, -, -, e⟩ | ⟨_, -, -, -, e⟩ <;> simp [e]

theorem State.slotAfter_trng (s : State) (j : Nat) : (s.slotAfter j).trng = s.trng := by
  rcases slot_effect s j with e | e <;> simp [e]

theorem CallAnswer.trng_eq {s t : State} {o : Host.Outcome State Fault Refusal} (h : CallAnswer s o) (ho : o = .next t) :
    t.trng = s.trng := by
  rcases h.cases_next ho with ⟨f, rfl⟩ | hc
  · exact s.raiseFault_trng f
  · exact hc.local.trng

section Absent

variable {s t : State}

theorem State.irqTrng_of_absent (h : s.cfg.trngRev = 0) : s.irqTrng = false := by
  simp [State.irqTrng, State.trngPresent, h]

theorem State.htCompleteEnabled_of_absent (h : s.cfg.trngRev = 0) : s.htCompleteEnabled = false := by
  simp [State.htCompleteEnabled, State.trngPresent, h]

theorem State.sampleEnabled_of_absent (h : s.cfg.trngRev = 0) : s.sampleEnabled = false := by
  simp [State.sampleEnabled, State.trngPresent, h]

/-- No operation changes an absent TRNG: its registers fault, its own steps are not enabled, and no other operation is of
that unit. -/
theorem exec_trng_eq_of_absent {i : Instr} (hp : s.cfg.trngRev = 0) (h : exec i s = .next t) : t.trng = s.trng := by
  cases i with
  | rd32ShaCr | rd32ShaSr | rd32TrngRev | busError _ _ _ _ _ => cases h; simp
  | wr32ShaCr v =>
    simp only [exec, execWr32ShaCr] at h
    split_ifs at h <;> cases h <;> simp
  | wr32FifoIn v | wr64FifoIn v => cases h; exact s.append_trng _
  | rd32Hash _ | rd64Hash _ => cases h; simp [State.slotAfter_trng]
  | rd32TrngCr | wr32TrngCr v | rd32TrngSr | rd32TrngTrim | wr32TrngTrim v | rd32TrngData =>
    cases (State.ifTrng_of_absent hp).symm.trans h
    exact s.raiseFault_trng .bus
  | shaCompress =>
    simp only [exec, execShaCompress] at h
    split at h <;> cases h
    simp
  | trngHtComplete => simp [exec, execTrngHtComplete, State.htCompleteEnabled_of_absent hp] at h
  | trngSample => simp [exec, execTrngSample, State.sampleEnabled_of_absent hp] at h
  | irqDeliver =>
    simp only [exec, execIrqDeliver] at h
    split at h <;> cases h
    simp
  | _ => exact (exec_answer_of_procedure rfl s).trng_eq h

theorem HostEffect.trng_eq_of_absent (hp : s.cfg.trngRev = 0) (h : HostEffect s t) : t.trng = s.trng := by
  cases h with
  | exec i _ h => exact exec_trng_eq_of_absent hp h
  | load k b off => rcases s.load_cases k b off with ⟨v, e⟩ | e <;> simp [e]
  | store k b off v => rcases s.store_cases k b off v with e | e <;> simp [e]
  | none => rfl

theorem Ends.trng_eq (h : Ends s t) : t.trng = s.trng := by
  rcases h with hl | ⟨u, hl, -, rfl⟩
  · exact hl.trng
  · exact hl.trng

theorem HostStep.trng_eq_of_absent (hp : s.cfg.trngRev = 0) (h : HostStep s t) : t.trng = s.trng := by
  obtain ⟨s0, t0, hbefore, heffect, hends⟩ := h
  calc t.trng = t0.trng := hends.trng_eq
    _ = s0.trng := heffect.trng_eq_of_absent (by rw [hbefore.cfg, hp])
    _ = s.trng := hbefore.trng

theorem step_trng_eq_of_absent (hp : s.cfg.trngRev = 0) (h : step s = .next t) : t.trng = s.trng := by
  have hp' : s.chosen.cfg.trngRev = 0 := hp
  change t.trng = s.chosen.trng
  rcases step_effect h with ⟨k, -, -, -, hh⟩ | ⟨k, i, -, -, -, hi⟩ | ⟨-, rfl⟩
  · exact hh.trng_eq_of_absent hp'
  · exact exec_trng_eq_of_absent hp' hi
  · rfl

end Absent

/-- Settles O32: the registers fault, the line and both enabling conditions ask for the TRNG, and so no step is left that
changes the unit. -/
theorem trngAbsent : Obligations.TrngAbsent := fun _ hp =>
  ⟨exec_trngRegister_of_absent hp, State.irqTrng_of_absent hp, State.htCompleteEnabled_of_absent hp,
    State.sampleEnabled_of_absent hp, fun _ h => step_trng_eq_of_absent hp h⟩

end Sys2Proof.Machine

/-! SUPPORT. What the statements on every step of the machine need beside the laws: what a bus transaction and a device step
can do, said more sharply than `exec_effect` does, and how a property of the parts of a step is one of the step. -/

namespace Sys2Proof.Machine

/-! ### What a bus transaction can do (R210, R219, R221) -/

/-- Everything a bus transaction can do: a model fault, a value read, and the writes and the one read that change a unit. -/
inductive BusEffect (s : State) : Instr → State → Prop where
  | fault {i : Instr} (f : ModelFault) : BusEffect s i (s.raiseFault f)
  | read {i : Instr} (v : Word64) : BusEffect s i (s.setVal v)
  | readDraw {i : Instr} (x : Inputs) (v : Word64) : BusEffect s i ((s.withInputs x).setVal v)
  | mode (v : Word32) (m : BitVec 2) : BusEffect s (.wr32ShaCr v) (s.setSha { s.sha with modeField := m })
  | init (v : Word32) (m : BitVec 2) (hb : s.sha.busy = false) : BusEffect s (.wr32ShaCr v) (s.setSha (s.sha.init m))
  | append32 (v : Word32) (alg : Alg) (bs : List Byte) (hb : s.sha.busy = false) :
      BusEffect s (.wr32FifoIn v) (s.setSha (s.sha.append alg bs))
  | append64 (v : Word64) (alg : Alg) (bs : List Byte) (hb : s.sha.busy = false) :
      BusEffect s (.wr64FifoIn v) (s.setSha (s.sha.append alg bs))
  | trngCr (v : Word32) (x : Inputs) (start ie : Bool) (h : Word32) :
      BusEffect s (.wr32TrngCr v) ((s.withInputs x).setTrng (s.trng.writeCr start ie h))
  | trngTrim (v : Word32) (trim : BitVec 31) (lock : Bool) :
      BusEffect s (.wr32TrngTrim v) (s.setTrng (s.trng.writeTrim trim lock))
  | consume (v : Word64) (hr : s.trng.rdy = true) :
      BusEffect s .rd32TrngData ((s.setTrng { s.trng with rdy := false }).setVal v)

theorem State.append_busEffect {s : State} {i : Instr} {bs : List Byte}
    (h : ∀ alg, s.sha.busy = false → BusEffect s i (s.setSha (s.sha.append alg bs))) : BusEffect s i (s.append bs) := by
  rcases s.append_cases bs with ⟨-, e⟩ | ⟨-, -, -, e⟩ | ⟨-, -, -, -, e⟩ | ⟨alg, -, hb, -, e⟩ <;> rw [e]
  · exact .fault _
  · exact .fault _
  · exact .fault _
  · exact h alg hb

theorem State.ifTrng_busEffect {s t u : State} {i : Instr} (h : s.ifTrng t = .next u) (ht : BusEffect s i t) :
    BusEffect s i u := by
  unfold State.ifTrng at h
  split at h <;> cases h
  · exact ht
  · exact .fault _

theorem State.slotAfter_withInputs (s : State) (j : Nat) : ∃ x, s.slotAfter j = s.withInputs x := by
  rcases slot_effect s j with e | e
  · exact ⟨s.inputs, e⟩
  · exact ⟨s.drew.inputs, e⟩

theorem exec_busEffect {i : Instr} {s t : State} (hk : i.kind = .bus) (h : exec i s = .next t) : BusEffect s i t := by
  cases i with
  | rd32ShaCr | rd32ShaSr => cases h; exact .readDraw s.drew.inputs _
  | rd32TrngRev => cases h; exact .read _
  | busError _ _ _ _ _ => cases h; exact .fault _
  | wr32ShaCr v =>
    simp only [exec, execWr32ShaCr] at h
    split_ifs at h with hi hb <;> cases h
    · exact .fault _
    · exact .init v _ (Bool.eq_false_iff.mpr hb)
    · exact .mode v _
  | wr32FifoIn v => cases h; exact State.append_busEffect fun alg hb => .append32 v alg _ hb
  | wr64FifoIn v => cases h; exact State.append_busEffect fun alg hb => .append64 v alg _ hb
  | rd32Hash j =>
    cases h
    obtain ⟨x, e⟩ := s.slotAfter_withInputs j
    rw [e]
    exact .readDraw x _
  | rd64Hash e =>
    cases h
    obtain ⟨x, ex⟩ := s.slotAfter_withInputs (2 * e)
    obtain ⟨y, ey⟩ := (s.withInputs x).slotAfter_withInputs (2 * e + 1)
    rw [ex, ey]
    exact .readDraw y _
  | rd32TrngCr | rd32TrngSr => exact State.ifTrng_busEffect h (.readDraw s.drew.inputs _)
  | rd32TrngTrim => exact State.ifTrng_busEffect h (.read _)
  | wr32TrngTrim v => exact State.ifTrng_busEffect h (.trngTrim v _ _)
  | wr32TrngCr v =>
    refine State.ifTrng_busEffect h ?_
    split_ifs
    · exact .trngCr v s.drew.inputs _ _ _
    · exact .trngCr v s.inputs _ _ _
  | rd32TrngData =>
    refine State.ifTrng_busEffect h ?_
    split_ifs with hr
    · exact .readDraw s.drew.inputs _
    · exact .consume _ (by simp_all)
  | _ => cases hk

/-! ### The agent that does not act (R152, R210) -/

/-- Which agent acts is as before, and the other one is untouched. -/
structure OtherAgentKept (s t : State) : Prop where
  inIsr : t.inIsr = s.inIsr
  main : s.inIsr = true → t.main = s.main
  isr : s.inIsr = false → t.isr = s.isr

theorem OtherAgentKept.of_eq {s t : State} (hi : t.inIsr = s.inIsr) (hm : t.main = s.main) (hr : t.isr = s.isr) :
    OtherAgentKept s t := ⟨hi, fun _ => hm, fun _ => hr⟩

theorem OtherAgentKept.trans {s t u : State} (a : OtherAgentKept s t) (b : OtherAgentKept t u) : OtherAgentKept s u where
  inIsr := b.inIsr.trans a.inIsr
  main h := (b.main (a.inIsr.trans h)).trans (a.main h)
  isr h := (b.isr (a.inIsr.trans h)).trans (a.isr h)

theorem OtherAgentKept.raiseFault (s : State) (f : ModelFault) : OtherAgentKept s (s.raiseFault f) :=
  ⟨s.raiseFault_inIsr f, State.raiseFault_main_of_inIsr f, State.raiseFault_isr_of_not_inIsr f⟩

theorem Local.otherAgentKept {s t : State} (h : Local s t) : OtherAgentKept s t := ⟨h.inIsr, h.main, h.isr⟩

theorem OtherAgentKept.setVal {s t : State} (h : OtherAgentKept s t) (v : Word64) : OtherAgentKept s (t.setVal v) :=
  h.trans (Local.setVal t v).otherAgentKept

theorem BusEffect.otherAgentKept {i : Instr} {s t : State} (h : BusEffect s i t) : OtherAgentKept s t := by
  cases h with
  | fault f => exact .raiseFault s f
  | read v | readDraw x v | consume v =>
    refine OtherAgentKept.setVal ?_ v
    exact .of_eq rfl rfl rfl
  | _ => exact .of_eq rfl rfl rfl

/-- Settles O33: the frame of each thing a bus transaction can do. -/
theorem busFrame : Obligations.BusFrame := by
  intro i s t hk h
  have he := exec_busEffect hk h
  refine ⟨?cfg, ?mem, ?ctx, ?slot, ?handler, he.otherAgentKept.inIsr, ?callbacks, he.otherAgentKept.main,
    he.otherAgentKept.isr, ?rest⟩
  all_goals cases he <;> simp

/-! ### What a call leaves alone (R657) -/

theorem CallAnswer.frame {s t : State} {o : Host.Outcome State Fault Refusal} (h : CallAnswer s o) (ho : o = .next t) :
    OtherAgentKept s t ∧ t.cfg = s.cfg ∧ t.sha = s.sha ∧ t.trng = s.trng ∧ t.mem = s.mem ∧ t.slot = s.slot ∧
      t.irqHandler = s.irqHandler ∧ t.callbacks = s.callbacks ∧ t.inputs = s.inputs := by
  rcases h.cases_next ho with ⟨f, rfl⟩ | hc
  · exact ⟨.raiseFault s f, by simp⟩
  · refine ⟨hc.local.otherAgentKept, ?_⟩
    cases hc <;> simp

/-- The instructions that start a context afresh at their call (R501, R520). -/
def StartsContext (c : Nat) (i : Instr) : Prop :=
  ∃ alg e, i ∈ [Instr.sha224Init (some c) e, .sha256Init (some c) e, .sha384Init (some c) e, .sha512Init (some c) e,
    .shaInit (some c) (.known alg) e]

theorem ctx_of_swInit {alg : Alg} {ctx : Option Nat} {e : Endian} {s t : State} (h : swInit alg ctx e s = .next t) {c : Nat}
    (hc : t.ctx c ≠ s.ctx c) : ctx = some c := by
  cases ctx with
  | none => cases h; simp at hc
  | some d =>
    cases h
    by_cases hd : c = d
    · rw [hd]
    · simp [State.ctx_setCtx, hd] at hc

/-- An outcome in which every context is that of s. -/
def KeepsContexts (s : State) (o : Host.Outcome State Fault Refusal) : Prop := ∀ t, o = .next t → t.ctxs = s.ctxs

section KeepsContexts

variable (s : State) (alg : Alg) (ctx : Option Nat) (data out outlen : Option Buf) (len : Nat)

@[simp] theorem keepsContexts_ret (c : Code) : KeepsContexts s (s.ret c) := by rintro t ⟨⟩; simp
@[simp] theorem keepsContexts_fail (f : ModelFault) : KeepsContexts s (s.fail f) := by rintro t ⟨⟩; simp
@[simp] theorem keepsContexts_begin (fs : List Frame) : KeepsContexts s (s.begin fs) := by rintro t ⟨⟩; simp
@[simp] theorem keepsContexts_noop : KeepsContexts s (.next s) := by rintro t ⟨⟩; rfl

@[simp] theorem keepsContexts_ite (p : Prop) [Decidable p] (a b : Host.Outcome State Fault Refusal) :
    KeepsContexts s (if p then a else b) ↔ if p then KeepsContexts s a else KeepsContexts s b := by
  split_ifs <;> rfl

@[simp] theorem swUpdate_keepsContexts : KeepsContexts s (swUpdate alg ctx data len s) := by
  cases ctx <;> simp [swUpdate]

@[simp] theorem swFinish_keepsContexts : KeepsContexts s (swFinish alg ctx out outlen s) := by
  unfold swFinish
  split <;> simp

end KeepsContexts

/-- No call but that of a software init changes a context. -/
theorem exec_startsContext {i : Instr} {s t : State} (hk : i.kind = .procedure) (h : exec i s = .next t) {c : Nat}
    (hc : t.ctx c ≠ s.ctx c) : StartsContext c i := by
  by_contra hi
  have keeps : KeepsContexts s (exec i s) → False := fun hq => hc (by rw [State.ctx, hq t h, State.ctx])
  cases i with
  | sha224Init ctx e | sha256Init ctx e | sha384Init ctx e | sha512Init ctx e =>
    cases ctx_of_swInit h hc
    exact hi ⟨.sha224, e, by simp⟩
  | shaInit ctx tag e =>
    rcases ctx with _ | d
    · exact keeps (keepsContexts_ret s _)
    · cases tag with
      | unknown n => exact keeps (keepsContexts_ret s _)
      | known alg =>
        cases ctx_of_swInit (exec_shaInit_known.symm.trans h) hc
        exact hi ⟨alg, e, by simp⟩
  | hcaShaInit hd ctx tag e =>
    refine keeps ?_
    simp only [exec, execHcaShaInit]
    split <;> simp
  | hcaShaUpdate hd ctx data len =>
    refine keeps ?_
    simp only [exec, execHcaShaUpdate]
    split <;> simp
  | hcaShaSubmit hd blk alg => cases hd <;> exact keeps (by simp [exec, execHcaShaSubmit])
  | hcaShaFinish hd ctx out outlen =>
    refine keeps ?_
    simp only [exec, execHcaShaFinish]
    split <;> simp
  | hcaShaRead hd alg out n => exact keeps (keepsContexts_begin s _)
  | sha224Update _ _ _ | sha256Update _ _ _ | sha384Update _ _ _ | sha512Update _ _ _ =>
    exact keeps (swUpdate_keepsContexts s _ _ _ _)
  | sha224Finish _ _ _ | sha256Finish _ _ _ | sha384Finish _ _ _ | sha512Finish _ _ _ =>
    exact keeps (swFinish_keepsContexts s _ _ _ _)
  | shaUpdate ctx data len =>
    refine keeps ?_
    simp only [exec, execShaUpdate]
    split <;> simp
  | shaFinish ctx out outlen =>
    refine keeps ?_
    simp only [exec, execShaFinish]
    split <;> simp
  | trngInit hd =>
    cases hd <;> exact keeps (by simp [exec, execTrngInit])
  | trngAcquireBlocking hd =>
    cases hd <;> exact keeps (by simp [exec, execTrngAcquireBlocking])
  | trngAcquireAsync hd dst cb =>
    cases hd <;> cases dst <;> cases cb <;> exact keeps (by simp [exec, execTrngAcquireAsync])
  | trngIsr hd =>
    refine keeps ?_
    simp only [exec, execTrngIsr]
    split <;> simp
  | _ => cases hk

/-- Settles O34: the frame of each answer of a call, and the contexts by the calls that start one. -/
theorem callFrame : Obligations.CallFrame := by
  intro i s t hk h
  obtain ⟨ha, hcfg, hsha, htrng, hmem, hslot, hirq, hcb, hin⟩ := (exec_answer_of_procedure hk s).frame h
  exact ⟨hcfg, hsha, htrng, fun a => by rw [hmem], hslot, hirq, ha.inIsr, hcb, hin, ha.main, ha.isr,
    fun c hc => exec_startsContext hk h hc⟩

end Sys2Proof.Machine

/-! SUPPORT. A property of a step from its parts: a relation that holds over local work, a model fault, a bus transaction and
a store holds over a host agent's step; what a device step does; and with them the invariant (R110 to R114, R132, R135) and
what no step changes (R17, R133, R202, R728). -/

namespace Sys2Proof.Machine

/-! ### A host agent's step by its parts -/

/-- A relation between a state and a later one that holds over each thing a host agent's step is made of, but for the
handler's return. -/
structure HostClosed (R : State → State → Prop) : Prop where
  trans : ∀ {s t u}, R s t → R t u → R s u
  loc : ∀ {s t}, Local s t → R s t
  fault : ∀ s f, R s (s.raiseFault f)
  bus : ∀ {i s t}, i.kind = .bus → exec i s = .next t → R s t
  store : ∀ s a bs, R s (s.setMem (memWrites s.mem a bs))

section HostClosed

variable {R : State → State → Prop} (hR : HostClosed R) {s t : State}
include hR

theorem HostClosed.exec {i : Instr} (hk : i.kind ≠ .event) (h : Machine.exec i s = .next t) : R s t := by
  cases hb : i.kind with
  | bus => exact hR.bus hb h
  | event => exact absurd hb hk
  | procedure =>
    rcases (exec_answer_of_procedure hb s).cases_next h with ⟨f, rfl⟩ | hc
    · exact hR.fault s f
    · exact hR.loc hc.local

theorem HostClosed.hostEffect (h : HostEffect s t) : R s t := by
  cases h with
  | exec i hk h => exact hR.exec hk h
  | load k b off =>
    rcases s.load_cases k b off with ⟨v, e⟩ | e <;> rw [e]
    · exact hR.loc (.setVal s v)
    · exact hR.fault s _
  | store k b off v =>
    rcases s.store_cases k b off v with e | e <;> rw [e]
    · exact hR.store s _ _
    · exact hR.fault s _
  | none => exact hR.loc (.refl s)

theorem HostClosed.hostStep_or_leave (h : HostStep s t) : R s t ∨ ∃ u, R s u ∧ u.inIsr = true ∧ t = u.leaveIsr := by
  obtain ⟨s0, t0, hbefore, heffect, hends⟩ := h
  have ht0 : R s t0 := hR.trans (hR.loc hbefore) (hR.hostEffect heffect)
  rcases hends with hl | ⟨u, hl, hi, rfl⟩
  · exact .inl (hR.trans ht0 (hR.loc hl))
  · exact .inr ⟨u, hR.trans ht0 (hR.loc hl), hi, rfl⟩

theorem HostClosed.hostStep (hleave : ∀ u : State, R u u.leaveIsr) (h : HostStep s t) : R s t := by
  rcases hR.hostStep_or_leave h with hst | ⟨u, hsu, -, rfl⟩
  · exact hst
  · exact hR.trans hsu (hleave u)

end HostClosed

/-! ### A device step (R460, R560, R561, R663) -/

/-- What each step of a device or of the platform does, and when. -/
inductive DeviceStep (s : State) : StepKind → State → Prop where
  | compress (alg : Alg) (hm : s.sha.modeEff = some alg) (hb : s.sha.busy = true) :
      DeviceStep s .shaCompress (s.setSha (s.sha.compressed alg))
  | complete (h : s.htCompleteEnabled = true) :
      DeviceStep s .trngHtComplete
        (s.drew.setTrng { s.trng with htr := false, hts := htsBits s.cfg.htsW s.drawn32 })
  | sample (h : s.sampleEnabled = true) :
      DeviceStep s .trngSample (s.drew.setTrng { s.trng with sample := s.drawn32, rdy := true })
  | deliver (r : Registration) (h : s.irqEnabled = true) (hr : s.irqHandler = some r) :
      DeviceStep s .irqDeliver (s.enterIsr r)

theorem deviceStep_of_exec {k : StepKind} {i : Instr} {s t : State} (hk : k.event = some i) (h : exec i s = .next t) :
    DeviceStep s k t := by
  cases k with
  | hostMain | hostIsr => cases hk
  | shaCompress =>
    cases hk
    simp only [exec, execShaCompress] at h
    split at h <;> cases h
    next alg hb hm => exact .compress alg hm hb
  | trngHtComplete =>
    cases hk
    simp only [exec, execTrngHtComplete] at h
    split at h <;> cases h
    exact .complete ‹_›
  | trngSample =>
    cases hk
    simp only [exec, execTrngSample] at h
    split at h <;> cases h
    exact .sample ‹_›
  | irqDeliver =>
    cases hk
    simp only [exec, execIrqDeliver] at h
    split at h <;> cases h
    next r he hr => exact .deliver r he hr

/-- What a step of the machine is: the acting agent's, a device's, or none. -/
theorem step_parts {s t : State} (h : step s = .next t) :
    (∃ k, taken s = some k ∧ ready s k = true ∧ k.event = none ∧ HostStep s.chosen t) ∨
      (∃ k, taken s = some k ∧ DeviceStep s.chosen k t) ∨ (taken s = none ∧ t = s.chosen) := by
  rcases step_effect h with hh | ⟨k, i, hk, -, he, hi⟩ | hn
  · exact .inl hh
  · exact .inr (.inl ⟨k, hk, deviceStep_of_exec he hi⟩)
  · exact .inr (.inr hn)

/-! ### The invariant of the machine (R110 to R114, R132, R135) -/

theorem Inv.of_units {s t : State} (h : Inv s) (hu : ShaInv t.sha) (hw : TrngInv t.cfg.htsW t.trng) (hm : t.mem = s.mem)
    (hc : t.ctxs = s.ctxs) (hf : t.faults = s.faults) : Inv t := by
  obtain ⟨-, -, hmem, hctx, hfault⟩ := h
  exact ⟨hu, hw, hm ▸ hmem, hc ▸ hctx, hf ▸ hfault⟩

theorem Inv.raiseFault {s : State} (h : Inv s) (f : ModelFault) : Inv (s.raiseFault f) := by
  obtain ⟨hsha, htrng, hmem, hctx, hfault⟩ := h
  exact ⟨by simpa using hsha, by simpa using htrng, by simpa using hmem, by simpa using hctx, by
    rw [State.raiseFault_faults]; exact insertFault_wf hfault f⟩

theorem Inv.local {s t : State} (h : Inv s) (l : Local s t) : Inv t := by
  obtain ⟨hsha, htrng, hmem, hctx, hfault⟩ := h
  exact ⟨l.sha ▸ hsha, by rw [l.cfg, l.trng]; exact htrng, by rw [l.mem]; exact hmem, l.ctxs hctx,
    by rw [l.faults]; exact hfault⟩

theorem Inv.memWrites {s : State} (h : Inv s) (a : Nat) (bs : List Byte) :
    Inv (s.setMem (Machine.memWrites s.mem a bs)) := by
  obtain ⟨hsha, htrng, hmem, hctx, hfault⟩ := h
  exact ⟨hsha, htrng, memWrites_wf hmem a bs, hctx, hfault⟩

theorem Inv.exec {s t : State} {i : Instr} (h : Inv s) (he : Machine.exec i s = .next t) : Inv t := by
  cases exec_effect he with
  | fault f => exact h.raiseFault f
  | unit hu =>
    obtain ⟨x, u, w, v, hsha, htrng, rfl⟩ := hu
    have ⟨hs, hw, _⟩ := h
    exact h.of_units (by simpa using hsha.inv hs) (by simpa using htrng.inv hw) (by simp) (by simp) (by simp)
  | enter r => exact h
  | call hc => exact h.local hc.local

theorem Inv.hostClosed : HostClosed fun s t => Inv s → Inv t where
  trans hst htu := htu ∘ hst
  loc l h := h.local l
  fault _ f h := h.raiseFault f
  bus _ he h := h.exec he
  store _ a bs h := h.memWrites a bs

/-- Settles O3: each part of a step keeps the invariant. -/
theorem stepKeepsInvariant : Obligations.StepKeepsInvariant := by
  intro s t hs h
  have hc : Inv s.chosen := hs
  rcases step_effect h with ⟨k, -, -, -, hh⟩ | ⟨k, i, -, -, -, hi⟩ | ⟨-, rfl⟩
  · exact Inv.hostClosed.hostStep (fun _ hu => hu) hh hc
  · exact hc.exec hi
  · exact hc

/-! ### What no step changes (R17, R133, R202, R728) -/

/-- The parameters, the callbacks, which addresses are caller memory, and a locked trim are those of s. -/
def KeepsFixed (s t : State) : Prop :=
  t.cfg = s.cfg ∧ t.callbacks = s.callbacks ∧ (∀ a, (memRead t.mem a).isSome = (memRead s.mem a).isSome) ∧
    (s.trng.lock = true → t.trng.lock = true ∧ t.trng.trimVal = s.trng.trimVal)

theorem KeepsFixed.of_eq {s t : State} (hc : t.cfg = s.cfg) (hb : t.callbacks = s.callbacks) (hm : t.mem = s.mem)
    (hw : t.trng = s.trng) : KeepsFixed s t := by
  refine ⟨hc, hb, fun a => by rw [hm], fun hl => ?_⟩
  rw [hw]
  exact ⟨hl, rfl⟩

theorem KeepsFixed.trans {s t u : State} (a : KeepsFixed s t) (b : KeepsFixed t u) : KeepsFixed s u := by
  obtain ⟨ac, ab, am, al⟩ := a
  obtain ⟨bc, bb, bm, bl⟩ := b
  refine ⟨bc.trans ac, bb.trans ab, fun x => (bm x).trans (am x), fun hl => ?_⟩
  obtain ⟨hlt, htrim⟩ := al hl
  obtain ⟨hlu, htrim'⟩ := bl hlt
  exact ⟨hlu, htrim'.trans htrim⟩

theorem KeepsFixed.exec {s t : State} {i : Instr} (h : Machine.exec i s = .next t) : KeepsFixed s t := by
  cases exec_effect h with
  | fault f => exact .of_eq (by simp) (by simp) (by simp) (by simp)
  | unit hu =>
    obtain ⟨x, u, w, v, -, htrng, rfl⟩ := hu
    exact ⟨by simp, by simp, by simp, by simpa using htrng.lock⟩
  | enter r => exact .of_eq rfl rfl rfl rfl
  | call hc => exact .of_eq hc.local.cfg hc.local.callbacks hc.local.mem hc.local.trng

theorem KeepsFixed.hostClosed : HostClosed KeepsFixed where
  trans := .trans
  loc l := .of_eq l.cfg l.callbacks l.mem l.trng
  fault _ _ := .of_eq (by simp) (by simp) (by simp) (by simp)
  bus _ := .exec
  store s a bs := ⟨rfl, rfl, fun b => memRead_memWrites_isSome s.mem a b bs, fun hl => ⟨hl, rfl⟩⟩

theorem step_keepsFixed {s t : State} (h : step s = .next t) : KeepsFixed s t := by
  have hc : KeepsFixed s s.chosen := .of_eq rfl rfl rfl rfl
  rcases step_effect h with ⟨k, -, -, -, hh⟩ | ⟨k, i, -, -, -, hi⟩ | ⟨-, rfl⟩
  · exact hc.trans (KeepsFixed.hostClosed.hostStep (fun _ => .of_eq rfl rfl rfl rfl) hh)
  · exact hc.trans (.exec hi)
  · exact hc

/-- Settles O5: each part of a step keeps what is fixed. -/
theorem stepKeepsLockAndParameters : Obligations.StepKeepsLockAndParameters := fun _ _ => step_keepsFixed

end Sys2Proof.Machine

/-! SUPPORT. What a step does to the agents and to the units: which agent acts and stays (R152, R656, R663, R666), and what
a host agent's access can do to a pending block, a running test and a sample (R456, R552, R561). -/

namespace Sys2Proof.Machine

/-! ### Which agent acts (R152, R656, R663, R666) -/

theorem OtherAgentKept.hostClosed : HostClosed OtherAgentKept where
  trans := .trans
  loc := Local.otherAgentKept
  fault := .raiseFault
  bus hk h := (exec_busEffect hk h).otherAgentKept
  store _ _ _ := .of_eq rfl rfl rfl

/-- A device step touches no agent, but for the delivery of an interrupt. -/
theorem DeviceStep.agents {s t : State} {k : StepKind} (h : DeviceStep s k t) :
    t.main = s.main ∧ (k ≠ .irqDeliver → t.isr = s.isr ∧ t.inIsr = s.inIsr) ∧
      (k = .irqDeliver → s.inIsr = false ∧ t.inIsr = true ∧ t.isr.stopped = false) := by
  cases h with
  | deliver r h => simp_all [State.irqEnabled, State.irqWaits, Thread.idle]
  | _ => simp

@[simp] theorem State.chosen_main (s : State) : s.chosen.main = s.main := rfl
@[simp] theorem State.chosen_isr (s : State) : s.chosen.isr = s.isr := rfl
@[simp] theorem State.chosen_inIsr (s : State) : s.chosen.inIsr = s.inIsr := rfl
@[simp] theorem State.chosen_sha (s : State) : s.chosen.sha = s.sha := rfl
@[simp] theorem State.chosen_trng (s : State) : s.chosen.trng = s.trng := rfl
@[simp] theorem State.chosen_cfg (s : State) : s.chosen.cfg = s.cfg := rfl
@[simp] theorem State.chosen_mem (s : State) : s.chosen.mem = s.mem := rfl
@[simp] theorem State.chosen_ctxs (s : State) : s.chosen.ctxs = s.ctxs := rfl
@[simp] theorem State.chosen_slot (s : State) : s.chosen.slot = s.slot := rfl
@[simp] theorem State.chosen_irqHandler (s : State) : s.chosen.irqHandler = s.irqHandler := rfl
@[simp] theorem State.chosen_thread (s : State) : s.chosen.thread = s.thread := rfl

/-- The host step that is ready is that of the acting agent, which has not stopped. -/
theorem ready_host {s : State} {k : StepKind} (hk : k.event = none) (h : ready s k = true) :
    k = s.hostKind ∧ s.thread.stopped = false := by
  cases k <;> cases hk <;> simp_all [ready, State.enabled, Thread.runs, State.hostKind, State.thread]

/-- Settles O6: a stopped agent has no ready step, and no step of another touches it. -/
theorem stoppedAgentStays : Obligations.StoppedAgentStays := by
  intro s t h
  rcases step_parts h with ⟨k, -, hr, he, hh⟩ | ⟨k, -, hd⟩ | ⟨-, rfl⟩
  · obtain ⟨-, hns⟩ := ready_host he hr
    have hmain : s.main.stopped = true → s.inIsr = true := by
      intro hm
      by_contra hi
      simp_all [State.thread]
    refine ⟨fun hm => ?_, fun hi hs => absurd hns (by simp [State.thread, hi, hs])⟩
    rcases OtherAgentKept.hostClosed.hostStep_or_leave hh with hk | ⟨u, hk, -, rfl⟩
    · exact hk.main (hmain hm)
    · exact hk.main (hmain hm)
  · obtain ⟨hmain, hkeep, hdeliver⟩ := hd.agents
    refine ⟨fun _ => hmain, fun hi _ => ?_⟩
    have hk : k ≠ .irqDeliver := fun e => by simp_all
    obtain ⟨hisr, hin⟩ := hkeep hk
    exact ⟨hisr, hin.trans hi⟩
  · exact ⟨fun _ => rfl, fun hi _ => ⟨rfl, hi⟩⟩

/-- Settles O7: HostMain is ready only while in_isr = 0, and the only parts of a step that move in_isr are the delivery of
an interrupt and the handler's return. -/
theorem interruptsDoNotNest : Obligations.InterruptsDoNotNest := by
  intro s t h
  rcases step_parts h with ⟨k, htaken, hr, he, hh⟩ | ⟨k, htaken, hd⟩ | ⟨htaken, rfl⟩ <;> rw [htaken]
  · obtain ⟨rfl, -⟩ := ready_host he hr
    rcases OtherAgentKept.hostClosed.hostStep_or_leave hh with hk | ⟨u, hk, hu, rfl⟩
    · have hin := hk.inIsr
      exact ⟨fun hi => ⟨hk.main hi, by simp [State.hostKind, hi], by simp [State.hostKind, hi], by simp_all⟩,
        fun hi => by simp_all [State.hostKind]⟩
    · have hin := hk.inIsr
      exact ⟨fun hi => ⟨hk.main hi, by simp [State.hostKind, hi], by simp [State.hostKind, hi],
        by simp [State.hostKind, hi]⟩, fun hi => by simp_all⟩
  · obtain ⟨hmain, hkeep, hdeliver⟩ := hd.agents
    have hk : k ≠ .hostMain := by rintro rfl; cases hd
    by_cases e : k = .irqDeliver
    · obtain ⟨hin, ht, -⟩ := hdeliver e
      simp_all
    · obtain ⟨-, hin⟩ := hkeep e
      simp_all
  · simp

/-! ### What a host agent's step does to the units (R456, R552, R561) -/

/-- What an access of a host agent may do to the TRNG unit. -/
inductive TrngAccess (u : TrngUnit) : TrngUnit → Prop where
  | keep : TrngAccess u u
  | writeCr (start ie : Bool) (x : Word32) : TrngAccess u (u.writeCr start ie x)
  | writeTrim (v : BitVec 31) (l : Bool) : TrngAccess u (u.writeTrim v l)
  | consume (hr : u.rdy = true) : TrngAccess u { u with rdy := false }

theorem BusEffect.trngAccess {i : Instr} {s t : State} (h : BusEffect s i t) : TrngAccess s.trng t.trng := by
  cases h with
  | fault | read | readDraw => simpa using .keep
  | mode | init | append32 | append64 => exact .keep
  | trngCr v x start ie h => exact .writeCr start ie h
  | trngTrim v trim lock => exact .writeTrim trim lock
  | consume v hr => simpa using .consume hr

/-- A pending block stays pending and in its mode under any access of a host agent (R451, R456). -/
def BlockKept (u v : ShaUnit) : Prop := u.busy = true → v.busy = true ∧ v.modeEff = u.modeEff

theorem BusEffect.blockKept {i : Instr} {s t : State} (h : BusEffect s i t) : BlockKept s.sha t.sha := by
  intro hb
  cases h <;> simp_all

theorem HostEffect.units {s t : State} (h : HostEffect s t) : TrngAccess s.trng t.trng ∧ BlockKept s.sha t.sha := by
  have keep : t.trng = s.trng → t.sha = s.sha → TrngAccess s.trng t.trng ∧ BlockKept s.sha t.sha := by
    intro hw hu
    rw [hw, hu]
    exact ⟨.keep, fun hb => ⟨hb, rfl⟩⟩
  cases h with
  | exec i hk h =>
    cases hb : i.kind with
    | bus => exact ⟨(exec_busEffect hb h).trngAccess, (exec_busEffect hb h).blockKept⟩
    | event => exact absurd hb hk
    | procedure =>
      obtain ⟨-, -, hsha, htrng, -⟩ := (exec_answer_of_procedure hb s).frame h
      exact keep htrng hsha
  | load k b off => rcases s.load_cases k b off with ⟨v, e⟩ | e <;> exact keep (by simp [e]) (by simp [e])
  | store k b off v => rcases s.store_cases k b off v with e | e <;> exact keep (by simp [e]) (by simp [e])
  | none => exact keep rfl rfl

theorem HostStep.units {s t : State} (h : HostStep s t) : TrngAccess s.trng t.trng ∧ BlockKept s.sha t.sha := by
  obtain ⟨s0, t0, hbefore, heffect, hends⟩ := h
  have hsha : t.sha = t0.sha := by rcases hends with hl | ⟨u, hl, -, rfl⟩ <;> exact hl.sha
  rw [hends.trng_eq, hsha, ← hbefore.trng, ← hbefore.sha]
  exact heffect.units

section TrngAccess

variable {u v : TrngUnit} (h : TrngAccess u v)
include h

/-- No access replaces the sample or makes one ready (R561). -/
theorem TrngAccess.sample : v.sample = u.sample ∧ (v.rdy = true → u.rdy = true) := by
  cases h with
  | keep | writeTrim => simp [TrngUnit.writeTrim]
  | writeCr start ie x => unfold TrngUnit.writeCr; split_ifs <;> simp
  | consume hr => simp

/-- An access ends a running test only by clearing HTSTART (R552). -/
theorem TrngAccess.htr (hr : u.htr = true) : v.htr = true ∨ v.htstart = false := by
  cases h with
  | keep | writeTrim | consume => exact .inl hr
  | writeCr start ie x => unfold TrngUnit.writeCr; split_ifs <;> simp [hr]

/-- While no sample is ready, an access leaves NORMAL only by setting HTSTART (R552, R561). -/
theorem TrngAccess.waits (hr : u.rdy = false) : v.rdy = false := by
  cases hv : v.rdy with
  | false => rfl
  | true => simpa [hr] using h.sample.2 hv

end TrngAccess

/-- Settles O26: of the parts of a step only TRNG.SAMPLE replaces the sample or makes one ready, and it is enabled in NORMAL
with none ready. -/
theorem sampleKeptUntilRead : Obligations.SampleKeptUntilRead := by
  intro s t h
  have keep : t.trng.sample = s.trng.sample ∧ (t.trng.rdy = true → s.trng.rdy = true) →
      (t.trng.sample ≠ s.trng.sample → taken s = some .trngSample ∧ s.trng.rdy = false ∧ s.trng.htstart = false) ∧
        (s.trng.rdy = true → t.trng.sample = s.trng.sample) ∧
        (s.trng.rdy = false → t.trng.rdy = true → taken s = some .trngSample) := by
    rintro ⟨hs, hr⟩
    exact ⟨fun hne => absurd hs hne, fun _ => hs, fun hf ht => by simp [hr ht] at hf⟩
  rcases step_parts h with ⟨k, -, -, -, hh⟩ | ⟨k, htaken, hd⟩ | ⟨-, rfl⟩
  · exact keep hh.units.1.sample
  · cases hd with
    | sample hen => simp_all [State.sampleEnabled]
    | _ => exact keep (by simp)
  · exact keep ⟨rfl, id⟩

/-! ### Device steps stay enabled, and happen (R711) -/

theorem ready_shaCompress (s : State) : ready s .shaCompress = s.compressEnabled := rfl
theorem ready_trngHtComplete (s : State) : ready s .trngHtComplete = s.htCompleteEnabled := rfl
theorem ready_trngSample (s : State) : ready s .trngSample = s.sampleEnabled := rfl

/-- Settles O39: a host agent's access keeps a pending block, and ends a test or withholds a sample only as the statement
says; a device step touches what enables another only at its own end. -/
theorem deviceStepsStayEnabled : Obligations.DeviceStepsStayEnabled := by
  intro s t h
  have hcfg : t.cfg = s.cfg := (step_keepsFixed h).1
  simp only [ready_shaCompress, ready_trngHtComplete, ready_trngSample, State.compressEnabled, State.htCompleteEnabled,
    State.sampleEnabled, State.trngPresent, hcfg, Bool.and_eq_true, Bool.not_eq_true']
  rcases step_parts h with ⟨k, -, -, -, hh⟩ | ⟨k, htaken, hd⟩ | ⟨-, rfl⟩
  · obtain ⟨hw, hu⟩ := hh.units
    refine ⟨fun ⟨hb, hm⟩ _ => ?_, fun ⟨hp, hr⟩ _ => ?_, fun ⟨⟨hp, hs⟩, hr⟩ _ => ?_⟩
    · obtain ⟨hb', hm'⟩ := hu hb
      exact ⟨hb', by rw [hm']; exact hm⟩
    · exact (hw.htr hr).imp_left fun hr' => ⟨hp, hr'⟩
    · cases ht : t.trng.htstart with
      | true => exact .inr rfl
      | false => exact .inl ⟨⟨hp, rfl⟩, hw.waits hr⟩
  · rw [htaken]
    cases hd <;> simp_all
  · exact ⟨fun hb _ => hb, fun hr _ => .inl hr, fun hs _ => .inl hs⟩

end Sys2Proof.Machine

/-! SUPPORT. Progress of the devices on fair runs (R711), the next state every step has (R31, R668), and a step that raises
a model fault (R656). -/

namespace Sys2Proof.Machine

section Progress

variable {r : Nat → State}

theorem IsRun.inv (hr : IsRun r) (h0 : Inv (r 0)) (n : Nat) : Inv (r n) := by
  induction n with
  | zero => exact h0
  | succ n ih => exact stepKeepsInvariant (r n) (r (n + 1)) ih (hr n)

theorem IsRun.cfg_eq (hr : IsRun r) (n m : Nat) : (r (n + m)).cfg = (r n).cfg := by
  induction m with
  | zero => rfl
  | succ m ih => exact (step_keepsFixed (hr (n + m))).1.trans ih

/-- The step a run takes at a point is a device's, where one is taken. -/
theorem IsRun.deviceStep (hr : IsRun r) {k : StepKind} (hk : k.event ≠ none) {m : Nat} (h : taken (r m) = some k) :
    DeviceStep (r m).chosen k (r (m + 1)) := by
  rcases step_parts (hr m) with ⟨k', hk', -, he, -⟩ | ⟨k', hk', hd⟩ | ⟨hn, -⟩
  · cases hk'.symm.trans h
    exact absurd he hk
  · cases hk'.symm.trans h
    exact hd
  · cases hn.symm.trans h

/-- What enables a fairly taken device step for ever is ended by that step: so it is once false. -/
theorem eventually_not {k : StepKind} {P : State → Prop} {n : Nat} (hr : IsRun r) (hk : k.event ≠ none)
    (hfair : (∀ m, n ≤ m → P (r m)) → ∃ m, n ≤ m ∧ taken (r m) = some k)
    (hends : ∀ s t : State, DeviceStep s k t → ¬ P t) : ∃ m, n ≤ m ∧ ¬ P (r m) := by
  by_contra hno
  push Not at hno
  obtain ⟨m, hm, ht⟩ := hfair hno
  exact hends _ _ (hr.deviceStep hk ht) (hno (m + 1) (by omega))

end Progress

theorem State.trngPresent_of_ne {s : State} (h : s.cfg.trngRev ≠ 0) : s.trngPresent = true := bne_iff_ne.mpr h

/-- A pending block has a mode (R456). -/
theorem compressEnabled_of_busy {s : State} (h : Inv s) (hb : s.sha.busy = true) : s.compressEnabled = true := by
  obtain ⟨hsha, -⟩ := h
  cases hm : s.sha.modeEff with
  | none => simp [ShaInv, hm, hb] at hsha
  | some alg => simp [State.compressEnabled, hb, hm]

/-- Settles O40: a device step that stays enabled is taken at some point, and its own effect then disables it. -/
theorem deviceProgress : Obligations.DeviceProgress := by
  rintro r hr ⟨hfair, hirq⟩ h0
  simp only [List.forall_mem_cons] at hfair
  obtain ⟨hcompress, hcomplete, hsample, -⟩ := hfair
  have presentAt : ∀ {n m : Nat}, (r n).cfg.trngRev ≠ 0 → n ≤ m → (r m).trngPresent = true := fun {n m} hp hm => by
    obtain ⟨d, rfl⟩ := Nat.exists_eq_add_of_le hm
    exact State.trngPresent_of_ne (by rw [hr.cfg_eq]; exact hp)
  refine ⟨fun n _ => ?block, fun n hp _ => ?test, fun n hp hs => ?sample, fun n => ?interrupt⟩
  case block =>
    have := eventually_not (P := fun s => s.sha.busy = true) (n := n) hr (k := .shaCompress) (by simp [StepKind.event])
      (fun h => hcompress n fun m hm => compressEnabled_of_busy (hr.inv h0 m) (h m hm))
      (by rintro s t ⟨⟩; simp [ShaUnit.compressed])
    simpa using this
  case test =>
    have := eventually_not (P := fun s => s.trng.htr = true) (n := n) hr (k := .trngHtComplete) (by simp [StepKind.event])
      (fun h => hcomplete n fun m hm => by
        simp [ready_trngHtComplete, State.htCompleteEnabled, presentAt hp hm, h m hm])
      (by rintro s t ⟨⟩; simp)
    simpa using this
  case sample =>
    have := eventually_not (P := fun s => s.trng.rdy = false) (n := n) hr (k := .trngSample) (by simp [StepKind.event])
      (fun h => hsample n fun m hm => by
        simp [ready_trngSample, State.sampleEnabled, presentAt hp hm, hs m hm, h m hm])
      (by rintro s t ⟨⟩; simp)
    simpa using this
  case interrupt =>
    obtain ⟨m, hm, hw⟩ := eventually_not (P := fun s => s.irqWaits = true) (n := n) hr (k := .irqDeliver)
      (by simp [StepKind.event]) (hirq n) (by rintro s t ⟨⟩; simp [State.irqWaits])
    refine ⟨m, hm, ?_⟩
    simp only [State.irqWaits, Bool.and_eq_true, Bool.not_eq_true', not_and_or, Bool.not_eq_true,
      Bool.not_eq_false, Option.isSome_eq_false_iff, Option.isNone_iff_eq_none] at hw
    exact or_assoc.mp hw

/-! ### Some step is always taken (R31, R668) -/

theorem exec_next_of_bus {i : Instr} (hk : i.kind = .bus) (s : State) : ∃ t, exec i s = .next t := by
  have ifTrng_next : ∀ t : State, ∃ u, s.ifTrng t = .next u := fun t => by
    unfold State.ifTrng
    split <;> exact ⟨_, rfl⟩
  cases i with
  | wr32ShaCr v => simp only [exec, execWr32ShaCr]; split_ifs <;> exact ⟨_, rfl⟩
  | rd32TrngCr | wr32TrngCr _ | rd32TrngSr | rd32TrngTrim | wr32TrngTrim _ | rd32TrngData => exact ifTrng_next _
  | rd32ShaCr | rd32ShaSr | wr32FifoIn _ | wr64FifoIn _ | rd32Hash _ | rd64Hash _ | rd32TrngRev | busError _ _ _ _ _ =>
    exact ⟨_, rfl⟩
  | _ => cases hk

theorem CallAnswer.next {s : State} {o : Host.Outcome State Fault Refusal} (h : CallAnswer s o) : ∃ t, o = .next t := by
  cases h <;> exact ⟨_, rfl⟩

theorem exec_next {i : Instr} (hk : i.kind ≠ .event) (s : State) : ∃ t, exec i s = .next t := by
  cases hb : i.kind with
  | bus => exact exec_next_of_bus hb s
  | event => exact absurd hb hk
  | procedure => exact (exec_answer_of_procedure hb s).next

theorem onNext_of_next {o : Host.Outcome State Fault Refusal} (h : ∃ t, o = .next t) (g : State → State) :
    ∃ t, onNext o g = .next t := by
  obtain ⟨t, rfl⟩ := h
  exact ⟨g t, rfl⟩

theorem exec_decodeTx_next (L : Layout) (d : BitVec 16) (v : Word64) (s : State) :
    ∃ t, exec (decodeTx L d v) s = .next t :=
  exec_next_of_bus (decodeTx_kind L d v) s

theorem frameStep_next (f : Frame) (fs : List Frame) (s : State) : ∃ t, frameStep f fs s = .next t := by
  unfold frameStep
  split
  next a _ =>
    refine onNext_of_next ?_ _
    cases a with
    | bus d v => exact exec_decodeTx_next _ d v s
    | load | store => exact ⟨_, rfl⟩
  · exact ⟨_, rfl⟩

theorem enterStep_next (f : Frame) (fs : List Frame) (s : State) : ∃ t, enterStep f fs s = .next t :=
  frameStep_next f fs _

theorem opStep_next (op : HostOp) (ops : List HostOp) (fs : List Frame) (s : State) :
    ∃ t, opStep op ops fs s = .next t := by
  cases op with
  | bus d v => exact onNext_of_next (exec_decodeTx_next _ d v _) _
  | call i hk => exact onNext_of_next (exec_next (by simp [hk]) _) _
  | memLd | memSt => exact ⟨_, rfl⟩
  | poll32 | rmw32 | wrblk => exact enterStep_next _ _ _

theorem hostStep_next {s : State} (h : s.thread.stack ≠ []) : ∃ t, hostStep s = .next t := by
  unfold hostStep
  split
  next he => exact absurd he h
  · exact opStep_next _ _ _ _
  · exact frameStep_next _ _ _

/-- An enabled step has a next state (R32). -/
theorem runStep_next {k : StepKind} {s : State} (h : s.enabled k = true) : ∃ t, runStep k s = .next t := by
  have stack : ∀ x : Thread, x.runs = true → x.stack ≠ [] := fun x hx hs => by simp [Thread.runs, hs] at hx
  cases k with
  | hostMain =>
    simp only [State.enabled, Bool.and_eq_true, Bool.not_eq_true'] at h
    exact hostStep_next (by simpa [State.thread, h.1] using stack _ h.2)
  | hostIsr =>
    simp only [State.enabled, Bool.and_eq_true] at h
    exact hostStep_next (by simpa [State.thread, h.1] using stack _ h.2)
  | shaCompress =>
    obtain ⟨hb, hm⟩ := Bool.and_eq_true_iff.mp h
    obtain ⟨alg, hm⟩ := Option.isSome_iff_exists.mp hm
    exact ⟨s.setSha (s.sha.compressed alg), by simp only [runStep, exec, execShaCompress, hb, hm]⟩
  | trngHtComplete => exact ⟨_, if_pos h⟩
  | trngSample => exact ⟨_, if_pos h⟩
  | irqDeliver =>
    have hr : s.irqHandler.isSome = true := by simp_all [State.enabled, State.irqEnabled, State.irqWaits]
    obtain ⟨r, hr⟩ := Option.isSome_iff_exists.mp hr
    have he : s.irqEnabled = true := h
    exact ⟨s.enterIsr r, by simp only [runStep, exec, execIrqDeliver, he, hr]⟩

theorem step_of_taken {s : State} {k : StepKind} (h : taken s = some k) : step s = runStep k s.chosen := by
  simp only [step, show s.beginStep.chooseStep = some k from h, State.chosen]

theorem step_of_none {s : State} (h : taken s = none) : step s = .next s.chosen := by
  simp only [step, show s.beginStep.chooseStep = none from h, State.chosen]

theorem chosen_enabled (s : State) (k : StepKind) : s.chosen.enabled k = ready s k := by
  cases k <;> rfl

theorem step_next (s : State) : ∃ t, step s = .next t := by
  cases h : taken s with
  | none => exact ⟨_, step_of_none h⟩
  | some k =>
    rw [step_of_taken h]
    exact runStep_next (by rw [chosen_enabled]; exact taken_ready h)

theorem taken_of_sched {s : State} {k : StepKind} {ks : List StepKind} (hs : s.inputs.sched = k :: ks)
    (hr : ready s k = true) : taken s = some k := by
  have hr' : s.beginStep.enabled k = true := hr
  have hmem : k ∈ s.beginStep.enabledSteps := List.mem_filter.mpr ⟨by cases k <;> decide, hr⟩
  have hs' : s.beginStep.inputs.sched = k :: ks := hs
  unfold taken State.chooseStep
  split
  next he => rw [he] at hmem; cases hmem
  · simp only [hs', hr', if_true]

/-- Settles O38: an enabled step has a next state, the one the environment names is chosen if it is ready, and none is
chosen exactly when none is ready. -/
theorem anyEnabledStepIsNext : Obligations.AnyEnabledStepIsNext := by
  refine ⟨step_next, fun s t h => ?_, fun s k ks => taken_of_sched, fun s h => step_of_none (taken_none.mpr h),
    fun s hi => by simp [ready, State.enabled, hi]⟩
  exact (step_cases h).imp_right fun ⟨hn, ht⟩ => ⟨taken_none.mp hn, ht⟩

/-! ### A step that raises a fault (R656) -/

theorem endStep_of_stopped {s : State} (h : s.thread.stopped = true) : s.endStep = s := if_pos h

theorem afterAccess_of_stopped {f : Frame} {fs : List Frame} {s : State} (h : s.thread.stopped = true) :
    afterAccess f fs s = s := if_pos h

/-- The end of a step does nothing for an agent that has stopped. -/
def EndsUnlessStopped (s t : State) : Prop := Ends s t ∧ (s.thread.stopped = true → t = s)

theorem endStep_endsUnlessStopped (s : State) : EndsUnlessStopped s s.endStep := ⟨endStep_ends s, endStep_of_stopped⟩

/-- A step of a host agent: one effect on a state in which at most its own stack has changed, and the end of the step. -/
def HostAccess (s t : State) : Prop := ∃ fs u, HostEffect (s.setStack fs) u ∧ EndsUnlessStopped u t

theorem frameStep_access {f : Frame} {fs : List Frame} {s t : State} (h : frameStep f fs s = .next t) :
    HostAccess s t := by
  unfold frameStep at h
  split at h
  · obtain ⟨u, hu, rfl⟩ := onNext_next h
    exact ⟨s.thread.stack, u, by rw [s.setStack_self]; exact perform_effect hu, afterAccess_ends _ _ _,
      afterAccess_of_stopped⟩
  · cases h
    exact ⟨f :: fs, _, .none, endStep_endsUnlessStopped _⟩

theorem HostAccess.of_setStack {s t : State} {gs : List Frame} (h : HostAccess (s.setStack gs) t) : HostAccess s t := by
  obtain ⟨fs, u, he, hends⟩ := h
  rw [State.setStack_setStack] at he
  exact ⟨fs, u, he, hends⟩

theorem enterStep_access {f : Frame} {fs : List Frame} {s t : State} (h : enterStep f fs s = .next t) : HostAccess s t :=
  .of_setStack (frameStep_access h)

theorem opStep_access {op : HostOp} {ops : List HostOp} {fs : List Frame} {s t : State}
    (h : opStep op ops fs s = .next t) : HostAccess s t := by
  cases op with
  | bus d v =>
    obtain ⟨u, hu, rfl⟩ := onNext_next h
    exact ⟨_, u, .exec _ (by rw [decodeTx_kind]; simp) hu, endStep_endsUnlessStopped u⟩
  | call i hk =>
    obtain ⟨u, hu, rfl⟩ := onNext_next h
    exact ⟨_, u, .exec i (by rw [hk]; simp) hu, endStep_endsUnlessStopped u⟩
  | memLd k a => cases h; exact ⟨_, _, .load k _ 0, endStep_endsUnlessStopped _⟩
  | memSt k a v => cases h; exact ⟨_, _, .store k _ 0 v, endStep_endsUnlessStopped _⟩
  | poll32 | rmw32 | wrblk => exact enterStep_access h

theorem hostStep_accesses {s t : State} (h : hostStep s = .next t) : HostAccess s t := by
  unfold hostStep at h
  split at h
  · cases h
  · exact opStep_access h
  · exact frameStep_access h

/-- No fault is recorded and no agent stops. -/
structure Quiet (s t : State) : Prop where
  faults : t.faults = s.faults
  main : t.main.stopped = true → s.main.stopped = true
  isr : t.isr.stopped = true → s.isr.stopped = true

theorem Quiet.of_eq {s t : State} (hf : t.faults = s.faults) (hm : t.main = s.main) (hi : t.isr = s.isr) : Quiet s t :=
  ⟨hf, by rw [hm]; exact id, by rw [hi]; exact id⟩

theorem Quiet.trans {s t u : State} (a : Quiet s t) (b : Quiet t u) : Quiet s u :=
  ⟨b.faults.trans a.faults, a.main ∘ b.main, a.isr ∘ b.isr⟩

theorem Local.quiet {s t : State} (h : Local s t) : Quiet s t := by
  have hst := h.stopped
  cases hi : s.inIsr with
  | true =>
    have ht := h.inIsr.trans hi
    exact ⟨h.faults, by rw [h.main hi]; exact id, by simp_all [State.thread]⟩
  | false =>
    have ht := h.inIsr.trans hi
    exact ⟨h.faults, by simp_all [State.thread], by rw [h.isr hi]; exact id⟩

theorem Ends.quiet {s t : State} (h : Ends s t) : Quiet s t := by
  rcases h with hl | ⟨u, hl, -, rfl⟩
  · exact hl.quiet
  · exact hl.quiet.trans (.of_eq rfl rfl rfl)

theorem UnitEffect.quiet {s t : State} (h : UnitEffect s t) : Quiet s t := by
  obtain ⟨x, u, w, v, -, -, rfl⟩ := h
  refine Quiet.trans ?_ (Local.setVal _ v).quiet
  exact .of_eq rfl rfl rfl

theorem exec_fault_or_quiet {i : Instr} {s t : State} (h : exec i s = .next t) :
    (∃ f, t = s.raiseFault f) ∨ Quiet s t := by
  cases exec_effect h with
  | fault f => exact .inl ⟨f, rfl⟩
  | unit hu => exact .inr hu.quiet
  | enter r hi => exact .inr ⟨rfl, id, fun hs => by simp [Thread.idle] at hs⟩
  | call hc => exact .inr hc.local.quiet

/-- The effect of a host agent's step raises a fault, and does nothing else, or raises none. -/
theorem HostEffect.fault_or_quiet {s t : State} (h : HostEffect s t) : (∃ f, t = s.raiseFault f) ∨ Quiet s t := by
  cases h with
  | exec i _ h => exact exec_fault_or_quiet h
  | load k b off =>
    rcases s.load_cases k b off with ⟨v, e⟩ | e <;> rw [e]
    · exact .inr (Local.setVal s v).quiet
    · exact .inl ⟨_, rfl⟩
  | store k b off v =>
    rcases s.store_cases k b off v with e | e <;> rw [e]
    · exact .inr (.of_eq rfl rfl rfl)
    · exact .inl ⟨_, rfl⟩
  | none => exact .inr (Local.refl s).quiet

theorem DeviceStep.quiet {s t : State} {k : StepKind} (h : DeviceStep s k t) : Quiet s t := by
  cases h with
  | deliver r => exact ⟨rfl, id, fun hs => by simp [Thread.idle] at hs⟩
  | _ => exact .of_eq rfl rfl rfl

/-- A step raises a fault in its one effect, after which its end does nothing, or is quiet. -/
theorem step_fault_or_quiet {s t : State} (h : step s = .next t) :
    (∃ fs f, t = (s.chosen.setStack fs).raiseFault f) ∨ Quiet s t := by
  have hc : Quiet s s.chosen := .of_eq rfl rfl rfl
  rcases step_cases h with ⟨k, -, -, hs⟩ | ⟨-, rfl⟩
  · cases he : k.event with
    | some i =>
      rcases runStep_cases hs with ⟨hn, -⟩ | ⟨j, hj, hi⟩
      · cases hn.symm.trans he
      · exact .inr (hc.trans (deviceStep_of_exec hj hi).quiet)
    | none =>
      rw [runStep_host he] at hs
      obtain ⟨fs, u, heffect, hends, hstopped⟩ := hostStep_accesses hs
      rcases heffect.fault_or_quiet with ⟨f, rfl⟩ | hq
      · exact .inl ⟨fs, f, hstopped (by simp)⟩
      · exact .inr ((hc.trans (Local.setStack _ fs).quiet).trans (hq.trans hends.quiet))
  · exact .inr hc

/-- Settles O12: a step that is not quiet is one that raised a fault, and that changes nothing else. -/
theorem faultingStepChangesNothingElse : Obligations.FaultingStepChangesNothingElse := by
  intro s t h hf
  rcases step_fault_or_quiet h with ⟨fs, f, rfl⟩ | hq
  · have hkept := (Local.setStack s.chosen fs).otherAgentKept.trans (.raiseFault _ f)
    refine ⟨f, fun g => by simp [mem_insertFault], by simp, by simp, by simp, by simp, by simp, by simp, by simp, by simp,
      hkept.inIsr, hkept.main, hkept.isr⟩
  · rcases hf with hne | ⟨hs, ht⟩ | ⟨hs, ht⟩
    · exact absurd hq.faults hne
    · exact absurd (hq.main ht) (by simp [hs])
    · exact absurd (hq.isr ht) (by simp [hs])

end Sys2Proof.Machine

/-! SUPPORT. Host memory: it changes by stores alone (R200, R219), and its bytes address by address (R202, R206); and a step
as the operation it runs (R11, R32, R310). -/

namespace Sys2Proof.Machine

/-! ### Host memory changes by stores (R200, R202, R206, R219) -/

theorem Ends.mem {s t : State} (h : Ends s t) : t.mem = s.mem := by
  rcases h with hl | ⟨u, hl, -, rfl⟩
  · exact hl.mem
  · exact hl.mem

theorem exec_mem {i : Instr} {s t : State} (h : exec i s = .next t) : t.mem = s.mem := by
  cases exec_effect h with
  | fault f => exact s.raiseFault_mem f
  | unit hu => obtain ⟨x, u, w, v, -, -, rfl⟩ := hu; simp
  | enter r => rfl
  | call hc => exact hc.local.mem

theorem State.load_mem (s : State) (k : Nat) (b : Buf) (off : Nat) : (s.load k b off).mem = s.mem := by
  rcases s.load_cases k b off with ⟨v, e⟩ | e <;> simp [e]

/-- A store changes no byte but the k it covers (R206). -/
theorem State.store_mem_outside (s : State) (k : Nat) (b : Buf) (off : Nat) (v : Word64) {a : Nat}
    (h : memRead (s.store k b off v).mem a ≠ memRead s.mem a) : b.addr + off ≤ a ∧ a < b.addr + off + k := by
  by_contra ho
  refine h ?_
  rcases s.store_cases k b off v with e | e <;> rw [e]
  · exact memRead_memWrites_of_outside s.mem _ a _ (by rw [leBytes_length]; omega)
  · rw [State.raiseFault_mem]

/-- A frame's step changes memory only by the store that is its access. -/
theorem frameStep_mem {f : Frame} {fs : List Frame} {s t : State} (h : frameStep f fs s = .next t) :
    t.mem = s.mem ∨ ∃ k b off v, f.access s = some (.store k b off v) ∧ t.mem = (s.store k b off v).mem := by
  unfold frameStep at h
  split at h
  next a ha =>
    obtain ⟨u, hu, rfl⟩ := onNext_next h
    rw [(afterAccess_ends f fs u).mem]
    cases a with
    | bus d v => exact .inl (exec_mem hu)
    | load k b off => cases hu; exact .inl (s.load_mem k b off)
    | store k b off v => cases hu; exact .inr ⟨k, b, off, v, ha, rfl⟩
  · cases h
    rw [(endStep_ends _).mem, State.setStack_mem]
    exact .inl rfl

/-- A pseudo-operation's first access is a bus transaction. -/
theorem enterStep_mem {f : Frame} {fs : List Frame} {s t : State} (h : enterStep f fs s = .next t)
    (hf : ∀ u : State, ∀ k b off v, f.access u ≠ some (.store k b off v)) : t.mem = s.mem := by
  rcases frameStep_mem h with e | ⟨k, b, off, v, ha, -⟩
  · rw [e, State.setStack_mem]
  · exact absurd ha (hf _ k b off v)

theorem opStep_mem {op : HostOp} {ops : List HostOp} {fs : List Frame} {s t : State}
    (h : opStep op ops fs s = .next t) :
    t.mem = s.mem ∨ ∃ k a v, op = .memSt k a v ∧ t.mem = ((s.issued ops fs).store k ⟨a, k⟩ 0 v).mem := by
  cases op with
  | bus d v =>
    obtain ⟨u, hu, rfl⟩ := onNext_next h
    rw [(endStep_ends u).mem, exec_mem hu, State.issued, State.setStack_mem]
    exact .inl rfl
  | call i hk =>
    obtain ⟨u, hu, rfl⟩ := onNext_next h
    rw [(endStep_ends u).mem, exec_mem hu, State.issued, State.setStack_mem]
    exact .inl rfl
  | memLd k a =>
    cases h
    rw [(endStep_ends _).mem, State.load_mem, State.issued, State.setStack_mem]
    exact .inl rfl
  | memSt k a v =>
    cases h
    exact .inr ⟨k, a, v, rfl, (endStep_ends _).mem⟩
  | poll32 off mask val => exact .inl (enterStep_mem h fun u k b o v e => by cases e)
  | rmw32 off clr set => exact .inl (enterStep_mem h fun u k b o v e => by cases e)
  | wrblk bytes k =>
    refine .inl (enterStep_mem h fun u k' b o v e => ?_)
    generalize fifoWords _ _ _ _ = ws at e
    cases ws with
    | nil => cases e
    | cons x xs => simp only [Frame.access] at e; split_ifs at e <;> cases e

/-- Settles O35: a step that changes a byte made a store, and the byte is among those it covers. -/
theorem memoryChangesByStoresOnly : Obligations.MemoryChangesByStoresOnly := by
  refine ⟨fun s t a h hne => ?_, fun s t k hk h => ?_⟩
  · unfold hostStep at h
    split at h
    · cases h
    next op ops fs hs =>
      rcases opStep_mem h with e | ⟨k, addr, v, rfl, e⟩
      · exact absurd (by rw [e]) hne
      · have hst : (s.issued ops fs).mem = s.mem := s.setStack_mem _
        obtain ⟨hlo, hhi⟩ := State.store_mem_outside _ k ⟨addr, k⟩ 0 v (a := a) (by rw [hst, ← e]; exact hne)
        exact ⟨k, addr, v, _, fs, hs, hlo, hhi, .inr ⟨ops, rfl⟩⟩
    next f fs _ hs =>
      rcases frameStep_mem h with e | ⟨k, b, off, v, ha, e⟩
      · exact absurd (by rw [e]) hne
      · obtain ⟨hlo, hhi⟩ := s.store_mem_outside k b off v (a := a) (by rw [← e]; exact hne)
        exact ⟨k, b.addr + off, v, f, fs, hs, hlo, hhi, .inl ⟨b, off, ha, rfl⟩⟩
  · rcases runStep_cases h with ⟨he, -⟩ | ⟨i, -, hi⟩
    · simp only [List.mem_cons, List.not_mem_nil, or_false] at hk
      rcases hk with rfl | rfl | rfl | rfl <;> cases he
    · exact exec_mem hi

/-! ### Accesses of caller memory (R202, R206, R655) -/

theorem extractLsb'_byte (v : Word64) (i : Nat) : v.extractLsb' (8 * i) 8 = BitVec.ofNat 8 (v.toNat / 256 ^ i) := by
  apply BitVec.eq_of_toNat_eq
  rw [BitVec.extractLsb'_toNat, BitVec.toNat_ofNat, Nat.shiftRight_eq_div_pow, pow_mul]
  norm_num

theorem memReads_cons_iff {m : List Host.Cell} {a n : Nat} {b : Byte} {bs : List Byte} :
    memReads m a (n + 1) = some (b :: bs) ↔ memRead m a = some b ∧ memReads m (a + 1) n = some bs := by
  rw [memReads]
  cases memRead m a <;> cases memReads m (a + 1) n <;> simp

/-- Reading a list of bytes gives the byte at each address (R202). -/
theorem memReads_iff {m : List Host.Cell} {a n : Nat} {bs : List Byte} :
    memReads m a n = some bs ↔ bs.length = n ∧ ∀ i, i < n → memRead m (a + i) = some (bs.getD i 0) := by
  induction n generalizing a bs with
  | zero => cases bs <;> simp [memReads]
  | succ n ih =>
    cases bs with
    | nil =>
      refine ⟨fun h => ?_, fun ⟨h, _⟩ => ?_⟩
      · simpa using memReads_length h
      · cases h
    | cons b bs =>
      rw [memReads_cons_iff, ih]
      constructor
      · rintro ⟨hb, hl, hbs⟩
        refine ⟨by rw [List.length_cons, hl], fun i hi => ?_⟩
        cases i with
        | zero => exact hb
        | succ i => simpa [Nat.add_assoc, Nat.add_comm 1] using hbs i (by omega)
      · rintro ⟨hl, hbs⟩
        refine ⟨hbs 0 (by omega), by simpa using hl, fun i hi => ?_⟩
        simpa [Nat.add_assoc, Nat.add_comm 1] using hbs (i + 1) (by omega)

theorem State.bufReads_iff {s : State} {b : Buf} {off n : Nat} {bs : List Byte} : s.bufReads b off n = some bs ↔
    off + n ≤ b.size ∧ bs.length = n ∧ ∀ i, i < n → memRead s.mem (b.addr + off + i) = some (bs.getD i 0) := by
  rw [State.bufReads_eq_some, memReads_iff]

theorem State.store_of_inside {s : State} {k : Nat} {b : Buf} {off : Nat} (v : Word64)
    (h : (s.bufReads b off k).isSome) :
    s.store k b off v = s.setMem (memWrites s.mem (b.addr + off) (leBytes k v.toNat)) := by
  obtain ⟨bs, h⟩ := Option.isSome_iff_exists.mp h
  simp only [State.store, h]

/-- Writing a list of bytes changes exactly the addresses it covers that are caller memory (R202). -/
theorem memRead_memWrites (m : List Host.Cell) (a : Nat) (bs : List Byte) (b : Nat) : memRead (memWrites m a bs) b =
    if a ≤ b ∧ b < a + bs.length ∧ (memRead m b).isSome then some (bs.getD (b - a) 0) else memRead m b := by
  split_ifs with h
  · obtain ⟨hlo, hhi, hv⟩ := h
    obtain ⟨i, rfl⟩ := Nat.exists_eq_add_of_le hlo
    have hi : i < bs.length := by omega
    rw [memRead_memWrites_of_inside m a i bs hi hv, Nat.add_sub_cancel_left, List.getD_eq_getElem _ _ hi]
  · by_cases ho : b < a ∨ a + bs.length ≤ b
    · exact memRead_memWrites_of_outside m a b bs ho
    · have hn : memRead m b = none := Option.not_isSome_iff_eq_none.mp fun hv => h ⟨by omega, by omega, hv⟩
      rw [hn, ← Option.not_isSome_iff_eq_none, memRead_memWrites_isSome, hn]
      exact Bool.false_ne_true

/-- Settles O36: an access inside its buffer makes its bytes, every other one raises MF_HOST_MEM; and the bytes read and
written, address by address. -/
theorem hostMemoryAccess : Obligations.HostMemoryAccess := by
  refine ⟨fun s k b off => ⟨fun hin => ?inside, fun hout => ?outside⟩, fun s b off n bs => State.bufReads_iff,
    memRead_memWrites⟩
  case inside =>
    have hsome : (s.bufReads b off k).isSome := s.bufReads_isSome b off k |>.mpr hin
    obtain ⟨-, hbytes⟩ := hin
    refine ⟨fun v _ => ?_, ?_⟩
    · rw [State.store_of_inside v hsome, State.setMem_mem]
      refine ⟨rfl, fun i hi => ?_, fun a ha => ?_, fun hw => memWrites_wf hw _ _⟩
      · rw [memRead_memWrites_of_inside _ _ _ _ (by rwa [leBytes_length]) (hbytes i hi), leBytes_getElem,
          extractLsb'_byte]
      · exact memRead_memWrites_of_outside _ _ _ _ (by rwa [leBytes_length])
    · obtain ⟨bs, hbs⟩ := Option.isSome_iff_exists.mp hsome
      obtain ⟨-, hl, hread⟩ := State.bufReads_iff.mp hbs
      exact ⟨bs, hl, hread, State.load_of_some hbs⟩
  case outside =>
    have hnone : s.bufReads b off k = none := by
      rw [← Option.not_isSome_iff_eq_none, s.bufReads_isSome b off k]
      exact hout
    exact ⟨State.load_of_none hnone, fun v => State.store_of_none hnone⟩

/-! ### A step runs the operation (R11, R32, R310) -/

theorem hostKind_runStep (s : State) : runStep s.hostKind s.chosen = hostStep s.chosen :=
  runStep_host (hostKind_event s) _

/-- When the acting agent is chosen inside a program, the step is that of its next operation. -/
theorem step_of_op {s : State} {op : HostOp} {ops : List HostOp} {fs : List Frame} (h : taken s = some s.hostKind)
    (hs : s.thread.stack = .code (op :: ops) :: fs) : step s = opStep op ops fs s.chosen := by
  rw [step_of_taken h, hostKind_runStep]
  simp only [hostStep, State.chosen_thread, hs]

/-- Entering a pseudo-operation's frame is a step of the agent inside it. -/
theorem enterStep_eq_hostStep (f : Frame) (fs : List Frame) (s : State) (hf : ∀ op ops, f ≠ .code (op :: ops)) :
    enterStep f fs s = hostStep (s.setStack (f :: fs)) := by
  unfold enterStep hostStep
  simp only [State.setStack_thread]

/-- A placed word's agent is chosen: it is not stopped, has an operation, and is what the environment names (R310). -/
theorem taken_withFetchWord (s : State) (nbits w : Nat) : taken (s.withFetchWord nbits w) = some s.hostKind := by
  refine taken_of_sched rfl ?_
  cases hi : s.inIsr <;>
    simp [ready, State.enabled, State.hostKind, State.withFetchWord, State.placeTx, State.setThread, Thread.runs, hi]

theorem withFetchWord_hostKind (s : State) (nbits w : Nat) : (s.withFetchWord nbits w).hostKind = s.hostKind := by
  simp [State.hostKind, State.withFetchWord, State.placeTx]

theorem withFetchWord_stack (s : State) (nbits w : Nat) : (s.withFetchWord nbits w).thread.stack =
    .code [.bus (BitVec.ofNat 16 (w % 2 ^ nbits)) (BitVec.ofNat 64 (w % 2 ^ nbits / 2 ^ 16))] :: s.thread.stack := by
  cases hi : s.inIsr <;> simp [State.withFetchWord, State.placeTx, State.setThread, State.thread, hi]

theorem withFetchWord_cfg (s : State) (nbits w : Nat) : (s.withFetchWord nbits w).cfg = s.cfg := by
  simp [State.withFetchWord, State.placeTx]

/-- Settles O37: the chosen agent's step is that of its operation, and a placed word is the operation of the chosen
agent. -/
theorem stepRunsTheOperation : Obligations.StepRunsTheOperation := by
  refine ⟨fun s ops fs h => ⟨fun d v hs => step_of_op h hs, fun i hk hs => step_of_op h hs, fun k a hs => step_of_op h hs,
    fun k a v hs => step_of_op h hs, fun off mask val hs => ?_, fun off clr set hs => ?_, fun bytes k hs => ?_⟩,
    fun s k i h hk => ?_, fun s nbits w => ?_⟩
  · rw [step_of_op h hs]
    exact enterStep_eq_hostStep _ _ _ (by simp)
  · rw [step_of_op h hs]
    exact enterStep_eq_hostStep _ _ _ (by simp)
  · rw [step_of_op h hs]
    exact enterStep_eq_hostStep _ _ _ (by simp)
  · rw [step_of_taken h]
    cases k <;> cases hk <;> rfl
  · have htaken : taken (s.withFetchWord nbits w) = some (s.withFetchWord nbits w).hostKind := by
      rw [taken_withFetchWord, withFetchWord_hostKind]
    rw [step_of_op htaken (withFetchWord_stack s nbits w)]
    simp only [opStep, State.chosen_cfg, withFetchWord_cfg]

end Sys2Proof.Machine

/-! SUPPORT. The software engine from call to return, for every entry point that is one of its bodies (R501 to R523), and
streaming on it (R432, R504). -/

namespace Sys2Proof.Machine

/-- A call whose first access loads the capacity, and that refuses one below N, returns InvalidOutput at that access, in
either engine (R475, R503). -/
theorem run_small_capacity {s : State} {f : Frame} {outlen : Buf} {cap : List Byte} {n : Nat}
    (ns : s.thread.stopped = false) (ha : ∀ t : State, f.access t = some (.load t.cfg.native.bytes outlen 0))
    (ho : ∀ (t : State) (x : Word64), x.toNat < n → f.onAccess x t = t.ends .invalidOutput)
    (hc : s.bufReads outlen 0 s.cfg.native.bytes = some cap) (hn : leVal cap < n) :
    ∃ v, runSchedule [s.hostKind] (s.push [f]) =
      .next (((s.setVal v).setCode .invalidOutput).resume s.thread.stack) := by
  have hstep := hostStep_done (s := s.push [f]) (f := f) (fs := s.thread.stack) (by simp) (ha _)
    (perform_load (bs := cap) (by simpa using hc)) (by simpa using ns) (ho _ _ (by simpa [capacity_toNat hc] using hn))
  refine ⟨BitVec.ofNat 64 (leVal cap), runSchedule_one ?_⟩
  rw [runStep_host (hostKind_event s), hstep]
  simp [State.push_eq, State.resume]

section SwEngine

variable {s : State} {alg : Alg} {c : Nat} {i : Instr}

/-! ### Calls of the engine's bodies (R501, R502, R503) -/

theorem swUpdate_empty (ha : (s.ctx c).life = .active) (d : Option Buf) :
    swUpdate alg (some c) d 0 s = .next (s.setCode .ok) := by
  simp [swUpdate, ha, State.ret]

theorem swUpdate_of_not_active (ha : (s.ctx c).life ≠ .active) {d : Option Buf} {n : Nat} (hd : d ≠ none ∨ n = 0) :
    swUpdate alg (some c) d n s = .next (s.raiseFault .ctxState) := by
  have hdata : (d.isNone && decide (0 < n)) = false := by
    rcases hd with hd | rfl
    · cases d <;> simp_all
    · simp
  simp [swUpdate, ha, hdata, State.fail]

theorem swUpdate_no_data {n : Nat} (hn : 0 < n) :
    swUpdate alg (some c) none n s = .next (s.setCode .invalidInput) := by
  simp [swUpdate, hn, State.ret]

theorem swFinish_no_output {o l : Option Buf} (h : o = none ∨ l = none) :
    swFinish alg (some c) o l s = .next (s.setCode .invalidOutput) := by
  rcases h with rfl | rfl
  · rfl
  · cases o <;> rfl

theorem swFinish_of_not_active (ha : (s.ctx c).life ≠ .active) (out outlen : Buf) :
    swFinish alg (some c) (some out) (some outlen) s = .next (s.raiseFault .ctxState) := by
  simp [swFinish, ha, State.fail]

theorem swFinish_of_active (ha : (s.ctx c).life = .active) (out outlen : Buf) :
    swFinish alg (some c) (some out) (some outlen) s = .next (s.push [.swFinishCap c alg out outlen]) := by
  simp [swFinish, ha, State.begin]

/-! ### From call to return (R502, R503) -/

/-- What an update of bytes bs leaves: the full blocks are compressed, the tail is buffered, and nothing else changes. -/
theorem swUpdate_returns {data : Buf} {bs : List Byte} (hi : exec i s = swUpdate alg (some c) (some data) bs.length s)
    (ns : s.thread.stopped = false) (ha : (s.ctx c).life = .active) (hm : s.bufReads data 0 bs.length = some bs)
    (h0 : bs ≠ []) :
    ∃ u v y, exec i s = .next u ∧ runSchedule (List.replicate bs.length s.hostKind) u =
        .next ((((s.setCtx c y).setVal v).setCode .ok).resume s.thread.stack) ∧
      Buffers alg (s.ctx c) bs y ∧ y.acc = (blocksOf alg (buffered alg (s.ctx c) ++ bs)).foldl (compress alg) (s.ctx c).acc := by
  obtain ⟨u, v, hcall, hrun⟩ := run_swUpdate alg c data bs s ns ha hm h0
  exact ⟨u, v, _, hi.trans hcall, hrun, absorbList_buffers alg bs (s.ctx c)⟩

/-- What a finish leaves: the digest of the final state and its length are stored, and the context is consumed. -/
theorem swFinish_returns {out outlen : Buf} {cap : List Byte}
    (hi : exec i s = swFinish alg (some c) (some out) (some outlen) s) (ns : s.thread.stopped = false)
    (ha : (s.ctx c).life = .active) (hc : s.bufReads outlen 0 s.cfg.native.bytes = some cap)
    (hn : alg.digestBytes ≤ leVal cap) (ho : (s.bufReads out 0 alg.digestBytes).isSome) :
    ∃ u v h, exec i s = .next u ∧
      h = (finalBlocks alg (buffered alg (s.ctx c)) (s.ctx c).bitlen).foldl (compress alg) (s.ctx c).acc ∧
      runSchedule (List.replicate (alg.digestBytes + 2) s.hostKind) u =
        .next (((((s.setMem (memWrites (memWrites s.mem out.addr (digest alg h)) outlen.addr
          (leBytes s.cfg.native.bytes alg.digestBytes))).setCtx c
            { s.ctx c with acc := h, life := .consumed }).setVal v).setCode .ok).resume s.thread.stack) := by
  obtain ⟨u, v, hcall, hrun⟩ := run_swFinish alg c out outlen s ns ha cap hc hn ho
  exact ⟨u, v, _, hi.trans hcall, rfl, hrun⟩

/-- A capacity below N is found at the finish's first access. -/
theorem swFinish_small_capacity {out outlen : Buf} {cap : List Byte}
    (hi : exec i s = swFinish alg (some c) (some out) (some outlen) s) (ns : s.thread.stopped = false)
    (ha : (s.ctx c).life = .active) (hc : s.bufReads outlen 0 s.cfg.native.bytes = some cap)
    (hn : leVal cap < alg.digestBytes) :
    ∃ u v, exec i s = .next u ∧
      runSchedule [s.hostKind] u = .next (((s.setVal v).setCode .invalidOutput).resume s.thread.stack) := by
  obtain ⟨v, hrun⟩ := run_small_capacity ns (f := .swFinishCap c alg out outlen) (fun _ => rfl)
    (fun t x hx => if_pos hx) hc hn
  exact ⟨_, v, hi.trans (swFinish_of_active ha out outlen), hrun⟩

end SwEngine

/-- Settles O43: every entry point is the engine's body of one algorithm. -/
theorem swUpdate_spec : Obligations.SwUpdate := by
  intro s c data bs ns ha hm h0
  simp only [List.forall_mem_cons]
  exact ⟨swUpdate_returns rfl ns ha hm h0, swUpdate_returns rfl ns ha hm h0, swUpdate_returns rfl ns ha hm h0,
    swUpdate_returns rfl ns ha hm h0, swUpdate_returns (exec_shaUpdate_of_active ha) ns ha hm h0, List.forall_mem_nil _⟩

/-- Settles O44: every entry point is the engine's body of one algorithm. -/
theorem swFinish_spec : Obligations.SwFinish := by
  intro s c out outlen cap ns ha hc
  simp only [List.forall_mem_cons]
  exact ⟨swFinish_returns rfl ns ha hc, swFinish_returns rfl ns ha hc, swFinish_returns rfl ns ha hc,
    swFinish_returns rfl ns ha hc, swFinish_returns (exec_shaFinish_of_active ha) ns ha hc, List.forall_mem_nil _⟩

/-- Settles O42: the inits are the body of one algorithm, and a context stored is read back. -/
theorem swInit_spec : Obligations.SwInit := by
  intro s c e
  simp only [List.forall_mem_cons]
  exact ⟨⟨rfl, rfl, rfl, rfl, rfl, rfl, rfl, rfl, List.forall_mem_nil _⟩, ⟨rfl, rfl, rfl, rfl, List.forall_mem_nil _⟩,
    fun x => ⟨s.ctx_setCtx_self c x, fun k hk => by rw [State.ctx_setCtx, if_neg hk]⟩⟩

section Checks

variable {s : State} {alg : Alg}

/-- The checks of an update, each before the later ones (R502, R660). -/
theorem swUpdate_checks {f : Option Nat → Option Buf → Nat → Instr}
    (hf : ∀ c d n, exec (f c d n) s = swUpdate alg c d n s) (c : Nat) (d : Option Buf) (n : Nat) :
    exec (f none d n) s = .next (s.setCode .invalidInput) ∧
      (0 < n → exec (f (some c) none n) s = .next (s.setCode .invalidInput)) ∧
      ((d ≠ none ∨ n = 0) → (s.ctx c).life ≠ .active → exec (f (some c) d n) s = .next (s.raiseFault .ctxState)) ∧
      ((s.ctx c).life = .active → exec (f (some c) d 0) s = .next (s.setCode .ok)) := by
  simp only [hf]
  exact ⟨rfl, swUpdate_no_data, fun hd ha => swUpdate_of_not_active ha hd, fun ha => swUpdate_empty ha d⟩

/-- The checks of a finish, each before the later ones (R503, R660). -/
theorem swFinish_checks {f : Option Nat → Option Buf → Option Buf → Instr}
    (hf : ∀ c o l, exec (f c o l) s = swFinish alg c o l s) (c : Nat) (o l : Option Buf) (out outlen : Buf) :
    exec (f none o l) s = .next (s.setCode .invalidInput) ∧
      ((o = none ∨ l = none) → exec (f (some c) o l) s = .next (s.setCode .invalidOutput)) ∧
      ((s.ctx c).life ≠ .active → exec (f (some c) (some out) (some outlen)) s = .next (s.raiseFault .ctxState)) ∧
      (s.thread.stopped = false → (s.ctx c).life = .active → ∀ cap,
        s.bufReads outlen 0 s.cfg.native.bytes = some cap → leVal cap < alg.digestBytes →
        ∃ u v, exec (f (some c) (some out) (some outlen)) s = .next u ∧ runSchedule [s.hostKind] u =
          .next (((s.setVal v).setCode .invalidOutput).resume s.thread.stack)) := by
  refine ⟨(hf _ _ _).trans rfl, fun h => (hf _ _ _).trans (swFinish_no_output h),
    fun ha => (hf _ _ _).trans (swFinish_of_not_active ha out outlen),
    fun ns ha cap hc hn => swFinish_small_capacity (hf _ _ _) ns ha hc hn⟩

end Checks

/-- Settles O45: every entry point is the engine's body of one algorithm. -/
theorem swChecks : Obligations.SwChecks := by
  intro s
  simp only [List.forall_mem_cons]
  exact ⟨fun e => ⟨rfl, rfl, rfl, rfl, List.forall_mem_nil _⟩,
    ⟨swUpdate_checks (alg := .sha224) fun _ _ _ => rfl, swUpdate_checks (alg := .sha256) fun _ _ _ => rfl,
      swUpdate_checks (alg := .sha384) fun _ _ _ => rfl, swUpdate_checks (alg := .sha512) fun _ _ _ => rfl,
      List.forall_mem_nil _⟩,
    ⟨swFinish_checks fun _ _ _ => rfl, swFinish_checks fun _ _ _ => rfl, swFinish_checks fun _ _ _ => rfl,
      swFinish_checks fun _ _ _ => rfl, List.forall_mem_nil _⟩⟩

/-! ### Streaming (R432, R504) -/

/-- A context that a software init leaves holds the empty message, in its state. -/
theorem holdsMessage_nil {alg : Alg} {x : HashContext} (ha : x.alg = alg) (hl : x.life = .active) (hb : x.bitlen = 0) :
    HoldsMessage alg x [] := by
  refine ⟨ha, hl, by rw [hb]; rfl, ?_⟩
  rw [tailOf_nil]
  rfl

theorem stateAfter_nil (alg : Alg) : stateAfter alg [] = initialHash alg := by
  rw [stateAfter, blocksOf_nil, List.foldl_nil]

/-- The final state of a message gives its digest (R432). -/
theorem digest_of_holds {alg : Alg} {x : HashContext} {m : List Byte} (h : HoldsMessage alg x m) :
    digest alg ((finalBlocks alg (buffered alg x) x.bitlen).foldl (compress alg) (stateAfter alg m)) = sha alg m := by
  have ⟨_, _, hb, _⟩ := h
  rw [sha_eq, buffered_of_holds h, hb]

/-- Streaming for any three entry points that are the bodies of one algorithm. -/
theorem swStreaming_of {alg : Alg} (c : Nat) {init : Option Nat → Endian → Instr}
    {update : Option Nat → Option Buf → Nat → Instr} {finish : Option Nat → Option Buf → Option Buf → Instr}
    (hinit : ∀ e s, exec (init (some c) e) s = swInit alg (some c) e s)
    (hupdate : ∀ d n s, exec (update (some c) d n) s = swUpdate alg (some c) d n s)
    (hfinish : ∀ o l s, exec (finish (some c) o l) s = swFinish alg (some c) o l s) :
    (∀ (s : State) e, ∃ x, exec (init (some c) e) s = .next ((s.setCtx c x).setCode .ok) ∧ HoldsMessage alg x [] ∧
      x.acc = stateAfter alg []) ∧
      ∀ (s : State) (m : List Byte), HoldsMessage alg (s.ctx c) m → (s.ctx c).acc = stateAfter alg m →
        (∀ d, exec (update (some c) d 0) s = .next (s.setCode .ok)) ∧
        (s.thread.stopped = false → ∀ (data : Buf) (bs : List Byte), s.bufReads data 0 bs.length = some bs → bs ≠ [] →
          ∃ u v y, exec (update (some c) (some data) bs.length) s = .next u ∧
            runSchedule (List.replicate bs.length s.hostKind) u =
              .next ((((s.setCtx c y).setVal v).setCode .ok).resume s.thread.stack) ∧
            HoldsMessage alg y (m ++ bs) ∧ y.acc = stateAfter alg (m ++ bs)) ∧
        (s.thread.stopped = false → ∀ (out outlen : Buf) (cap : List Byte),
          s.bufReads outlen 0 s.cfg.native.bytes = some cap → alg.digestBytes ≤ leVal cap →
          (s.bufReads out 0 alg.digestBytes).isSome →
          ∃ u v y, exec (finish (some c) (some out) (some outlen)) s = .next u ∧
            runSchedule (List.replicate (alg.digestBytes + 2) s.hostKind) u =
              .next (((((s.setMem (memWrites (memWrites s.mem out.addr (sha alg m)) outlen.addr
                (leBytes s.cfg.native.bytes alg.digestBytes))).setCtx c y).setVal v).setCode .ok).resume s.thread.stack) ∧
            y.life = .consumed) := by
  refine ⟨fun s e => ⟨_, hinit e s, holdsMessage_nil rfl rfl rfl, (stateAfter_nil alg).symm⟩, fun s m hm hacc => ?_⟩
  have ha : (s.ctx c).life = .active := hm.2.1
  refine ⟨fun d => (hupdate d 0 s).trans (swUpdate_empty ha d), fun ns data bs hbs h0 => ?update,
    fun ns out outlen cap hc hn ho => ?finish⟩
  case update =>
    obtain ⟨u, v, y, hcall, hrun, hbuf, hy⟩ := swUpdate_returns (hupdate _ _ s) ns ha hbs h0
    refine ⟨u, v, y, hcall, hrun, holds_append hm hbuf, ?_⟩
    rw [hy, hacc, buffered_of_holds hm, stateAfter_append]
  case finish =>
    obtain ⟨u, v, h, hcall, hh, hrun⟩ := swFinish_returns (hfinish _ _ s) ns ha hc hn ho
    rw [hacc] at hh
    rw [hh, digest_of_holds hm] at hrun
    exact ⟨u, v, _, hcall, hrun, rfl⟩

/-- Settles O47: the four variants are the bodies of their algorithms, and streaming holds for each body. -/
theorem swStreaming : Obligations.SwStreaming := by
  intro c
  simp only [List.forall_mem_cons]
  exact ⟨swStreaming_of c (fun _ _ => rfl) (fun _ _ _ => rfl) (fun _ _ _ => rfl),
    swStreaming_of c (fun _ _ => rfl) (fun _ _ _ => rfl) (fun _ _ _ => rfl),
    swStreaming_of c (fun _ _ => rfl) (fun _ _ _ => rfl) (fun _ _ _ => rfl),
    swStreaming_of c (fun _ _ => rfl) (fun _ _ _ => rfl) (fun _ _ _ => rfl), List.forall_mem_nil _⟩

end Sys2Proof.Machine

/-! SUPPORT. The hardware engine from call to return (R471 to R483), its argument checks (R660), and streaming on it, which
gives the software engine's bytes (R432, R482). -/

namespace Sys2Proof.Machine

/-! ### hca_sha_init, hca_sha_submit and hca_sha_read (R471, R473, R477) -/

theorem ShaUnit.init_modeCode (u : ShaUnit) (alg : Alg) : u.init (modeCode alg) =
    { u with modeField := modeCode alg, modeEff := some alg, fill := 0, h := initialHash alg } := by
  simp [ShaUnit.init]

/-- Settles O48: INIT after the poll, on a unit that is idle or that the compression of its block leaves idle. -/
theorem hcaShaInit : Obligations.HcaShaInit := by
  refine fun s c alg e hw ns hi => ⟨fun hb => ?_, fun a p hb hm => ?_⟩
  · obtain ⟨u, v, hcall, hrun⟩ := run_hcaShaInit c alg e s hw ns hi hb
    exact ⟨u, v, hcall, by rw [hrun, ShaUnit.init_modeCode]⟩
  · obtain ⟨u, v, hcall, hrun⟩ := run_hcaShaInit_pending c alg a e p s hw ns hi hb hm
    exact ⟨u, v, hcall, by rw [hrun, ShaUnit.init_modeCode]; rfl⟩

theorem submitDraws_congr {s t : State} (hc : t.cfg = s.cfg) (q : Nat) : submitDraws t q = submitDraws s q := by
  rw [submitDraws, hc, submitDraws]

theorem submitCode_congr {s t : State} (hc : t.cfg = s.cfg) (hi : t.inputs = s.inputs) (q : Nat) :
    submitCode t q = submitCode s q := by
  rw [submitCode, hc, drewN_drawn_of_inputs hi, submitCode]

/-- Settles O49: the frames of the call are those of one submission. -/
theorem hcaShaSubmit : Obligations.HcaShaSubmit := by
  intro s alg blk p hw ns hl hu
  obtain ⟨v, hrun⟩ := run_submit (hostKind_event s) alg blk p s.thread.stack (s.push (submitFrames s.cfg blk alg))
    (by simpa using hw) hl (by simp) (by simpa using ns) (by simpa using hu)
  refine ⟨_, v, rfl, ?_⟩
  have hi : (s.push (submitFrames s.cfg blk alg)).inputs = s.inputs := State.push_inputs s _
  rw [hrun, submitDraws_congr (State.push_cfg s _), submitCode_congr (State.push_cfg s _) hi, drewN_inputs_of_inputs hi]
  simp [State.push_eq, State.resume]

/-- Settles O52: the frames of the call are those of the register read step. -/
theorem hcaShaRead : Obligations.HcaShaRead :=
  fun s h alg out hw ns hb hm hv => run_hcaShaRead h alg out s ns hw hb hm hv

/-! ### A failed submission (R472, R474, R475) -/

/-- The outer procedure, resumed with any code but Ok, consumes its context and returns that code. -/
theorem resume_failed_submission {s : State} {c : Nat} {alg : Alg} {g : Frame} {fs : List Frame}
    (ns : s.thread.stopped = false) (hcode : s.thread.code ≠ some .ok)
    (hg : (∃ data len i, g = .updateSubmitted c alg data len i) ∨
      ∃ out outlen bs, g = .finishSubmitted c alg out outlen bs) :
    s.resume (g :: fs) = (s.setLife c .consumed).resume fs := by
  refine resume_pop ns ?_
  rcases hg with ⟨data, len, i, rfl⟩ | ⟨out, outlen, bs, rfl⟩
  · simp [Frame.onReturn, updateSubmittedNext, hcode]
  · simp [Frame.onReturn, finishSubmittedNext, hcode]

/-- Settles O50: the poll finds the unit idle, the failure is drawn, and the outer procedure passes the code on. -/
theorem submitFailurePropagates : Obligations.SubmitFailurePropagates := by
  intro s c alg fs g hw ns hb hmay hdraw hg hs
  obtain ⟨v, hstep⟩ := hostStep_pollIdle hw hs ns hb
  refine ⟨v, ?_⟩
  have hfail : Frame.onReturn (s.drew.setVal v) .submitPolled = some ((s.drew.setVal v).drew.setCode .error, []) := by
    have hd : (s.drew.setVal v).drawn.getLsbD 0 = true := by rw [State.setVal_drawn]; exact hdraw
    simp only [Frame.onReturn, submitPolledNext, State.setVal_cfg, State.drew_cfg, hmay, hd, if_true, State.ends]
  rw [hstep, resume_pop (by simpa using ns) hfail,
    resume_failed_submission (by simpa using ns) (by simp) hg]
  have hdrew : s.drew.drew = s.withInputs (s.drewN 2).inputs := rfl
  simp [State.setLife, hdrew]

/-! ### hca_sha_update and hca_sha_finish (R472, R475) -/

/-- Settles O51: the run of the call, the context's algorithm being the unit's. -/
theorem hcaShaUpdate : Obligations.HcaShaUpdate := by
  rintro s c data alg bs hw ns hi hl rfl hu hm h0 hf
  exact run_hcaShaUpdate c data bs s hw ns hi hl hu hm h0 hf

/-- Settles O53: the blocks submitted are the final ones, and the digest read is that of the state they leave. -/
theorem hcaShaFinish : Obligations.HcaShaFinish := by
  rintro s c out outlen alg cap hw ns hi hl rfl hu hc hn ho hf
  obtain ⟨u, x, b, v, hcall, hrun⟩ := run_hcaShaFinish c out outlen s hw ns hi hl hu cap hc hn ho hf
  exact ⟨u, x, b, v, _, hcall, rfl, hrun⟩

/-! ### The argument checks (R660) -/

section Checks

variable {s : State} {c : Nat} {d : Option Buf} {n : Nat}

theorem exec_hcaShaUpdate_no_data (hn : 0 < n) :
    exec (.hcaShaUpdate .present (some c) none n) s = .next (s.setCode .invalidInput) := by
  simp [exec, execHcaShaUpdate, hn, State.ret]

/-- With data, or none asked for, an update goes by the context's life, then by where it is called (R472). -/
theorem exec_hcaShaUpdate_of_data (hd : d ≠ none ∨ n = 0) : exec (.hcaShaUpdate .present (some c) d n) s =
    if (s.ctx c).life ≠ .active then s.fail .ctxState
    else if s.inIsr then s.fail .isrContext
    else if n = 0 then s.ret .ok
    else s.begin [.updateLoad c (s.ctx c).alg (d.getD { addr := 0, size := 0 }) n 0 ((s.ctx c).idx (s.ctx c).alg)] := by
  have hdata : ¬ (d.isNone && decide (0 < n)) = true := by
    rcases hd with hd | rfl
    · cases d <;> simp_all
    · simp
  simp only [exec, execHcaShaUpdate, if_neg hdata]

theorem exec_hcaShaUpdate_of_not_active (hd : d ≠ none ∨ n = 0) (ha : (s.ctx c).life ≠ .active) :
    exec (.hcaShaUpdate .present (some c) d n) s = .next (s.raiseFault .ctxState) := by
  rw [exec_hcaShaUpdate_of_data hd, if_pos ha, State.fail]

theorem exec_hcaShaUpdate_of_inIsr (hd : d ≠ none ∨ n = 0) (ha : (s.ctx c).life = .active) (hi : s.inIsr = true) :
    exec (.hcaShaUpdate .present (some c) d n) s = .next (s.raiseFault .isrContext) := by
  rw [exec_hcaShaUpdate_of_data hd, if_neg (not_not_intro ha), if_pos hi, State.fail]

theorem exec_hcaShaUpdate_empty (ha : (s.ctx c).life = .active) (hi : s.inIsr = false) :
    exec (.hcaShaUpdate .present (some c) d 0) s = .next (s.setCode .ok) := by
  rw [exec_hcaShaUpdate_of_data (.inr rfl), if_neg (not_not_intro ha), if_neg (by simp [hi]), if_pos rfl, State.ret]

variable {out outlen : Buf}

theorem exec_hcaShaFinish_no_output {o l : Option Buf} (h : o = none ∨ l = none) :
    exec (.hcaShaFinish .present (some c) o l) s = .next (s.setCode .invalidOutput) := by
  rcases h with rfl | rfl
  · rfl
  · cases o <;> rfl

theorem exec_hcaShaFinish_of_not_active (ha : (s.ctx c).life ≠ .active) :
    exec (.hcaShaFinish .present (some c) (some out) (some outlen)) s = .next (s.raiseFault .ctxState) := if_pos ha

theorem exec_hcaShaFinish_of_inIsr (ha : (s.ctx c).life = .active) (hi : s.inIsr = true) :
    exec (.hcaShaFinish .present (some c) (some out) (some outlen)) s = .next (s.raiseFault .isrContext) :=
  (if_neg (not_not_intro ha)).trans (if_pos hi)

theorem exec_hcaShaFinish_of_active (ha : (s.ctx c).life = .active) (hi : s.inIsr = false) :
    exec (.hcaShaFinish .present (some c) (some out) (some outlen)) s =
      .next (s.push [.finishCap c (s.ctx c).alg out outlen]) :=
  (if_neg (not_not_intro ha)).trans (if_neg (by simp [hi]))

end Checks

/-- Settles O55: each check fails before the later ones are made. -/
theorem hcaChecks : Obligations.HcaChecks := by
  intro s c
  refine ⟨fun _ _ _ _ => ⟨rfl, rfl, rfl⟩, fun _ _ hi => if_pos hi, fun _ _ => rfl, fun _ _ _ => ⟨rfl, rfl,
    exec_hcaShaUpdate_no_data, exec_hcaShaUpdate_of_not_active, exec_hcaShaUpdate_of_inIsr, exec_hcaShaUpdate_empty⟩,
    fun _ _ _ out outlen => ⟨rfl, rfl, exec_hcaShaFinish_no_output, exec_hcaShaFinish_of_not_active,
      exec_hcaShaFinish_of_inIsr, fun ns ha hi cap hc hn => ?_⟩⟩
  obtain ⟨v, hrun⟩ := run_small_capacity ns (f := .finishCap c (s.ctx c).alg out outlen) (fun _ => rfl)
    (fun t x hx => if_pos hx) hc hn
  exact ⟨_, v, exec_hcaShaFinish_of_active ha hi, hrun⟩

/-! ### Streaming (R432, R482) -/

/-- Settles O54: the init leaves the empty message, an update appends its chunk to the message held by context and unit
together, and the finish digests it. -/
theorem hwStreaming : Obligations.HwStreaming := by
  refine fun c alg s hw ns hi => ⟨fun e hb => ?init, fun m hm hu hh => ⟨fun d => ?empty, ?update, ?finish⟩⟩
  case init =>
    obtain ⟨u, v, hcall, hrun⟩ := run_hcaShaInit c alg e s hw ns hi hb
    rw [ShaUnit.init_modeCode] at hrun
    exact ⟨u, _, _, _, v, hcall, hrun, holdsMessage_nil rfl rfl rfl, ⟨rfl, hb, rfl⟩, (stateAfter_nil alg).symm⟩
  all_goals obtain ⟨rfl, ha, hbitlen, -⟩ := id hm
  case empty => exact exec_hcaShaUpdate_empty ha hi
  case update =>
    intro data bs hbs h0 hf
    rw [← buffered_of_holds hm] at hf
    obtain ⟨u, x, b, y, v, hcall, hrun, hbuf, -⟩ := run_hcaShaUpdate c data bs s hw ns hi ha hu hbs h0 hf
    rw [hh, buffered_of_holds hm, stateAfter_append] at hrun
    exact ⟨u, x, y, _, v, hcall, hrun, holds_append hm hbuf, hu, rfl⟩
  case finish =>
    intro out outlen cap hc hn ho hf
    rw [← buffered_of_holds hm, ← hbitlen] at hf
    obtain ⟨u, x, b, v, hcall, hrun⟩ := run_hcaShaFinish c out outlen s hw ns hi ha hu cap hc hn ho hf
    rw [hh, finishEnd, digest_of_holds hm] at hrun
    exact ⟨u, x, _, _, v, _, hcall, hrun, rfl⟩

end Sys2Proof.Machine

/-! SUPPORT. The TRNG's own steps (R560, R561), the delivery of its interrupt (R663), reads of its registers (R550 to R554),
and its driver from call to return (R570 to R573, R660). -/

namespace Sys2Proof.Machine

/-! ### The unit's own steps and its interrupt (R560, R561, R663) -/

theorem exec_trngHtComplete_of_not_enabled {s : State} (h : s.htCompleteEnabled = false) :
    exec .trngHtComplete s = .refused (.notEnabled "TRNG.HT_COMPLETE") := if_neg (by simp [h])

theorem exec_trngSample_of_not_enabled {s : State} (h : s.sampleEnabled = false) :
    exec .trngSample s = .refused (.notEnabled "TRNG.SAMPLE") := if_neg (by simp [h])

/-- Settles O25: the two enabling conditions, and what each step leaves. -/
theorem trngAutonomousSteps : Obligations.TrngAutonomousSteps := by
  refine fun s => ⟨fun hp hr => if_pos ?_, fun h => exec_trngHtComplete_of_not_enabled ?_, fun hp hs hr => if_pos ?_,
    fun h => exec_trngSample_of_not_enabled ?_⟩
  · simp [State.htCompleteEnabled, State.trngPresent_of_ne hp, hr]
  · rcases h with hp | hr
    · exact State.htCompleteEnabled_of_absent hp
    · simp [State.htCompleteEnabled, hr]
  · simp [State.sampleEnabled, State.trngPresent_of_ne hp, hs, hr]
  · rcases h with hp | hs | hr
    · exact State.sampleEnabled_of_absent hp
    · simp [State.sampleEnabled, hs]
    · simp [State.sampleEnabled, hr]

/-- Settles O27: the enabling condition, conjunct by conjunct. -/
theorem irqDeliver_spec : Obligations.IrqDeliver := by
  refine ⟨fun s r hp hie hrdy hr hi hon => ?_, fun s h => ?_⟩
  · have he : s.irqEnabled = true := by
      simp [State.irqEnabled, State.irqWaits, State.irqTrng, State.trngPresent_of_ne hp, hie, hrdy, hr, hi, hon]
    obtain ⟨⟨⟩, ctx⟩ := r
    refine Eq.trans (b := .next (s.enterIsr ⟨.trngIsr, ctx⟩)) ?_ rfl
    simp only [exec, execIrqDeliver, he, hr]
  · have he : s.irqEnabled = false := by
      rcases h with h | h | h | h | h | h <;> simp [State.irqEnabled, State.irqWaits, State.irqTrng, State.trngPresent, h]
    simp only [exec, execIrqDeliver, he]

/-! ### Reads of the registers (R550, R551, R553, R554) -/

/-- Reserved bits of TRNG_CR are those of the draw (R312, R551). -/
theorem reserved_trngCrValue {c : Config} (h : c.Wf) (u : TrngUnit) (x : Word32) {i : Nat} (hs : i ≠ c.layout.htstartBit)
    (hi : i ≠ c.layout.ieBit) : getBit i (trngCrValue c u x) = getBit i x := by
  obtain ⟨-, ⟨-, -, ⟨hs32, hi32, -⟩, -⟩, -⟩ := h
  rw [trngCrValue, getBit_putBit_of_ne hi32 hi.symm, getBit_putBit_of_ne hs32 hs.symm]

/-- Reserved bits of TRNG_SR, and HTS while a test runs, are those of the draw (R312, R553). -/
theorem reserved_trngSrValue {c : Config} (h : c.Wf) (u : TrngUnit) (x : Word32) {i : Nat} (hr : i ≠ c.layout.htrBit)
    (hd : i ≠ c.layout.rdyBit) (hh : u.htr = true ∨ i < c.layout.htsLo ∨ c.layout.htsLo + c.htsW ≤ i) :
    getBit i (trngSrValue c u x) = getBit i x := by
  obtain ⟨-, ⟨-, -, -, ⟨hr32, hd32, -, hts32, -⟩, -⟩, -⟩ := h
  have hbits : getBit i (putBit c.layout.rdyBit u.rdy (putBit c.layout.htrBit u.htr x)) = getBit i x := by
    rw [getBit_putBit_of_ne hd32 hd.symm, getBit_putBit_of_ne hr32 hr.symm]
  unfold trngSrValue
  split_ifs with ht
  · exact hbits
  · rcases hh with hh | hh
    · exact absurd hh ht
    · exact (getBit_putField_of_disjoint hts32 hh _ _).trans hbits

/-- Settles O28: the value each read composes, field by field. -/
theorem readTrngRegisters : Obligations.ReadTrngRegisters := by
  refine fun s => ⟨rfl, fun hp => ?_, fun hw hp => ⟨⟨_, State.ifTrng_of_present hp, trimVal_trngTrimValue hw s.trng,
    trimLock_trngTrimValue hw s.trng⟩, ⟨_, State.ifTrng_of_present hp, crHtstart_trngCrValue hw _ _,
    crIe_trngCrValue hw _ _, fun i hs hi => reserved_trngCrValue hw _ _ hs hi⟩, _, State.ifTrng_of_present hp,
    htr_trngSrValue hw _ _, rdy_trngSrValue hw _ _, hts_trngSrValue hw _ _,
    fun i hr hd hh => reserved_trngSrValue hw _ _ hr hd hh⟩⟩
  simp only [List.forall_mem_cons]
  exact ⟨State.ifTrng_of_absent hp, State.ifTrng_of_absent hp, State.ifTrng_of_absent hp, List.forall_mem_nil _⟩

/-! ### The driver from call to return (R570, R571, R572, R573) -/

/-- Settles O56: the runs that end by HTR falling and by a non-zero data read. -/
theorem trngInit_spec : Obligations.TrngInit := by
  intro s m hw ns hi hsl hp hh hz
  have hp' := State.trngPresent_of_ne hp
  refine ⟨?_, fun hnz => ?_⟩
  · obtain ⟨u, x, v, hcall, hrun⟩ := run_trngInit_complete m s hw ns hi hsl hp' hh hz
    exact ⟨u, x, v, _, rfl, hcall, hrun⟩
  · exact run_trngInit_nonzero m s hw ns hi hsl hp' hh hz hnz

/-- Settles O57: the runs with a sample ready and with one that TRNG.SAMPLE makes ready. -/
theorem trngAcquireBlocking_spec : Obligations.TrngAcquireBlocking := fun s p hw ns hi hsl hp hh =>
  ⟨fun hr => run_blocking_ready s hw ns hi hsl (State.trngPresent_of_ne hp) hh hr,
    fun hr => run_blocking_wait p s hw ns hi hsl (State.trngPresent_of_ne hp) hh hr⟩

/-- Settles O58: the runs with an empty slot, by what registration returns, and with a pending request. -/
theorem trngAcquireAsync_spec : Obligations.TrngAcquireAsync := fun s dst cb hw ns hreg hd hp =>
  ⟨fun hsl h0 => run_async_ok dst cb s hw ns hreg hd hsl (State.trngPresent_of_ne hp) h0,
    fun hsl h0 => run_async_fail dst cb s hw ns hreg hd hsl (State.trngPresent_of_ne hp) h0,
    fun hsl => run_async_pending dst cb s hw ns hreg hd hsl (State.trngPresent_of_ne hp)⟩

/-- Settles O59: the run with a pending request, and the calls that return at once. -/
theorem trngIsr_spec : Obligations.TrngIsr := by
  refine ⟨fun s p hw ns hsl hp hh hr hm => run_trngIsr p s hw ns hsl (State.trngPresent_of_ne hp) hh hr hm,
    fun s => ⟨rfl, fun hsl => ?_⟩⟩
  simp only [exec, execTrngIsr, hsl]

/-! ### The argument checks (R557, R660) -/

theorem exec_trngAcquireAsync_of_registered {s : State} (hreg : s.cfg.irqRegister = true) {dst : Buf}
    (hd : dst.addr % 4 = 0) (cb : Nat) :
    exec (.trngAcquireAsync .present (some dst) (some cb)) s = .next (s.push [.asyncRev dst cb]) := by
  simp [exec, execTrngAcquireAsync, hreg, hd, State.begin]

/-- Settles O60: each check fails before the later ones are made, and a revision of 0 at the first access. -/
theorem trngChecks : Obligations.TrngChecks := by
  refine fun s => ⟨⟨rfl, rfl, fun _ _ => rfl⟩, ?busyDriver, fun hreg d f => ?noRegister, fun hreg f dst cb => ?arguments,
    fun hw ns h0 dst cb hd => ?noTrng⟩
  case busyDriver =>
    simp only [List.forall_mem_cons]
    refine ⟨⟨fun hi => if_pos hi, fun hi hsl => ?_⟩, ⟨fun hi => if_pos hi, fun hi hsl => ?_⟩, List.forall_mem_nil _⟩
    · exact (if_neg (by simp [hi])).trans (if_pos hsl)
    · exact (if_neg (by simp [hi])).trans (if_pos hsl)
  case noRegister => simp [exec, execTrngAcquireAsync, hreg, State.ret]
  case arguments =>
    have hn : ¬ (!s.cfg.irqRegister) = true := by simp [hreg]
    exact ⟨if_neg hn, if_neg hn, fun hd => (if_neg hn).trans (if_pos hd)⟩
  case noTrng =>
    simp only [List.forall_mem_cons]
    refine ⟨fun h => ?_, fun h => ?_, fun hreg => ?_, List.forall_mem_nil _⟩
    · obtain ⟨hi, hsl⟩ := of_decide_eq_true h
      exact ⟨s.push [.trngInitRev], by simp [exec, execTrngInit, hi, hsl, State.begin],
        run_revAbsent .trngInitRev .error s hw ns (fun _ => rfl) h0 (fun _ => rfl)⟩
    · obtain ⟨hi, hsl⟩ := of_decide_eq_true h
      exact ⟨s.push [.blockingRev], by simp [exec, execTrngAcquireBlocking, hi, hsl, State.begin],
        run_revAbsent .blockingRev .invalidInput s hw ns (fun _ => rfl) h0 (fun _ => rfl)⟩
    · exact ⟨_, exec_trngAcquireAsync_of_registered hreg hd cb,
        run_revAbsent (.asyncRev dst cb) .invalidInput s hw ns (fun _ => rfl) h0 (fun _ => rfl)⟩

end Sys2Proof.Machine

/-! SUPPORT. The SHA unit: reads of its control and status registers (R450, R453), the one way past the end of a block (R456),
the byte order of block input (R203, R483), 64-bit reads of the digest span (R204, R458) and the compression (R460). -/

namespace Sys2Proof.Machine

/-! ### Reads of SHA_CR and SHA_SR (R312, R450, R453) -/

theorem reserved_shaCrValue {c : Config} (h : c.Wf) (u : ShaUnit) (x : Word32) {i : Nat}
    (hm : i < c.layout.modeLo ∨ c.layout.modeLo + 2 ≤ i) (hi : i ≠ c.layout.initBit) :
    getBit i (shaCrValue c u x) = getBit i x := by
  obtain ⟨-, ⟨⟨hm32, hi32, -⟩, -⟩, -⟩ := h
  rw [shaCrValue, getBit_putBit_of_ne hi32 hi.symm, getBit_putField_of_disjoint hm32 hm]

theorem reserved_shaSrValue {c : Config} (h : c.Wf) (u : ShaUnit) (x : Word32) {i : Nat} (hi : i ≠ c.layout.busyBit) :
    getBit i (shaSrValue c u x) = getBit i x := by
  obtain ⟨-, ⟨-, hb32, -⟩, -⟩ := h
  rw [shaSrValue, getBit_putBit_of_ne hb32 hi.symm]

/-- Settles O13: the value each read composes, field by field. -/
theorem readShaRegisters : Obligations.ReadShaRegisters := fun s hw =>
  ⟨⟨_, rfl, crMode_shaCrValue hw s.sha _, crInit_shaCrValue hw s.sha _, fun _ hm hi => reserved_shaCrValue hw _ _ hm hi⟩,
    _, rfl, busy_shaSrValue hw s.sha _, fun _ hi => reserved_shaSrValue hw _ _ hi⟩

/-! ### Past the end of a block (R456, R721) -/

/-- Appending bytes records MF_FIFO_OVERRUN exactly when a unit in a mode, not busy, has no room for them. -/
theorem overrun_append_iff {s : State} (hn : .fifoOverrun ∉ s.faults) (bs : List Byte) :
    .fifoOverrun ∈ (s.append bs).faults ↔
      ∃ alg, s.sha.modeEff = some alg ∧ s.sha.busy = false ∧ alg.blockBytes < s.sha.fill + bs.length := by
  rcases s.append_cases bs with ⟨hm, e⟩ | ⟨alg, hm, hb, e⟩ | ⟨alg, hm, hb, hf, e⟩ | ⟨alg, hm, hb, hf, e⟩ <;> rw [e]
  · simp [mem_insertFault, hn, hm]
  · simp [mem_insertFault, hn, hb]
  · simp [mem_insertFault, hm, hb, hf]
  · simp [hn, hm, hf]

theorem blockBytes_mod_8 (alg : Alg) : alg.blockBytes % 8 = 0 := by cases alg <;> rfl

/-- Settles O17: in a mode and not busy, fill is a multiple of 4 below B. -/
theorem overrunOnlyByWideWrite : Obligations.OverrunOnlyByWideWrite := by
  rintro s ⟨hsha, -⟩ hn
  have room : ∀ alg, s.sha.modeEff = some alg → s.sha.busy = false →
      s.sha.fill % 4 = 0 ∧ s.sha.fill < alg.blockBytes := by
    intro alg hm hb
    simp only [ShaInv, hm, hb] at hsha
    obtain ⟨h4, hle, hbusy, -⟩ := hsha
    exact ⟨h4, lt_of_le_of_ne hle fun e => by simpa using hbusy.mpr e⟩
  constructor
  · rintro v t ⟨⟩
    rw [overrun_append_iff hn, fifoBytes_length]
    rintro ⟨alg, hm, hb, hlt⟩
    obtain ⟨h4, hfill⟩ := room alg hm hb
    have h8 := blockBytes_mod_8 alg
    omega
  · rintro v t ⟨⟩
    rw [overrun_append_iff hn, fifoBytes_length]
    refine exists_congr fun alg => and_congr_right fun hm => and_congr_right fun hb => ?_
    obtain ⟨h4, hfill⟩ := room alg hm hb
    have h8 := blockBytes_mod_8 alg
    omega

/-! ### The byte order of block input (R203, R483) -/

theorem leBytes_getD_extract (k : Nat) (v : Word64) {i : Nat} (hi : i < k) :
    (leBytes k v.toNat).getD i 0 = v.extractLsb' (8 * i) 8 := by
  have hl : i < (leBytes k v.toNat).length := by rwa [leBytes_length]
  rw [List.getD_eq_getElem _ _ hl, leBytes_getElem, extractLsb'_byte]

theorem beBytes_getD_extract (k : Nat) (v : Word64) {i : Nat} (hi : i < k) :
    (beBytes k v.toNat).getD i 0 = v.extractLsb' (8 * (k - 1 - i)) 8 := by
  have hl : i < (beBytes k v.toNat).length := by rwa [beBytes_length]
  rw [List.getD_eq_getElem _ _ hl]
  simp only [beBytes, List.getElem_reverse, leBytes_length, leBytes_getElem, extractLsb'_byte]

theorem fifoWords_getD (o : FifoOrder) (k : Nat) {n i : Nat} (hi : i < n) (bs : List Byte) :
    (fifoWords o k n bs).getD i 0 = fifoWord o ((bs.drop (k * i)).take k) := by
  induction n generalizing i bs with
  | zero => omega
  | succ n ih =>
    cases i with
    | zero => simp [fifoWords]
    | succ i =>
      rw [fifoWords, List.getD_cons_succ, ih (by omega), List.drop_drop]
      congr 3
      ring

/-- The write values of a block deliver its bytes in order, for any width and any way to deliver one value's bytes. -/
theorem fifoWords_flatMap (o : FifoOrder) (k : Nat) (f : Word64 → List Byte)
    (hf : ∀ bs : List Byte, bs.length = k → f (fifoWord o bs) = bs) (n : Nat) (bs : List Byte) (hl : bs.length = n * k) :
    (fifoWords o k n bs).flatMap f = bs := by
  induction n generalizing bs with
  | zero => rw [List.eq_nil_of_length_eq_zero (hl.trans (Nat.zero_mul k))]; rfl
  | succ n ih =>
    have hle : k ≤ bs.length := by rw [hl, Nat.succ_mul]; omega
    rw [fifoWords, List.flatMap_cons, hf _ (by rw [List.length_take]; omega),
      ih _ (by rw [List.length_drop, hl, Nat.succ_mul]; omega), List.take_append_drop]

/-- Settles O18: the bytes of one value, the values of a block, and the round trip of one value at each width. -/
theorem blockInputOrder : Obligations.BlockInputOrder := by
  refine ⟨fun k v _ i hi => ⟨leBytes_getD_extract k v hi, beBytes_getD_extract k v hi⟩,
    fun k n bs _ _ i hi => ⟨fifoWords_getD .leStream k hi bs, fifoWords_getD .beWord k hi bs⟩, fun o n bs =>
    ⟨fun hl => fifoWords_flatMap o 4 _ (fun w hw => fifoBytes_fifoWord32 o w hw) n bs hl,
      fun hl => fifoWords_flatMap o 8 _ (fun w hw => ?_) n bs hl⟩⟩
  simpa [hw] using fifoBytes_fifoWord o w (by omega)

/-! ### 64-bit reads of the digest span (R204, R458) -/

theorem State.slotAfter_setVal (s : State) (v : Word64) (j : Nat) :
    (s.setVal v).slotAfter j = (s.slotAfter j).setVal v := by
  unfold State.slotAfter
  rw [State.setVal_cfg, State.setVal_sha]
  split_ifs
  · rfl
  · exact State.setVal_drew s v

theorem State.slotRead_setVal (s : State) (v : Word64) (j : Nat) : (s.setVal v).slotRead j = s.slotRead j := by
  rw [State.slotRead, State.setVal_cfg, State.setVal_sha, State.setVal_drawn32, State.slotRead]

/-- A 64-bit value is its low half and its high half. -/
theorem word64_of_halves (w : Word64) :
    ((w.setWidth 32).setWidth 64 ||| (((w >>> 32).setWidth 32).setWidth 64 <<< 32)) = w := by
  apply BitVec.eq_of_getLsbD_eq
  intro i hi
  by_cases h : i < 32
  · simp [h, hi]
  · simp [h, hi, show i - 32 < 32 by omega, show 32 + (i - 32) = i by omega]

/-- Settles O20: the two reads leave the values and the draws of the one, and in a 64-bit mode they are the halves of a
state word. -/
theorem readHash64 : Obligations.ReadHash64 := by
  refine ⟨fun s e lo hi hlo hhi => ⟨_, _, rfl, rfl, ?_⟩, fun s e alg i hb hm h8 hi => ?_⟩
  · simp only [exec, execRd64Hash, State.slotAfter_setVal, State.slotRead_setVal, State.setVal_thread,
      State.setVal_setVal, hlo, hhi]
  · have hlo := slotValue_of_word64 (j := 2 * e) hb hm h8 (hi.trans (by congr 1; omega))
    have hhi := slotValue_of_word64 (j := 2 * e + 1) hb hm h8 (hi.trans (by congr 1; omega))
    rw [if_pos (by omega)] at hlo
    rw [if_neg (by omega)] at hhi
    simp only [exec, execRd64Hash, State.slotAfter, State.slotRead, hlo, hhi, Option.isSome_some, if_true,
      Option.getD_some, word64_of_halves]

/-! ### The compression (R113, R460) -/

theorem vector_getD {α : Type} {n i : Nat} (v : Vector α n) (d : α) (hi : i < n) : v.getD i d = v[i] := by
  simp [Vector.getD, hi]

/-- In a 32-bit mode the compression takes the low halves of the state words alone (R113, R460). -/
theorem compress_of_low_halves {alg : Alg} (h4 : alg.wordBytes = 4) {h h' : HashState}
    (hlow : ∀ i, i < 8 → (h.getD i 0).setWidth 32 = (h'.getD i 0).setWidth 32) (b : List Byte) :
    compress alg h b = compress alg h' b := by
  have hmap : h.map (·.setWidth 32) = h'.map (·.setWidth 32) := by
    ext1 i hi
    simpa only [Vector.getElem_map, vector_getD _ _ hi] using hlow i hi
  cases alg <;> cases h4 <;> simp only [compress, hmap]

/-- Settles O21: what the busy and the idle unit answer, and that a 32-bit compression reads and leaves low halves alone. -/
theorem shaCompress : Obligations.ShaCompress := by
  refine ⟨fun s alg hb hm => ?_, fun s hb => ?_, fun alg h h' b h4 hlow => ⟨compress_of_low_halves h4 hlow b,
    fun i hi => ?_⟩⟩
  · simp only [exec, execShaCompress, hb, hm, ShaUnit.compressed]
  · simp only [exec, execShaCompress, hb]
  · rw [vector_getD _ _ hi]
    exact compress_lt h4 h b i hi

end Sys2Proof.Machine

/-! SUPPORT. The byte image of a transaction (R300, R301; log 5), decoding and encoding in both directions under every
well-formed layout (R310), and the descriptors of the reference layout. -/

namespace Sys2Proof

/-! ### Words and their bytes (R29; log 5) -/

/-- The bytes of a word give back its low bits. -/
theorem wordOfBytes_bytesOfWord (k : Nat) (v : Word64) (i : Nat) :
    (wordOfBytes (bytesOfWord k v)).getLsbD i = (decide (i < 8 * k) && v.getLsbD i) := by
  induction k generalizing v i with
  | zero => simp [bytesOfWord, wordOfBytes]
  | succ k ih =>
    simp only [bytesOfWord, wordOfBytes, BitVec.getLsbD_or, BitVec.getLsbD_shiftLeft, BitVec.getLsbD_setWidth, ih,
      BitVec.getLsbD_ushiftRight]
    by_cases h64 : i < 64
    · by_cases h8 : i < 8
      · simp [h64, h8, show i < 8 * (k + 1) by omega]
      · simp [h64, h8, show i - 8 < 8 * k ↔ i < 8 * (k + 1) by omega, show 8 + (i - 8) = i by omega]
    · simp [h64, BitVec.getLsbD_of_ge v i (by omega)]

/-- The data bytes of a transaction give back its write data, cut to its width. -/
theorem wordOfBytes_data (w s : Bool) (v : Word64) : wordOfBytes (bytesOfWord (dataBytes w s) v) = busData w s v := by
  apply BitVec.eq_of_getLsbD_eq
  intro i hi
  rw [wordOfBytes_bytesOfWord]
  match w, s with
  | false, _ => simp [dataBytes, busData]
  | true, false =>
    rw [busData, BitVec.getLsbD_setWidth, BitVec.getLsbD_setWidth, decide_eq_true hi, Bool.true_and, dataBytes]
  | true, true => simp [dataBytes, busData, hi]

/-- The two bytes of a descriptor give it back. -/
theorem descriptor_of_bytes (d : BitVec 16) : ((d >>> 8).setWidth 8 ++ d.setWidth 8 : BitVec (8 + 8)) = d := by
  apply BitVec.eq_of_getLsbD_eq
  intro i hi
  rw [BitVec.getLsbD_append, BitVec.getLsbD_setWidth, BitVec.getLsbD_setWidth, BitVec.getLsbD_ushiftRight]
  by_cases h : i < 8
  · simp [h]
  · simp [h, show i - 8 < 8 by omega, show 8 + (i - 8) = i by omega]

/-- Decoding reads back the descriptor and the write data of its width, and leaves what follows. -/
theorem decodeBytes_txBytes (L : Layout) (d : BitVec 16) (v : Word64) (rest : List Byte) :
    decodeBytes L (txBytes d v ++ rest) = .ok (decodeTx L d (busData (descW d) (descS d) v), rest) := by
  have hl := Laws.bytesOfWord_length (dataBytes (descW d) (descS d)) v
  simp only [txBytes, List.cons_append, decodeBytes, descriptor_of_bytes]
  rw [if_neg (by rw [List.length_append, hl]; omega), List.take_left' hl, List.drop_left' hl, wordOfBytes_data]

/-! ### From an operation to its bytes and back (R310) -/

section DecodeOfEncode

variable {L : Layout} {i : Instr} {d : BitVec 16} {v : Word64}

theorem decodeBytes_encode (he : encodeTx L i = some (d, v)) (hd : decodeTx L d (busData (descW d) (descS d) v) = i) :
    ∃ bs, encode L i = some bs ∧ ∀ rest, decodeBytes L (bs ++ rest) = .ok (i, rest) :=
  ⟨txBytes d v, by rw [encode, he, Option.map_some], fun rest => by rw [decodeBytes_txBytes, hd]⟩

end DecodeOfEncode

/-- A 32-bit write's data is what its row takes of it (R300). -/
theorem setWidth_busData32 (r : BitVec 2) (o : BitVec 12) (v : Word32) :
    (busData (descW (descriptor true false r o)) (descS (descriptor true false r o)) (v.setWidth 64)).setWidth 32 = v := by
  rw [descW_descriptor, descS_descriptor]
  apply BitVec.eq_of_getLsbD_eq
  intro i hi
  simp [busData, hi]

/-- Settles O9: every row decodes from its own descriptor, and a BUS_ERROR from one that no row admits. -/
theorem decodeOfEncode : Obligations.DecodeOfEncode := by
  intro L h i hwf hk
  cases i with
  | rd32ShaCr => exact decodeBytes_encode rfl (decodeTx_rd32ShaCr h _)
  | wr32ShaCr v => exact decodeBytes_encode rfl ((decodeTx_wr32ShaCr h _).trans (by rw [setWidth_busData32]))
  | rd32ShaSr => exact decodeBytes_encode rfl (decodeTx_rd32ShaSr h _)
  | wr32FifoIn v => exact decodeBytes_encode rfl ((decodeTx_wr32FifoIn h _).trans (by rw [setWidth_busData32]))
  | wr64FifoIn v =>
    refine decodeBytes_encode rfl ((decodeTx_wr64FifoIn h _).trans ?_)
    rw [descW_descriptor, descS_descriptor, busData]
  | rd32Hash j => exact decodeBytes_encode rfl (decodeTx_rd32Hash h j _)
  | rd64Hash e => exact decodeBytes_encode rfl (decodeTx_rd64Hash h e _)
  | rd32TrngRev => exact decodeBytes_encode rfl (decodeTx_rd32TrngRev h _)
  | rd32TrngCr => exact decodeBytes_encode rfl (decodeTx_rd32TrngCr h _)
  | wr32TrngCr v => exact decodeBytes_encode rfl ((decodeTx_wr32TrngCr h _).trans (by rw [setWidth_busData32]))
  | rd32TrngSr => exact decodeBytes_encode rfl (decodeTx_rd32TrngSr h _)
  | rd32TrngTrim => exact decodeBytes_encode rfl (decodeTx_rd32TrngTrim h _)
  | wr32TrngTrim v => exact decodeBytes_encode rfl ((decodeTx_wr32TrngTrim h _).trans (by rw [setWidth_busData32]))
  | rd32TrngData => exact decodeBytes_encode rfl (decodeTx_rd32TrngData h _)
  | busError w s rsv off v =>
    obtain ⟨hadm, hdata⟩ := Bool.and_eq_true_iff.mp hwf
    have hnot : ¬ admitted L (descriptor w s rsv off) = true := by simpa using hadm
    have hdata : busData w s v = v := by simpa using hdata
    refine decodeBytes_encode rfl ((decodeTx_of_not_admitted hnot _).trans ?_)
    simp only [descW_descriptor, descS_descriptor, descRsv_descriptor, descOff_descriptor, hdata]
  | _ => cases hk

/-! ### From a descriptor to its operation and back (R310) -/

/-- The operation of a descriptor is well formed and encodes to that descriptor and the data of its width. -/
def EncodesBack (L : Layout) (d : BitVec 16) (v : Word64) : Prop :=
  (decodeTx L d v).wellFormed L = true ∧ encodeTx L (decodeTx L d v) = some (d, busData (descW d) (descS d) v)

theorem EncodesBack.of_row {L : Layout} {w s : Bool} {r : BitVec 2} {o : BitVec 12} {v : Word64} {i : Instr}
    (hd : decodeTx L (descriptor w s r o) v = i) (hw : i.wellFormed L = true)
    (he : encodeTx L i = some (descriptor w s r o, busData w s v)) : EncodesBack L (descriptor w s r o) v := by
  rw [EncodesBack, hd, descW_descriptor, descS_descriptor]
  exact ⟨hw, he⟩

theorem EncodesBack.of_not_admitted {L : Layout} {d : BitVec 16} (h : ¬ admitted L d = true) (v : Word64) :
    EncodesBack L d v := by
  rw [EncodesBack, decodeTx_of_not_admitted h]
  refine ⟨?_, by rw [encodeTx, descriptor_fields]⟩
  simp only [Instr.wellFormed, descriptor_fields, Bool.and_eq_true, Bool.not_eq_true', beq_iff_eq]
  refine ⟨by simpa using h, ?_⟩
  cases descW d <;> cases descS d <;> simp [busData]

/-- An offset of the digest span at a multiple of the width is that of one of the span's elements (R204, R212). -/
theorem digest_offset {L : Layout} (h : L.OffsetsWf) {s : Bool} {o : BitVec 12} (ho : L.Digest s o) :
    ∃ j, j < 64 / (if s then 8 else 4) ∧ o = L.hash + BitVec.ofNat 12 ((if s then 8 else 4) * j) := by
  obtain ⟨hlo, hhi, hal⟩ := ho
  have h8 : L.hash.toNat % 8 = 0 := h.2.2.2.1
  refine ⟨(o.toNat - L.hash.toNat) / (if s then 8 else 4), ?_, BitVec.eq_of_toNat_eq ?_⟩
  · cases s <;> simp <;> omega
  · rw [h.span (by cases s <;> simp <;> omega)]
    cases s <;> simp at hal ⊢ <;> omega

theorem encodesBack_of_admitted {L : Layout} (h : L.OffsetsWf) {w s : Bool} {r : BitVec 2} {o : BitVec 12} (v : Word64)
    (ha : admitted L (descriptor w s r o) = true) : EncodesBack L (descriptor w s r o) v := by
  cases w <;> cases s
  · obtain ⟨rfl, hword | hdigest⟩ := (admitted_read32 h r o).mp ha
    · simp only [Layout.wordOffsets, List.mem_cons, List.not_mem_nil, or_false] at hword
      rcases hword with rfl | rfl | rfl | rfl | rfl | rfl | rfl
      · exact .of_row (decodeTx_rd32ShaCr h v) rfl rfl
      · exact .of_row (decodeTx_rd32ShaSr h v) rfl rfl
      · exact .of_row (decodeTx_rd32TrngRev h v) rfl rfl
      · exact .of_row (decodeTx_rd32TrngCr h v) rfl rfl
      · exact .of_row (decodeTx_rd32TrngSr h v) rfl rfl
      · exact .of_row (decodeTx_rd32TrngTrim h v) rfl rfl
      · exact .of_row (decodeTx_rd32TrngData h v) rfl rfl
    · obtain ⟨j, hj, rfl⟩ := digest_offset h hdigest
      exact .of_row (decodeTx_rd32Hash h ⟨j, hj⟩ v) rfl rfl
  · obtain ⟨rfl, hdigest⟩ := (admitted_read64 h r o).mp ha
    obtain ⟨e, he, rfl⟩ := digest_offset h hdigest
    exact .of_row (decodeTx_rd64Hash h ⟨e, he⟩ v) rfl rfl
  · obtain ⟨rfl, hword⟩ := (admitted_write32 h r o).mp ha
    simp only [List.mem_cons, List.not_mem_nil, or_false] at hword
    rcases hword with rfl | rfl | rfl | rfl
    · exact .of_row (decodeTx_wr32ShaCr h v) rfl rfl
    · exact .of_row (decodeTx_wr32FifoIn h v) rfl rfl
    · exact .of_row (decodeTx_wr32TrngCr h v) rfl rfl
    · exact .of_row (decodeTx_wr32TrngTrim h v) rfl rfl
  · obtain ⟨rfl, rfl⟩ := (admitted_write64 h r o).mp ha
    exact .of_row (decodeTx_wr64FifoIn h v) rfl rfl

/-- Settles O10: an admitted descriptor is that of its row, every other one that of a BUS_ERROR. -/
theorem encodeOfDecode : Obligations.EncodeOfDecode := by
  intro L h d v
  refine ⟨Machine.decodeTx_kind L d v, ?_⟩
  by_cases ha : admitted L d = true
  · have hback : EncodesBack L d v := by
      rw [← descriptor_fields d] at ha ⊢
      exact encodesBack_of_admitted h v ha
    exact hback
  · exact EncodesBack.of_not_admitted ha v

/-! ### The reference layout (R302 to R308, R310) -/

/-- Settles O8: the reference rows' masks and matches are those of the layout's rows, and the named descriptors are
evaluated. -/
theorem tableDescriptors : Obligations.TableDescriptors := by
  intro v
  refine ⟨fun d => ?_, rfl, rfl, rfl, rfl, rfl, rfl, rfl, rfl, rfl, rfl, rfl, rfl, rfl, rfl, rfl, rfl, ?_⟩
  · have hw : inWindow Layout.reference d = true := decide_eq_true (descOff d).isLt
    rw [decodeTx, if_pos hw, busRows_reference]
  · rfl

end Sys2Proof

/-! SUPPORT. The accesses of poll32, rmw32 and wrblk and the end of a return (R315, R666), the state after reset (R701, R703),
the fields of the reference layout (R303 to R308), and the published digests (K1 to K11). -/

namespace Sys2Proof.Machine

/-! ### Pseudo-operations and the end of a return (R315, R666) -/

section Pseudo

variable {s t : State} {fs : List Frame} (ns : t.thread.stopped = false)

include ns

/-- One read of a poll: the poll ends on the value waited for, and else reads again. -/
theorem hostStep_poll {off : BitVec 12} {mask val : Word32} (hs : s.thread.stack = .poll off mask val :: fs)
    (h : exec (decodeTx s.cfg.layout (descriptor false false 0 off) 0) s = .next t) :
    hostStep s = .next (if (t.thread.val.setWidth 32 : Word32) &&& mask = val then t.resume fs else t) := by
  have hp : perform (Access.read32 off) s = .next t := h
  split
  next hv => exact hostStep_done hs rfl hp ns (by rw [Frame.onAccess, if_pos hv])
  next hv =>
    have hstack : t.thread.stack = .poll off mask val :: fs := by
      obtain ⟨-, -, -, -, -, -, -, -, -, hstack, -⟩ := busFrame _ _ _ (decodeTx_kind _ _ _) h
      rw [hstack, hs]
    rw [hostStep_more hs rfl hp ns (u := t) (g := .poll off mask val) (gs := [])
      (by rw [Frame.onAccess, if_neg hv]) rfl, List.singleton_append, ← hstack, State.setStack_self]

/-- One write of a block write: the next word stands next, and after the last one what is below goes on. -/
theorem hostStep_wrblk {k : Nat} {x : Word64} {xs : List Word64} (hs : s.thread.stack = .wrblk k (x :: xs) :: fs)
    (h : exec (if k = 8 then decodeTx s.cfg.layout (descriptor true true 0 s.cfg.layout.fifoIn) x
      else decodeTx s.cfg.layout (descriptor true false 0 s.cfg.layout.fifoIn) ((x.setWidth 32).setWidth 64)) s =
        .next t) :
    hostStep s = .next (if xs = [] then t.resume fs else t.setStack (.wrblk k xs :: fs)) := by
  have hp : perform (if k = 8 then Access.write64 s.cfg.layout.fifoIn x
      else Access.write32 s.cfg.layout.fifoIn (x.setWidth 32)) s = .next t := by
    rw [← h]; split <;> rfl
  cases xs with
  | nil => exact hostStep_done hs rfl hp ns rfl
  | cons y ys => exact hostStep_more hs rfl hp ns rfl rfl

/-- An agent with nothing left gives way, and a handler with nothing left returns. -/
theorem resume_nil : t.resume [] = { t.setStack [] with inIsr := false } := by
  have hends : t.resume [] = if (t.setStack []).inIsr && (t.setStack []).isr.stack.isEmpty then
      (t.setStack []).leaveIsr else t.setStack [] := by
    simp [State.resume, State.endStep, settle, ns]
  rw [hends]
  cases hi : t.inIsr <;> simp [State.setStack, State.setThread, State.leaveIsr, hi]

end Pseudo

/-- Settles O41: each pseudo-operation's access and what its frame leaves, and the frames a return goes on with. -/
theorem pollRmwAndReturn : Obligations.PollRmwAndReturn :=
  ⟨fun _ _ _ _ _ _ hs h ns => hostStep_poll ns hs h,
    fun _ _ _ _ _ _ hs h ns => hostStep_more hs rfl h ns rfl rfl,
    fun _ _ _ _ _ hs h ns => hostStep_done hs rfl h ns rfl,
    fun _ _ _ _ _ _ hs h ns => hostStep_wrblk ns hs h,
    fun _ ns => ⟨fun _ _ _ => resume_wait ns rfl, fun _ => resume_pop ns rfl, fun _ _ => resume_pop ns rfl,
      resume_nil ns⟩⟩

/-! ### The state after reset (R701, R703) -/

/-- Settles O1: the reset state is written out field by field, so each clause is what its field was given. -/
theorem resetState : Obligations.ResetState := fun _ _ =>
  ⟨rfl, rfl, rfl, rfl, rfl, rfl, rfl, rfl, rfl, rfl, rfl, rfl, rfl, rfl, rfl, rfl, Bool.and_false _, rfl, rfl, rfl, rfl, fun _ => rfl⟩

theorem ShaUnit.reset_inv (r : ResetDraws) : ShaInv (ShaUnit.reset r) := by
  simp [ShaInv, ShaUnit.reset]

theorem TrngUnit.reset_inv (w : Nat) (r : ResetDraws) : TrngInv w (TrngUnit.reset w r) := by
  simp [TrngInv, TrngUnit.reset]

/-- Settles O2: both units are at rest, and memory, contexts and faults are empty. -/
theorem resetMeetsInvariant : Obligations.ResetMeetsInvariant := fun c r =>
  ⟨ShaUnit.reset_inv r, TrngUnit.reset_inv c.htsW r, List.Pairwise.nil, List.Pairwise.nil, List.Pairwise.nil⟩

/-! ### The reference layout's fields (R303 to R308, R120) -/

/-- A field read as a value of its width is the bits of the register it covers. -/
theorem getField_setWidth {lo w : Nat} (hw : w ≤ 32) (v : Word32) : (getField lo w v).setWidth w = v.extractLsb' lo w := by
  apply BitVec.eq_of_getLsbD_eq
  intro i hi
  simp [getField_getLsbD hw, hi]

/-- The element of a state word under each alignment (R120). -/
theorem elemPos_top {c : Config} (h : c.hashAlign = .top) (a : Alg) {i : Nat} (hi : i < 8) : elemPos c a i = some (7 - i) := by
  rw [elemPos, h]; exact if_pos hi

theorem elemPos_bottom {c : Config} (h : c.hashAlign = .bottom) (a : Alg) (i : Nat) :
    elemPos c a i = if i < a.elems then some (a.elems - 1 - i) else none := by
  rw [elemPos, h]

/-- HTS of the reference layout is the one bit 4 of TRNG_SR. -/
theorem hts_reference (u : TrngUnit) (x : Word32) (hh : u.htr = false) :
    (trngSrValue Config.reference u x).getLsbD 4 = u.hts.getLsbD 0 := by
  have hbit (lo : Nat) (v : Word32) : (getField lo 1 v).getLsbD 0 = v.getLsbD lo := by
    rw [getField_getLsbD (by omega)]; simp
  have hmask : (htsBits 1 u.hts).getLsbD 0 = u.hts.getLsbD 0 := by
    rw [htsBits, BitVec.getLsbD_and, fieldMask_getLsbD (by omega)]; simp
  rw [← hbit 4, ← hmask]
  exact congrArg (BitVec.getLsbD · 0) (hts_trngSrValue Config.reference_wf u x hh)

/-- Settles O15: each field by the lemma on reading it, at the reference positions. -/
theorem referenceFields : Obligations.ReferenceFields := by
  refine ⟨fun v => ⟨getField_setWidth (by decide) v, rfl, rfl, rfl, getField_setWidth (by decide) v, rfl⟩,
    fun u x => busy_shaSrValue Config.reference_wf u x,
    fun u x => ⟨htr_trngSrValue Config.reference_wf u x, rdy_trngSrValue Config.reference_wf u x, hts_reference u x⟩,
    ⟨rfl, rfl, rfl, rfl⟩, ?init, fun c a i hi => ⟨fun h => elemPos_top h a hi, fun h => elemPos_bottom h a i⟩⟩
  intro a
  cases a <;> decide

/-! ### Published digests (K1 to K11) -/

theorem sha_empty32 :
    beVal (sha .sha224 []) = 0xd14a028c2a3a2bc9476102bb288234c415a2b01f828ea62ac5b3e42f ∧
      beVal (sha .sha256 []) = 0xe3b0c44298fc1c149afbf4c8996fb92427ae41e4649b934ca495991b7852b855 := by
  decide +kernel

theorem sha384_empty : beVal (sha .sha384 []) =
    0x38b060a751ac96384cd9327eb1b1e36a21fdb71114be07434c0cc7bf63f6e1da274edebfe76f65fbd51ad2f14898b95b := by
  decide +kernel

theorem sha512_empty : beVal (sha .sha512 []) =
    0xcf83e1357eefb8bdf1542850d66d8007d620e4050b5715dc83f4a921d36ce9ce47d0d13c5d85f2b0ff8318d2877eec2f63b931bd47417a81a538327af927da3e := by
  decide +kernel

theorem sha_abc32 :
    beVal (sha .sha224 [0x61, 0x62, 0x63]) = 0x23097d223405d8228642a477bda255b32aadbce4bda0b3f7e36c9da7 ∧
      beVal (sha .sha256 [0x61, 0x62, 0x63]) = 0xba7816bf8f01cfea414140de5dae2223b00361a396177a9cb410ff61f20015ad := by
  decide +kernel

theorem sha384_abc : beVal (sha .sha384 [0x61, 0x62, 0x63]) =
    0xcb00753f45a35e8bb5a03d699ac65007272c32ab0eded1631a8b605a43ff5bed8086072ba1e7cc2358baeca134c825a7 := by
  decide +kernel

theorem sha512_abc : beVal (sha .sha512 [0x61, 0x62, 0x63]) =
    0xddaf35a193617abacc417349ae20413112e6fa4e89a97ea20a9eeee64b55d39a2192992a274fc1a836ba3c23a3feebbd454d4423643ce80e2a9ac94fa54ca49f := by
  decide +kernel

/-- Settles O24: each digest evaluated, one or two to a lemma. -/
theorem knownAnswers : Obligations.KnownAnswers :=
  ⟨⟨sha_empty32.1, sha_empty32.2, sha384_empty, sha512_empty⟩, sha_abc32.1, sha_abc32.2, sha384_abc, sha512_abc⟩

end Sys2Proof.Machine
